-- ==== Sys2Proof/Word.lean ====
section
/-! DEFINITION. The sizes of the block's state and tables (the values of P1 and P3 to P7, 00_scope.md section 4.1, which the
source settles: the parameters themselves are fields of the configuration, which must agree with these sizes), and the words
of the block: bit vectors for what the spec gives as bits. The widths P9 to P14 are parameters of the configuration; the types below are the
widest words the spec's own layouts leave room for, and a value of a narrower parameter stands in one zero-extended
(assumption log 4). -/

namespace Sys2Proof

/-- The rounds that have tags in FAIL: N_ROUND (P1) of an accepted configuration. -/
abbrev nRound : Nat := 3

/-- The number of values of `Path`: N_PATH (P3) of an accepted configuration. -/
abbrev nPath : Nat := 2

/-- The number of values of `Slot`: N_SLOT (P4) of an accepted configuration. -/
abbrev nSlot : Nat := 8

/-- The size of OFDM_TBL: OFDM_TBL_SZ (P5) of an accepted configuration. -/
abbrev ofdmTblSz : Nat := 43

/-- The size of each CCK table: CCK_TBL_SZ (P6) of an accepted configuration. -/
abbrev cckTblSz : Nat := 33

/-- The bytes of a CCK entry: CCK_NREG (P7) of an accepted configuration. -/
abbrev cckNreg : Nat := 8

/-- One byte of the control space (R70), one CCK byte register (R44). -/
abbrev Byte := BitVec 8

/-- A 32-bit control register, mask or trace field. -/
abbrev Word := BitVec 32

/-- A control-space byte address of ADDR_W bits (P12); the address field of a trace record has 16 bits (R140). -/
abbrev Addr := BitVec 16

/-- An RF indirect register or mask of RF_DATA_W bits (P13, R71); the mask and data fields of a trace record have 32 bits
(R140). -/
abbrev RfWord := BitVec 32

/-- A raw correlator value of READ_W bits (P9, R110); the device fields of R122 and the accumulators of R25 have room for
10. -/
abbrev Raw := BitVec 10

/-- A matrix element A, C or D of ELEM_W bits (P11); the layout of R120 has room for 10. -/
abbrev Elem := BitVec 10

/-- An RF path: 0 is the primary path, 1 the secondary (P3). -/
abbrev Path := Fin 2

/-- A round index, 2 bits: the measurement rounds 0, 1 and 2, and ROUND_HYBRID (P1, P2, R112). -/
abbrev Round := Fin 4

/-- A slot of a round (P4, R113). -/
abbrev Slot := Fin 8

/-- A reading (group) of a round (R113, R114). -/
abbrev Group := Fin 4

end Sys2Proof
end

