-- ==== Sys2Proof/Config.lean ====
section
/-! DEFINITION. The configuration record of the block (R9, R356): every named parameter of the spec, fixed before
reset is released, and the free values: constants with no body for what the spec leaves open. -/

namespace Sys2Proof

/-- The bus kind answered by `hciTransportKind()` (R134). -/
inductive HciKind where
  | usb
  | sdio
  | pcie
  deriving DecidableEq, Repr, Inhabited

/-- How the hybrid accumulator becomes a reading (P22, R228). -/
inductive HybridNorm where
  | mean
  | sum
  deriving DecidableEq, Repr, Inhabited

/-- The class of a device location (R40, R80); `absent` is an address of more than ADDR_W bits, which is no location (R70,
assumption log 19). -/
inductive RegClass where
  | absent
  | storage
  | status
  | trigger
  deriving DecidableEq, Repr, Inhabited

/-- The two delay granularities (R88, R140). -/
inductive DelayUnit where
  | us
  | ms
  deriving DecidableEq, Repr, Inhabited

/-- The three access widths of the port (R70). -/
inductive Width where
  | w8
  | w16
  | w32
  deriving DecidableEq, Repr, Inhabited

/-- The verdict of a poll (R89). -/
inductive Verdict where
  | ok
  | timeout
  deriving DecidableEq, Repr, Inhabited

/-- One element of the backup set L1: a location and a mask (R50). -/
inductive BackupElem where
  | ctl (addr : Addr) (mask : Word)
  | rf (path : Path) (index : Byte) (mask : RfWord)
  deriving DecidableEq, Repr, Inhabited

/-- The value argument of a list operation: a literal, or ANT, which stands for `ANT_SW_VAL[hciKind]` (R192). -/
inductive ListVal where
  | lit (v : Word)
  | ant
  deriving DecidableEq, Repr, Inhabited

/-- One operation of the lists L2, L3 and L5 to L8 (R50, R192). The delay form is R372 (d), assumption log 25. -/
inductive ListOp where
  | wr (w : Width) (addr : Addr) (v : ListVal)
  | wrm (addr : Addr) (mask : Word) (v : ListVal)
  | rfwr (path : Path) (index : Byte) (mask : RfWord) (v : ListVal)
  | delay (unit : DelayUnit) (dur : Word)
  deriving DecidableEq, Repr, Inhabited

/-- One write to the device by somebody else than the block: by the REAPPLY hook (R90) or by any other agent (R92,
R95). -/
inductive DevWrite where
  | ctl (addr : Addr) (v : Byte)
  | rf (path : Path) (index : Byte) (v : RfWord)
  deriving DecidableEq, Repr, Inhabited

/-- Every named parameter of the block. Parameter numbers are those of 00_scope.md section 4 and 10_state.md
sections 6 to 8; P15 X_UNITY is derived from P10. -/
structure Config where
  /-- P1 N_ROUND -/
  nRound : Nat
  /-- P2 ROUND_HYBRID -/
  roundHybrid : Round
  /-- P3 N_PATH -/
  nPath : Nat
  /-- P4 N_SLOT -/
  nSlot : Nat
  /-- P5 OFDM_TBL_SZ -/
  ofdmTblSz : Nat
  /-- P6 CCK_TBL_SZ -/
  cckTblSz : Nat
  /-- P7 CCK_NREG -/
  cckNreg : Nat
  /-- P8 DELTA_TBL_SZ -/
  deltaTblSz : Nat
  /-- P9 READ_W -/
  readW : Nat
  /-- P10 FRAC -/
  frac : Nat
  /-- P11 ELEM_W -/
  elemW : Nat
  /-- P12 ADDR_W -/
  addrW : Nat
  /-- P13 RF_DATA_W -/
  rfDataW : Nat
  /-- P14 THERM_W -/
  thermW : Nat
  /-- P16 TX_ERR_X -/
  txErrX : Raw
  /-- P16 TX_ERR_Y -/
  txErrY : Raw
  /-- P17 RX_ERR_X -/
  rxErrX : Raw
  /-- P17 RX_ERR_Y -/
  rxErrY : Raw
  /-- P18 RETRY_TX -/
  retryTx : Nat
  /-- P18 RETRY_RX -/
  retryRx : Nat
  /-- P19 RX_X_LOWER; the window need not be symmetric about X_UNITY (assumption log 21) -/
  rxXLower : Int
  /-- P19 RX_X_UPPER -/
  rxXUpper : Int
  /-- P20 RX_Y_LIMIT -/
  rxYLimit : Nat
  /-- P21 SIM_TOL -/
  simTol : Nat
  /-- P22 HYBRID_NORM -/
  hybridNorm : HybridNorm
  /-- P23 AVG_RCP_LOG2 -/
  avgRcpLog2 : Nat
  /-- P24 AVG_PREC -/
  avgPrec : Nat
  /-- P25 IQK_THRESH -/
  iqkThresh : Nat
  /-- P26 COMP_THRESH -/
  compThresh : Nat
  /-- P27 DEF_OFDM_INDEX -/
  defOfdmIndex : BitVec 6
  /-- P28 DEF_CCK_INDEX -/
  defCckIndex : BitVec 6
  /-- P29 THERM_UNSUPPORTED -/
  thermUnsupported : Byte
  /-- P30 THERM_PATH -/
  thermPath : Path
  /-- P31 T_SETTLE, in milliseconds -/
  tSettle : Word
  /-- P32 POLL_INTERVAL, a hint -/
  pollInterval : Nat
  /-- P32 POLL_TIMEOUT, a hint -/
  pollTimeout : Nat
  /-- P40 TXIQ[p] -/
  txiq : Vector Addr 2
  /-- P40 field A of TXIQ -/
  maskA : Word
  /-- P40 field C_LO of TXIQ -/
  maskCLo : Word
  /-- P40 field D of TXIQ -/
  maskD : Word
  /-- P41 TXIQ_CHI[p] -/
  txiqChi : Vector Addr 2
  /-- P41 field C_HI -/
  maskCHi : Word
  /-- P42 ECCA -/
  ecca : Addr
  /-- P42 EXT_A[p] -/
  maskExtA : Vector Word 2
  /-- P42 EXT_C[p] -/
  maskExtC : Vector Word 2
  /-- P43 RXIQ[p] -/
  rxiq : Vector Addr 2
  /-- P43 field X of RXIQ -/
  maskX : Word
  /-- P43 field Y_LO of RXIQ -/
  maskYLo : Word
  /-- P44 RXIQ_YHI[p] -/
  rxiqYhi : Vector Addr 2
  /-- P44 field Y_HI, per path -/
  maskYHi : Vector Word 2
  /-- P45 IQK_TRIG -/
  iqkTrig : Addr
  /-- P45 TRIG_SEQ -/
  trigSeq : List Word
  /-- P46 IQK_RDY -/
  iqkRdy : Addr
  /-- P46 field RDY -/
  maskRdy : Word
  /-- P47 IQK_FAIL -/
  iqkFail : Addr
  /-- P47 TX_FAIL -/
  maskTxFail : Word
  /-- P47 RX_FAIL -/
  maskRxFail : Word
  /-- P48 IQK_TX_X -/
  iqkTxX : Addr
  /-- P48 IQK_TX_Y -/
  iqkTxY : Addr
  /-- P49 IQK_RX_X -/
  iqkRxX : Addr
  /-- P49 IQK_RX_Y -/
  iqkRxY : Addr
  /-- P48 field RES of IQK_TX_X and IQK_TX_Y (one parameter for the two registers: assumption log 5) -/
  maskResTx : Word
  /-- P49 field RES of IQK_RX_X and IQK_RX_Y (one parameter for the two registers: assumption log 5) -/
  maskResRx : Word
  /-- P50 CCK_REG[0]; CCK_REG[k] is k bytes above it (R44, R77) -/
  cckReg0 : Addr
  /-- P51 RF_T_METER, an RF index -/
  rfTMeter : Byte
  /-- P51 field TRIG -/
  maskTrig : RfWord
  /-- P51 THERM_TRIG_VAL -/
  thermTrigVal : Word
  /-- P51 field CODE -/
  maskCode : RfWord
  /-- L1 BACKUP_SET -/
  backupSet : List BackupElem
  /-- L2 CALCFG_TX[p] -/
  calcfgTx : Vector (List ListOp) 2
  /-- L3 CALCFG_RX[p] -/
  calcfgRx : Vector (List ListOp) 2
  /-- L4 ANT_SW_VAL[USB] -/
  antUsb : Word
  /-- L4 ANT_SW_VAL[SDIO] -/
  antSdio : Word
  /-- L4 ANT_SW_VAL[PCIe] -/
  antPcie : Word
  /-- L5 RXGAIN_BASELINE -/
  rxgainBaseline : List ListOp
  /-- L6 IDLE_IMBALANCE -/
  idleImbalance : List ListOp
  /-- L7 RXMODE_BASELINE -/
  rxmodeBaseline : List ListOp
  /-- L8 THERM_ARM -/
  thermArm : List ListOp
  /-- T1 OFDM_TBL (R46, R121); an entry may be any word (assumption log 31) -/
  ofdmTbl : Vector Word Sys2Proof.ofdmTblSz
  /-- T2 CCK_TBL_1_13 (R47) -/
  cckTbl : Vector (Vector Byte Sys2Proof.cckNreg) Sys2Proof.cckTblSz
  /-- T3 CCK_TBL_14 (R47); no rule reads it (R296) -/
  cckTbl14 : Vector (Vector Byte Sys2Proof.cckNreg) Sys2Proof.cckTblSz
  /-- T4 DT_OFDM_POS (R48) -/
  dtOfdmPos : List Byte
  /-- T4 DT_OFDM_NEG (R48) -/
  dtOfdmNeg : List Byte
  /-- T4 DT_CCK_POS (R48) -/
  dtCckPos : List Byte
  /-- T4 DT_CCK_NEG (R48) -/
  dtCckNeg : List Byte
  deriving DecidableEq, Repr

/-! ## Open parameters: values the spec leaves to the platform (R47, R48, R50, P32; assumption logs 6 and 7) -/

/-- T2: byte k of entry i of CCK_TBL_1_13. -/
opaque Config.openCck1to13 : Nat → Nat → Byte

/-- T3: byte k of entry i of CCK_TBL_14. -/
opaque Config.openCck14 : Nat → Nat → Byte

/-- T4: the values DT_OFDM_POS is made of. -/
opaque Config.openDtOfdmPos : Nat → Byte

/-- T4: the values DT_OFDM_NEG is made of. -/
opaque Config.openDtOfdmNeg : Nat → Byte

/-- T4: the values DT_CCK_POS is made of. -/
opaque Config.openDtCckPos : Nat → Byte

/-- T4: the values DT_CCK_NEG is made of. -/
opaque Config.openDtCckNeg : Nat → Byte

/-- L4: the antenna-switch value of a bus kind. -/
opaque Config.openAntSw : HciKind → Word

/-- P32: the interval hint of the completion poll. -/
opaque Config.openPollInterval : Nat

/-- P32: the timeout hint of the completion poll. -/
opaque Config.openPollTimeout : Nat

/-! ## Free values: answers of the environment when none is pending (R80, R89 to R91; assumption log 9), read at the
draw counter of State -/

/-- U3: the word a STATUS register answers. -/
opaque Config.freeStatus : Nat → Word

/-- U5: the word the thermal meter answers. -/
opaque Config.freeTherm : Nat → RfWord

/-- U4: the verdict of a poll. -/
opaque Config.freeVerdict : Nat → Verdict

/-- R90: the channel number. -/
opaque Config.freeChan : Nat → Byte

/-- R91: the bus kind, one of the three legal ones. -/
opaque Config.freeHci : Nat → HciKind

/-- U9: what the REAPPLY hook writes to the device. -/
opaque Config.freeReapply : Nat → List DevWrite

/-- The entry of a delta ROM beyond its last one: no rule reads it (R304; assumption log 15). -/
opaque Config.freeRomByte : Nat → Byte

/-- The tag of a round that has none: FAIL exists for the measurement rounds only (R24; assumption log 15). -/
opaque Config.freeTag : Nat → Bool

/-- U10: the words BKP holds after a reset, DETACH or INIT (R53 "unspecified"; assumption log 12), by draw and by index. -/
opaque Config.freeBkp : Nat → Nat → Word

end Sys2Proof
end

