-- ==== Sys2Proof/Machine/Params.lean ====
section
/-! DEFINITION. The default configuration: the defaults of 00_scope.md section 4 and 10_state.md sections 6 to 8 (general
knowledge or the spec's own choice, assumption log 5), the open parameters uninterpreted (logs 6 and 7). -/

namespace Sys2Proof

/-- The running maximum of a sequence: every non-decreasing table of `n` bytes is one (R48). -/
def risingTable (f : Nat → Byte) : Nat → List Byte
  | 0 => []
  | n + 1 =>
    match (risingTable f n).getLast? with
    | none => [f 0]
    | some a => risingTable f n ++ [if a ≤ f n then f n else a]

/-- Default contents of OFDM_TBL (R46). -/
def defaultOfdmTbl : Vector Word ofdmTblSz :=
  #v[0x0B40002D, 0x0C000030, 0x0CC00033, 0x0D800036, 0x0E400039, 0x0F00003C,
    0x10000040, 0x11000044, 0x12000048, 0x1300004C, 0x14400051, 0x15800056,
    0x16C0005B, 0x18000060, 0x19800066, 0x1B00006C, 0x1C800072, 0x1E400079,
    0x20000080, 0x22000088, 0x24000090, 0x26000098, 0x288000A2, 0x2AC000AB,
    0x2D4000B5, 0x300000C0, 0x32C000CB, 0x35C000D7, 0x390000E4, 0x3C8000F2,
    0x40000100, 0x43C0010F, 0x47C0011F, 0x4C000130, 0x50800142, 0x55400155,
    0x5A400169, 0x5FC0017F, 0x65400195, 0x6B8001AE, 0x71C001C7, 0x788001E2,
    0x7F8001FE]

/-- A CCK table made of bytes `f i k` (R47). -/
def cckTable (f : Nat → Nat → Byte) : Vector (Vector Byte cckNreg) cckTblSz :=
  Vector.ofFn (fun i : Fin cckTblSz => Vector.ofFn (fun k : Fin cckNreg => f i.val k.val))

/-- The default of THERM_ARM: `RFWR(THERM_PATH, RF_T_METER, TRIG, THERM_TRIG_VAL)` with the default parameters (L8). -/
def defaultThermArm : List ListOp := [.rfwr 0 0x42 0x30000 (.lit 0x3)]

/-- The default configuration. -/
def Config.default : Config where
  nRound := 3
  roundHybrid := 3
  nPath := 2
  nSlot := 8
  ofdmTblSz := 43
  cckTblSz := 33
  cckNreg := 8
  deltaTblSz := 30
  readW := 10
  frac := 8
  elemW := 10
  addrW := 16
  rfDataW := 20
  thermW := 6
  txErrX := 0x142
  txErrY := 0x042
  rxErrX := 0x132
  rxErrY := 0x036
  retryTx := 2
  retryRx := 2
  rxXLower := 0x0E6
  rxXUpper := 0x11A
  rxYLimit := 0x01A
  simTol := 5
  hybridNorm := .mean
  avgRcpLog2 := 2
  avgPrec := 10
  iqkThresh := 8
  compThresh := 2
  defOfdmIndex := 30
  defCckIndex := 20
  thermUnsupported := 0xFF
  thermPath := 0
  tSettle := 20
  pollInterval := openPollInterval
  pollTimeout := openPollTimeout
  txiq := #v[0x0C80, 0x0C88]
  maskA := 0x000003FF
  maskCLo := 0x003F0000
  maskD := 0xFFC00000
  txiqChi := #v[0x0C94, 0x0C9C]
  maskCHi := 0xF0000000
  ecca := 0x0C4C
  maskExtA := #v[0x80000000, 0x08000000]
  maskExtC := #v[0x20000000, 0x02000000]
  rxiq := #v[0x0C14, 0x0C1C]
  maskX := 0x000003FF
  maskYLo := 0x0000FC00
  rxiqYhi := #v[0x0CA0, 0x0C78]
  maskYHi := #v[0xF0000000, 0x0000F000]
  iqkTrig := 0x0E48
  trigSeq := [0xF9000000, 0xF8000000]
  iqkRdy := 0x0E90
  maskRdy := 0x00000400
  iqkFail := 0x0EAC
  maskTxFail := 0x10000000
  maskRxFail := 0x08000000
  iqkTxX := 0x0E94
  iqkTxY := 0x0E9C
  iqkRxX := 0x0EA4
  iqkRxY := 0x0EAC
  maskResTx := 0x03FF0000
  maskResRx := 0x03FF0000
  cckReg0 := 0x0A22
  rfTMeter := 0x42
  maskTrig := 0x30000
  thermTrigVal := 0x3
  maskCode := 0x0FC00
  backupSet := []
  calcfgTx := #v[[], []]
  calcfgRx := #v[[], []]
  antUsb := openAntSw .usb
  antSdio := openAntSw .sdio
  antPcie := openAntSw .pcie
  rxgainBaseline := []
  idleImbalance := []
  rxmodeBaseline := []
  thermArm := defaultThermArm
  ofdmTbl := defaultOfdmTbl
  cckTbl := cckTable openCck1to13
  cckTbl14 := cckTable openCck14
  dtOfdmPos := risingTable openDtOfdmPos 30
  dtOfdmNeg := risingTable openDtOfdmNeg 30
  dtCckPos := risingTable openDtCckPos 30
  dtCckNeg := risingTable openDtCckNeg 30

end Sys2Proof
end

