-- ==== Sys2Proof/Machine/Records.lean ====
section
/-! DEFINITION. The records State is made of (10_state.md), and the value each has after reset (R53). -/

namespace Sys2Proof.Machine

/-- The phases of the sequencer (R31). -/
inductive Phase where
  | idle
  | initRun
  | detachRun
  | calBackup
  | calRound
  | calRestore
  | calVote
  | calHybrid
  | calApply
  | calFinal
  | ptArm
  | ptPassSense
  | ptPassComp
  | ptPassIqk
  | ptResync
  deriving DecidableEq, Repr, Inhabited

/-- The sequencer's phase, and the flag that says a nested IQK run returns to PT_RESYNC (R30, R31). Its scalars r, p, a, j
are working registers and stand in `Work` (R20). -/
structure Seq where
  phase : Phase
  ret : Bool
  deriving DecidableEq, Repr, Inhabited

/-- The working registers (R20). -/
structure Work where
  /-- RES[r][i], rounds 0 to 2 and the hybrid round 3 (R21) -/
  res : Vector (Vector Raw nSlot) 4
  /-- FAIL[r][g], measurement rounds only (R24) -/
  fail : Vector (Vector Bool 4) nRound
  /-- HCNT[g] (R25) -/
  hcnt : Vector (BitVec 2) 4
  /-- HACC[i], signed (R25) -/
  hacc : Vector (BitVec 12) nSlot
  /-- BKP[k] (R26), one word for each element of L1 (R20; `State.Inv.bkp`) -/
  bkp : List Word
  /-- scalar r -/
  r : Round
  /-- scalar j -/
  j : Round
  /-- scalar p -/
  p : Path
  /-- scalar a, the attempt -/
  a : Nat
  /-- the candidate's round index -/
  cand : BitVec 2
  /-- the candidate's valid bit -/
  candValid : Bool
  deriving DecidableEq, Repr, Inhabited

/-- CalibrationState (R33). -/
structure CalState where
  txX : Vector Raw 2
  txY : Vector Raw 2
  doneFlag : Bool
  deriving DecidableEq, Repr, Inhabited

/-- PowerTrackState (R35). -/
structure PtState where
  /-- defaultOfdmIndex -/
  ofdmIndex : BitVec 6
  /-- defaultCckIndex -/
  cckIndex : BitVec 6
  /-- thermalAvgAcc[p], AVG_PREC fractional bits -/
  avgAcc : Vector Nat 2
  avgValid : Vector Bool 2
  /-- deltaOfdm[p], signed -/
  deltaOfdm : Vector (BitVec 9) 2
  /-- deltaCck[p], signed -/
  deltaCck : Vector (BitVec 9) 2
  /-- remnantOfdm[p], signed -/
  remnantOfdm : Vector (BitVec 10) 2
  /-- remnantCck[p], signed -/
  remnantCck : Vector (BitVec 10) 2
  /-- ptTriggered: false is ARMED, true is SAMPLED -/
  triggered : Bool
  initTrigger : Bool
  /-- ptDisabled -/
  disabled : Bool
  lastApplied : Byte
  /-- iqkAnchor -/
  anchor : Byte
  anchorValid : Bool
  deriving DecidableEq, Repr, Inhabited

/-- A sparse store: address and value pairs, addresses strictly rising, no value zero (see `Store.wf`). -/
abbrev Store (w : Nat) := List (Nat × BitVec w)

/-- The control space's STORAGE bytes (R70, R80). -/
abbrev Memory := List Host.Cell

/-- The environment behind the port (R80): its store, the answers that are pending for reads of STATUS locations, polls
and hooks (the queues of R145), and the counter at which free answers are drawn. -/
structure Device where
  mem : Memory
  /-- RF registers, keyed by 256 * path + index (R71) -/
  rf : Store 32
  /-- words that the next STATUS reads of the control space answer -/
  statusQ : List Word
  /-- words that the next reads of the thermal meter answer -/
  thermQ : List RfWord
  /-- verdicts of the next polls -/
  pollQ : List Verdict
  /-- answers of the next CHAN() -/
  chanQ : List Byte
  /-- answers of the next HCI(), as 2-bit codes (R134) -/
  hciQ : List (BitVec 2)
  /-- what the next REAPPLY calls write -/
  reapplyQ : List (List DevWrite)
  draws : Nat
  deriving DecidableEq, Repr, Inhabited

/-- One transaction record, the 128 bits of R140 as fields. -/
structure TraceRec where
  kind : Byte
  aux : Byte
  addr : BitVec 16
  mask : Word
  data : Word
  result : Word
  deriving DecidableEq, Repr, Inhabited

/-- What the port primitives act on: the environment, and the trace, oldest record first (R81). -/
structure Port where
  dev : Device
  trace : List TraceRec
  deriving DecidableEq, Repr, Inhabited

/-- The kind operand of CALCFG (R192). -/
inductive MeasKind where
  | tx
  | rx
  deriving DecidableEq, Repr, Inhabited

/-- The polarity of a thermal excursion (R272). -/
inductive Polarity where
  | pos
  | neg
  deriving DecidableEq, Repr, Inhabited

/-- Which swing table SWCLAMP clamps against: 43 or 33 entries (R291). -/
inductive SwTable where
  | ofdm
  | cck
  deriving DecidableEq, Repr, Inhabited

/-- The operand and result wires of micro-operations issued one at a time: the values that the rules pass from one
micro-operation to the next (R38). The model's own fields (assumption log 3). -/
structure Wires where
  /-- raw operand of CANON and ABSDIFF, result of ENCODE -/
  u : Raw
  /-- second raw operand of ABSDIFF -/
  v : Raw
  /-- signed operand of ENCODE and IQMULT, result of CANON -/
  s : Int
  /-- matrix element operand of IQMULT -/
  d : Elem
  elem : Elem
  ext : Bool
  /-- result of ABSDIFF -/
  dist : Nat
  kind : MeasKind
  verdict : Verdict
  /-- fail bit, X and Y of an attempt -/
  f : Bool
  x : Raw
  y : Raw
  ok : Bool
  /-- result of TXMEAS, operand of RXMEAS -/
  txok : Bool
  /-- slot operand of SIMSLOT -/
  i : Slot
  sim : Bool
  found : Bool
  /-- reading operand of USABLE -/
  g : Group
  usable : Bool
  stop : Bool
  t : Byte
  avg : Byte
  needIqk : Bool
  go : Bool
  pol : Polarity
  k : Nat
  deltaO : Int
  deltaC : Int
  tbl : SwTable
  req : Int
  idxO : Fin ofdmTblSz
  idxC : Fin cckTblSz
  remO : Int
  remC : Int
  /-- port operands: width, address, mask, value (also a read's result), RF index and mask -/
  width : Width
  addr : Addr
  mask : Word
  val : Word
  rfIndex : Byte
  rfMask : RfWord
  delayUnit : DelayUnit
  dur : Word
  expect : Word
  interval : Nat
  timeout : Nat
  chan : Byte
  hci : HciKind
  deriving DecidableEq, Repr, Inhabited

/-- What reaches the block from outside between runs (R17, R53, R95, R150). -/
inductive HostEvent where
  /-- a code on the command port, with the level of the thermalRef input at that moment -/
  | command (code : Byte) (thermalRef : Byte)
  /-- another agent writes device locations (R95) -/
  | outside (writes : List DevWrite)
  /-- hardware reset of the block (R53) -/
  | hardwareReset
  deriving DecidableEq, Repr, Inhabited

/-! ## Values after reset (R53) -/

/-- X_UNITY = 2^FRAC (P15, R115). -/
def xUnity (c : Config) : Raw := BitVec.ofNat 10 (2 ^ c.frac)

/-- CalibrationState after reset, DETACH and INIT: the "no correction" reading, doneFlag clear. -/
def CalState.initial (c : Config) : CalState where
  txX := #v[xUnity c, xUnity c]
  txY := #v[0, 0]
  doneFlag := false

/-- PowerTrackState after reset or DETACH. -/
def PtState.initial (c : Config) : PtState where
  ofdmIndex := c.defOfdmIndex
  cckIndex := c.defCckIndex
  avgAcc := #v[0, 0]
  avgValid := #v[false, false]
  deltaOfdm := #v[0, 0]
  deltaCck := #v[0, 0]
  remnantOfdm := #v[0, 0]
  remnantCck := #v[0, 0]
  triggered := false
  initTrigger := false
  disabled := false
  lastApplied := 0
  anchor := 0
  anchorValid := false

/-- The working registers cleared: RES, FAIL, HCNT, HACC zero, cand invalid (R22). BKP and the scalars are not named by
R22 and keep what they hold. -/
def Work.clear (k : Work) : Work where
  res := Vector.replicate 4 (Vector.replicate 8 0)
  fail := Vector.replicate nRound (Vector.replicate 4 false)
  hcnt := Vector.replicate 4 0
  hacc := Vector.replicate 8 0
  bkp := k.bkp
  r := k.r
  j := k.j
  p := k.p
  a := k.a
  cand := 0
  candValid := false

/-- The working registers after reset, BKP as long as the backup set: the spec leaves them unspecified (assumption log 12,
DESIGN CHOICE zero). -/
def Work.zero (c : Config) : Work where
  res := Vector.replicate 4 (Vector.replicate 8 0)
  fail := Vector.replicate nRound (Vector.replicate 4 false)
  hcnt := Vector.replicate 4 0
  hacc := Vector.replicate 8 0
  bkp := List.replicate c.backupSet.length 0
  r := 0
  j := 0
  p := 0
  a := 0
  cand := 0
  candValid := false

/-- The wires at `State.reset` (assumption log 3, DESIGN CHOICE zero). -/
def Wires.zero : Wires where
  u := 0
  v := 0
  s := 0
  d := 0
  elem := 0
  ext := false
  dist := 0
  kind := .tx
  verdict := .ok
  f := false
  x := 0
  y := 0
  ok := false
  txok := false
  i := 0
  sim := false
  found := false
  g := 0
  usable := false
  stop := false
  t := 0
  avg := 0
  needIqk := false
  go := false
  pol := .pos
  k := 0
  deltaO := 0
  deltaC := 0
  tbl := .ofdm
  req := 0
  idxO := 0
  idxC := 0
  remO := 0
  remC := 0
  width := .w8
  addr := 0
  mask := 0
  val := 0
  rfIndex := 0
  rfMask := 0
  delayUnit := .us
  dur := 0
  expect := 0
  interval := 0
  timeout := 0
  chan := 0
  hci := .usb

/-- The environment at `State.reset`: nothing listed, nothing pending (assumption logs 8 and 9). -/
def Device.initial : Device where
  mem := []
  rf := []
  statusQ := []
  thermQ := []
  pollQ := []
  chanQ := []
  hciQ := []
  reapplyQ := []
  draws := 0

end Sys2Proof.Machine

namespace Sys2Proof

/-- U10: the working registers outside an IQK run, after a reset, DETACH or INIT (R53 "unspecified"; assumption log 12). -/
opaque Config.freeWork : Nat → Machine.Work

end Sys2Proof
end

