-- ==== Sys2Proof/Syntax.lean ====
section
/-! DEFINITION. The sixty operations of the code map (R135, 30_encoding.md). No operation has an operand field
(R130), so no constructor has an argument. -/

namespace Sys2Proof

/-- One constructor per row of spec/opcode_table.json. -/
inductive Instr where
  /-- INIT, code 0x01, R153. -/
  | init
  /-- CALIBRATE, code 0x02, R154. -/
  | calibrate
  /-- TICK, code 0x03, R155. -/
  | tick
  /-- DETACH, code 0x04, R156. -/
  | detach
  /-- CANON, code 0x10, R170. -/
  | canon
  /-- ENCODE, code 0x11, R171. -/
  | encode
  /-- IQMULT, code 0x12, R172. -/
  | iqmult
  /-- ABSDIFF, code 0x13, R173. -/
  | absdiff
  /-- BACKUP, code 0x20, R190. -/
  | backup
  /-- CALCFG, code 0x21, R192. -/
  | calcfg
  /-- ONESHOT, code 0x22, R194. -/
  | oneshot
  /-- TXCHK, code 0x23, R197. -/
  | txchk
  /-- RXCHK, code 0x24, R198. -/
  | rxchk
  /-- TXATT, code 0x25, R196. -/
  | txatt
  /-- RXATT, code 0x26, R203. -/
  | rxatt
  /-- TXMEAS, code 0x27, R200. -/
  | txmeas
  /-- RXMEAS, code 0x28, R205. -/
  | rxmeas
  /-- ROUND, code 0x29, R208. -/
  | round
  /-- ROUNDRESTORE, code 0x2A, R210. -/
  | roundrestore
  /-- SIMSLOT, code 0x30, R220. -/
  | simslot
  /-- SIMCMP, code 0x31, R222. -/
  | simcmp
  /-- VOTE, code 0x32, R224. -/
  | vote
  /-- HYBACC, code 0x33, R226. -/
  | hybacc
  /-- HYBNORM, code 0x34, R228. -/
  | hybnorm
  /-- HYBCHK, code 0x35, R230. -/
  | hybchk
  /-- USABLE, code 0x40, R240. -/
  | usable
  /-- FILLTX, code 0x41, R242. -/
  | filltx
  /-- FILLRX, code 0x42, R244. -/
  | fillrx
  /-- RETAIN, code 0x43, R246. -/
  | retain
  /-- APPLY, code 0x44, R248. -/
  | apply
  /-- FINALRESTORE, code 0x45, R250. -/
  | finalrestore
  /-- IQKRUN, code 0x46, R254. -/
  | iqkrun
  /-- ARM, code 0x50, R262. -/
  | arm
  /-- UNSUPCHK, code 0x51, R263. -/
  | unsupchk
  /-- THREAD, code 0x52, R264. -/
  | thread
  /-- AVGUPD, code 0x53, R266. -/
  | avgupd
  /-- NEEDIQK, code 0x54, R268. -/
  | needIqk
  /-- COMPCHK, code 0x55, R270. -/
  | compchk
  /-- RAWDELTA, code 0x56, R272. -/
  | rawdelta
  /-- PASS, code 0x57, R274. -/
  | pass
  /-- DLOOKUP, code 0x60, R286. -/
  | dlookup
  /-- SWCLAMP, code 0x61, R291. -/
  | swclamp
  /-- SWOFDM, code 0x62, R293. -/
  | swofdm
  /-- SWCCK, code 0x63, R295. -/
  | swcck
  /-- COMMIT, code 0x64, R297. -/
  | commit
  /-- PATHCOMP, code 0x65, R298. -/
  | pathcomp
  /-- RESYNCO, code 0x66, R300. -/
  | resynco
  /-- RESYNCC, code 0x67, R301. -/
  | resyncc
  /-- RESYNC, code 0x68, R302. -/
  | resync
  /-- RD, code 0x70, R82. -/
  | rd
  /-- WR, code 0x71, R83. -/
  | wr
  /-- RDM, code 0x72, R84. -/
  | rdm
  /-- WRM, code 0x73, R85. -/
  | wrm
  /-- RFRD, code 0x74, R86. -/
  | rfrd
  /-- RFWR, code 0x75, R87. -/
  | rfwr
  /-- DELAY, code 0x76, R88. -/
  | delay
  /-- POLL, code 0x77, R89. -/
  | poll
  /-- HOOK_CHAN, code 0x78, R90. -/
  | hookChan
  /-- HOOK_REAPPLY, code 0x79, R90. -/
  | hookReapply
  /-- HOOK_HCI, code 0x7A, R91. -/
  | hookHci
  deriving DecidableEq, Repr

end Sys2Proof
end

