-- ==== Sys2Proof/Decode.lean ====
section
/-! DEFINITION. Decoding an 8-bit operation code (format OP8, R130) and encoding an operation, both from the code map
of R135 (30_encoding.md section 3). -/

namespace Sys2Proof

/-- Why a code is no operation (R130, R136). -/
inductive DecodeReject where
  /-- units 0x8 to 0xF are reserved -/
  | reservedUnit (unit : BitVec 4)
  /-- a code of a used unit that the map does not list -/
  | unassigned (code : BitVec 8)
  deriving DecidableEq, Repr

/-- One row of the code map: bits 7:4 `unit`, bits 3:0 `op` (R130). -/
structure OpRow where
  unit : BitVec 4
  op : BitVec 4
  instr : Instr
  deriving DecidableEq, Repr

/-- The 8-bit code of a row. -/
def OpRow.code (r : OpRow) : BitVec 8 := r.unit ++ r.op

/-- Unit 0x0: host commands (the host issues them on the command port). -/
def unit0Rows : List OpRow :=
  [ ⟨0x0, 0x1, .init⟩,
    ⟨0x0, 0x2, .calibrate⟩,
    ⟨0x0, 0x3, .tick⟩,
    ⟨0x0, 0x4, .detach⟩ ]

/-- Unit 0x1: numeric micro-operations. -/
def unit1Rows : List OpRow :=
  [ ⟨0x1, 0x0, .canon⟩,
    ⟨0x1, 0x1, .encode⟩,
    ⟨0x1, 0x2, .iqmult⟩,
    ⟨0x1, 0x3, .absdiff⟩ ]

/-- Unit 0x2: IQK measurement micro-operations. -/
def unit2Rows : List OpRow :=
  [ ⟨0x2, 0x0, .backup⟩,
    ⟨0x2, 0x1, .calcfg⟩,
    ⟨0x2, 0x2, .oneshot⟩,
    ⟨0x2, 0x3, .txchk⟩,
    ⟨0x2, 0x4, .rxchk⟩,
    ⟨0x2, 0x5, .txatt⟩,
    ⟨0x2, 0x6, .rxatt⟩,
    ⟨0x2, 0x7, .txmeas⟩,
    ⟨0x2, 0x8, .rxmeas⟩,
    ⟨0x2, 0x9, .round⟩,
    ⟨0x2, 0xA, .roundrestore⟩ ]

/-- Unit 0x3: IQK selection micro-operations. -/
def unit3Rows : List OpRow :=
  [ ⟨0x3, 0x0, .simslot⟩,
    ⟨0x3, 0x1, .simcmp⟩,
    ⟨0x3, 0x2, .vote⟩,
    ⟨0x3, 0x3, .hybacc⟩,
    ⟨0x3, 0x4, .hybnorm⟩,
    ⟨0x3, 0x5, .hybchk⟩ ]

/-- Unit 0x4: IQK application micro-operations. -/
def unit4Rows : List OpRow :=
  [ ⟨0x4, 0x0, .usable⟩,
    ⟨0x4, 0x1, .filltx⟩,
    ⟨0x4, 0x2, .fillrx⟩,
    ⟨0x4, 0x3, .retain⟩,
    ⟨0x4, 0x4, .apply⟩,
    ⟨0x4, 0x5, .finalrestore⟩,
    ⟨0x4, 0x6, .iqkrun⟩ ]

/-- Unit 0x5: PT sensing micro-operations. -/
def unit5Rows : List OpRow :=
  [ ⟨0x5, 0x0, .arm⟩,
    ⟨0x5, 0x1, .unsupchk⟩,
    ⟨0x5, 0x2, .thread⟩,
    ⟨0x5, 0x3, .avgupd⟩,
    ⟨0x5, 0x4, .needIqk⟩,
    ⟨0x5, 0x5, .compchk⟩,
    ⟨0x5, 0x6, .rawdelta⟩,
    ⟨0x5, 0x7, .pass⟩ ]

/-- Unit 0x6: PT swing micro-operations. -/
def unit6Rows : List OpRow :=
  [ ⟨0x6, 0x0, .dlookup⟩,
    ⟨0x6, 0x1, .swclamp⟩,
    ⟨0x6, 0x2, .swofdm⟩,
    ⟨0x6, 0x3, .swcck⟩,
    ⟨0x6, 0x4, .commit⟩,
    ⟨0x6, 0x5, .pathcomp⟩,
    ⟨0x6, 0x6, .resynco⟩,
    ⟨0x6, 0x7, .resyncc⟩,
    ⟨0x6, 0x8, .resync⟩ ]

/-- Unit 0x7: port transactions. -/
def unit7Rows : List OpRow :=
  [ ⟨0x7, 0x0, .rd⟩,
    ⟨0x7, 0x1, .wr⟩,
    ⟨0x7, 0x2, .rdm⟩,
    ⟨0x7, 0x3, .wrm⟩,
    ⟨0x7, 0x4, .rfrd⟩,
    ⟨0x7, 0x5, .rfwr⟩,
    ⟨0x7, 0x6, .delay⟩,
    ⟨0x7, 0x7, .poll⟩,
    ⟨0x7, 0x8, .hookChan⟩,
    ⟨0x7, 0x9, .hookReapply⟩,
    ⟨0x7, 0xA, .hookHci⟩ ]

/-- The complete code map (R135). -/
def opTable : List OpRow :=
  unit0Rows ++ unit1Rows ++ unit2Rows ++ unit3Rows ++ unit4Rows ++ unit5Rows ++ unit6Rows ++ unit7Rows

/-- Decode an operation code; total, every other code is rejected by name (R130, R136). -/
def decode (code : BitVec 8) : Except DecodeReject Instr :=
  match opTable.find? (fun r => r.code == code) with
  | some r => .ok r.instr
  | none =>
    if 8 ≤ (code >>> 4).toNat then .error (.reservedUnit (code.extractLsb' 4 4))
    else .error (.unassigned code)

/-- The code of an operation, written from the map a second time, row by row. -/
def encode : Instr → BitVec 8
  | .init => 0x01
  | .calibrate => 0x02
  | .tick => 0x03
  | .detach => 0x04
  | .canon => 0x10
  | .encode => 0x11
  | .iqmult => 0x12
  | .absdiff => 0x13
  | .backup => 0x20
  | .calcfg => 0x21
  | .oneshot => 0x22
  | .txchk => 0x23
  | .rxchk => 0x24
  | .txatt => 0x25
  | .rxatt => 0x26
  | .txmeas => 0x27
  | .rxmeas => 0x28
  | .round => 0x29
  | .roundrestore => 0x2A
  | .simslot => 0x30
  | .simcmp => 0x31
  | .vote => 0x32
  | .hybacc => 0x33
  | .hybnorm => 0x34
  | .hybchk => 0x35
  | .usable => 0x40
  | .filltx => 0x41
  | .fillrx => 0x42
  | .retain => 0x43
  | .apply => 0x44
  | .finalrestore => 0x45
  | .iqkrun => 0x46
  | .arm => 0x50
  | .unsupchk => 0x51
  | .thread => 0x52
  | .avgupd => 0x53
  | .needIqk => 0x54
  | .compchk => 0x55
  | .rawdelta => 0x56
  | .pass => 0x57
  | .dlookup => 0x60
  | .swclamp => 0x61
  | .swofdm => 0x62
  | .swcck => 0x63
  | .commit => 0x64
  | .pathcomp => 0x65
  | .resynco => 0x66
  | .resyncc => 0x67
  | .resync => 0x68
  | .rd => 0x70
  | .wr => 0x71
  | .rdm => 0x72
  | .wrm => 0x73
  | .rfrd => 0x74
  | .rfwr => 0x75
  | .delay => 0x76
  | .poll => 0x77
  | .hookChan => 0x78
  | .hookReapply => 0x79
  | .hookHci => 0x7A

/-- Whether an operation is a host command, unit 0x0; every other one is the sequencer's (R130). -/
def Instr.isHost (i : Instr) : Bool := (Sys2Proof.encode i).toNat < 16

/-- The operation that a table word of `nbits` bits stands for: the block's codes are one byte long (R130). -/
def decodeTableWord (nbits w : Nat) : Option Instr :=
  if nbits ≤ 8 ∧ w < 256 then
    match decode (BitVec.ofNat 8 w) with
    | .ok i => some i
    | .error _ => none
  else none

end Sys2Proof
end

