-- ==== Sys2Proof/WellFormed.lean ====
section
/-! DEFINITION. Well-formedness: who may issue an operation (R130), and the constraints a configuration must meet, else
it is refused when it is built (R356, R77, R40, R50). -/

namespace Sys2Proof

/-! ## Operations -/

/-- Who issues an operation (R130): the host on the command port, or the sequencer. -/
inductive Issuer where
  | host
  | sequencer
  deriving DecidableEq, Repr

/-- The host issues unit 0x0 and nothing else, the sequencer units 0x1 to 0x7 (R130). -/
def Instr.wellFormed (by_ : Issuer) (i : Instr) : Bool :=
  match by_ with
  | .host => i.isHost
  | .sequencer => !i.isHost

/-! ## Configurations -/

/-- The constraint a configuration violates. -/
inductive ConfigProblem where
  /-- P1, P3 to P7, R9: a count is not the one the source settles, which sizes the state and the tables; or P2, R112:
  ROUND_HYBRID is a measurement round -/
  | count
  /-- R77: a register address or a list access is not a multiple of its width -/
  | misaligned
  /-- R40: two symbols share an address -/
  | sameAddress
  /-- R40, R80: a STORAGE register shares a byte with a STATUS or TRIGGER register -/
  | classOverlap
  /-- R41 to R45, R84, R120, R122: a field mask is not one run of bits of the field's width, or two fields overlap -/
  | fieldMask
  /-- R48: a delta table has not DELTA_TBL_SZ entries, or falls -/
  | deltaTable
  /-- P8, R356: DELTA_TBL_SZ is not between 1 and 256 -/
  | deltaSize
  /-- P18, R356: a retry bound is 0 -/
  | retry
  /-- P19, R356: RX_X_LOWER is not below RX_X_UPPER. P19 and R198 call the window symmetric about X_UNITY; R356 lists no such
  constraint and none is checked (assumption log 21, DESIGN CHOICE) -/
  | rxWindow
  /-- P26: COMP_THRESH is not smaller than IQK_THRESH -/
  | thresholds
  /-- P27, P28: a default index is outside its table -/
  | defaultIndex
  /-- P10, P15: X_UNITY = 2^FRAC is not a positive canonical value, or FRAC is 0 -/
  | scale
  /-- P9, P11 to P14: a width is 0 or exceeds the layout that holds it (R25, R120, R122, R123, R140), or an address does not
  fit ADDR_W bits (R70, R77) -/
  | width
  /-- R50: a list element addresses a STATUS register, IQK_TRIG or a CCK_REG -/
  | listElement
  /-- R91, L4: ANT_SW_VAL is used outside the calibration-mode lists L2 and L3 -/
  | antUse
  deriving DecidableEq, Repr

/-- The byte addresses an access of width `w` at `a` covers (R70). -/
def Width.bytes (w : Width) (a : Addr) : List Addr :=
  match w with
  | .w8 => [a]
  | .w16 => [a, a + 1]
  | .w32 => [a, a + 1, a + 2, a + 3]

/-- Natural alignment (R77). -/
def Width.aligned (w : Width) (a : Addr) : Bool :=
  match w with
  | .w8 => true
  | .w16 => a.toNat % 2 == 0
  | .w32 => a.toNat % 4 == 0

/-- The word registers of class STORAGE (R41, R42). -/
def Config.storageWords (c : Config) : List Addr :=
  c.txiq.toList ++ c.txiqChi.toList ++ [c.ecca] ++ c.rxiq.toList ++ c.rxiqYhi.toList

/-- The STATUS registers (R43). -/
def Config.statusWords (c : Config) : List Addr :=
  [c.iqkRdy, c.iqkFail, c.iqkTxX, c.iqkTxY, c.iqkRxX, c.iqkRxY]

/-- CCK_REG[k] (R44): the only address the block forms by arithmetic (R77). The sum does not wrap in an accepted
configuration, whose CCK_REG[7] must be an address of ADDR_W bits: a bound the spec does not state (assumption log 21,
DEDUCED from R70 and R176). -/
def Config.cckReg (c : Config) (k : Fin Sys2Proof.cckNreg) : Addr := c.cckReg0 + BitVec.ofNat 16 k.val

/-- The eight CCK byte registers. -/
def Config.cckRegs (c : Config) : List Addr := (List.finRange Sys2Proof.cckNreg).map c.cckReg

/-- The class of one byte of the control space (R40, R80). -/
def Config.regClass (c : Config) (a : Addr) : RegClass :=
  if 2 ^ c.addrW ≤ a.toNat then .absent
  else if c.statusWords.any (fun b => (Width.w32.bytes b).contains a) then .status
  else if (Width.w32.bytes c.iqkTrig).contains a then .trigger
  else .storage

/-- The control access of a list operation, if it makes one. -/
def ListOp.access : ListOp → Option (Width × Addr)
  | .wr w a _ => some (w, a)
  | .wrm a _ _ => some (.w32, a)
  | .rfwr _ _ _ _ => none
  | .delay _ _ => none

/-- The RF location of a list operation, if it reaches one. -/
def ListOp.rfLoc : ListOp → Option (Path × Byte)
  | .rfwr p i _ _ => some (p, i)
  | _ => none

/-- The operation takes its value from ANT_SW_VAL (R192). -/
def ListOp.usesAnt : ListOp → Bool
  | .wr _ _ v => v == .ant
  | .wrm _ _ v => v == .ant
  | .rfwr _ _ _ v => v == .ant
  | .delay _ _ => false

/-- The control access of a backup element, if it makes one. -/
def BackupElem.access : BackupElem → Option (Width × Addr)
  | .ctl a _ => some (.w32, a)
  | .rf _ _ _ => none

/-- The RF location of a backup element, if it reaches one. -/
def BackupElem.rfLoc : BackupElem → Option (Path × Byte)
  | .ctl _ _ => none
  | .rf p i _ => some (p, i)

/-- A non-zero mask of RF_DATA_W bits (R86). -/
def Config.rfMaskOk (c : Config) (m : RfWord) : Bool := m != 0 && decide (m.toNat < 2 ^ c.rfDataW)

/-- The mask of a list operation is not zero (R84 to R87), and an RF mask fits RF_DATA_W (R86). -/
def ListOp.maskOk (c : Config) : ListOp → Bool
  | .wr _ _ _ => true
  | .wrm _ m _ => m != 0
  | .rfwr _ _ m _ => c.rfMaskOk m
  | .delay _ _ => true

/-- The mask of a backup element is not zero (R84), and an RF mask fits RF_DATA_W (R86). -/
def BackupElem.maskOk (c : Config) : BackupElem → Bool
  | .ctl _ m => m != 0
  | .rf _ _ m => c.rfMaskOk m

/-- The operations of the lists L2, L3 and L5 to L7. -/
def Config.listOps (c : Config) : List ListOp :=
  c.calcfgTx.toList.flatten ++ c.calcfgRx.toList.flatten ++ c.rxgainBaseline ++ c.idleImbalance ++ c.rxmodeBaseline

/-- The operations of the lists L5 to L8, which are not calibration-mode lists (R50, R91). -/
def Config.plainOps (c : Config) : List ListOp := c.rxgainBaseline ++ c.idleImbalance ++ c.rxmodeBaseline ++ c.thermArm

/-- Every control access of the lists L1 to L8. -/
def Config.listAccesses (c : Config) : List (Width × Addr) :=
  c.backupSet.filterMap BackupElem.access ++ (c.listOps ++ c.thermArm).filterMap ListOp.access

/-- Every RF location of the lists L1 to L7; L8 arms the sensor and is exempt. -/
def Config.listRfLocs (c : Config) : List (Path × Byte) :=
  c.backupSet.filterMap BackupElem.rfLoc ++ c.listOps.filterMap ListOp.rfLoc

/-- `m` is one run of exactly `n` set bits. -/
def isField {w : Nat} (m : BitVec w) (n : Nat) : Bool :=
  (List.range w).any (fun k => m.toNat == (2 ^ n - 1) * 2 ^ k)

/-- No two of the masks share a bit. -/
def disjoint {w : Nat} : List (BitVec w) → Bool
  | [] => true
  | m :: ms => ms.all (fun n => m &&& n == 0) && disjoint ms

/-- All members differ. -/
def distinct {α : Type} [DecidableEq α] : List α → Bool
  | [] => true
  | a :: l => !(l.contains a) && distinct l

/-- A table that does not fall (R48, "monotonic"). -/
def rising : List Byte → Bool
  | [] => true
  | [_] => true
  | a :: b :: l => decide (a ≤ b) && rising (b :: l)

/-- The addresses that must differ (R40); IQK_RX_Y is left out because R43 lets it coincide with IQK_FAIL. -/
def Config.symbolAddrs (c : Config) : List Addr :=
  c.storageWords ++ [c.iqkTrig, c.iqkRdy, c.iqkFail, c.iqkTxX, c.iqkTxY, c.iqkRxX] ++ c.cckRegs

/-- The delta tables (R48). -/
def Config.deltaTables (c : Config) : List (List Byte) := [c.dtOfdmPos, c.dtOfdmNeg, c.dtCckPos, c.dtCckNeg]

/-- The check of each constraint. What is not checked, a symmetric RX window (P19, R198), monotone swing tables (R49), lists
that undo CALCFG (R364), is the model's choice (assumption log 21). -/
def Config.meets (c : Config) : ConfigProblem → Bool
  | .count =>
    c.nRound == Sys2Proof.nRound && decide (c.nRound ≤ c.roundHybrid.val) && c.nPath == Sys2Proof.nPath &&
      c.nSlot == Sys2Proof.nSlot && c.ofdmTblSz == Sys2Proof.ofdmTblSz && c.cckTblSz == Sys2Proof.cckTblSz &&
      c.cckNreg == Sys2Proof.cckNreg
  | .misaligned =>
    (c.storageWords ++ c.statusWords ++ [c.iqkTrig]).all Width.w32.aligned &&
      c.listAccesses.all (fun x => x.1.aligned x.2)
  | .sameAddress =>
    distinct c.symbolAddrs && !((c.storageWords ++ [c.iqkTrig, c.iqkRdy, c.iqkTxX, c.iqkTxY, c.iqkRxX] ++
      c.cckRegs).contains c.iqkRxY)
  | .classOverlap =>
    ((c.storageWords.map Width.w32.bytes).flatten ++ c.cckRegs).all (fun a => c.regClass a == .storage) &&
      (Width.w32.bytes c.iqkTrig).all (fun a => c.regClass a == .trigger)
  | .fieldMask =>
    [c.maskA, c.maskD].all (isField · c.elemW) && [c.maskX, c.maskResTx, c.maskResRx].all (isField · c.readW) &&
      [c.maskCLo, c.maskYLo].all (isField · 6) &&
      (c.maskCHi :: c.maskYHi.toList).all (isField · 4) &&
      (c.maskExtA.toList ++ c.maskExtC.toList ++ [c.maskRdy, c.maskTxFail, c.maskRxFail]).all (isField · 1) &&
      isField c.maskCode c.thermW && c.rfMaskOk c.maskCode && c.rfMaskOk c.maskTrig &&
      disjoint [c.maskA, c.maskCLo, c.maskD] && disjoint [c.maskX, c.maskYLo] &&
      disjoint (c.maskExtA.toList ++ c.maskExtC.toList) && disjoint [c.maskCode, c.maskTrig] &&
      c.backupSet.all (BackupElem.maskOk c) && (c.listOps ++ c.thermArm).all (ListOp.maskOk c)
  | .deltaTable => c.deltaTables.all (fun t => t.length == c.deltaTblSz && rising t)
  | .deltaSize => decide (1 ≤ c.deltaTblSz) && decide (c.deltaTblSz ≤ 256)
  | .retry => decide (1 ≤ c.retryTx) && decide (1 ≤ c.retryRx)
  | .rxWindow => decide (c.rxXLower < c.rxXUpper)
  | .thresholds => decide (c.compThresh < c.iqkThresh)
  | .defaultIndex => decide (c.defOfdmIndex.toNat < c.ofdmTblSz) && decide (c.defCckIndex.toNat < c.cckTblSz)
  | .scale => decide (1 ≤ c.frac) && decide (c.frac + 2 ≤ c.readW)
  | .width =>
    decide (c.readW ≤ 10) && decide (1 ≤ c.elemW) && decide (c.elemW ≤ 10) && decide (c.addrW ≤ 16) &&
      decide (1 ≤ c.rfDataW) && decide (c.rfDataW ≤ 32) && decide (1 ≤ c.thermW) && decide (c.thermW ≤ 8) &&
      (c.storageWords ++ c.statusWords ++ [c.iqkTrig]).all (fun a => decide (a.toNat + 3 < 2 ^ c.addrW)) &&
      decide (c.cckReg0.toNat + 7 < 2 ^ c.addrW)
  | .listElement =>
    c.listAccesses.all (fun x => (x.1.bytes x.2).all (fun a => c.regClass a == .storage && !(c.cckRegs.contains a))) &&
      c.listRfLocs.all (fun x => x != (c.thermPath, c.rfTMeter))
  | .antUse => c.plainOps.all (fun o => !o.usesAnt)

/-- Every constraint that is checked when a configuration is built. -/
def ConfigProblem.all : List ConfigProblem :=
  [.count, .width, .misaligned, .sameAddress, .classOverlap, .fieldMask, .deltaTable, .deltaSize, .retry, .rxWindow,
    .thresholds, .defaultIndex, .scale, .listElement, .antUse]

/-- The first constraint a configuration violates, if any (R356). -/
def Config.problem (c : Config) : Option ConfigProblem := ConfigProblem.all.find? (fun q => !(c.meets q))

/-- A configuration the block accepts (R356). -/
def Config.wf (c : Config) : Bool := c.problem.isNone

/-! ## The footprint of the lock -/

/-- The bytes of the block's footprint: the registers of 10_state.md section 6 and the control locations of the lists L1 to
L8 (R92). -/
def Config.footprintBytes (c : Config) : List Addr :=
  ((c.storageWords ++ c.statusWords ++ [c.iqkTrig]).map Width.w32.bytes).flatten ++ c.cckRegs ++
    (c.listAccesses.map (fun x => x.1.bytes x.2)).flatten

/-- The RF locations of the block's footprint: the thermal sensor's (R45) and those of the lists L1 to L8 (R92). -/
def Config.footprintRf (c : Config) : List (Path × Byte) :=
  (c.thermPath, c.rfTMeter) :: (c.listRfLocs ++ c.thermArm.filterMap ListOp.rfLoc)

/-- The write reaches the block's footprint (R92). -/
def Config.inFootprint (c : Config) : DevWrite → Bool
  | .ctl a _ => c.footprintBytes.contains a
  | .rf p i _ => c.footprintRf.contains (p, i)

end Sys2Proof
end

