-- ==== Sys2Proof/Machine/State.lean ====
section
/-! DEFINITION. The state of the block, the reasons a step can stop, and the machine right after reset. -/

namespace Sys2Proof.Machine

/-- The block has no fault: no condition stops the sequencer and every transaction completes (R320, R329, R332). The type
has no constructor, so nothing raises a fault; safe. -/
inductive Fault where
  deriving DecidableEq, Repr

/-- Why the model refuses to go on. -/
inductive Refusal where
  /-- exec's arm for an instruction that has no meaning yet; raised by `exec` only; safe: no next state is claimed -/
  | notModelled (mnemonic : String)
  /-- the environment answered the reserved bus kind 3; raised by INIT and HOOK_HCI (R134, U6: "refuse"); safe -/
  | reservedHciKind
  /-- another agent writes the block's footprint while busy = 1, which R92 excludes by assumption (U15); raised by `step`;
  safe -/
  | lockViolated
  /-- the sequencer's issue slot holds a code that is not one of its micro-operations, which cannot happen (R136, R328);
  raised by `step`; safe -/
  | notAMicroOperation (code : BitVec 8)
  /-- the configuration violates a constraint and is refused when it is built (R356, U13); raised by `State.build`; safe -/
  | badConfiguration (p : ConfigProblem)
  deriving DecidableEq, Repr

/-- The whole state: the configuration, the block's registers, the environment with the trace, and the model's own issue
slots and wires. Plain data. -/
structure State where
  /-- every parameter and ROM (R9, R356): no operation writes it -/
  cfg : Config
  /-- created by INIT, destroyed by DETACH (R38) -/
  inited : Bool
  /-- the block's half of the lock (R38, R152) -/
  busy : Bool
  seq : Seq
  work : Work
  cal : CalState
  pt : PtState
  /-- the device-reported reference latched by INIT (R37) -/
  thermalRef : Byte
  /-- the bus kind latched by INIT (R37, R134) -/
  hciKind : HciKind
  /-- STATUS (R131) -/
  status : Byte
  /-- OUTCOME (R132) -/
  outcome : Byte
  /-- WARN (R133) -/
  warnReg : BitVec 16
  /-- the environment and the trace (R80, R81) -/
  port : Port
  /-- the level on the thermalRef input port (R37, R150) -/
  thermalRefIn : Byte
  /-- operands and results of micro-operations issued one at a time (assumption log 3) -/
  wires : Wires
  /-- micro-operations the sequencer is about to issue, by code (assumption log 2) -/
  useq : List Byte
  /-- pending inputs, first one first (assumption log 2) -/
  cmds : List HostEvent
  deriving DecidableEq, Repr

/-- The block right after reset with configuration `c`, connected to a device that lists nothing (R53). -/
def State.resetWith (c : Config) : State where
  cfg := c
  inited := false
  busy := false
  seq := ⟨.idle, false⟩
  work := Work.zero c
  cal := CalState.initial c
  pt := PtState.initial c
  thermalRef := 0
  hciKind := .usb
  status := 0x00
  outcome := 0x00
  warnReg := 0x0000
  port := ⟨Device.initial, []⟩
  thermalRefIn := 0
  wires := Wires.zero
  useq := []
  cmds := []

/-- The machine right after reset, with the default configuration (R53, R54). -/
def State.reset : State := State.resetWith Config.default

/-- Building the block: an ill-formed configuration is refused (R356). -/
def State.build (c : Config) : Except Refusal State :=
  match c.problem with
  | some q => .error (.badConfiguration q)
  | none => .ok (State.resetWith c)

end Sys2Proof.Machine
end

