-- ==== Sys2Proof/Machine/Ops.lean ====
section
/-! DEFINITION. The named operations every meaning is built from: the sparse stores behind the port, the environment's
answers, the eleven port primitives (20_memory.md section 4) with their trace records (R140), warnings and refusals
(60_exceptions.md), and the two resets of the block (R53). -/

namespace Sys2Proof.Machine

/-! ## Sparse stores: what a device location holds (R80; an unlisted location reads 0, assumption log 8) -/

/-- The value held at key `a`. -/
def Store.read {w : Nat} : Store w → Nat → BitVec w
  | [], _ => 0#w
  | (k, v) :: t, a => if a = k then v else Store.read t a

/-- Write `v` at key `a`, keeping the canonical form: writing what an unlisted key reads removes the entry. -/
def Store.write {w : Nat} : Store w → Nat → BitVec w → Store w
  | [], a, v => if v = 0#w then [] else [(a, v)]
  | (k, u) :: t, a, v =>
    if a < k then (if v = 0#w then (k, u) :: t else (a, v) :: (k, u) :: t)
    else if a = k then (if v = 0#w then t else (a, v) :: t)
    else (k, u) :: Store.write t a v

/-- Keys from `lo` up to below `bound`, strictly rising, no value zero. -/
def Store.wfFrom {w : Nat} (bound : Nat) : Nat → Store w → Bool
  | _, [] => true
  | lo, (k, v) :: t => decide (lo ≤ k) && decide (k < bound) && decide (v ≠ 0#w) && Store.wfFrom bound (k + 1) t

/-- The canonical form of the control space's memory: 2^16 byte addresses (P12, R70). -/
def Memory.wf (m : Memory) : Bool := Store.wfFrom 65536 0 (show Store 8 from m)

/-- The canonical form of the RF space: two paths of 256 locations (R71), each of RF_DATA_W bits (P13). -/
def rfWf (c : Config) (m : Store 32) : Bool :=
  Store.wfFrom 512 0 m && m.all (fun e => decide (e.2.toNat < 2 ^ c.rfDataW))

/-- The byte at an address of the control space. -/
def Memory.byteAt (m : Memory) (a : Addr) : Byte := Store.read (show Store 8 from m) a.toNat

/-- One byte stored at an address of the control space. -/
def Memory.setByte (m : Memory) (a : Addr) (v : Byte) : Memory := Store.write (show Store 8 from m) a.toNat v

/-- The 32-bit word at `a`: byte a is bits 7:0, byte a+3 bits 31:24 (R76). -/
def Memory.wordAt (m : Memory) (a : Addr) : Word :=
  m.byteAt (a + 3) ++ m.byteAt (a + 2) ++ m.byteAt (a + 1) ++ m.byteAt a

/-- The zero-extended value of width `w` at `a` (R76, R82): the bytes a, a + 1, … also where `a` is not a multiple of the
width, which only an operation issued alone can meet (R77 gives no misaligned access; assumption log 15). -/
def Memory.valueAt (m : Memory) (w : Width) (a : Addr) : Word :=
  match w with
  | .w8 => (m.byteAt a).setWidth 32
  | .w16 => (m.byteAt (a + 1) ++ m.byteAt a).setWidth 32
  | .w32 => m.wordAt a

/-- The key of an RF location (R71). -/
def rfKey (p : Path) (i : Byte) : Nat := 256 * p.val + i.toNat

/-! ## Masks (R84, R85; general knowledge GK15) -/

/-- Trailing zeros of `n`, at most `fuel`. -/
def trailingZeros : Nat → Nat → Nat
  | 0, _ => 0
  | fuel + 1, n => if n % 2 = 1 then 0 else 1 + trailingZeros fuel (n / 2)

/-- `ctz(m)` (R12). -/
def ctz {w : Nat} (m : BitVec w) : Nat := trailingZeros w m.toNat

/-- The right-aligned field of a masked read, `(word & m) >> ctz(m)` (R84). -/
def fieldGet {w : Nat} (word m : BitVec w) : BitVec w := (word &&& m) >>> ctz m

/-- The word after a masked write, `(old & ~m) | ((v << ctz(m)) & m)` (R85). -/
def fieldSet {w : Nat} (old m v : BitVec w) : BitVec w := (old &&& ~~~m) ||| ((v <<< ctz m) &&& m)

/-- The mask a trace record shows for an unmasked access (R140). -/
def widthMask : Width → Word
  | .w8 => 0xFF
  | .w16 => 0xFFFF
  | .w32 => 0xFFFFFFFF

/-- The aux field of RD and WR (R140). -/
def widthAux : Width → Byte
  | .w8 => 0x08
  | .w16 => 0x10
  | .w32 => 0x20

/-! ## The environment's answers (R80, R89 to R91): the first pending one, else a free value -/

/-- U3: the word a read of a STATUS (or TRIGGER) location answers. -/
def Device.drawStatus (dv : Device) : Word × Device :=
  match dv.statusQ with
  | a :: l => (a, { dv with statusQ := l })
  | [] => (Config.freeStatus dv.draws, { dv with draws := dv.draws + 1 })

/-- U5: the word the thermal meter answers. -/
def Device.drawTherm (dv : Device) : RfWord × Device :=
  match dv.thermQ with
  | a :: l => (a, { dv with thermQ := l })
  | [] => (Config.freeTherm dv.draws, { dv with draws := dv.draws + 1 })

/-- U4: the verdict of a poll. -/
def Device.drawVerdict (dv : Device) : Verdict × Device :=
  match dv.pollQ with
  | a :: l => (a, { dv with pollQ := l })
  | [] => (Config.freeVerdict dv.draws, { dv with draws := dv.draws + 1 })

/-- R90: the answer of `currentChannel()`. -/
def Device.drawChan (dv : Device) : Byte × Device :=
  match dv.chanQ with
  | a :: l => (a, { dv with chanQ := l })
  | [] => (Config.freeChan dv.draws, { dv with draws := dv.draws + 1 })

/-- U9: what a REAPPLY call writes. -/
def Device.drawReapply (dv : Device) : List DevWrite × Device :=
  match dv.reapplyQ with
  | a :: l => (a, { dv with reapplyQ := l })
  | [] => (Config.freeReapply dv.draws, { dv with draws := dv.draws + 1 })

/-- The 2-bit code of a bus kind (R134). -/
def hciCode : HciKind → BitVec 2
  | .usb => 0
  | .sdio => 1
  | .pcie => 2

/-- The bus kind of a 2-bit code; 3 is reserved (R134). -/
def hciOfCode (b : BitVec 2) : Option HciKind :=
  if b = 0 then some .usb else if b = 1 then some .sdio else if b = 2 then some .pcie else none

/-- R91: the answer of `hciTransportKind()`; `none` is the reserved code. -/
def Device.drawHci (dv : Device) : Option HciKind × Device :=
  match dv.hciQ with
  | a :: l => (hciOfCode a, { dv with hciQ := l })
  | [] => (some (Config.freeHci dv.draws), { dv with draws := dv.draws + 1 })

/-! ## Stores to the device -/

/-- Whether every byte of an access is of class STORAGE (R80). -/
def isStorage (c : Config) (w : Width) (a : Addr) : Bool := (w.bytes a).all (fun b => c.regClass b == .storage)

/-- Store one byte: only a STORAGE location holds what is written (R80). -/
def Device.storeByte (c : Config) (dv : Device) (a : Addr) (v : Byte) : Device :=
  if c.regClass a = .storage then { dv with mem := dv.mem.setByte a v } else dv

/-- Byte `k` of a word, little-endian (R76). -/
def byteOf (v : Word) (k : Nat) : Byte := v.extractLsb' (8 * k) 8

/-- Store the low `w` bits of `v` at `a` (R83, R76); a misaligned `a` as for `Memory.valueAt` (assumption log 15). -/
def Device.store (c : Config) (dv : Device) (w : Width) (a : Addr) (v : Word) : Device :=
  match w with
  | .w8 => dv.storeByte c a (byteOf v 0)
  | .w16 => (dv.storeByte c a (byteOf v 0)).storeByte c (a + 1) (byteOf v 1)
  | .w32 =>
    (((dv.storeByte c a (byteOf v 0)).storeByte c (a + 1) (byteOf v 1)).storeByte c (a + 2) (byteOf v 2)).storeByte c
      (a + 3) (byteOf v 3)

/-- The RF_DATA_W bits that an RF location holds of a word (R71, P13). -/
def rfTrunc (c : Config) (v : RfWord) : RfWord := v &&& BitVec.ofNat 32 (2 ^ c.rfDataW - 1)

/-- Store an RF register (R87): a location holds RF_DATA_W bits (R71). -/
def Device.storeRf (c : Config) (dv : Device) (p : Path) (i : Byte) (v : RfWord) : Device :=
  { dv with rf := Store.write dv.rf (rfKey p i) (rfTrunc c v) }

/-- One write by another agent between runs: any STORAGE location (R95, U16). -/
def Device.outsideWrite (c : Config) (dv : Device) : DevWrite → Device
  | .ctl a v => dv.storeByte c a v
  | .rf p i v => dv.storeRf c p i v

/-- The bits of the byte at `a` that the REAPPLY hook is assumed to leave alone: field D of TXIQ[0], and CCK_REG[0]
(R90, U9). -/
def keptBits (c : Config) (a : Addr) : Byte :=
  if a = c.cckReg 0 then 0xFF
  else if (a - c.txiq[0]).toNat < 4 then byteOf c.maskD (a - c.txiq[0]).toNat
  else 0

/-- One write of the REAPPLY hook: any STORAGE location but for the kept bits (R90). -/
def Device.hookWrite (c : Config) (dv : Device) : DevWrite → Device
  | .ctl a v => dv.storeByte c a ((v &&& ~~~(keptBits c a)) ||| (dv.mem.byteAt a &&& keptBits c a))
  | .rf p i v => dv.storeRf c p i v

/-! ## The port primitives (R82 to R91) and their trace records (R140) -/

/-- Append one record (R81). -/
def Port.log (q : Port) (r : TraceRec) : Port := { q with trace := q.trace ++ [r] }

/-- What a read of width `w` at `a` answers: a STORAGE location answers what it holds, any other what the environment
draws, kept to the width (R80, R82). -/
def Port.answer (c : Config) (q : Port) (w : Width) (a : Addr) : Word × Device :=
  if isStorage c w a then (q.dev.mem.valueAt w a, q.dev)
  else (q.dev.drawStatus.1 &&& widthMask w, q.dev.drawStatus.2)

/-- `RD(w, a)` (R82). -/
def Port.rd (c : Config) (q : Port) (w : Width) (a : Addr) : Word × Port :=
  let r := q.answer c w a
  (r.1, Port.log { q with dev := r.2 } ⟨0x70, widthAux w, a, widthMask w, 0, r.1⟩)

/-- `WR(w, a, v)` (R83). The calling rule gives v in range; for a wider v, which only a list literal, ANT or an operand wire
can be, the record shows the low w bits, the ones stored (R12, R83, R140; assumption log 30, DESIGN CHOICE). -/
def Port.wr (c : Config) (q : Port) (w : Width) (a : Addr) (v : Word) : Port :=
  Port.log { q with dev := q.dev.store c w a v } ⟨0x71, widthAux w, a, widthMask w, v &&& widthMask w, 0⟩

/-- `RDM(a, m)` (R84). -/
def Port.rdm (c : Config) (q : Port) (a : Addr) (m : Word) : Word × Port :=
  let r := q.answer c .w32 a
  (fieldGet r.1 m, Port.log { q with dev := r.2 } ⟨0x72, 0x20, a, m, 0, fieldGet r.1 m⟩)

/-- `WRM(a, m, v)` (R85). -/
def Port.wrm (c : Config) (q : Port) (a : Addr) (m v : Word) : Port :=
  Port.log { q with dev := q.dev.store c .w32 a (fieldSet (q.dev.mem.wordAt a) m v) } ⟨0x73, 0x20, a, m, v, 0⟩

/-- What an RF location answers: the thermal meter draws (R45, R264), every other one answers what it holds (R80). -/
def Port.rfAnswer (c : Config) (q : Port) (p : Path) (i : Byte) : RfWord × Device :=
  if p = c.thermPath ∧ i = c.rfTMeter then q.dev.drawTherm else (Store.read q.dev.rf (rfKey p i), q.dev)

/-- The aux field of RFRD and RFWR: the path (R140). -/
def pathAux (p : Path) : Byte := BitVec.ofNat 8 p.val

/-- `RFRD(p, i, m)` (R86). -/
def Port.rfrd (c : Config) (q : Port) (p : Path) (i : Byte) (m : RfWord) : Word × Port :=
  let r := q.rfAnswer c p i
  (fieldGet r.1 m, Port.log { q with dev := r.2 } ⟨0x74, pathAux p, i.setWidth 16, m, 0, fieldGet r.1 m⟩)

/-- `RFWR(p, i, m, v)` (R87). -/
def Port.rfwr (c : Config) (q : Port) (p : Path) (i : Byte) (m : RfWord) (v : Word) : Port :=
  Port.log { q with dev := q.dev.storeRf c p i (fieldSet (Store.read q.dev.rf (rfKey p i)) m v) }
    ⟨0x75, pathAux p, i.setWidth 16, m, v, 0⟩

/-- The aux field of DELAY (R140). -/
def unitAux : DelayUnit → Byte
  | .us => 0
  | .ms => 1

/-- `DELAY(u, d)` (R88): a place in the trace and nothing else. -/
def Port.delay (q : Port) (u : DelayUnit) (d : Word) : Port := q.log ⟨0x76, unitAux u, 0, 0, d, 0⟩

/-- The result field of a POLL record (R140). -/
def verdictWord : Verdict → Word
  | .ok => 0
  | .timeout => 1

/-- `POLL(a, m, e, iv, to)` (R89); the hints are not recorded (R140). -/
def Port.poll (q : Port) (a : Addr) (m e : Word) (_interval _timeout : Nat) : Verdict × Port :=
  let r := q.dev.drawVerdict
  (r.1, Port.log { q with dev := r.2 } ⟨0x77, 0x20, a, m, e, verdictWord r.1⟩)

/-- `CHAN()` (R90). -/
def Port.chan (q : Port) : Byte × Port :=
  let r := q.dev.drawChan
  (r.1, Port.log { q with dev := r.2 } ⟨0x78, 0, 0, 0, 0, r.1.setWidth 32⟩)

/-- `REAPPLY(ch)` (R90): the hook may write the device, but for the kept bits. -/
def Port.reapply (c : Config) (q : Port) (ch : Byte) : Port :=
  let r := q.dev.drawReapply
  Port.log { q with dev := r.1.foldl (Device.hookWrite c) r.2 } ⟨0x79, 0, 0, 0, ch.setWidth 32, 0⟩

/-- `HCI()` (R91); `none` when the answer is the reserved code (R134). -/
def Port.hci (q : Port) : Option (HciKind × Port) :=
  match q.dev.drawHci with
  | (some k, dv) => some (k, Port.log { q with dev := dv } ⟨0x7A, 0, 0, 0, 0, (hciCode k).setWidth 32⟩)
  | (none, _) => none

/-! ## List parameters (R50) -/

/-- `ANT_SW_VAL[kind]` (L4, R192). -/
def antSwVal (c : Config) : HciKind → Word
  | .usb => c.antUsb
  | .sdio => c.antSdio
  | .pcie => c.antPcie

/-- The value argument of a list operation (R192). -/
def ListVal.value (c : Config) (h : HciKind) : ListVal → Word
  | .lit v => v
  | .ant => antSwVal c h

/-- Perform one list operation (R192). -/
def Port.perform (c : Config) (h : HciKind) (q : Port) : ListOp → Port
  | .wr w a v => q.wr c w a (ListVal.value c h v)
  | .wrm a m v => q.wrm c a m (ListVal.value c h v)
  | .rfwr p i m v => q.rfwr c p i m (ListVal.value c h v)
  | .delay u d => q.delay u d

/-- Perform a list in order. -/
def Port.performAll (c : Config) (h : HciKind) (q : Port) (l : List ListOp) : Port := l.foldl (Port.perform c h) q

/-- Read one backup element (R190). -/
def Port.backupOne (c : Config) (q : Port) : BackupElem → Word × Port
  | .ctl a m => q.rdm c a m
  | .rf p i m => q.rfrd c p i m

/-- Read backup elements in ascending order (R190). -/
def Port.backupAll (c : Config) (q : Port) : List BackupElem → List Word × Port
  | [] => ([], q)
  | e :: l => ((q.backupOne c e).1 :: (Port.backupAll c (q.backupOne c e).2 l).1, (Port.backupAll c (q.backupOne c e).2 l).2)

/-- Restore one backup element (R210, R250). -/
def Port.restoreOne (c : Config) (q : Port) (x : BackupElem × Word) : Port :=
  match x.1 with
  | .ctl a m => q.wrm c a m x.2
  | .rf p i m => q.rfwr c p i m x.2

/-- Restore backup elements with their saved values, in ascending order (R210, R250). -/
def Port.restoreAll (c : Config) (q : Port) (l : List (BackupElem × Word)) : Port := l.foldl (Port.restoreOne c) q

/-! ## Field updates of State -/

/-- Replace the port. -/
def State.setPort (s : State) (q : Port) : State := { s with port := q }

/-- `seq <- phase` (R30). -/
def State.setPhase (s : State) (ph : Phase) : State := { s with seq := { s.seq with phase := ph } }

/-- Replace the wires. -/
def State.setWires (s : State) (x : Wires) : State := { s with wires := x }

/-- Replace the working registers. -/
def State.setWork (s : State) (k : Work) : State := { s with work := k }

/-- Replace PowerTrackState. -/
def State.setPt (s : State) (x : PtState) : State := { s with pt := x }

/-- Replace CalibrationState. -/
def State.setCal (s : State) (x : CalState) : State := { s with cal := x }

/-- Perform a list of port operations of the configuration. -/
def State.perform (s : State) (l : List ListOp) : State := s.setPort (s.port.performAll s.cfg s.hciKind l)

/-! ## Exceptional conditions (60_exceptions.md): what takes the place of traps (R332) -/

/-- The four warning counters, lowest first (R133). -/
inductive Warning where
  | pollTimeout
  | calFailed
  | thermUnsupported
  | refused
  deriving DecidableEq, Repr

/-- The position of a counter in WARN (R133). -/
def Warning.shift : Warning → Nat
  | .pollTimeout => 0
  | .calFailed => 4
  | .thermUnsupported => 8
  | .refused => 12

/-- A counter of WARN. -/
def warnCount (r : BitVec 16) (x : Warning) : BitVec 4 := r.extractLsb' x.shift 4

/-- WARN with a counter one higher, unless it is 15 (R327, R133). -/
def warnBump (r : BitVec 16) (x : Warning) : BitVec 16 :=
  if warnCount r x = 15 then r else r + (1#16 <<< x.shift)

/-- `warn(w)` (R327). -/
def State.warn (s : State) (x : Warning) : State := { s with warnReg := warnBump s.warnReg x }

/-- `refuse(code)`: STATUS, the refusal counter, nothing else (R326). -/
def State.refuse (s : State) (code : Byte) : State := { s.warn .refused with status := code }

/-! ## The two resets (R53, R350) -/

/-- The working registers when the spec leaves them unspecified (R53, U10): every register a free value, BKP of the length of
the backup set (R20). -/
def freeWorkOf (c : Config) (n : Nat) : Work :=
  { Config.freeWork n with bkp := (List.range c.backupSet.length).map (Config.freeBkp n) }

/-- Every element of the table of R53 at its "after reset or DETACH" value. The working registers are unspecified, hence
free (assumption log 12); the ROMs and the device are not touched (R351). -/
def State.discard (s : State) : State :=
  { s with
    inited := false, busy := false, seq := ⟨.idle, false⟩, work := freeWorkOf s.cfg s.port.dev.draws,
    cal := CalState.initial s.cfg, pt := PtState.initial s.cfg, thermalRef := 0, hciKind := .usb,
    status := 0x00, outcome := 0x00, warnReg := 0x0000,
    port := { s.port with dev := { s.port.dev with draws := s.port.dev.draws + 1 } } }

/-- Hardware reset of the block: the same effect (R350, R351). -/
def State.hardwareReset (s : State) : State := s.discard

end Sys2Proof.Machine
end

