-- ==== Sys2Proof/Machine/Operands.lean ====
section
/-! DEFINITION. Operand forms: slot and reading indices (R113, R114), canonical and raw values (R110, R170, R171), the
packed device words (R120 to R122), and reads of the working registers. -/

namespace Sys2Proof.Machine

/-! ## Correlator values -/

/-- `sext_N(v)` (R12): the signed integer whose N-bit two's complement form is the low N bits of v. -/
def sext (n v : Nat) : Int := Int.bmod v (2 ^ n)

/-- CANON: sign extension of a raw value of READ_W bits (R170). -/
def canon (c : Config) (u : Raw) : Int := sext c.readW u.toNat

/-- ENCODE: the READ_W-bit two's complement form, `s mod 2^READ_W` (R171). -/
def encodeRaw (c : Config) (s : Int) : Raw := BitVec.ofInt 10 (s % 2 ^ c.readW)

/-- IQMULT: the element, ELEM_W bits of the product, and the extension bit (R172). -/
def iqmult (c : Config) (x : Int) (d : Elem) : Elem × Bool :=
  (BitVec.ofInt 10 (((x * (d.toNat : Int)) >>> c.frac) % 2 ^ c.elemW), decide (((x * (d.toNat : Int)) >>> (c.frac - 1)) % 2 = 1))

/-- ABSDIFF: the distance of two raw values in canonical form (R173). -/
def absDiff (c : Config) (u v : Raw) : Nat := (canon c u - canon c v).natAbs

/-- `clamp(s, lo, hi)` (R12). -/
def clamp (s lo hi : Int) : Int := if s < lo then lo else if hi < s then hi else s

/-! ## Slots and readings (R113, R114) -/

/-- The X slot of a reading. -/
def slotX (g : Group) : Slot := ⟨2 * g.val, by omega⟩

/-- The Y slot of a reading. -/
def slotY (g : Group) : Slot := ⟨2 * g.val + 1, by omega⟩

/-- The reading a slot belongs to. -/
def groupOf (i : Slot) : Group := ⟨i.val / 2, by omega⟩

/-- The TX reading of a path. -/
def txGroup (p : Path) : Group := ⟨2 * p.val, by omega⟩

/-- The RX reading of a path. -/
def rxGroup (p : Path) : Group := ⟨2 * p.val + 1, by omega⟩

/-- The N_ROUND measurement rounds, ascending (R112, P1). -/
def measRounds (c : Config) : List Round := (List.finRange 4).filter (fun r => decide (r.val < c.nRound))

/-- A candidate's round (R112). -/
def candRound (c : BitVec 2) : Round := ⟨c.toNat, c.isLt⟩

/-- The 2-bit candidate of a round. -/
def candOf (r : Round) : BitVec 2 := BitVec.ofNat 2 r.val

/-- RES[r][i]. -/
def Work.resAt (k : Work) (r : Round) (i : Slot) : Raw := (k.res[r])[i]

/-- FAIL[r][g]; ROUND_HYBRID has no tag, and reading one gives a free value (assumption log 15). -/
def Work.failAt (k : Work) (r : Round) (g : Group) : Bool :=
  if h : r.val < nRound then (k.fail[r.val])[g] else Config.freeTag g.val

/-- FAIL with a tag of round `r` replaced; ROUND_HYBRID has none to replace. -/
def Work.setFail (k : Work) (r : Round) (g : Group) (b : Bool) : Vector (Vector Bool 4) nRound :=
  if h : r.val < nRound then k.fail.set r.val ((k.fail[r.val]).set g b) else k.fail

/-- Record reading `g` of round `r` with its tag (R200, R205). -/
def Work.setReading (k : Work) (r : Round) (g : Group) (x y : Raw) (failed : Bool) : Work :=
  { k with
    res := k.res.set r (((k.res[r]).set (slotX g) x).set (slotY g) y)
    fail := k.setFail r g failed }

/-! ## Packed words (R120, R121, R122) -/

/-- The composite word of TXIQ: D, C[5:0], six zeros, A (R120). -/
def acd (a c d : Elem) : Word := d ++ c.extractLsb' 0 6 ++ 0#6 ++ a

/-- The low six bits of an element or raw value, as a field value. -/
def low6 (c : BitVec 10) : Word := (c.extractLsb' 0 6).setWidth 32

/-- The high four bits of an element or raw value, as a field value. -/
def high4 (c : BitVec 10) : Word := (c.extractLsb' 6 4).setWidth 32

/-- A bit as a field value. -/
def bitWord (b : Bool) : Word := if b then 1 else 0

/-- The D field of an OFDM swing-table entry (R121). -/
def entryD (e : Word) : Elem := e.extractLsb' 22 10

/-- Pack a trace record into its 128 bits (R140). -/
def TraceRec.pack (r : TraceRec) : BitVec 128 := r.result ++ r.data ++ r.mask ++ r.addr ++ r.aux ++ r.kind

/-- Read a trace record from its 128 bits (R140). -/
def TraceRec.unpack (b : BitVec 128) : TraceRec :=
  ⟨b.extractLsb' 0 8, b.extractLsb' 8 8, b.extractLsb' 16 16, b.extractLsb' 32 32, b.extractLsb' 64 32,
    b.extractLsb' 96 32⟩

/-! ## ROM reads (R72) -/

/-- Entry `k` of a delta table; an index beyond the table is never used (R304), its value is free (assumption log 15). -/
def romByte (t : List Byte) (k : Nat) : Byte :=
  match t[k]? with
  | some b => b
  | none => Config.freeRomByte k

end Sys2Proof.Machine
end

