-- ==== Sys2Proof/Machine/Flags.lean ====
section
/-! DEFINITION. Result registers and one-bit results: STATUS codes (R321), the OUTCOME word (R132), the validity checks of
an attempt (R197, R198), similarity (R220, R222) and usability (R240). -/

namespace Sys2Proof.Machine

/-! ## STATUS codes (R321) -/

def stOk : Byte := 0x01
def stCalFailed : Byte := 0x02
def stPtDisabled : Byte := 0x03
def stErrIllegal : Byte := 0x80
def stErrNotInited : Byte := 0x81
def stErrBusy : Byte := 0x82
def stErrAlreadyInited : Byte := 0x83

/-- The OUTCOME word of an IQK run: applied, finalValid, finalRoundIndex (R132, R254). -/
def outcomeWord (found : Bool) (cand : BitVec 2) : Byte := if found then 0x03 ||| (cand.setWidth 8 <<< 2) else 0x00

/-! ## Validity of an attempt -/

/-- TXCHK (R197). -/
def txchk (c : Config) (f : Bool) (x y : Raw) : Bool := !f && x != c.txErrX && y != c.txErrY

/-- RXCHK (R198). -/
def rxchk (c : Config) (f : Bool) (x y : Raw) : Bool :=
  !f && x != c.rxErrX && y != c.rxErrY && decide (c.rxXLower < canon c x) && decide (canon c x < c.rxXUpper) &&
    decide ((canon c y).natAbs < c.rxYLimit)

/-! ## Similarity and usability -/

/-- SIMSLOT (R220). -/
def simSlot (c : Config) (k : Work) (j r : Round) (i : Slot) : Bool :=
  !(k.failAt j (groupOf i)) && !(k.failAt r (groupOf i)) &&
    decide (absDiff c (k.resAt j i) (k.resAt r i) ≤ c.simTol)

/-- SIMCMP: all eight slots are similar (R222). -/
def simCmp (c : Config) (k : Work) (j r : Round) : Bool := (List.finRange nSlot).all (simSlot c k j r)

/-- USABLE: a clear tag for a measured round, a contributor for the hybrid round (R240). -/
def usable (c : Config) (k : Work) (cand : BitVec 2) (g : Group) : Bool :=
  if candRound cand = c.roundHybrid then k.hcnt[g] != 0 else !(k.failAt (candRound cand) g)

end Sys2Proof.Machine
end

