-- ==== Sys2Proof/Machine/Numeric.lean ====
section
/-! DEFINITION. Unit 1: the numeric micro-operations (41_numeric.md). Pure: they read and write wires only. -/

namespace Sys2Proof.Machine

/-- What executing an operation answers. -/
abbrev Result := Host.Outcome State Fault Refusal

/-- CANON (R170). -/
def execCanon (s : State) : Result := .next (s.setWires { s.wires with s := canon s.cfg s.wires.u })

/-- ENCODE (R171). -/
def execEncode (s : State) : Result := .next (s.setWires { s.wires with u := encodeRaw s.cfg s.wires.s })

/-- IQMULT (R172). -/
def execIqmult (s : State) : Result :=
  .next (s.setWires { s.wires with
    elem := (iqmult s.cfg s.wires.s s.wires.d).1, ext := (iqmult s.cfg s.wires.s s.wires.d).2 })

/-- ABSDIFF (R173). -/
def execAbsdiff (s : State) : Result := .next (s.setWires { s.wires with dist := absDiff s.cfg s.wires.u s.wires.v })

end Sys2Proof.Machine
end

