-- ==== Sys2Proof/Machine/Measure.lean ====
section
/-! DEFINITION. Unit 2: the IQK measurement micro-operations (42_iqk_measure.md). -/

namespace Sys2Proof.Machine

/-- BACKUP (R190): the backup set is read into BKP. -/
def backup (s : State) : State :=
  let r := s.port.backupAll s.cfg s.cfg.backupSet
  ((s.setPhase .calBackup).setPort r.2).setWork { s.work with bkp := r.1 }

/-- CALCFG (R192): the calibration-mode list of a kind and path. -/
def calcfg (kind : MeasKind) (p : Path) (s : State) : State :=
  match kind with
  | .tx => s.perform s.cfg.calcfgTx[p]
  | .rx => s.perform s.cfg.calcfgRx[p]

/-- The transactions of ONESHOT (R194): the trigger words, the settle delay, the completion poll. -/
def oneshotPort (c : Config) (q : Port) : Verdict × Port :=
  ((c.trigSeq.foldl (fun q w => q.wr c .w32 c.iqkTrig w) q).delay .ms c.tSettle).poll c.iqkRdy c.maskRdy 1
    c.pollInterval c.pollTimeout

/-- ONESHOT (R194): a timeout raises W_POLL_TIMEOUT. -/
def oneshot (s : State) : Verdict × State :=
  match oneshotPort s.cfg s.port with
  | (.ok, q) => (.ok, s.setPort q)
  | (.timeout, q) => (.timeout, (s.setPort q).warn .pollTimeout)

/-- What an attempt returns: after a timeout no values (R196). -/
inductive Attempt where
  | timedOut
  | answered (ok : Bool) (x y : Raw)
  deriving DecidableEq, Repr

/-- The three status reads of an attempt: fail bit, X, Y (R196, R203). -/
def readAttempt (c : Config) (failMask : Word) (addrX addrY : Addr) (resMask : Word) (q : Port) : (Bool × Raw × Raw) × Port :=
  let f := q.rdm c c.iqkFail failMask
  let x := f.2.rdm c addrX resMask
  let y := x.2.rdm c addrY resMask
  ((f.1 != 0, x.1.setWidth 10, y.1.setWidth 10), y.2)

/-- TXATT (R196). -/
def txatt (s : State) : Attempt × State :=
  match oneshot s with
  | (.timeout, t) => (.timedOut, t)
  | (.ok, t) =>
    let r := readAttempt t.cfg t.cfg.maskTxFail t.cfg.iqkTxX t.cfg.iqkTxY t.cfg.maskResTx t.port
    (.answered (txchk t.cfg r.1.1 r.1.2.1 r.1.2.2) r.1.2.1 r.1.2.2, t.setPort r.2)

/-- RXATT (R203). -/
def rxatt (s : State) : Attempt × State :=
  match oneshot s with
  | (.timeout, t) => (.timedOut, t)
  | (.ok, t) =>
    let r := readAttempt t.cfg t.cfg.maskRxFail t.cfg.iqkRxX t.cfg.iqkRxY t.cfg.maskResRx t.port
    (.answered (rxchk t.cfg r.1.1 r.1.2.1 r.1.2.2) r.1.2.1 r.1.2.2, t.setPort r.2)

/-- Attempts `a`, `a + 1`, … of reading `g`, at most `n` more: the first success is recorded, exhaustion records the
sentinel with its tag (R200, R205). -/
def tries (att : State → Attempt × State) (r : Round) (g : Group) : Nat → Nat → State → Bool × State
  | 0, _, s => (false, s.setWork (s.work.setReading r g (xUnity s.cfg) 0 true))
  | n + 1, a, s =>
    match att (s.setWork { s.work with a := a }) with
    | (.answered true x y, t) => (true, t.setWork (t.work.setReading r g x y false))
    | (_, t) => tries att r g n (a + 1) t

/-- TXMEAS (R200). -/
def txmeas (r : Round) (p : Path) (s : State) : Bool × State :=
  tries txatt r (txGroup p) s.cfg.retryTx 0 (calcfg .tx p s)

/-- RXMEAS (R205): skipped without a transaction when TX failed. -/
def rxmeas (r : Round) (p : Path) (txok : Bool) (s : State) : State :=
  if txok then (tries rxatt r (rxGroup p) s.cfg.retryRx 0 (calcfg .rx p s)).2
  else s.setWork (s.work.setReading r (rxGroup p) (xUnity s.cfg) 0 true)

/-- ROUNDRESTORE (R210): the whole backup set, the RX-gain baseline, the idle imbalance values. -/
def roundRestore (s : State) : State :=
  let t := (s.setPhase .calRestore).setPort (s.port.restoreAll s.cfg (s.cfg.backupSet.zip s.work.bkp))
  (t.perform t.cfg.rxgainBaseline).perform t.cfg.idleImbalance

/-- One path of a round: TX, then RX (R208). -/
def roundPath (r : Round) (p : Path) (s : State) : State :=
  let m := txmeas r p (s.setWork { s.work with p := p })
  rxmeas r p m.1 m.2

/-- ROUND (R208). -/
def measRound (r : Round) (s : State) : State :=
  let t := (s.setPhase .calRound).setWork { s.work with r := r }
  roundRestore (roundPath r 1 (roundPath r 0 t))

/-! ## The operations issued one at a time: r and p are SEQ's scalars, the rest is on the wires -/

/-- BACKUP (R190). -/
def execBackup (s : State) : Result := .next (backup s)

/-- CALCFG (R192). -/
def execCalcfg (s : State) : Result := .next (calcfg s.wires.kind s.work.p s)

/-- ONESHOT (R194). -/
def execOneshot (s : State) : Result :=
  .next ((oneshot s).2.setWires { s.wires with verdict := (oneshot s).1 })

/-- TXCHK (R197). -/
def execTxchk (s : State) : Result :=
  .next (s.setWires { s.wires with ok := txchk s.cfg s.wires.f s.wires.x s.wires.y })

/-- RXCHK (R198). -/
def execRxchk (s : State) : Result :=
  .next (s.setWires { s.wires with ok := rxchk s.cfg s.wires.f s.wires.x s.wires.y })

/-- The wires after an attempt: after a timeout x and y carry no value and keep what they held (assumption log 14). -/
def Wires.attempt (x : Wires) : Attempt → Wires
  | .timedOut => { x with ok := false }
  | .answered ok u v => { x with ok := ok, x := u, y := v }

/-- TXATT (R196). -/
def execTxatt (s : State) : Result := .next ((txatt s).2.setWires (s.wires.attempt (txatt s).1))

/-- RXATT (R203). -/
def execRxatt (s : State) : Result := .next ((rxatt s).2.setWires (s.wires.attempt (rxatt s).1))

/-- TXMEAS (R200). -/
def execTxmeas (s : State) : Result :=
  .next ((txmeas s.work.r s.work.p s).2.setWires { s.wires with txok := (txmeas s.work.r s.work.p s).1 })

/-- RXMEAS (R205). -/
def execRxmeas (s : State) : Result := .next (rxmeas s.work.r s.work.p s.wires.txok s)

/-- ROUND (R208). -/
def execRound (s : State) : Result := .next (measRound s.work.r s)

/-- ROUNDRESTORE (R210). -/
def execRoundrestore (s : State) : Result := .next (roundRestore s)

end Sys2Proof.Machine
end

