-- ==== Sys2Proof/Machine/Select.lean ====
section
/-! DEFINITION. Unit 3: IQK candidate selection (43_iqk_select.md). No operation of this file makes a transaction. -/

namespace Sys2Proof.Machine

/-- The earlier rounds `0 .. r - 1`, ascending (R224). -/
def roundsBefore (r : Round) : List Round := (List.finRange 4).filter (fun j => decide (j < r))

/-- The inner loop of VOTE: the first agreeing earlier round becomes the candidate (R224). -/
def voteOver (r : Round) : List Round → State → Bool × State
  | [], s => (false, s)
  | j :: l, s =>
    if simCmp s.cfg s.work j r then (true, s.setWork { s.work with j := j, cand := candOf j, candValid := true })
    else voteOver r l (s.setWork { s.work with j := j })

/-- VOTE (R224). -/
def vote (r : Round) (s : State) : Bool × State :=
  voteOver r (roundsBefore r) ((s.setPhase .calVote).setWork { s.work with r := r })

/-- The measurement rounds whose reading `g` is not failed (R226). -/
def contributors (c : Config) (k : Work) (g : Group) : List Round := (measRounds c).filter (fun r => !(k.failAt r g))

/-- The sum of the canonical values of slot `i` over the contributors of its reading (R226). -/
def hybSum (c : Config) (k : Work) (i : Slot) : Int :=
  ((contributors c k (groupOf i)).map (fun r => canon c (k.resAt r i))).sum

/-- HYBACC (R226). -/
def hybAcc (s : State) : State :=
  (s.setPhase .calHybrid).setWork { s.work with
    hcnt := Vector.ofFn (fun g : Group => BitVec.ofNat 2 (contributors s.cfg s.work g).length)
    hacc := Vector.ofFn (fun i : Slot => BitVec.ofInt 12 (hybSum s.cfg s.work i)) }

/-- One slot of the hybrid round (R228). -/
def hybSlot (c : Config) (k : Work) (i : Slot) : Raw :=
  if k.hcnt[groupOf i] = 0 then 0
  else match c.hybridNorm with
    | .mean => encodeRaw c ((k.hacc[i]).toInt.tdiv (k.hcnt[groupOf i]).toNat)
    | .sum => encodeRaw c (k.hacc[i]).toInt

/-- HYBNORM (R228). -/
def hybNorm (s : State) : State :=
  s.setWork { s.work with res := s.work.res.set s.cfg.roundHybrid (Vector.ofFn (fun i : Slot => hybSlot s.cfg s.work i)) }

/-- The aggregate of the hybrid round: the sum of the raw, unsigned values (R230). -/
def aggregate (c : Config) (k : Work) : Nat := ((List.finRange nSlot).map (fun i => (k.resAt c.roundHybrid i).toNat)).sum

/-- HYBCHK (R230). -/
def hybChk (s : State) : Bool × State :=
  if aggregate s.cfg s.work = 0 then (false, (s.setWork { s.work with cand := 0, candValid := false }).warn .calFailed)
  else (true, s.setWork { s.work with cand := candOf s.cfg.roundHybrid, candValid := true })

/-! ## The operations issued one at a time -/

/-- SIMSLOT (R220): j and r are SEQ's scalars, the slot is on the wires. -/
def execSimslot (s : State) : Result :=
  .next (s.setWires { s.wires with sim := simSlot s.cfg s.work s.work.j s.work.r s.wires.i })

/-- SIMCMP (R222). -/
def execSimcmp (s : State) : Result :=
  .next (s.setWires { s.wires with sim := simCmp s.cfg s.work s.work.j s.work.r })

/-- VOTE (R224). -/
def execVote (s : State) : Result :=
  .next ((vote s.work.r s).2.setWires { s.wires with found := (vote s.work.r s).1 })

/-- HYBACC (R226). -/
def execHybacc (s : State) : Result := .next (hybAcc s)

/-- HYBNORM (R228). -/
def execHybnorm (s : State) : Result := .next (hybNorm s)

/-- HYBCHK (R230). -/
def execHybchk (s : State) : Result := .next ((hybChk s).2.setWires { s.wires with found := (hybChk s).1 })

end Sys2Proof.Machine
end

