-- ==== Sys2Proof/Machine/Apply.lean ====
section
/-! DEFINITION. Unit 4: usability, the matrix fills, retention, the final restore, and the whole IQK run
(44_iqk_apply.md); and ANCHORUPD (R157), which every caller of the run makes after it. -/

namespace Sys2Proof.Machine

/-- The six transactions of FILLTX (R242). -/
def fillTx (c : Config) (p : Path) (x y : Raw) (q : Port) : Port :=
  let d := q.rdm c c.txiq[p] c.maskD
  let a := iqmult c (canon c x) (d.1.setWidth 10)
  let e := iqmult c (canon c y) (d.1.setWidth 10)
  let q1 := d.2.wrm c c.txiq[p] c.maskA (a.1.setWidth 32)
  let q2 := q1.wrm c c.ecca c.maskExtA[p] (bitWord a.2)
  let q3 := q2.wrm c c.txiqChi[p] c.maskCHi (high4 e.1)
  let q4 := q3.wrm c c.txiq[p] c.maskCLo (low6 e.1)
  q4.wrm c c.ecca c.maskExtC[p] (bitWord e.2)

/-- The three transactions of FILLRX (R244). -/
def fillRx (c : Config) (p : Path) (x y : Raw) (q : Port) : Port :=
  let q1 := q.wrm c c.rxiq[p] c.maskX (x.setWidth 32)
  let q2 := q1.wrm c c.rxiq[p] c.maskYLo (low6 y)
  q2.wrm c c.rxiqYhi[p] c.maskYHi[p] (high4 y)

/-- APPLY for one path: fill what is usable (R248). -/
def applyPath (cand : BitVec 2) (p : Path) (s : State) : State :=
  let s0 := s.setWork { s.work with p := p }
  let k := s0.work
  let s1 := if usable s.cfg k cand (txGroup p) then
      s0.setPort (fillTx s0.cfg p (k.resAt (candRound cand) (slotX (txGroup p)))
        (k.resAt (candRound cand) (slotY (txGroup p))) s0.port)
    else s0
  if usable s.cfg k cand (rxGroup p) then
    s1.setPort (fillRx s1.cfg p (k.resAt (candRound cand) (slotX (rxGroup p)))
      (k.resAt (candRound cand) (slotY (rxGroup p))) s1.port)
  else s1

/-- APPLY (R248). -/
def applyCand (cand : BitVec 2) (s : State) : State := applyPath cand 1 (applyPath cand 0 (s.setPhase .calApply))

/-- The TX X that RETAIN keeps for a path (R246). -/
def retainedX (c : Config) (k : Work) (cand : BitVec 2) (p : Path) : Raw :=
  if usable c k cand (txGroup p) then k.resAt (candRound cand) (slotX (txGroup p)) else xUnity c

/-- The TX Y that RETAIN keeps for a path (R246). -/
def retainedY (c : Config) (k : Work) (cand : BitVec 2) (p : Path) : Raw :=
  if usable c k cand (txGroup p) then k.resAt (candRound cand) (slotY (txGroup p)) else 0

/-- RETAIN (R246). -/
def retain (cand : BitVec 2) (s : State) : State :=
  s.setCal ⟨#v[retainedX s.cfg s.work cand 0, retainedX s.cfg s.work cand 1],
    #v[retainedY s.cfg s.work cand 0, retainedY s.cfg s.work cand 1], true⟩

/-- FINALRESTORE (R250): the first two backup elements, then the RX-mode baseline. -/
def finalRestore (s : State) : State :=
  let t := (s.setPhase .calFinal).setPort (s.port.restoreAll s.cfg ((s.cfg.backupSet.zip s.work.bkp).take 2))
  t.perform t.cfg.rxmodeBaseline

/-- Steps 7 and 8 of the run, and OUTCOME (R254). The run ends here: its working registers are dead (R27), and what they hold
until the next run clears them is any value (U10); they keep what the run left in them (assumption log 12, DESIGN CHOICE). -/
def iqkFinish (found : Bool) (s : State) : Bool × State :=
  let t := finalRestore (if found then retain s.work.cand (applyCand s.work.cand s) else s)
  (found, { t with outcome := outcomeWord found s.work.cand })

/-- Step 6 of the run: the hybrid round (R254). -/
def hybrid (s : State) : Bool × State := hybChk (hybNorm (hybAcc s))

/-- IQKRUN (R254); the result is `applied`. -/
def iqkRun (s : State) : Bool × State :=
  let s1 := measRound 1 (measRound 0 (backup (s.setWork s.work.clear)))
  let v1 := vote 1 s1
  if v1.1 then iqkFinish true v1.2
  else
    let v2 := vote 2 (measRound 2 v1.2)
    if v2.1 then iqkFinish true v2.2
    else iqkFinish (hybrid v2.2).1 (hybrid v2.2).2

/-- ANCHORUPD (R157): the recalibration anchor becomes the average, if one exists. -/
def anchorUpd (s : State) : State :=
  if s.pt.avgValid[s.cfg.thermPath] then
    s.setPt { s.pt with
      anchor := BitVec.ofNat 8 (s.pt.avgAcc[s.cfg.thermPath] >>> s.cfg.avgPrec), anchorValid := true }
  else s

/-! ## The operations issued one at a time: the candidate is `cand`, the path SEQ.p, the rest is on the wires -/

/-- USABLE (R240). -/
def execUsable (s : State) : Result :=
  .next (s.setWires { s.wires with usable := usable s.cfg s.work s.work.cand s.wires.g })

/-- FILLTX (R242). -/
def execFilltx (s : State) : Result := .next (s.setPort (fillTx s.cfg s.work.p s.wires.x s.wires.y s.port))

/-- FILLRX (R244). -/
def execFillrx (s : State) : Result := .next (s.setPort (fillRx s.cfg s.work.p s.wires.x s.wires.y s.port))

/-- RETAIN (R246). -/
def execRetain (s : State) : Result := .next (retain s.work.cand s)

/-- APPLY (R248). -/
def execApply (s : State) : Result := .next (applyCand s.work.cand s)

/-- FINALRESTORE (R250). -/
def execFinalrestore (s : State) : Result := .next (finalRestore s)

/-- IQKRUN (R254). -/
def execIqkrun (s : State) : Result := .next ((iqkRun s).2.setWires { s.wires with found := (iqkRun s).1 })

end Sys2Proof.Machine
end

