-- ==== Sys2Proof/Machine/Swing.lean ====
section
/-! DEFINITION. Unit 6: delta lookup, swing clamp and remnant, swing-table writes, commit, one path's compensation, and
the resync of the baseline indices (46_pt_swing.md). -/

namespace Sys2Proof.Machine

/-- DLOOKUP (R286): the signed OFDM and CCK delta indices of an excursion. -/
def dLookup (c : Config) (pol : Polarity) (k : Nat) : Int × Int :=
  match pol with
  | .pos => (((romByte c.dtOfdmPos k).toNat : Int), ((romByte c.dtCckPos k).toNat : Int))
  | .neg => (-((romByte c.dtOfdmNeg k).toNat : Int), -((romByte c.dtCckNeg k).toNat : Int))

/-- A request clamped to `0 .. n` is an index of a table of `n + 1` entries (R291, R304). -/
theorem clamp_toNat_lt (req : Int) (n : Nat) : (clamp req 0 n).toNat < n + 1 := by
  unfold clamp; split
  · omega
  · split <;> omega

/-- SWCLAMP against a table of `n + 1` entries: the index and the remnant (R291). -/
def swClamp (n : Nat) (req : Int) : Fin (n + 1) × Int := (⟨(clamp req 0 n).toNat, clamp_toNat_lt req n⟩, req - clamp req 0 n)

/-- SWOFDM (R293): the raw entry while doneFlag = 0, the matrix form when it is 1. The entry may be any word, also one whose
bits 15:10 are not zero, which a composite word's are (R120, R121); the raw write stores it as it is (assumption log 31,
DESIGN CHOICE). -/
def swOfdm (c : Config) (cal : CalState) (p : Path) (idx : Fin ofdmTblSz) (q : Port) : Port :=
  let e := c.ofdmTbl[idx]
  if cal.doneFlag then
    let a := iqmult c (canon c cal.txX[p]) (entryD e)
    let f := iqmult c (canon c cal.txY[p]) (entryD e)
    let q1 := q.wr c .w32 c.txiq[p] (acd a.1 f.1 (entryD e))
    let q2 := q1.wrm c c.txiqChi[p] c.maskCHi (high4 f.1)
    let q3 := q2.wrm c c.ecca c.maskExtA[p] (bitWord a.2)
    q3.wrm c c.ecca c.maskExtC[p] (bitWord f.2)
  else q.wr c .w32 c.txiq[p] e

/-- SWCCK (R295): eight byte writes, always from the channels 1 to 13 table (R296). -/
def swCck (c : Config) (idx : Fin cckTblSz) (q : Port) : Port :=
  (List.finRange cckNreg).foldl (fun q k => q.wr c .w8 (c.cckReg k) (((c.cckTbl[idx])[k]).setWidth 32)) q

/-- COMMIT (R297): store the deltas and remnants, then the two hooks. -/
def commit (p : Path) (dO dC rO rC : Int) (s : State) : State :=
  let t := s.setPt { s.pt with
    deltaOfdm := s.pt.deltaOfdm.set p (BitVec.ofInt 9 dO)
    deltaCck := s.pt.deltaCck.set p (BitVec.ofInt 9 dC)
    remnantOfdm := s.pt.remnantOfdm.set p (BitVec.ofInt 10 rO)
    remnantCck := s.pt.remnantCck.set p (BitVec.ofInt 10 rC) }
  t.setPort (t.port.chan.2.reapply t.cfg t.port.chan.1)

/-- PATHCOMP (R298): skipped when both deltas are unchanged. -/
def pathComp (p : Path) (pol : Polarity) (k : Nat) (s : State) : State :=
  let d := dLookup s.cfg pol k
  if d.1 = s.pt.deltaOfdm[p].toInt ∧ d.2 = s.pt.deltaCck[p].toInt then s
  else
    let o := swClamp (ofdmTblSz - 1) (s.pt.ofdmIndex.toNat + d.1)
    let e := swClamp (cckTblSz - 1) (s.pt.cckIndex.toNat + d.2)
    commit p d.1 d.2 o.2 e.2 (s.setPort (swCck s.cfg e.1 (swOfdm s.cfg s.cal p o.1 s.port)))

/-- The lowest OFDM entry whose D field is `v`, else DEF_OFDM_INDEX (R300). -/
def ofdmIndexOf (c : Config) (v : Elem) : BitVec 6 :=
  match c.ofdmTbl.toList.findIdx? (fun e => entryD e == v) with
  | some i => BitVec.ofNat 6 i
  | none => c.defOfdmIndex

/-- The lowest CCK entry whose first byte is `b`, else DEF_CCK_INDEX (R301). -/
def cckIndexOf (c : Config) (b : Byte) : BitVec 6 :=
  match c.cckTbl.toList.findIdx? (fun e => e[0] == b) with
  | some i => BitVec.ofNat 6 i
  | none => c.defCckIndex

/-- RESYNCO (R300). -/
def resyncO (s : State) : State :=
  let r := s.port.rdm s.cfg s.cfg.txiq[0] s.cfg.maskD
  (s.setPort r.2).setPt { s.pt with ofdmIndex := ofdmIndexOf s.cfg (r.1.setWidth 10) }

/-- RESYNCC (R301). -/
def resyncC (s : State) : State :=
  let r := s.port.rd s.cfg .w8 (s.cfg.cckReg 0)
  (s.setPort r.2).setPt { s.pt with cckIndex := cckIndexOf s.cfg (r.1.setWidth 8) }

/-- RESYNC (R302). -/
def resync (s : State) : State := resyncC (resyncO s)

/-! ## The operations issued one at a time: the path is SEQ.p, the rest is on the wires -/

/-- DLOOKUP (R286). -/
def execDlookup (s : State) : Result :=
  .next (s.setWires { s.wires with
    deltaO := (dLookup s.cfg s.wires.pol s.wires.k).1, deltaC := (dLookup s.cfg s.wires.pol s.wires.k).2 })

/-- SWCLAMP (R291): the table operand says which index and remnant are driven. -/
def execSwclamp (s : State) : Result :=
  match s.wires.tbl with
  | .ofdm =>
    let x := swClamp (ofdmTblSz - 1) s.wires.req
    .next (s.setWires { s.wires with idxO := x.1, remO := x.2 })
  | .cck =>
    let x := swClamp (cckTblSz - 1) s.wires.req
    .next (s.setWires { s.wires with idxC := x.1, remC := x.2 })

/-- SWOFDM (R293). -/
def execSwofdm (s : State) : Result := .next (s.setPort (swOfdm s.cfg s.cal s.work.p s.wires.idxO s.port))

/-- SWCCK (R295). -/
def execSwcck (s : State) : Result := .next (s.setPort (swCck s.cfg s.wires.idxC s.port))

/-- COMMIT (R297). -/
def execCommit (s : State) : Result :=
  .next (commit s.work.p s.wires.deltaO s.wires.deltaC s.wires.remO s.wires.remC s)

/-- PATHCOMP (R298). -/
def execPathcomp (s : State) : Result := .next (pathComp s.work.p s.wires.pol s.wires.k s)

/-- RESYNCO (R300). -/
def execResynco (s : State) : Result := .next (resyncO s)

/-- RESYNCC (R301). -/
def execResyncc (s : State) : Result := .next (resyncC s)

/-- RESYNC (R302). -/
def execResync (s : State) : Result := .next (resync s)

end Sys2Proof.Machine
end

