-- ==== Sys2Proof/Machine/Sense.lean ====
section
/-! DEFINITION. Unit 5: arming, sensing, the two threshold decisions, the raw delta, and the full pass
(45_pt_sense.md). -/

namespace Sys2Proof.Machine

/-- ARM (R262): perform THERM_ARM. TICK flips ptTriggered (R155). -/
def arm (s : State) : State := s.perform s.cfg.thermArm

/-- UNSUPCHK (R263): the result is `stop`. -/
def unsupChk (s : State) : Bool × State :=
  if s.thermalRef = s.cfg.thermUnsupported then (true, (s.setPt { s.pt with disabled := true }).warn .thermUnsupported)
  else (false, s)

/-- THREAD (R264): the thermal code, zero-extended to 8 bits. -/
def thermRead (s : State) : Byte × State :=
  let r := s.port.rfrd s.cfg s.cfg.thermPath s.cfg.rfTMeter s.cfg.maskCode
  (r.1.setWidth 8, s.setPort r.2)

/-- The accumulator after a sample (R266). -/
def avgNext (c : Config) (valid : Bool) (acc : Nat) (t : Byte) : Nat :=
  if valid then ((acc <<< c.avgRcpLog2) - acc + (t.toNat <<< c.avgPrec)) >>> c.avgRcpLog2 else t.toNat <<< c.avgPrec

/-- AVGUPD (R266): the result is the integer part of the average. -/
def avgUpd (t : Byte) (s : State) : Byte × State :=
  let q := s.cfg.thermPath
  let acc := avgNext s.cfg s.pt.avgValid[q] s.pt.avgAcc[q] t
  (BitVec.ofNat 8 (acc >>> s.cfg.avgPrec),
    s.setPt { s.pt with avgAcc := s.pt.avgAcc.set q acc, avgValid := s.pt.avgValid.set q true })

/-- The distance of two thermal codes. -/
def codeDist (a b : Byte) : Nat := ((a.toNat : Int) - (b.toNat : Int)).natAbs

/-- NEEDIQK (R268): seeds the anchor when there is none. -/
def needIqk (avg : Byte) (s : State) : Bool × State :=
  if s.pt.anchorValid then (decide (s.cfg.iqkThresh ≤ codeDist avg s.pt.anchor), s)
  else (false, s.setPt { s.pt with anchor := avg, anchorValid := true })

/-- COMPCHK (R270): the result is `go`. -/
def compChk (t : Byte) (s : State) : Bool × State :=
  if s.pt.initTrigger then (true, s.setPt { s.pt with initTrigger := false })
  else (decide (s.cfg.compThresh < codeDist t s.pt.lastApplied), s)

/-- The clamped difference of RAWDELTA (R272). -/
def rawDeltaOf (c : Config) (t last : Byte) : Int :=
  clamp ((t.toNat : Int) - last.toNat) (-((c.deltaTblSz : Int) - 1)) ((c.deltaTblSz : Int) - 1)

/-- The polarity that serves a raw delta: POS only above zero (R272, U17). -/
def polarityOf (d : Int) : Polarity := if 0 < d then .pos else .neg

/-- RAWDELTA (R272): the polarity and the table index. -/
def rawDelta (t : Byte) (s : State) : (Polarity × Nat) × State :=
  let d := rawDeltaOf s.cfg t s.pt.lastApplied
  ((polarityOf d, d.natAbs), s.setPt { s.pt with lastApplied := t })

/-- Step 6 of the pass for both paths, p on SEQ (R274, R31). -/
def compensate (pol : Polarity) (k : Nat) (s : State) : State :=
  let a := pathComp 0 pol k (s.setWork { s.work with p := 0 })
  pathComp 1 pol k (a.setWork { a.work with p := 1 })

/-- Steps 5 and 6 of the pass (R274). -/
def passComp (t : Byte) (s : State) : State :=
  let r := rawDelta t (s.setPhase .ptPassComp)
  compensate r.1.1 r.1.2 r.2

/-- An IQK run with the anchor recorded when it is applied: what CALIBRATE and step 7 of the pass both do (R154, R274). -/
def iqkAnchored (s : State) : Bool × State :=
  let r := iqkRun s
  (r.1, if r.1 then anchorUpd r.2 else r.2)

/-- Step 7 of the pass: the nested run, then the resync whether or not it succeeds (R274, R302). -/
def passIqk (s : State) : State :=
  let r := iqkAnchored { s with seq := ⟨.ptPassIqk, true⟩ }
  resync { r.2 with seq := ⟨.ptResync, false⟩ }

/-- Steps 2 to 7 of the pass, once the sensor is known to be supported (R274). -/
def passBody (s : State) : State :=
  let r := thermRead s
  let a := avgUpd r.1 r.2
  let n := needIqk a.1 a.2
  let g := compChk r.1 n.2
  let c := if g.1 then passComp r.1 g.2 else g.2
  if n.1 then passIqk c else c

/-- PASS (R274). -/
def pass (s : State) : State :=
  let u := unsupChk (s.setPhase .ptPassSense)
  if u.1 then u.2 else passBody u.2

/-! ## The operations issued one at a time, operands and results on the wires -/

/-- ARM (R262). -/
def execArm (s : State) : Result := .next (arm s)

/-- UNSUPCHK (R263). -/
def execUnsupchk (s : State) : Result := .next ((unsupChk s).2.setWires { s.wires with stop := (unsupChk s).1 })

/-- THREAD (R264). -/
def execThread (s : State) : Result := .next ((thermRead s).2.setWires { s.wires with t := (thermRead s).1 })

/-- AVGUPD (R266). -/
def execAvgupd (s : State) : Result :=
  .next ((avgUpd s.wires.t s).2.setWires { s.wires with avg := (avgUpd s.wires.t s).1 })

/-- NEEDIQK (R268). -/
def execNeedIqk (s : State) : Result :=
  .next ((needIqk s.wires.avg s).2.setWires { s.wires with needIqk := (needIqk s.wires.avg s).1 })

/-- COMPCHK (R270). -/
def execCompchk (s : State) : Result :=
  .next ((compChk s.wires.t s).2.setWires { s.wires with go := (compChk s.wires.t s).1 })

/-- RAWDELTA (R272). -/
def execRawdelta (s : State) : Result :=
  .next ((rawDelta s.wires.t s).2.setWires
    { s.wires with pol := (rawDelta s.wires.t s).1.1, k := (rawDelta s.wires.t s).1.2 })

/-- PASS (R274). -/
def execPass (s : State) : Result := .next (pass s)

end Sys2Proof.Machine
end

