-- ==== Sys2Proof/Machine/Host.lean ====
section
/-! DEFINITION. Unit 0: the four host commands (40_commands.md), with their acceptance (R151). -/

namespace Sys2Proof.Machine

/-- Acceptance of INIT (R151): the code it is refused with, if any. -/
def refusesInit (s : State) : Option Byte :=
  if s.busy then some stErrBusy else if s.inited then some stErrAlreadyInited else none

/-- Acceptance of CALIBRATE, TICK and DETACH (R151). -/
def refusesOther (s : State) : Option Byte :=
  if s.busy then some stErrBusy else if s.inited then none else some stErrNotInited

/-- The end of a command: STATUS, busy, back to IDLE (R150). -/
def State.finish (s : State) (code : Byte) : State := { s.setPhase .idle with status := code, busy := false }

/-- Every element of the table of R53 at its "after INIT" value, before the hooks and the resync are made (R153). -/
def initRegs (s : State) : State :=
  let t := s.discard
  { t with
    busy := true, seq := ⟨.initRun, false⟩, thermalRef := s.thermalRefIn,
    pt := { PtState.initial s.cfg with initTrigger := true, lastApplied := s.thermalRefIn } }

/-- INIT, accepted (R153); the reserved answer 3 of the hook is refused (R134, U6). -/
def runInit (s : State) : Result :=
  let t := initRegs s
  match t.port.hci with
  | some r => .next ({ resync { t with port := r.2, hciKind := r.1 } with inited := true }.finish stOk)
  | none => .refused .reservedHciKind

/-- INIT (R153). -/
def execInit (s : State) : Result :=
  match refusesInit s with
  | some code => .next (s.refuse code)
  | none => runInit s

/-- CALIBRATE, accepted (R154). -/
def runCalibrate (s : State) : State :=
  let r := iqkAnchored { s with busy := true }
  r.2.finish (if r.1 then stOk else stCalFailed)

/-- CALIBRATE (R154). -/
def execCalibrate (s : State) : Result :=
  match refusesOther s with
  | some code => .next (s.refuse code)
  | none => .next (runCalibrate s)

/-- TICK, accepted, of an enabled controller (R155): an ARMED tick arms, a SAMPLED tick makes a pass. -/
def runTick (s : State) : State :=
  let b := { s with busy := true }
  let t :=
    if s.pt.triggered then
      let u := pass b
      u.setPt { u.pt with triggered := false }
    else
      let u := arm (b.setPhase .ptArm)
      u.setPt { u.pt with triggered := true }
  t.finish (if t.pt.disabled then stPtDisabled else stOk)

/-- TICK (R155): a disabled controller only answers its status. -/
def execTick (s : State) : Result :=
  match refusesOther s with
  | some code => .next (s.refuse code)
  | none => if s.pt.disabled then .next { s with status := stPtDisabled } else .next (runTick s)

/-- DETACH (R156). -/
def execDetach (s : State) : Result :=
  match refusesOther s with
  | some code => .next (s.refuse code)
  | none => .next { s.discard with status := stOk }

end Sys2Proof.Machine
end

