-- ==== Sys2Proof/Machine/Transact.lean ====
section
/-! DEFINITION. Unit 7: the port transactions (20_memory.md section 4), issued one at a time with their operands on the
wires; the path operand is SEQ.p. -/

namespace Sys2Proof.Machine

/-- RD (R82). -/
def execRd (s : State) : Result :=
  .next ((s.setPort (s.port.rd s.cfg s.wires.width s.wires.addr).2).setWires
    { s.wires with val := (s.port.rd s.cfg s.wires.width s.wires.addr).1 })

/-- WR (R83). -/
def execWr (s : State) : Result := .next (s.setPort (s.port.wr s.cfg s.wires.width s.wires.addr s.wires.val))

/-- RDM (R84). -/
def execRdm (s : State) : Result :=
  .next ((s.setPort (s.port.rdm s.cfg s.wires.addr s.wires.mask).2).setWires
    { s.wires with val := (s.port.rdm s.cfg s.wires.addr s.wires.mask).1 })

/-- WRM (R85). -/
def execWrm (s : State) : Result := .next (s.setPort (s.port.wrm s.cfg s.wires.addr s.wires.mask s.wires.val))

/-- RFRD (R86). -/
def execRfrd (s : State) : Result :=
  .next ((s.setPort (s.port.rfrd s.cfg s.work.p s.wires.rfIndex s.wires.rfMask).2).setWires
    { s.wires with val := (s.port.rfrd s.cfg s.work.p s.wires.rfIndex s.wires.rfMask).1 })

/-- RFWR (R87). -/
def execRfwr (s : State) : Result := .next (s.setPort (s.port.rfwr s.cfg s.work.p s.wires.rfIndex s.wires.rfMask s.wires.val))

/-- DELAY (R88). -/
def execDelay (s : State) : Result := .next (s.setPort (s.port.delay s.wires.delayUnit s.wires.dur))

/-- POLL (R89). -/
def execPoll (s : State) : Result :=
  .next ((s.setPort (s.port.poll s.wires.addr s.wires.mask s.wires.expect s.wires.interval s.wires.timeout).2).setWires
    { s.wires with
      verdict := (s.port.poll s.wires.addr s.wires.mask s.wires.expect s.wires.interval s.wires.timeout).1 })

/-- HOOK_CHAN (R90). -/
def execHookChan (s : State) : Result :=
  .next ((s.setPort s.port.chan.2).setWires { s.wires with chan := s.port.chan.1 })

/-- HOOK_REAPPLY (R90). -/
def execHookReapply (s : State) : Result := .next (s.setPort (s.port.reapply s.cfg s.wires.chan))

/-- HOOK_HCI (R91); the reserved answer 3 is refused (R134, U6). -/
def execHookHci (s : State) : Result :=
  match s.port.hci with
  | some r => .next ((s.setPort r.2).setWires { s.wires with hci := r.1 })
  | none => .refused .reservedHciKind

end Sys2Proof.Machine
end

