-- ==== Sys2Proof/Machine/Dispatch.lean ====
section
/-! DEFINITION. One arm per operation, each a direct call of its meaning. -/

namespace Sys2Proof.Machine

def exec (i : Instr) (s : State) : Host.Outcome State Fault Refusal :=
  match i with
  | .init => Sys2Proof.Machine.execInit s
  | .calibrate => Sys2Proof.Machine.execCalibrate s
  | .tick => Sys2Proof.Machine.execTick s
  | .detach => Sys2Proof.Machine.execDetach s
  | .canon => Sys2Proof.Machine.execCanon s
  | .encode => Sys2Proof.Machine.execEncode s
  | .iqmult => Sys2Proof.Machine.execIqmult s
  | .absdiff => Sys2Proof.Machine.execAbsdiff s
  | .backup => Sys2Proof.Machine.execBackup s
  | .calcfg => Sys2Proof.Machine.execCalcfg s
  | .oneshot => Sys2Proof.Machine.execOneshot s
  | .txchk => Sys2Proof.Machine.execTxchk s
  | .rxchk => Sys2Proof.Machine.execRxchk s
  | .txatt => Sys2Proof.Machine.execTxatt s
  | .rxatt => Sys2Proof.Machine.execRxatt s
  | .txmeas => Sys2Proof.Machine.execTxmeas s
  | .rxmeas => Sys2Proof.Machine.execRxmeas s
  | .round => Sys2Proof.Machine.execRound s
  | .roundrestore => Sys2Proof.Machine.execRoundrestore s
  | .simslot => Sys2Proof.Machine.execSimslot s
  | .simcmp => Sys2Proof.Machine.execSimcmp s
  | .vote => Sys2Proof.Machine.execVote s
  | .hybacc => Sys2Proof.Machine.execHybacc s
  | .hybnorm => Sys2Proof.Machine.execHybnorm s
  | .hybchk => Sys2Proof.Machine.execHybchk s
  | .usable => Sys2Proof.Machine.execUsable s
  | .filltx => Sys2Proof.Machine.execFilltx s
  | .fillrx => Sys2Proof.Machine.execFillrx s
  | .retain => Sys2Proof.Machine.execRetain s
  | .apply => Sys2Proof.Machine.execApply s
  | .finalrestore => Sys2Proof.Machine.execFinalrestore s
  | .iqkrun => Sys2Proof.Machine.execIqkrun s
  | .arm => Sys2Proof.Machine.execArm s
  | .unsupchk => Sys2Proof.Machine.execUnsupchk s
  | .thread => Sys2Proof.Machine.execThread s
  | .avgupd => Sys2Proof.Machine.execAvgupd s
  | .needIqk => Sys2Proof.Machine.execNeedIqk s
  | .compchk => Sys2Proof.Machine.execCompchk s
  | .rawdelta => Sys2Proof.Machine.execRawdelta s
  | .pass => Sys2Proof.Machine.execPass s
  | .dlookup => Sys2Proof.Machine.execDlookup s
  | .swclamp => Sys2Proof.Machine.execSwclamp s
  | .swofdm => Sys2Proof.Machine.execSwofdm s
  | .swcck => Sys2Proof.Machine.execSwcck s
  | .commit => Sys2Proof.Machine.execCommit s
  | .pathcomp => Sys2Proof.Machine.execPathcomp s
  | .resynco => Sys2Proof.Machine.execResynco s
  | .resyncc => Sys2Proof.Machine.execResyncc s
  | .resync => Sys2Proof.Machine.execResync s
  | .rd => Sys2Proof.Machine.execRd s
  | .wr => Sys2Proof.Machine.execWr s
  | .rdm => Sys2Proof.Machine.execRdm s
  | .wrm => Sys2Proof.Machine.execWrm s
  | .rfrd => Sys2Proof.Machine.execRfrd s
  | .rfwr => Sys2Proof.Machine.execRfwr s
  | .delay => Sys2Proof.Machine.execDelay s
  | .poll => Sys2Proof.Machine.execPoll s
  | .hookChan => Sys2Proof.Machine.execHookChan s
  | .hookReapply => Sys2Proof.Machine.execHookReapply s
  | .hookHci => Sys2Proof.Machine.execHookHci s

end Sys2Proof.Machine
end

