-- ==== Sys2Proof/Machine/Issue.lean ====
section
/-! DEFINITION. What one step does with the operation it takes: a code of the sequencer's issue slot, or an input of the
host (R130, R136, R151). -/

namespace Sys2Proof.Machine

/-- The sequencer issues a micro-operation or transaction code; no other code can stand there (R130, R136). -/
def issueMicro (code : Byte) (s : State) : Result :=
  match decode code with
  | .ok i => if i.wellFormed .sequencer then exec i s else .refused (.notAMicroOperation code)
  | .error _ => .refused (.notAMicroOperation code)

/-- A code on the command port (R151): busy first, then illegal codes, then the command's own acceptance. -/
def issueHost (code : Byte) (s : State) : Result :=
  if s.busy then .next (s.refuse stErrBusy)
  else match decode code with
    | .ok i => if i.wellFormed .host then exec i s else .next (s.refuse stErrIllegal)
    | .error _ => .next (s.refuse stErrIllegal)

/-- Other agents write the device: any location between runs (R95, U16); while busy = 1 any but the block's footprint, whose
writes R92 excludes by assumption (U15). -/
def outsideWrites (ws : List DevWrite) (s : State) : Result :=
  if s.busy && ws.any s.cfg.inFootprint then .refused .lockViolated
  else .next (s.setPort { s.port with dev := ws.foldl (Device.outsideWrite s.cfg) s.port.dev })

/-- One input from outside. -/
def takeEvent (e : HostEvent) (s : State) : Result :=
  match e with
  | .command code pin => issueHost code { s with thermalRefIn := pin }
  | .outside ws => outsideWrites ws s
  | .hardwareReset => .next s.hardwareReset

end Sys2Proof.Machine
end

