-- ==== Sys2Proof/Machine/Step.lean ====
section
/-! DEFINITION. One step of the machine: the next micro-operation of the issue slot, else the next input, else nothing
(an idle block does nothing until the host issues a command, R54). One step runs one operation to completion, as R32
allows. -/

namespace Sys2Proof.Machine

/-- One step. -/
def step (s : State) : Host.Outcome State Fault Refusal :=
  match s.useq with
  | code :: rest => issueMicro code { s with useq := rest }
  | [] =>
    match s.cmds with
    | e :: rest => takeEvent e { s with cmds := rest }
    | [] => .next s

/-- `s` with the operation whose code is `w` where the next step takes its operation from: a host code (unit 0x0) first on
the command port, with the level now on the thermalRef input; any other code first in the sequencer's issue slot. -/
def State.withFetchWord (s : State) (_nbits w : Nat) : State :=
  if w < 16 then { s with useq := [], cmds := .command (BitVec.ofNat 8 w) s.thermalRefIn :: s.cmds }
  else { s with useq := BitVec.ofNat 8 w :: s.useq }

end Sys2Proof.Machine
end

