-- ==== Sys2Proof/Safety.lean ====
section
/-! DEFINITION. What counts as a safe state and a safe step, and the terms in which claims speak of transactions: the trace
record of a list operation, of a backup element's restore, what a backup element holds, and what a sequence of writes
leaves. -/

namespace Sys2Proof

/-- The control bytes a backup element covers. -/
def BackupElem.covers (a : Addr) : BackupElem → Prop
  | .ctl b _ => a ∈ Width.w32.bytes b
  | .rf _ _ _ => False

/-- The control bytes a list operation writes. -/
def ListOp.covers (a : Addr) : ListOp → Prop
  | .wr w b _ => a ∈ w.bytes b
  | .wrm b _ _ => a ∈ Width.w32.bytes b
  | .rfwr _ _ _ _ => False
  | .delay _ _ => False

/-- The RF location a list operation writes. -/
def ListOp.coversRf (p : Path) (i : Byte) : ListOp → Prop
  | .rfwr p' i' _ _ => p' = p ∧ i' = i
  | _ => False

end Sys2Proof

namespace Sys2Proof.Machine

/-! ## Legal values of the host-visible registers -/

/-- The codes STATUS can hold (R321). -/
def legalStatus (b : Byte) : Prop :=
  b = 0x00 ∨ b = 0x01 ∨ b = 0x02 ∨ b = 0x03 ∨ b = 0x80 ∨ b = 0x81 ∨ b = 0x82 ∨ b = 0x83

/-- The words OUTCOME can hold: failed, round 0, round 1, hybrid (R132). -/
def legalOutcome (b : Byte) : Prop := b = 0x00 ∨ b = 0x03 ∨ b = 0x07 ∨ b = 0x0F

/-! ## The invariant between commands (R32, R39, R342) -/

/-- The state between two commands of the host: what every command finds and leaves. -/
structure State.Inv (s : State) : Prop where
  /-- the configuration is one the block accepts (R356) -/
  config : s.cfg.wf = true
  /-- the control space is in canonical form -/
  mem : s.port.dev.mem.wf = true
  /-- the RF space is in canonical form -/
  rf : rfWf s.cfg s.port.dev.rf = true
  /-- R20: BKP has one word for each element of the backup set -/
  bkp : s.work.bkp.length = s.cfg.backupSet.length
  /-- R32 -/
  idle : s.seq.phase = .idle
  /-- no nested run is open (R31) -/
  ret : s.seq.ret = false
  /-- R39 (1): no command is in flight -/
  notBusy : s.busy = false
  /-- no micro-operation is waiting to be issued -/
  noMicro : s.useq = []
  /-- R321 -/
  status : legalStatus s.status
  /-- R132 -/
  outcome : legalOutcome s.outcome
  /-- R35: range 0..42 -/
  ofdmIndex : s.pt.ofdmIndex.toNat ≤ 42
  /-- R35: range 0..32 -/
  cckIndex : s.pt.cckIndex.toNat ≤ 32
  /-- R35, R266: the accumulator fits 8 + AVG_PREC bits -/
  avgBound : ∀ p : Path, s.pt.avgAcc[p] < 2 ^ (8 + s.cfg.avgPrec)
  /-- R35: the other path's average stays at its reset value -/
  otherPath : ∀ p : Path, p ≠ s.cfg.thermPath → s.pt.avgAcc[p] = 0 ∧ s.pt.avgValid[p] = false
  /-- R298: both paths hold the same deltas -/
  deltas : s.pt.deltaOfdm[0] = s.pt.deltaOfdm[1] ∧ s.pt.deltaCck[0] = s.pt.deltaCck[1]
  /-- R286: a delta index is in -255..255 -/
  deltaRange : ∀ p : Path, -255 ≤ s.pt.deltaOfdm[p].toInt ∧ -255 ≤ s.pt.deltaCck[p].toInt
  /-- R291, R298: both paths hold the same remnants -/
  remnants : s.pt.remnantOfdm[0] = s.pt.remnantOfdm[1] ∧ s.pt.remnantCck[0] = s.pt.remnantCck[1]
  /-- R53: outside INIT .. DETACH every record is as the reset leaves it -/
  absent : s.inited = false → s.cal = CalState.initial s.cfg ∧ s.pt = PtState.initial s.cfg ∧ s.thermalRef = 0 ∧
    s.hciKind = .usb ∧ s.outcome = 0x00
  /-- R34, R246: while doneFlag is clear the record holds the "no correction" reading -/
  uncalibrated : s.cal.doneFlag = false → s.cal = CalState.initial s.cfg
  /-- R263: a disabled controller has an unsupported sensor, and is not waiting for a sample -/
  disabled : s.pt.disabled = true → s.thermalRef = s.cfg.thermUnsupported ∧ s.pt.triggered = false
  /-- R266, R268, R157: there is an anchor exactly when there is an average -/
  anchored : s.pt.anchorValid = s.pt.avgValid[s.cfg.thermPath]
  /-- R270: while the first pass is awaited nothing has been averaged or applied -/
  firstPass : s.pt.initTrigger = true → s.pt.avgValid[s.cfg.thermPath] = false ∧ s.pt.lastApplied = s.thermalRef ∧
    s.pt.deltaOfdm[0] = 0 ∧ s.pt.deltaCck[0] = 0 ∧ s.pt.remnantOfdm[0] = 0 ∧ s.pt.remnantCck[0] = 0

/-- A safe step answers a next state: neither a fault nor a refusal. -/
def State.Safe (s : State) : Prop := ∃ t : State, step s = .next t

/-- The environment has no reserved bus kind pending (R134, U6). -/
def Device.hciLegal (d : Device) : Prop := ∀ b ∈ d.hciQ, b ≠ 3#2

/-! ## Transactions as claims name them (R140) -/

/-- The record of one list operation (R192, R140). -/
def listRecord (c : Config) (h : HciKind) : ListOp → TraceRec
  | .wr w a v => ⟨0x71, widthAux w, a, widthMask w, ListVal.value c h v &&& widthMask w, 0⟩
  | .wrm a m v => ⟨0x73, 0x20, a, m, ListVal.value c h v, 0⟩
  | .rfwr p i m v => ⟨0x75, pathAux p, i.setWidth 16, m, ListVal.value c h v, 0⟩
  | .delay u d => ⟨0x76, unitAux u, 0, 0, d, 0⟩

/-- The record of restoring one backup element (R210, R250). -/
def restoreRecord (x : BackupElem × Word) : TraceRec :=
  match x.1 with
  | .ctl a m => ⟨0x73, 0x20, a, m, x.2, 0⟩
  | .rf p i m => ⟨0x75, pathAux p, i.setWidth 16, m, x.2, 0⟩

/-- The record of saving one backup element, whose value was `v` (R190). -/
def backupRecord (v : Word) : BackupElem → TraceRec
  | .ctl a m => ⟨0x72, 0x20, a, m, 0, v⟩
  | .rf p i m => ⟨0x74, pathAux p, i.setWidth 16, m, 0, v⟩

/-- The three words the environment answers to an attempt's status reads, as fail bit, X and Y, and the environment
afterwards (R196, R203). -/
def drawAttempt (failMask resMask : Word) (d : Device) : (Bool × Raw × Raw) × Device :=
  let f := d.drawStatus
  let x := f.2.drawStatus
  let y := x.2.drawStatus
  ((fieldGet f.1 failMask != 0, (fieldGet x.1 resMask).setWidth 10, (fieldGet y.1 resMask).setWidth 10), y.2)

/-- The records of a one-shot up to and with its poll (R194). -/
def oneshotRecords (c : Config) (v : Verdict) : List TraceRec :=
  c.trigSeq.map (fun w => ⟨0x71, 0x20, c.iqkTrig, 0xFFFFFFFF, w, 0⟩) ++
    [⟨0x76, 1, 0, 0, c.tSettle, 0⟩, ⟨0x77, 0x20, c.iqkRdy, c.maskRdy, 1, verdictWord v⟩]

/-- The record of a masked read that answered `v` (R84). -/
def rdmRecord (a : Addr) (m v : Word) : TraceRec := ⟨0x72, 0x20, a, m, 0, v⟩

/-- The record of a masked write of `v` (R85). -/
def wrmRecord (a : Addr) (m v : Word) : TraceRec := ⟨0x73, 0x20, a, m, v, 0⟩

/-- The records of the three status reads of an attempt (R196, R203). -/
def attemptRecords (c : Config) (failMask : Word) (addrX addrY : Addr) (resMask : Word) (d : Device) : List TraceRec :=
  let f := d.drawStatus
  let x := f.2.drawStatus
  let y := x.2.drawStatus
  [rdmRecord c.iqkFail failMask (fieldGet f.1 failMask), rdmRecord addrX resMask (fieldGet x.1 resMask),
    rdmRecord addrY resMask (fieldGet y.1 resMask)]

/-- What one kind of measurement, TX or RX, reads and checks (R196, R203, R43). -/
structure MeasSpec where
  failMask : Word
  addrX : Addr
  addrY : Addr
  resMask : Word
  /-- whether an attempt with this fail bit, X and Y is a success (R197, R198) -/
  check : Bool → Raw → Raw → Bool
  /-- the retry bound (P18) -/
  retry : Nat

/-- A TX measurement (R196, R197, R200). -/
def txSpec (c : Config) : MeasSpec := ⟨c.maskTxFail, c.iqkTxX, c.iqkTxY, c.maskResTx, txchk c, c.retryTx⟩

/-- An RX measurement (R203, R198, R205). -/
def rxSpec (c : Config) : MeasSpec := ⟨c.maskRxFail, c.iqkRxX, c.iqkRxY, c.maskResRx, rxchk c, c.retryRx⟩

/-- What a measurement's attempts come to (R200, R205): the reading of the first success, if there is one, the records of the
attempts made, how many of them timed out, and the environment afterwards. -/
structure Measured where
  reading : Option (Raw × Raw)
  records : List TraceRec
  timeouts : Nat
  dev : Device

/-- At most `n` attempts against the environment's answers: a poll that times out is a failed attempt without values; after
`ok` three answers are the fail bit, X and Y, and the first attempt that passes the check ends the measurement (R194, R196,
R200, R203, R205). -/
def drawMeasured (c : Config) (m : MeasSpec) : Nat → Device → Measured
  | 0, d => ⟨none, [], 0, d⟩
  | n + 1, d =>
    let v := d.drawVerdict
    let a := drawAttempt m.failMask m.resMask v.2
    match v.1 with
    | .timeout =>
      let r := drawMeasured c m n v.2
      { r with records := oneshotRecords c .timeout ++ r.records, timeouts := r.timeouts + 1 }
    | .ok =>
      let l := oneshotRecords c .ok ++ attemptRecords c m.failMask m.addrX m.addrY m.resMask v.2
      if m.check a.1.1 a.1.2.1 a.1.2.2 then ⟨some a.1.2, l, 0, a.2⟩
      else
        let r := drawMeasured c m n a.2
        { r with records := l ++ r.records }

/-- The record of a byte read that answered `v` (R82). -/
def rdByteRecord (a : Addr) (v : Byte) : TraceRec := ⟨0x70, 0x08, a, 0xFF, 0, v.setWidth 32⟩

/-- The record of a word write (R83). -/
def wrRecord (a : Addr) (v : Word) : TraceRec := ⟨0x71, 0x20, a, 0xFFFFFFFF, v, 0⟩

/-- The record of a byte write (R83). -/
def wrByteRecord (a : Addr) (v : Byte) : TraceRec := ⟨0x71, 0x08, a, 0xFF, v.setWidth 32, 0⟩

/-- The bits a backup element covers, as a device holds them, right-aligned (R26, R190). -/
def heldBy (d : Device) : BackupElem → Word
  | .ctl a m => fieldGet (d.mem.wordAt a) m
  | .rf p i m => fieldGet (Store.read d.rf (rfKey p i)) m

/-- The bytes of a word register. -/
def inWord (a reg : Addr) : Prop := a ∈ Width.w32.bytes reg

/-- The control bytes of a path's TX imbalance registers, written by FILLTX (R242) and by SWOFDM (R293). -/
def inTxImbalance (c : Config) (p : Path) (a : Addr) : Prop :=
  inWord a c.txiq[p] ∨ inWord a c.txiqChi[p] ∨ inWord a c.ecca

/-- The control bytes of a path's RX imbalance registers, written by FILLRX (R244). -/
def inRxImbalance (c : Config) (p : Path) (a : Addr) : Prop := inWord a c.rxiq[p] ∨ inWord a c.rxiqYhi[p]

/-! ## What a sequence of writes leaves in the device, bit by bit (R83, R85, R87, R93) -/

/-- The bit that a list operation stores at bit `k` of the control byte `b`, if it stores one there: of byte j of the
access, bit 8j + k of a WR's value (R83), or of a WRM's value shifted to its mask where the mask has that bit (R85). -/
def ctlBit (c : Config) (h : HciKind) (b : Addr) (k : Nat) : ListOp → Option Bool
  | .wr w a v => if b ∈ w.bytes a then some ((ListVal.value c h v).getLsbD (8 * (b - a).toNat + k)) else none
  | .wrm a m v => if b ∈ Width.w32.bytes a ∧ m.getLsbD (8 * (b - a).toNat + k) = true then
      some ((ListVal.value c h v <<< ctz m).getLsbD (8 * (b - a).toNat + k)) else none
  | .rfwr _ _ _ _ => none
  | .delay _ _ => none

/-- The bit that a list operation stores at bit `k` of an RF location, if it stores one there (R87). -/
def rfBit (c : Config) (h : HciKind) (p : Path) (i : Byte) (k : Nat) : ListOp → Option Bool
  | .wr _ _ _ => none
  | .wrm _ _ _ => none
  | .rfwr p' i' m v => if p' = p ∧ i' = i ∧ m.getLsbD k = true then some ((ListVal.value c h v <<< ctz m).getLsbD k)
      else none
  | .delay _ _ => none

/-- The list operation that gives a backup element a value back (R210, R250). -/
def writeBack (x : BackupElem × Word) : ListOp :=
  match x.1 with
  | .ctl a m => .wrm a m (.lit x.2)
  | .rf p i m => .rfwr p i m (.lit x.2)

/-- The bit that the last write of a sequence leaves at a place where `f` says what each write stores there; `x` where none
stores one. -/
def lastBit {α : Type} (f : α → Option Bool) (l : List α) (x : Bool) : Bool := l.foldl (fun y o => (f o).getD y) x

/-- `e` is the device `d` after the operations `l`, in order: each bit of a STORAGE byte and of an RF location is the one
that the last operation that stores a bit there stored, and is as it was where none does; every other byte is as it was. -/
def listEffect (c : Config) (h : HciKind) (l : List ListOp) (d e : Device) : Prop :=
  (d.mem.wf = true → ∀ (b : Addr) (k : Nat), k < 8 → (e.mem.byteAt b).getLsbD k =
    if c.regClass b = .storage then lastBit (ctlBit c h b k) l ((d.mem.byteAt b).getLsbD k)
    else (d.mem.byteAt b).getLsbD k) ∧
  (rfWf c d.rf = true → ∀ (p : Path) (i : Byte) (k : Nat), k < c.rfDataW → (Store.read e.rf (rfKey p i)).getLsbD k =
    lastBit (rfBit c h p i k) l ((Store.read d.rf (rfKey p i)).getLsbD k))

/-- The bit that a write of the REAPPLY hook has for bit `k` of the control byte `b`, if it is a write to that byte. -/
def hookCtlBit (b : Addr) (k : Nat) : DevWrite → Option Bool
  | .ctl a v => if a = b then some (v.getLsbD k) else none
  | .rf _ _ _ => none

/-- The bit that a write of the REAPPLY hook has for bit `k` of an RF location, if it is a write to that location. -/
def hookRfBit (p : Path) (i : Byte) (k : Nat) : DevWrite → Option Bool
  | .ctl _ _ => none
  | .rf p' i' v => if p' = p ∧ i' = i then some (v.getLsbD k) else none

/-- Bit `k` of the control byte `b` belongs to what the resync reads, field D of TXIQ[0] or CCK_REG[0], which the hook is
assumed to leave alone (R90, U9). -/
def probedBit (c : Config) (b : Addr) (k : Nat) : Prop :=
  b = c.cckReg 0 ∨ (inWord b c.txiq[0] ∧ c.maskD.getLsbD (8 * (b - c.txiq[0]).toNat + k) = true)

/-- A record whose kind is one of the eleven transaction codes (R140, R135). -/
def isTransaction (r : TraceRec) : Prop := 0x70 ≤ r.kind.toNat ∧ r.kind.toNat ≤ 0x7A

/-- `k` is the number of trailing zero bits of the non-zero mask `m` (R12). -/
def isCtz {w : Nat} (m : BitVec w) (k : Nat) : Prop := m.getLsbD k = true ∧ ∀ i < k, m.getLsbD i = false

/-- Rounds `j` and `r` agree: all eight slots of both are measured and within the tolerance (R220, R222). -/
def agree (c : Config) (k : Work) (j r : Round) : Prop :=
  ∀ i : Slot, k.failAt j (groupOf i) = false ∧ k.failAt r (groupOf i) = false ∧
    (canon c (k.resAt j i) - canon c (k.resAt r i)).natAbs ≤ c.simTol

/-- The rounds whose reading `g` was measured, as a count (R226). -/
def measuredCount (c : Config) (k : Work) (g : Group) : Nat :=
  ((measRounds c).map (fun r => if k.failAt r g then 0 else 1)).sum

/-- The sum of the measured values of slot `i`, as signed integers (R226). -/
def measuredSum (c : Config) (k : Work) (i : Slot) : Int :=
  ((measRounds c).map (fun r => if k.failAt r (groupOf i) then 0 else canon c (k.resAt r i))).sum

/-- The environment keeps every pending answer and every free draw of its own. -/
def Device.sameAnswers (d e : Device) : Prop :=
  e.statusQ = d.statusQ ∧ e.thermQ = d.thermQ ∧ e.pollQ = d.pollQ ∧ e.chanQ = d.chanQ ∧ e.hciQ = d.hciQ ∧
    e.reapplyQ = d.reapplyQ ∧ e.draws = d.draws

end Sys2Proof.Machine
end

