-- ==== Sys2Proof/Certificates/Slice0/Obligations.lean ====
section
/-! DEFINITION. The statements for the provers. Operands and results of operations issued one at a time stand on the wires
of State (assumption log 3); `c.wf` is the premise that the configuration is one the block accepts (R356), `mem.wf` and
`rfWf` that a store is in canonical form. The widths READ_W, ELEM_W, ADDR_W, RF_DATA_W and THERM_W are the parameters
`readW` to `thermW` of the configuration: an operand of a width says that it fits it (assumption logs 4 and 15). -/

section
open Sys2Proof Sys2Proof.Machine

/-! ## Codes, decoding, the step -/

/-- Words written out from the code map of R135, one or two per unit, decode to their operations; 0x00 and a code of a
reserved unit do not decode. -/
def Obligations.SampleCodesDecode : Prop :=
  decode 0b00000001#8 = .ok .init ∧ decode 0b00000100#8 = .ok .detach ∧ decode 0b00010010#8 = .ok .iqmult ∧
    decode 0b00101010#8 = .ok .roundrestore ∧ decode 0b00110010#8 = .ok .vote ∧ decode 0b01000110#8 = .ok .iqkrun ∧
    decode 0b01010111#8 = .ok .pass ∧ decode 0b01100101#8 = .ok .pathcomp ∧ decode 0b01111010#8 = .ok .hookHci ∧
    decode 0b00000000#8 = .error (.unassigned 0x00) ∧ decode 0b10010001#8 = .error (.reservedUnit 0x9)

/-- A code decodes to an operation exactly when it is that operation's code, so decoding an encoded operation gives it
back and no two codes stand for one operation (R130, R135). -/
def Obligations.DecodeInvertsEncode : Prop :=
  (∀ i : Instr, decode (encode i) = .ok i) ∧ ∀ (code : Byte) (i : Instr), decode code = .ok i → encode i = code

/-- A step runs the decoded operation: a code of the sequencer's issue slot when it is one of the sequencer's operations,
a code on the command port when the slot is empty, the block not busy and the code a host command. With neither, a step
changes nothing (assumption logs 2 and 26). -/
def Obligations.StepRunsTheDecodedOperation : Prop :=
  ∀ (s : State) (code : Byte) (i : Instr), decode code = .ok i →
    (∀ rest, s.useq = code :: rest → i.wellFormed .sequencer = true → step s = exec i { s with useq := rest }) ∧
    (∀ pin rest, s.useq = [] → s.cmds = .command code pin :: rest → s.busy = false → i.wellFormed .host = true →
      step s = exec i { s with cmds := rest, thermalRefIn := pin }) ∧
    (s.useq = [] → s.cmds = [] → step s = .next s)

/-! ## Unit 1: numeric -/

/-- CANON and ABSDIFF of READ_W-bit operands and ENCODE on its operand range give the values of R170, R173 and R171, with
W = READ_W (P9), and change nothing else. -/
def Obligations.CanonEncodeAbsdiffResults : Prop :=
  ∀ s : State, s.cfg.wf = true →
    ∀ (W : Nat) (sx : Raw → Int), W = s.cfg.readW →
      sx = (fun u => if u.toNat < 2 ^ (W - 1) then (u.toNat : Int) else (u.toNat : Int) - 2 ^ W) →
    (s.wires.u.toNat < 2 ^ W → exec .canon s = .next { s with wires := { s.wires with s := sx s.wires.u } }) ∧
    (-(2 ^ (W - 1)) ≤ s.wires.s → s.wires.s < 2 ^ (W - 1) → exec .encode s = .next { s with wires := { s.wires with
      u := BitVec.ofNat 10 (s.wires.s % 2 ^ W).toNat } }) ∧
    (s.wires.u.toNat < 2 ^ W → s.wires.v.toNat < 2 ^ W → exec .absdiff s = .next { s with wires := { s.wires with
      dist := (sx s.wires.u - sx s.wires.v).natAbs } })

/-- The two round trips of R174: ENCODE after CANON gives a READ_W-bit raw value back, CANON after ENCODE every signed value
of the range of READ_W bits (P9). -/
def Obligations.CanonEncodeRoundTrip : Prop :=
  ∀ s : State, s.cfg.wf = true →
    (s.wires.u.toNat < 2 ^ s.cfg.readW →
      ∃ t u : State, exec .canon s = .next t ∧ exec .encode t = .next u ∧ u.wires.u = s.wires.u) ∧
    (-(2 ^ (s.cfg.readW - 1)) ≤ s.wires.s → s.wires.s < 2 ^ (s.cfg.readW - 1) →
      ∃ t u : State, exec .encode s = .next t ∧ exec .canon t = .next u ∧ u.wires.s = s.wires.s)

/-- IQMULT keeps the low ELEM_W bits (P11) of the product shifted by FRAC (P10), and the product bit below them (R172); with
x = 2^FRAC and an ELEM_W-bit d it returns d and a clear extension bit (R172, R115). -/
def Obligations.IqmultProductAndUnityGain : Prop :=
  ∀ s : State, 1 ≤ s.cfg.frac →
    exec .iqmult s = .next { s with wires := { s.wires with
      elem := BitVec.ofNat 10 (s.wires.s * (s.wires.d.toNat : Int) / 2 ^ s.cfg.frac % 2 ^ s.cfg.elemW).toNat,
      ext := decide (s.wires.s * (s.wires.d.toNat : Int) / 2 ^ (s.cfg.frac - 1) % 2 = 1) } } ∧
    (s.wires.s = 2 ^ s.cfg.frac → s.wires.d.toNat < 2 ^ s.cfg.elemW →
      exec .iqmult s = .next { s with wires := { s.wires with elem := s.wires.d, ext := false } })

/-! ## Unit 7: port transactions -/

/-- RD returns the little-endian value of a STORAGE access (R82, R76, R80), and otherwise the environment's next answer
kept to the width (assumption logs 9 and 19); it stores nothing and appends one record. At an address that is no multiple of
the width it reads the bytes a, a + 1 and so on, with the wrap at the top: the model's choice (assumption log 15), since R77
describes no misaligned access. -/
def Obligations.RdAnswers : Prop :=
  ∀ s : State, ∃ t : State, exec .rd s = .next t ∧
    t = { s with wires := { s.wires with val := t.wires.val }, port := t.port } ∧
    t.port.trace = s.port.trace ++
      [⟨0x70, widthAux s.wires.width, s.wires.addr, widthMask s.wires.width, 0, t.wires.val⟩] ∧
    (∀ a : Addr, t.port.dev.mem.byteAt a = s.port.dev.mem.byteAt a) ∧ t.port.dev.rf = s.port.dev.rf ∧
    (isStorage s.cfg s.wires.width s.wires.addr = true → t.port.dev = s.port.dev ∧
      t.wires.val.toNat =
        (s.wires.width.bytes s.wires.addr).foldr (fun b n => (s.port.dev.mem.byteAt b).toNat + 256 * n) 0) ∧
    (isStorage s.cfg s.wires.width s.wires.addr = false →
      (∀ v rest, s.port.dev.statusQ = v :: rest →
        t.wires.val = v &&& widthMask s.wires.width ∧ t.port.dev = { s.port.dev with statusQ := rest }) ∧
      (s.port.dev.statusQ = [] →
        t.wires.val = Config.freeStatus s.port.dev.draws &&& widthMask s.wires.width ∧
        t.port.dev = { s.port.dev with draws := s.port.dev.draws + 1 }))

/-- WR stores byte k of the value at address a + k when that byte is of class STORAGE, leaves every other byte alone, and
appends one record (R83, R76, R80; assumption log 19). Two clauses are the model's choice: a misaligned address reaches the
bytes a, a + 1 and so on (assumption log 15), and the record of a value wider than the access shows its low bits (assumption
log 30). -/
def Obligations.WrStores : Prop :=
  ∀ s : State, s.port.dev.mem.wf = true → ∃ t : State, exec .wr s = .next t ∧
    t = { s with port := t.port } ∧
    t.port.trace = s.port.trace ++ [⟨0x71, widthAux s.wires.width, s.wires.addr, widthMask s.wires.width,
      s.wires.val &&& widthMask s.wires.width, 0⟩] ∧
    t.port.dev.rf = s.port.dev.rf ∧ s.port.dev.sameAnswers t.port.dev ∧
    (∀ (k : Nat) (b : Addr), (s.wires.width.bytes s.wires.addr)[k]? = some b → s.cfg.regClass b = .storage →
      t.port.dev.mem.byteAt b = s.wires.val.extractLsb' (8 * k) 8) ∧
    (∀ b : Addr, b ∉ s.wires.width.bytes s.wires.addr ∨ s.cfg.regClass b ≠ .storage →
      t.port.dev.mem.byteAt b = s.port.dev.mem.byteAt b)

/-- RDM answers the masked word shifted right by the mask's trailing zeros: of the word a STORAGE register holds, else of
the word the environment answers (R84; assumption log 9). A misaligned address (assumption log 15) and a word whose bytes
are of two classes, which is answered by the environment (assumption log 19), are the model's choice. -/
def Obligations.RdmReadsField : Prop :=
  ∀ (s : State) (k : Nat), isCtz s.wires.mask k → ∃ t : State, exec .rdm s = .next t ∧
    t = { s with wires := { s.wires with val := t.wires.val }, port := t.port } ∧
    t.port.trace = s.port.trace ++ [rdmRecord s.wires.addr s.wires.mask t.wires.val] ∧
    (∀ a : Addr, t.port.dev.mem.byteAt a = s.port.dev.mem.byteAt a) ∧ t.port.dev.rf = s.port.dev.rf ∧
    (isStorage s.cfg .w32 s.wires.addr = true → t.port.dev = s.port.dev ∧
      t.wires.val = (s.port.dev.mem.wordAt s.wires.addr &&& s.wires.mask) >>> k) ∧
    (isStorage s.cfg .w32 s.wires.addr = false →
      (∀ w rest, s.port.dev.statusQ = w :: rest →
        t.wires.val = (w &&& s.wires.mask) >>> k ∧ t.port.dev = { s.port.dev with statusQ := rest }) ∧
      (s.port.dev.statusQ = [] →
        t.wires.val = (Config.freeStatus s.port.dev.draws &&& s.wires.mask) >>> k ∧
        t.port.dev = { s.port.dev with draws := s.port.dev.draws + 1 }))

/-- WRM merges the shifted value into the word under the mask, leaves every byte outside the word and every byte that is
not STORAGE alone, and appends one record (R85); a masked read of the same field then answers the value, when it fits the
field. A misaligned address (assumption log 15) and a word whose bytes are of two classes, of which the STORAGE bytes are
stored (assumption log 19), are the model's choice. -/
def Obligations.WrmMergesField : Prop :=
  ∀ (s : State) (k : Nat), isCtz s.wires.mask k → s.port.dev.mem.wf = true → ∃ t : State, exec .wrm s = .next t ∧
    t = { s with port := t.port } ∧
    t.port.trace = s.port.trace ++ [wrmRecord s.wires.addr s.wires.mask s.wires.val] ∧
    t.port.dev.rf = s.port.dev.rf ∧ s.port.dev.sameAnswers t.port.dev ∧
    (∀ b : Addr, ¬ inWord b s.wires.addr ∨ s.cfg.regClass b ≠ .storage →
      t.port.dev.mem.byteAt b = s.port.dev.mem.byteAt b) ∧
    (isStorage s.cfg .w32 s.wires.addr = true →
      t.port.dev.mem.wordAt s.wires.addr =
        (s.port.dev.mem.wordAt s.wires.addr &&& ~~~s.wires.mask) ||| ((s.wires.val <<< k) &&& s.wires.mask)) ∧
    (isStorage s.cfg .w32 s.wires.addr = true → (s.wires.val <<< k) >>> k = s.wires.val →
      (s.wires.val <<< k) &&& s.wires.mask = s.wires.val <<< k →
      ∃ u : State, exec .rdm t = .next u ∧ u.wires.val = s.wires.val)

/-- RFRD answers the masked location shifted right, the thermal meter with the environment's answer (R86, R80, R264;
assumption logs 9 and 20); RFWR merges the shifted value into the location under a mask of RF_DATA_W bits (P13) and leaves
every other location alone (R87). -/
def Obligations.RfrdReadsAndRfwrMerges : Prop :=
  ∀ (s : State) (k : Nat), isCtz s.wires.rfMask k →
    (∃ t : State, exec .rfrd s = .next t ∧
      t = { s with wires := { s.wires with val := t.wires.val }, port := t.port } ∧
      t.port.trace = s.port.trace ++ [⟨0x74, BitVec.ofNat 8 s.work.p.val, s.wires.rfIndex.setWidth 16,
        s.wires.rfMask, 0, t.wires.val⟩] ∧
      (∀ a : Addr, t.port.dev.mem.byteAt a = s.port.dev.mem.byteAt a) ∧ t.port.dev.rf = s.port.dev.rf ∧
      (¬ (s.work.p = s.cfg.thermPath ∧ s.wires.rfIndex = s.cfg.rfTMeter) → t.port.dev = s.port.dev ∧ t.wires.val =
        (Store.read s.port.dev.rf (rfKey s.work.p s.wires.rfIndex) &&& s.wires.rfMask) >>> k) ∧
      (s.work.p = s.cfg.thermPath → s.wires.rfIndex = s.cfg.rfTMeter →
        (∀ w rest, s.port.dev.thermQ = w :: rest → t.wires.val = (w &&& s.wires.rfMask) >>> k ∧
          t.port.dev = { s.port.dev with thermQ := rest }) ∧
        (s.port.dev.thermQ = [] →
          t.wires.val = (Config.freeTherm s.port.dev.draws &&& s.wires.rfMask) >>> k ∧
          t.port.dev = { s.port.dev with draws := s.port.dev.draws + 1 }))) ∧
    (rfWf s.cfg s.port.dev.rf = true → s.wires.rfMask.toNat < 2 ^ s.cfg.rfDataW →
      ∃ t : State, exec .rfwr s = .next t ∧ t = { s with port := t.port } ∧
      t.port.trace = s.port.trace ++ [⟨0x75, BitVec.ofNat 8 s.work.p.val, s.wires.rfIndex.setWidth 16,
        s.wires.rfMask, s.wires.val, 0⟩] ∧
      (∀ a : Addr, t.port.dev.mem.byteAt a = s.port.dev.mem.byteAt a) ∧ s.port.dev.sameAnswers t.port.dev ∧
      Store.read t.port.dev.rf (rfKey s.work.p s.wires.rfIndex) =
        (Store.read s.port.dev.rf (rfKey s.work.p s.wires.rfIndex) &&& ~~~s.wires.rfMask) |||
          ((s.wires.val <<< k) &&& s.wires.rfMask) ∧
      (∀ (p : Path) (i : Byte), ¬ (p = s.work.p ∧ i = s.wires.rfIndex) →
        Store.read t.port.dev.rf (rfKey p i) = Store.read s.port.dev.rf (rfKey p i)))

/-- DELAY is a place in the trace and nothing else (R88). POLL answers the environment's next verdict and appends one
record with its arguments (R89). CHAN answers the environment's next channel (R90). HCI answers the environment's next
bus kind; the reserved code 3 is refused (R91, R134). Where no answer is pending each is a free value (assumption log 9). -/
def Obligations.TimeAndHookTransactions : Prop :=
  ∀ s : State,
    exec .delay s = .next { s with port := ⟨s.port.dev, s.port.trace ++
      [⟨0x76, unitAux s.wires.delayUnit, 0, 0, s.wires.dur, 0⟩]⟩ } ∧
    (∃ t : State, exec .poll s = .next t ∧
      t = { s with wires := { s.wires with verdict := t.wires.verdict }, port := t.port } ∧
      t.port.trace = s.port.trace ++
        [⟨0x77, 0x20, s.wires.addr, s.wires.mask, s.wires.expect, verdictWord t.wires.verdict⟩] ∧
      (∀ v rest, s.port.dev.pollQ = v :: rest →
        t.wires.verdict = v ∧ t.port.dev = { s.port.dev with pollQ := rest }) ∧
      (s.port.dev.pollQ = [] → t.wires.verdict = Config.freeVerdict s.port.dev.draws ∧
        t.port.dev = { s.port.dev with draws := s.port.dev.draws + 1 })) ∧
    (∃ t : State, exec .hookChan s = .next t ∧
      t = { s with wires := { s.wires with chan := t.wires.chan }, port := t.port } ∧
      t.port.trace = s.port.trace ++ [⟨0x78, 0, 0, 0, 0, t.wires.chan.setWidth 32⟩] ∧
      (∀ ch rest, s.port.dev.chanQ = ch :: rest →
        t.wires.chan = ch ∧ t.port.dev = { s.port.dev with chanQ := rest }) ∧
      (s.port.dev.chanQ = [] → t.wires.chan = Config.freeChan s.port.dev.draws ∧
        t.port.dev = { s.port.dev with draws := s.port.dev.draws + 1 })) ∧
    (∀ b rest, s.port.dev.hciQ = b :: rest → b = 3 → exec .hookHci s = .refused .reservedHciKind) ∧
    (∀ b rest, s.port.dev.hciQ = b :: rest → b ≠ 3 → ∃ t : State, exec .hookHci s = .next t ∧
      t = { s with wires := { s.wires with hci := t.wires.hci }, port := t.port } ∧ hciCode t.wires.hci = b ∧
      t.port = ⟨{ s.port.dev with hciQ := rest }, s.port.trace ++ [⟨0x7A, 0, 0, 0, 0, b.setWidth 32⟩]⟩) ∧
    (s.port.dev.hciQ = [] → exec .hookHci s = .next { s with
      wires := { s.wires with hci := Config.freeHci s.port.dev.draws },
      port := ⟨{ s.port.dev with draws := s.port.dev.draws + 1 }, s.port.trace ++
        [⟨0x7A, 0, 0, 0, 0, (hciCode (Config.freeHci s.port.dev.draws)).setWidth 32⟩]⟩ })

/-- REAPPLY performs the hook's writes, the pending list or else a free one, in order (R90; assumption logs 9 and 10): each
bit of a STORAGE byte and of an RF location is the one the last write to its place has, and is as before where there is none.
It keeps field D of TXIQ[0] and CCK_REG[0], the two locations the resync reads (the assumption of R90, U9; assumption
log 10); no byte that is not STORAGE changes. It appends one record and changes no register of the block. -/
def Obligations.ReapplyKeepsProbedFields : Prop :=
  ∀ s : State, s.port.dev.mem.wf = true → ∃ (t : State) (ws : List DevWrite), exec .hookReapply s = .next t ∧
    t = { s with port := t.port } ∧
    t.port.trace = s.port.trace ++ [⟨0x79, 0, 0, 0, s.wires.chan.setWidth 32, 0⟩] ∧
    (∀ l rest, s.port.dev.reapplyQ = l :: rest → ws = l ∧
      Device.sameAnswers { s.port.dev with reapplyQ := rest } t.port.dev) ∧
    (s.port.dev.reapplyQ = [] → ws = Config.freeReapply s.port.dev.draws ∧
      Device.sameAnswers { s.port.dev with draws := s.port.dev.draws + 1 } t.port.dev) ∧
    (∀ (b : Addr) (k : Nat), k < 8 → s.cfg.regClass b = .storage → ¬ probedBit s.cfg b k →
      (t.port.dev.mem.byteAt b).getLsbD k = lastBit (hookCtlBit b k) ws ((s.port.dev.mem.byteAt b).getLsbD k)) ∧
    (rfWf s.cfg s.port.dev.rf = true → ∀ (p : Path) (i : Byte) (k : Nat), k < s.cfg.rfDataW →
      (Store.read t.port.dev.rf (rfKey p i)).getLsbD k =
        lastBit (hookRfBit p i k) ws ((Store.read s.port.dev.rf (rfKey p i)).getLsbD k)) ∧
    t.port.dev.mem.wordAt s.cfg.txiq[0] &&& s.cfg.maskD = s.port.dev.mem.wordAt s.cfg.txiq[0] &&& s.cfg.maskD ∧
    t.port.dev.mem.byteAt (s.cfg.cckReg 0) = s.port.dev.mem.byteAt (s.cfg.cckReg 0) ∧
    (∀ a : Addr, s.cfg.regClass a ≠ .storage → t.port.dev.mem.byteAt a = s.port.dev.mem.byteAt a)

/-! ## Unit 2: measurement -/

/-- BACKUP reads every element of the backup set, in ascending order, one record each; BKP holds what the elements held
(R190, R26). Nothing else changes: no byte, no RF location, no pending answer. -/
def Obligations.BackupSavesTheSet : Prop :=
  ∀ s : State, s.cfg.wf = true → exec .backup s = .next { s with
    seq := { s.seq with phase := .calBackup },
    work := { s.work with bkp := s.cfg.backupSet.map (heldBy s.port.dev) },
    port := ⟨s.port.dev,
      s.port.trace ++ s.cfg.backupSet.map (fun e => backupRecord (heldBy s.port.dev e) e)⟩ }

/-- Restored verbatim (R190, R210, R250, R256): whatever the device has come to hold since a BACKUP, after ROUNDRESTORE every
element of the backup set holds again what it held then, unless a write of the baseline lists L5 and L6 reaches it; and a
byte that neither reaches is as it was before the restore. After FINALRESTORE the first two elements, coexistence arbitration
and antenna path, hold again what they held then, unless a write of the list L7 reaches them. -/
def Obligations.BackupThenRestoreIsVerbatim : Prop :=
  ∀ s t u : State, s.cfg.wf = true → exec .backup s = .next t →
    u.cfg = s.cfg → u.work.bkp = t.work.bkp → u.port.dev.mem.wf = true → rfWf s.cfg u.port.dev.rf = true →
    ∃ v : State, exec .roundrestore u = .next v ∧
      (∀ e ∈ s.cfg.backupSet,
        (∀ o ∈ s.cfg.rxgainBaseline ++ s.cfg.idleImbalance, ∀ a, e.covers a → ¬ o.covers a) →
        (∀ o ∈ s.cfg.rxgainBaseline ++ s.cfg.idleImbalance, ∀ p i, e.rfLoc = some (p, i) → ¬ o.coversRf p i) →
        heldBy v.port.dev e = heldBy s.port.dev e) ∧
      (∀ a : Addr, (∀ e ∈ s.cfg.backupSet, ¬ e.covers a) →
        (∀ o ∈ s.cfg.rxgainBaseline ++ s.cfg.idleImbalance, ¬ o.covers a) →
        v.port.dev.mem.byteAt a = u.port.dev.mem.byteAt a) ∧
    ∃ w : State, exec .finalrestore u = .next w ∧
      ∀ e ∈ s.cfg.backupSet.take 2, (∀ o ∈ s.cfg.rxmodeBaseline, ∀ a, e.covers a → ¬ o.covers a) →
        (∀ o ∈ s.cfg.rxmodeBaseline, ∀ p i, e.rfLoc = some (p, i) → ¬ o.coversRf p i) →
        heldBy w.port.dev e = heldBy s.port.dev e

/-- CALCFG performs the list of its kind and path and ARM the list THERM_ARM (R192, R262): one record for each operation,
in order, with an ANT value taken from ANT_SW_VAL of the latched bus kind; nothing of the block changes and nothing outside
the operations' locations. Of every STORAGE byte and RF location, each bit is the one that the last WR, WRM or RFWR that
stores a bit there stores (R83, R85, R87), and as before where none does; so a word written last by a WR holds its value. In
an accepted configuration ARM does the same on every bus kind (R91). The model's choice are: a list may hold a delay, and
ARM's list ANT in a configuration that is not accepted (assumption log 25); a list access that is misaligned reaches the bytes
a, a + 1 and so on (assumption log 15), and of one that touches two classes the STORAGE bytes are stored (assumption log 19);
and of a write whose value is wider than its access the low bits are stored and recorded (assumption log 30). -/
def Obligations.CalcfgAndArmPerformTheirLists : Prop :=
  ∀ s : State, s.port.dev.mem.wf = true →
    ∀ i l, (i = .calcfg ∧ l = match s.wires.kind with
        | .tx => s.cfg.calcfgTx[s.work.p]
        | .rx => s.cfg.calcfgRx[s.work.p]) ∨ (i = .arm ∧ l = s.cfg.thermArm) →
    ∃ t : State, exec i s = .next t ∧ t = { s with port := t.port } ∧
      t.port.trace = s.port.trace ++ l.map (listRecord s.cfg s.hciKind) ∧
      s.port.dev.sameAnswers t.port.dev ∧
      (∀ a : Addr, (∀ o ∈ l, ¬ o.covers a) → t.port.dev.mem.byteAt a = s.port.dev.mem.byteAt a) ∧
      (∀ (p : Path) (j : Byte), (∀ o ∈ l, ¬ o.coversRf p j) →
        Store.read t.port.dev.rf (rfKey p j) = Store.read s.port.dev.rf (rfKey p j)) ∧
      listEffect s.cfg s.hciKind l s.port.dev t.port.dev ∧
      (i = .arm → s.cfg.wf = true → ∀ h : HciKind, exec i { s with hciKind := h } = .next { t with hciKind := h }) ∧
      (∀ l1 l2 a v, l = l1 ++ .wr .w32 a v :: l2 → isStorage s.cfg .w32 a = true →
        (∀ o ∈ l2, ∀ b, inWord b a → ¬ o.covers b) →
        t.port.dev.mem.wordAt a = ListVal.value s.cfg s.hciKind v)

/-- ROUNDRESTORE writes every saved element back, in ascending order, then performs RXGAIN_BASELINE and IDLE_IMBALANCE
(R210); FINALRESTORE writes back the first two elements, or what there is of them, then performs RXMODE_BASELINE (R250).
Each records one transaction for each, changes no register but the phase, and no byte that none of them reaches. The device
then holds what the write-backs and the list operations, in order, store: of every STORAGE byte and RF location, each bit is
the one that the last of them that stores a bit there stores, and as before where none does (R85, R87). In an accepted
configuration it does the same on every bus kind (R91). The model's choice are: where BKP is shorter than the backup
set, which no run leaves, only what it holds is restored, and a misaligned access reaches the bytes a, a + 1 and so on
(assumption log 15); of an access that touches two classes the STORAGE bytes are stored (assumption log 19); a list may hold a
delay, and these lists ANT in a configuration that is not accepted (assumption log 25); and of a list write whose value is
wider than its access the low bits are stored and recorded (assumption log 30). -/
def Obligations.RestoresPerformTheirLists : Prop :=
  ∀ s : State,
    ∀ i ph xs l, (i = .roundrestore ∧ ph = Phase.calRestore ∧ xs = s.cfg.backupSet.zip s.work.bkp ∧
        l = s.cfg.rxgainBaseline ++ s.cfg.idleImbalance) ∨
      (i = .finalrestore ∧ ph = Phase.calFinal ∧ xs = (s.cfg.backupSet.zip s.work.bkp).take 2 ∧
        l = s.cfg.rxmodeBaseline) →
    ∃ t : State, exec i s = .next t ∧ t = { s with seq := { s.seq with phase := ph }, port := t.port } ∧
      t.port.trace = s.port.trace ++ xs.map restoreRecord ++ l.map (listRecord s.cfg s.hciKind) ∧
      s.port.dev.sameAnswers t.port.dev ∧
      (∀ a : Addr, (∀ x ∈ xs, ¬ x.1.covers a) → (∀ o ∈ l, ¬ o.covers a) →
        t.port.dev.mem.byteAt a = s.port.dev.mem.byteAt a) ∧
      (∀ (p : Path) (j : Byte), (∀ x ∈ xs, x.1.rfLoc ≠ some (p, j)) → (∀ o ∈ l, ¬ o.coversRf p j) →
        Store.read t.port.dev.rf (rfKey p j) = Store.read s.port.dev.rf (rfKey p j)) ∧
      listEffect s.cfg s.hciKind (xs.map writeBack ++ l) s.port.dev t.port.dev ∧
      (s.cfg.wf = true → ∀ h : HciKind, exec i { s with hciKind := h } = .next { t with hciKind := h })

/-- ONESHOT writes the trigger words in order, waits T_SETTLE milliseconds, polls for completion and answers the verdict;
a timeout raises W_POLL_TIMEOUT (R194, R323). The device's storage does not change: IQK_TRIG is of class TRIGGER
(R80). -/
def Obligations.OneshotTransactions : Prop :=
  ∀ s : State, s.cfg.wf = true → exec .oneshot s = .next { s with
    wires := { s.wires with verdict := s.port.dev.drawVerdict.1 },
    warnReg := if s.port.dev.drawVerdict.1 = .timeout then warnBump s.warnReg .pollTimeout else s.warnReg,
    port := ⟨s.port.dev.drawVerdict.2, s.port.trace ++ oneshotRecords s.cfg s.port.dev.drawVerdict.1⟩ }

/-- TXCHK and RXCHK are the conjunctions of R197 and R198, RXCHK's bounds on the canonical values of R170; they are pure. -/
def Obligations.ValidityChecks : Prop :=
  ∀ s : State,
    exec .txchk s = .next { s with wires := { s.wires with
      ok := decide (s.wires.f = false ∧ s.wires.x ≠ s.cfg.txErrX ∧ s.wires.y ≠ s.cfg.txErrY) } } ∧
    exec .rxchk s = .next { s with wires := { s.wires with
      ok := decide (s.wires.f = false ∧ s.wires.x ≠ s.cfg.rxErrX ∧ s.wires.y ≠ s.cfg.rxErrY ∧
        s.cfg.rxXLower < canon s.cfg s.wires.x ∧ canon s.cfg s.wires.x < s.cfg.rxXUpper ∧
        (canon s.cfg s.wires.y).natAbs < s.cfg.rxYLimit) } }

/-- TXATT and RXATT make a one-shot; after a timeout they fail and read nothing, and the wires x and y, which then carry no
value, keep what they held (the model's choice, assumption log 14); after `ok` they read fail bit, X and Y, in this order,
and answer the check of these values (R196, R203; the values are the environment's, assumption log 9). -/
def Obligations.AttemptReadsThreeRegisters : Prop :=
  ∀ s : State, s.cfg.wf = true →
    ∀ i fm rm ax ay (chk : Bool → Raw → Raw → Bool),
      (i = .txatt ∧ fm = s.cfg.maskTxFail ∧ rm = s.cfg.maskResTx ∧ ax = s.cfg.iqkTxX ∧ ay = s.cfg.iqkTxY ∧
        chk = txchk s.cfg) ∨
      (i = .rxatt ∧ fm = s.cfg.maskRxFail ∧ rm = s.cfg.maskResRx ∧ ax = s.cfg.iqkRxX ∧ ay = s.cfg.iqkRxY ∧
        chk = rxchk s.cfg) →
    (s.port.dev.drawVerdict.1 = .timeout → exec i s = .next { s with
      wires := { s.wires with ok := false },
      warnReg := warnBump s.warnReg .pollTimeout,
      port := ⟨s.port.dev.drawVerdict.2, s.port.trace ++ oneshotRecords s.cfg .timeout⟩ }) ∧
    (s.port.dev.drawVerdict.1 = .ok → ∃ t : State, exec i s = .next t ∧
      t = { s with
        wires := { s.wires with
          ok := chk (drawAttempt fm rm s.port.dev.drawVerdict.2).1.1 t.wires.x t.wires.y,
          x := (drawAttempt fm rm s.port.dev.drawVerdict.2).1.2.1,
          y := (drawAttempt fm rm s.port.dev.drawVerdict.2).1.2.2 },
        port := t.port } ∧
      t.port.dev = (drawAttempt fm rm s.port.dev.drawVerdict.2).2 ∧
      ∃ vf vx vy, t.port.trace = s.port.trace ++ oneshotRecords s.cfg .ok ++
        [rdmRecord s.cfg.iqkFail fm vf, rdmRecord ax rm vx, rdmRecord ay rm vy] ∧
        (vf != 0) = (drawAttempt fm rm s.port.dev.drawVerdict.2).1.1 ∧
        vx.setWidth 10 = t.wires.x ∧ vy.setWidth 10 = t.wires.y)

/-- TXMEAS is CALCFG of kind TX and then at most RETRY_TX attempts against the environment's answers (`drawMeasured`: a poll
that times out is a failed attempt without values; after `ok` three answers are fail bit, X and Y; the first attempt that
passes TXCHK ends it). It answers true exactly when an attempt passes, and records that attempt's X and Y with a clear tag;
when none passes, RETRY_TX polls are made and the sentinel (X_UNITY, 0) is recorded with a set tag (R200, R24, R194, R196).
Its transactions are the list's and the attempts', and W_POLL_TIMEOUT counts the timeouts. No other slot or tag, no
long-lived record and no other warning changes. The rounds are 0 to 2 (R208). -/
def Obligations.TxmeasRecordsReadingOrSentinel : Prop :=
  ∀ s : State, s.cfg.wf = true → s.work.r.val < s.cfg.nRound → ∃ (c0 t : State) (m : Measured),
    exec .calcfg { s with wires := { s.wires with kind := .tx } } = .next c0 ∧ exec .txmeas s = .next t ∧
    m = drawMeasured s.cfg (txSpec s.cfg) s.cfg.retryTx c0.port.dev ∧
    t = { s with
      wires := { s.wires with txok := m.reading.isSome }, warnReg := t.warnReg,
      port := ⟨m.dev, c0.port.trace ++ m.records⟩,
      work := { s.work with res := t.work.res, fail := t.work.fail, a := t.work.a } } ∧
    (∀ x y, m.reading = some (x, y) →
      t.work.failAt s.work.r (txGroup s.work.p) = false ∧
      t.work.resAt s.work.r (slotX (txGroup s.work.p)) = x ∧ t.work.resAt s.work.r (slotY (txGroup s.work.p)) = y ∧
      txchk s.cfg false x y = true) ∧
    (m.reading = none →
      t.work.failAt s.work.r (txGroup s.work.p) = true ∧
      (t.work.resAt s.work.r (slotX (txGroup s.work.p))).toNat = 2 ^ s.cfg.frac ∧
      t.work.resAt s.work.r (slotY (txGroup s.work.p)) = 0) ∧
    m.records.countP (fun r => r.kind == 0x77) ≤ s.cfg.retryTx ∧
    (m.reading = none → m.records.countP (fun r => r.kind == 0x77) = s.cfg.retryTx) ∧
    (∀ r i, ¬ (r = s.work.r ∧ groupOf i = txGroup s.work.p) → t.work.resAt r i = s.work.resAt r i) ∧
    (∀ r g, ¬ (r = s.work.r ∧ g = txGroup s.work.p) → t.work.failAt r g = s.work.failAt r g) ∧
    (warnCount t.warnReg .pollTimeout).toNat = min 15 ((warnCount s.warnReg .pollTimeout).toNat + m.timeouts) ∧
    (∀ x, x ≠ .pollTimeout → warnCount t.warnReg x = warnCount s.warnReg x)

/-- RXMEAS after a failed TX records the sentinel with its tag and makes no transaction (R205). After a successful TX it is
CALCFG of kind RX and then at most RETRY_RX attempts against the environment's answers: the first that passes RXCHK is
recorded with a clear tag, and when none does, RETRY_RX polls are made and the sentinel is recorded with a set tag (R205,
R203, R198, R24). W_POLL_TIMEOUT counts the timeouts. No other slot or tag, no long-lived record and no other warning
changes. The rounds are 0 to 2 (R208). -/
def Obligations.RxmeasRecordsReadingOrSentinel : Prop :=
  ∀ s : State, s.cfg.wf = true → s.work.r.val < s.cfg.nRound → ∃ (c0 t : State) (m : Measured),
    exec .calcfg { s with wires := { s.wires with kind := .rx } } = .next c0 ∧ exec .rxmeas s = .next t ∧
    m = (if s.wires.txok = true then drawMeasured s.cfg (rxSpec s.cfg) s.cfg.retryRx c0.port.dev
      else ⟨none, [], 0, s.port.dev⟩) ∧
    t = { s with
      warnReg := t.warnReg,
      port := ⟨m.dev, (if s.wires.txok = true then c0.port.trace else s.port.trace) ++ m.records⟩,
      work := { s.work with res := t.work.res, fail := t.work.fail, a := t.work.a } } ∧
    (∀ x y, m.reading = some (x, y) →
      t.work.failAt s.work.r (rxGroup s.work.p) = false ∧
      t.work.resAt s.work.r (slotX (rxGroup s.work.p)) = x ∧ t.work.resAt s.work.r (slotY (rxGroup s.work.p)) = y ∧
      rxchk s.cfg false x y = true) ∧
    (m.reading = none →
      t.work.failAt s.work.r (rxGroup s.work.p) = true ∧
      (t.work.resAt s.work.r (slotX (rxGroup s.work.p))).toNat = 2 ^ s.cfg.frac ∧
      t.work.resAt s.work.r (slotY (rxGroup s.work.p)) = 0) ∧
    m.records.countP (fun r => r.kind == 0x77) ≤ s.cfg.retryRx ∧
    (s.wires.txok = true → m.reading = none → m.records.countP (fun r => r.kind == 0x77) = s.cfg.retryRx) ∧
    (∀ r i, ¬ (r = s.work.r ∧ groupOf i = rxGroup s.work.p) → t.work.resAt r i = s.work.resAt r i) ∧
    (∀ r g, ¬ (r = s.work.r ∧ g = rxGroup s.work.p) → t.work.failAt r g = s.work.failAt r g) ∧
    (warnCount t.warnReg .pollTimeout).toNat = min 15 ((warnCount s.warnReg .pollTimeout).toNat + m.timeouts) ∧
    (∀ x, x ≠ .pollTimeout → warnCount t.warnReg x = warnCount s.warnReg x)

/-- ROUND measures both paths, the primary first, each by TXMEAS and then RXMEAS with its answer, and ends in ROUNDRESTORE
(R208). It fills all four readings of its round (R23): every TX reading is the sentinel with its tag or passes TXCHK, every
RX reading the sentinel with its tag or passes RXCHK, and a path whose TX failed has a failed RX (R205). The other rounds,
HCNT, HACC, BKP, the candidate, every long-lived record and every warning but W_POLL_TIMEOUT stay. -/
def Obligations.RoundFillsEveryReading : Prop :=
  ∀ s : State, s.cfg.wf = true → s.work.r.val < s.cfg.nRound → ∃ m0 m1 m2 m3 m4 t : State,
    exec .txmeas { s with seq := { s.seq with phase := .calRound }, work := { s.work with p := 0 } } = .next m0 ∧
    exec .rxmeas m0 = .next m1 ∧
    exec .txmeas { m1 with work := { m1.work with p := 1 } } = .next m2 ∧
    exec .rxmeas m2 = .next m3 ∧
    exec .roundrestore m3 = .next m4 ∧
    exec .round s = .next t ∧ t = { m4 with wires := s.wires } ∧
    t = { s with
      warnReg := t.warnReg, port := t.port, seq := { s.seq with phase := .calRestore },
      work := { s.work with res := t.work.res, fail := t.work.fail, a := t.work.a, p := 1 } } ∧
    (∀ g : Group, t.work.failAt s.work.r g = true →
      (t.work.resAt s.work.r (slotX g)).toNat = 2 ^ s.cfg.frac ∧ t.work.resAt s.work.r (slotY g) = 0) ∧
    (∀ p : Path, t.work.failAt s.work.r (txGroup p) = false →
      txchk s.cfg false (t.work.resAt s.work.r (slotX (txGroup p))) (t.work.resAt s.work.r (slotY (txGroup p))) = true) ∧
    (∀ p : Path, t.work.failAt s.work.r (rxGroup p) = false →
      t.work.failAt s.work.r (txGroup p) = false ∧
      rxchk s.cfg false (t.work.resAt s.work.r (slotX (rxGroup p))) (t.work.resAt s.work.r (slotY (rxGroup p))) = true) ∧
    (∀ r i, r ≠ s.work.r → t.work.resAt r i = s.work.resAt r i) ∧
    (∀ r g, r ≠ s.work.r → t.work.failAt r g = s.work.failAt r g) ∧
    (∀ x, x ≠ .pollTimeout → warnCount t.warnReg x = warnCount s.warnReg x)

/-! ## Unit 3: selection -/

/-- SIMSLOT is 1 exactly when both readings are measured and the two values are at most SIM_TOL apart as signed values
(R220); SIMCMP is 1 exactly when all eight slots are similar (R222). Both are pure. For rounds that no run compares, where j is
not before r (assumption log 17) or a round is 3, whose tag is a free value (assumption log 15), it is the model's choice. -/
def Obligations.SimilarityIgnoresFailedReadings : Prop :=
  ∀ s : State,
    exec .simslot s = .next { s with wires := { s.wires with
      sim := decide (s.work.failAt s.work.j (groupOf s.wires.i) = false ∧
        s.work.failAt s.work.r (groupOf s.wires.i) = false ∧
        (canon s.cfg (s.work.resAt s.work.j s.wires.i) - canon s.cfg (s.work.resAt s.work.r s.wires.i)).natAbs ≤
          s.cfg.simTol) } } ∧
    ∃ t : State, exec .simcmp s = .next t ∧
      t = { s with wires := { s.wires with sim := t.wires.sim } } ∧
      (t.wires.sim = true ↔ agree s.cfg s.work s.work.j s.work.r)

/-- VOTE of a measurement round finds an agreeing pair exactly when there is one among the earlier rounds, selects the lowest
such round, which is never round 2 and has no failed reading, and otherwise leaves the candidate alone (R224, R225). It makes
no transaction. The operand of R224 is 1 or 2; that VOTE on round 0, which no run issues, compares nothing and finds nothing
is the model's choice (assumption log 17). -/
def Obligations.VoteSelectsEarliestAgreeingRound : Prop :=
  ∀ s : State, s.work.r.val < nRound → ∃ t : State, exec .vote s = .next t ∧
    t = { s with
      seq := { s.seq with phase := .calVote }, wires := { s.wires with found := t.wires.found },
      work := { s.work with j := t.work.j, cand := t.work.cand, candValid := t.work.candValid } } ∧
    (t.wires.found = true ↔ ∃ j < s.work.r, agree s.cfg s.work j s.work.r) ∧
    (t.wires.found = true → t.work.candValid = true ∧ t.work.cand.toNat < 2 ∧
      ∃ j < s.work.r, t.work.cand.toNat = j.val ∧ agree s.cfg s.work j s.work.r ∧
        (∀ i < j, ¬ agree s.cfg s.work i s.work.r) ∧ ∀ g : Group, s.work.failAt j g = false) ∧
    (t.wires.found = false → t.work.cand = s.work.cand ∧ t.work.candValid = s.work.candValid)

/-- HYBACC counts the measured readings of each group and sums their signed values exactly: nothing wraps (R226, R25). -/
def Obligations.HybaccSumsExactly : Prop :=
  ∀ s : State, s.cfg.wf = true → ∃ t : State, exec .hybacc s = .next t ∧
    t = { s with
      seq := { s.seq with phase := .calHybrid },
      work := { s.work with hcnt := t.work.hcnt, hacc := t.work.hacc } } ∧
    (∀ g : Group, t.work.hcnt[g].toNat = measuredCount s.cfg s.work g) ∧
    (∀ i : Slot, t.work.hacc[i].toInt = measuredSum s.cfg s.work i)

/-- HYBNORM writes the hybrid round and nothing else: zero where no round contributed, else the accumulator divided by the
count, truncated toward zero, or with HYBRID_NORM = SUM the accumulator itself, in READ_W bits (R228, R177, P9). -/
def Obligations.HybnormDividesOrSums : Prop :=
  ∀ s : State, s.cfg.wf = true → ∃ t : State, exec .hybnorm s = .next t ∧
    t = { s with work := { s.work with res := t.work.res } } ∧
    (∀ r i, r ≠ s.cfg.roundHybrid → t.work.resAt r i = s.work.resAt r i) ∧
    ∀ i : Slot, (t.work.resAt s.cfg.roundHybrid i).toNat =
      if s.work.hcnt[groupOf i].toNat = 0 then 0
      else match s.cfg.hybridNorm with
        | .mean => ((s.work.hacc[i].toInt.sign * (s.work.hacc[i].toInt.natAbs / s.work.hcnt[groupOf i].toNat : Nat)) %
            2 ^ s.cfg.readW).toNat
        | .sum => (s.work.hacc[i].toInt % 2 ^ s.cfg.readW).toNat

/-- With HYBRID_NORM = MEAN, HYBACC then HYBNORM give the exact mean of the measured values, truncated toward zero, as a
signed value: it always fits a correlator value (R228, R176). -/
def Obligations.HybridIsTheExactMean : Prop :=
  ∀ s : State, s.cfg.wf = true → s.cfg.hybridNorm = .mean →
    ∃ t u : State, exec .hybacc s = .next t ∧ exec .hybnorm t = .next u ∧
    ∀ i : Slot, (measuredCount s.cfg s.work (groupOf i) = 0 → u.work.resAt s.cfg.roundHybrid i = 0) ∧
      (measuredCount s.cfg s.work (groupOf i) ≠ 0 → canon s.cfg (u.work.resAt s.cfg.roundHybrid i) =
        (measuredSum s.cfg s.work i).tdiv (measuredCount s.cfg s.work (groupOf i)))

/-- HYBCHK accepts the hybrid round exactly when some slot of it is not zero (R230): the candidate becomes
ROUND_HYBRID (P2); otherwise it becomes invalid and W_CAL_FAILED is raised (R324). No transaction, no other change. -/
def Obligations.HybchkRefusesAllZero : Prop :=
  ∀ s : State,
    ((∃ i : Slot, s.work.resAt s.cfg.roundHybrid i ≠ 0) → exec .hybchk s = .next { s with
      work := { s.work with cand := BitVec.ofNat 2 s.cfg.roundHybrid.val, candValid := true },
      wires := { s.wires with found := true } }) ∧
    ((∀ i : Slot, s.work.resAt s.cfg.roundHybrid i = 0) → ∃ t : State, exec .hybchk s = .next t ∧
      t = { s with
        work := { s.work with cand := t.work.cand, candValid := false }, wires := { s.wires with found := false },
        warnReg := warnBump s.warnReg .calFailed })

/-! ## Unit 4: application -/

/-- USABLE tests the tag of a measured candidate and the count of the hybrid one (R240). RETAIN keeps, for each path, the
candidate's TX reading if it is usable and the reading (X_UNITY, 0) otherwise, and sets doneFlag (R246). Neither makes a
transaction. For candidate 2 and for an invalid candidate, which no run passes, they do the same: the model's choice
(assumption log 15). -/
def Obligations.UsableAndRetain : Prop :=
  ∀ s : State, s.cfg.wf = true →
    (∀ c : Round, c.val < s.cfg.nRound → s.work.cand.toNat = c.val → exec .usable s = .next { s with wires := { s.wires with
      usable := !(s.work.failAt c s.wires.g) } }) ∧
    (s.work.cand.toNat = s.cfg.roundHybrid.val → exec .usable s = .next { s with wires := { s.wires with
      usable := decide (0 < s.work.hcnt[s.wires.g].toNat) } }) ∧
    ∃ t : State, exec .retain s = .next t ∧ t = { s with cal := t.cal } ∧ t.cal.doneFlag = true ∧
      ∀ p : Path,
        (usable s.cfg s.work s.work.cand (txGroup p) = true →
          t.cal.txX[p] = s.work.resAt (candRound s.work.cand) (slotX (txGroup p)) ∧
          t.cal.txY[p] = s.work.resAt (candRound s.work.cand) (slotY (txGroup p))) ∧
        (usable s.cfg s.work s.work.cand (txGroup p) = false → t.cal.txX[p].toNat = 2 ^ s.cfg.frac ∧ t.cal.txY[p] = 0)

/-- FILLTX, with d the D field held and (a, ae), (c, ce) the products of IQMULT: after it A and C_LO of TXIQ[p], C_HI of
TXIQ_CHI[p] and the two extension bits of ECCA hold a, the low and high bits of c, ae and ce; D and every other bit of the
three registers and every other byte are as before; the six transactions are those of R242, in its order. -/
def Obligations.FilltxWritesTheMatrix : Prop :=
  ∀ s : State, s.cfg.wf = true → s.port.dev.mem.wf = true →
    ∀ p d a c, p = s.work.p → d = fieldGet (s.port.dev.mem.wordAt s.cfg.txiq[p]) s.cfg.maskD →
    a = iqmult s.cfg (canon s.cfg s.wires.x) (d.setWidth 10) →
    c = iqmult s.cfg (canon s.cfg s.wires.y) (d.setWidth 10) →
    ∃ t : State, exec .filltx s = .next t ∧ t = { s with port := t.port } ∧
      t.port.trace = s.port.trace ++ [rdmRecord s.cfg.txiq[p] s.cfg.maskD d,
        wrmRecord s.cfg.txiq[p] s.cfg.maskA (a.1.setWidth 32),
        wrmRecord s.cfg.ecca s.cfg.maskExtA[p] (bitWord a.2),
        wrmRecord s.cfg.txiqChi[p] s.cfg.maskCHi (c.1.setWidth 32 >>> 6),
        wrmRecord s.cfg.txiq[p] s.cfg.maskCLo (c.1.setWidth 32 &&& 0x3F),
        wrmRecord s.cfg.ecca s.cfg.maskExtC[p] (bitWord c.2)] ∧
      t.port.dev.rf = s.port.dev.rf ∧ s.port.dev.sameAnswers t.port.dev ∧
      fieldGet (t.port.dev.mem.wordAt s.cfg.txiq[p]) s.cfg.maskA = a.1.setWidth 32 ∧
      fieldGet (t.port.dev.mem.wordAt s.cfg.txiq[p]) s.cfg.maskCLo = c.1.setWidth 32 &&& 0x3F ∧
      t.port.dev.mem.wordAt s.cfg.txiq[p] &&& ~~~(s.cfg.maskA ||| s.cfg.maskCLo) =
        s.port.dev.mem.wordAt s.cfg.txiq[p] &&& ~~~(s.cfg.maskA ||| s.cfg.maskCLo) ∧
      fieldGet (t.port.dev.mem.wordAt s.cfg.txiqChi[p]) s.cfg.maskCHi = c.1.setWidth 32 >>> 6 ∧
      t.port.dev.mem.wordAt s.cfg.txiqChi[p] &&& ~~~s.cfg.maskCHi =
        s.port.dev.mem.wordAt s.cfg.txiqChi[p] &&& ~~~s.cfg.maskCHi ∧
      fieldGet (t.port.dev.mem.wordAt s.cfg.ecca) s.cfg.maskExtA[p] = bitWord a.2 ∧
      fieldGet (t.port.dev.mem.wordAt s.cfg.ecca) s.cfg.maskExtC[p] = bitWord c.2 ∧
      t.port.dev.mem.wordAt s.cfg.ecca &&& ~~~(s.cfg.maskExtA[p] ||| s.cfg.maskExtC[p]) =
        s.port.dev.mem.wordAt s.cfg.ecca &&& ~~~(s.cfg.maskExtA[p] ||| s.cfg.maskExtC[p]) ∧
      (∀ b : Addr, ¬ inTxImbalance s.cfg p b → t.port.dev.mem.byteAt b = s.port.dev.mem.byteAt b)

/-- FILLRX writes a READ_W-bit raw X and the two parts of the raw Y into their fields and leaves every other bit of the two
registers and every other byte alone; its three transactions are those of R244. -/
def Obligations.FillrxWritesTheReading : Prop :=
  ∀ s : State, s.cfg.wf = true → s.port.dev.mem.wf = true → s.wires.x.toNat < 2 ^ s.cfg.readW → ∀ p, p = s.work.p →
    ∃ t : State, exec .fillrx s = .next t ∧ t = { s with port := t.port } ∧
      t.port.trace = s.port.trace ++ [wrmRecord s.cfg.rxiq[p] s.cfg.maskX (s.wires.x.setWidth 32),
        wrmRecord s.cfg.rxiq[p] s.cfg.maskYLo (s.wires.y.setWidth 32 &&& 0x3F),
        wrmRecord s.cfg.rxiqYhi[p] s.cfg.maskYHi[p] (s.wires.y.setWidth 32 >>> 6)] ∧
      t.port.dev.rf = s.port.dev.rf ∧ s.port.dev.sameAnswers t.port.dev ∧
      fieldGet (t.port.dev.mem.wordAt s.cfg.rxiq[p]) s.cfg.maskX = s.wires.x.setWidth 32 ∧
      fieldGet (t.port.dev.mem.wordAt s.cfg.rxiq[p]) s.cfg.maskYLo = s.wires.y.setWidth 32 &&& 0x3F ∧
      t.port.dev.mem.wordAt s.cfg.rxiq[p] &&& ~~~(s.cfg.maskX ||| s.cfg.maskYLo) =
        s.port.dev.mem.wordAt s.cfg.rxiq[p] &&& ~~~(s.cfg.maskX ||| s.cfg.maskYLo) ∧
      fieldGet (t.port.dev.mem.wordAt s.cfg.rxiqYhi[p]) s.cfg.maskYHi[p] = s.wires.y.setWidth 32 >>> 6 ∧
      t.port.dev.mem.wordAt s.cfg.rxiqYhi[p] &&& ~~~s.cfg.maskYHi[p] =
        s.port.dev.mem.wordAt s.cfg.rxiqYhi[p] &&& ~~~s.cfg.maskYHi[p] ∧
      (∀ b : Addr, ¬ inRxImbalance s.cfg p b → t.port.dev.mem.byteAt b = s.port.dev.mem.byteAt b)

/-- APPLY is, for path 0 and then path 1, FILLTX of the candidate's TX reading if it is usable and then FILLRX of its RX
reading if that is usable, and nothing else (R248): six transactions for each usable TX reading and three for each usable RX
reading; a byte of no usable reading's registers is as before. It changes no long-lived record. For candidate 2 and for an
invalid candidate, which no run passes, it does the same: the model's choice (assumption log 15). -/
def Obligations.ApplyWritesOnlyUsableReadings : Prop :=
  ∀ s : State, s.cfg.wf = true →
    ∀ (res : Slot → Raw) (tx rx : Path → Port → Port),
    res = s.work.resAt (candRound s.work.cand) →
    tx = (fun p q => if usable s.cfg s.work s.work.cand (txGroup p) = true
      then fillTx s.cfg p (res (slotX (txGroup p))) (res (slotY (txGroup p))) q else q) →
    rx = (fun p q => if usable s.cfg s.work s.work.cand (rxGroup p) = true
      then fillRx s.cfg p (res (slotX (rxGroup p))) (res (slotY (rxGroup p))) q else q) →
    ∃ t : State, exec .apply s = .next t ∧
    t = { s with
      seq := { s.seq with phase := .calApply }, work := { s.work with p := 1 },
      port := rx 1 (tx 1 (rx 0 (tx 0 s.port))) } ∧
    t.port.dev.rf = s.port.dev.rf ∧ s.port.dev.sameAnswers t.port.dev ∧
    (∃ l, t.port.trace = s.port.trace ++ l ∧
      l.length = (((List.finRange 2).map (fun p => (if usable s.cfg s.work s.work.cand (txGroup p) then 6 else 0) +
        (if usable s.cfg s.work s.work.cand (rxGroup p) then 3 else 0))).sum)) ∧
    (∀ b : Addr,
      (∀ p : Path, (usable s.cfg s.work s.work.cand (txGroup p) = true → ¬ inTxImbalance s.cfg p b) ∧
        (usable s.cfg s.work s.work.cand (rxGroup p) = true → ¬ inRxImbalance s.cfg p b)) →
      t.port.dev.mem.byteAt b = s.port.dev.mem.byteAt b)

/-- A whole run (R254): with the working registers cleared (R22), BACKUP, then ROUND 0, ROUND 1 and VOTE, and if no pair
agrees ROUND 2 and VOTE, and if there is none again HYBACC, HYBNORM and HYBCHK; if a candidate was found, APPLY and RETAIN;
then always FINALRESTORE. Its outcome (R256, R132): either it is applied, OUTCOME says so with the candidate 0, 1 or
ROUND_HYBRID (P2, which is 3 in an accepted configuration), doneFlag is set and CalibrationState holds that candidate's TX
readings, and W_CAL_FAILED is not raised; or it is not applied, OUTCOME is 0, CalibrationState is bit for bit what it was
and W_CAL_FAILED is raised once (R324). In both cases the run ends in CAL_FINAL with no change of PowerTrackState, STATUS,
busy, inited or a latched input. What the working registers hold afterwards is the model's choice (assumption log 12). -/
def Obligations.IqkrunOutcome : Prop :=
  ∀ s : State, s.cfg.wf = true → ∃ b0 m0 m1 v1 v a e t : State,
    exec .backup { s with work := { s.work with
      res := Vector.replicate 4 (Vector.replicate 8 0), fail := Vector.replicate 3 (Vector.replicate 4 false),
      hcnt := Vector.replicate 4 0, hacc := Vector.replicate 8 0, cand := 0, candValid := false } } = .next b0 ∧
    exec .round { b0 with work := { b0.work with r := 0 } } = .next m0 ∧
    exec .round { m0 with work := { m0.work with r := 1 } } = .next m1 ∧
    exec .vote m1 = .next v1 ∧
    (v1.wires.found = true → v = v1) ∧
    (v1.wires.found = false → ∃ m2 v2 : State, exec .round { v1 with work := { v1.work with r := 2 } } = .next m2 ∧
      exec .vote m2 = .next v2 ∧ (v2.wires.found = true → v = v2) ∧
      (v2.wires.found = false → ∃ h1 h2 : State,
        exec .hybacc v2 = .next h1 ∧ exec .hybnorm h1 = .next h2 ∧ exec .hybchk h2 = .next v)) ∧
    (v.wires.found = true → ∃ w : State, exec .apply v = .next w ∧ exec .retain w = .next a) ∧
    (v.wires.found = false → a = v) ∧
    exec .finalrestore a = .next e ∧
    exec .iqkrun s = .next t ∧
    t = { e with outcome := t.outcome, wires := { s.wires with found := v.wires.found } } ∧
    t = { s with
      seq := { s.seq with phase := .calFinal }, work := t.work, cal := t.cal, outcome := t.outcome,
      warnReg := t.warnReg, port := t.port, wires := { s.wires with found := t.wires.found } } ∧
    (∀ x, x ≠ .pollTimeout → x ≠ .calFailed → warnCount t.warnReg x = warnCount s.warnReg x) ∧
    (t.wires.found = true →
      (t.work.cand = 0 ∧ t.outcome = 0x03 ∨ t.work.cand = 1 ∧ t.outcome = 0x07 ∨
        t.work.cand.toNat = s.cfg.roundHybrid.val ∧ t.outcome = 0x0F) ∧
      t.work.candValid = true ∧ t.cal.doneFlag = true ∧
      (∀ p : Path,
        (usable t.cfg t.work t.work.cand (txGroup p) = true →
          t.cal.txX[p] = t.work.resAt (candRound t.work.cand) (slotX (txGroup p)) ∧
          t.cal.txY[p] = t.work.resAt (candRound t.work.cand) (slotY (txGroup p))) ∧
        (usable t.cfg t.work t.work.cand (txGroup p) = false → t.cal.txX[p].toNat = 2 ^ s.cfg.frac ∧ t.cal.txY[p] = 0)) ∧
      warnCount t.warnReg .calFailed = warnCount s.warnReg .calFailed) ∧
    (t.wires.found = false → t.outcome = 0x00 ∧ t.cal = s.cal ∧ t.work.candValid = false ∧
      (warnCount t.warnReg .calFailed).toNat = min 15 ((warnCount s.warnReg .calFailed).toNat + 1))

/-! ## Unit 5: sensing -/

/-- UNSUPCHK tests the latched reference, not a sample, and disables the controller when it is the sentinel (R263, R325).
NEEDIQK seeds the anchor when there is none and otherwise compares the average with it, `>=` (R268). COMPCHK lets the first
pass through and otherwise compares the sample with the last applied one, `>` (R270). None makes a transaction. -/
def Obligations.CapabilityAndThresholdDecisions : Prop :=
  ∀ s : State,
    (s.thermalRef = s.cfg.thermUnsupported → exec .unsupchk s = .next { s with
      pt := { s.pt with disabled := true }, warnReg := warnBump s.warnReg .thermUnsupported,
      wires := { s.wires with stop := true } }) ∧
    (s.thermalRef ≠ s.cfg.thermUnsupported →
      exec .unsupchk s = .next { s with wires := { s.wires with stop := false } }) ∧
    (s.pt.anchorValid = false → exec .needIqk s = .next { s with
      pt := { s.pt with anchor := s.wires.avg, anchorValid := true }, wires := { s.wires with needIqk := false } }) ∧
    (s.pt.anchorValid = true → exec .needIqk s = .next { s with wires := { s.wires with
      needIqk := decide (s.cfg.iqkThresh ≤ ((s.wires.avg.toNat : Int) - s.pt.anchor.toNat).natAbs) } }) ∧
    (s.pt.initTrigger = true → exec .compchk s = .next { s with
      pt := { s.pt with initTrigger := false }, wires := { s.wires with go := true } }) ∧
    (s.pt.initTrigger = false → exec .compchk s = .next { s with wires := { s.wires with
      go := decide (s.cfg.compThresh < ((s.wires.t.toNat : Int) - s.pt.lastApplied.toNat).natAbs) } })

/-- THREAD answers the CODE field of the thermal meter's next answer, a code of THERM_W bits (P14), and records one
transaction; the device's storage and every register stay (R264; assumption log 9). -/
def Obligations.ThreadReadsTheSensor : Prop :=
  ∀ (s : State) (k : Nat), s.cfg.wf = true → isCtz s.cfg.maskCode k → ∃ t : State, exec .thread s = .next t ∧
    t = { s with wires := { s.wires with t := t.wires.t }, port := t.port } ∧ t.wires.t.toNat < 2 ^ s.cfg.thermW ∧
    t.port.trace = s.port.trace ++ [⟨0x74, BitVec.ofNat 8 s.cfg.thermPath.val, s.cfg.rfTMeter.setWidth 16,
      s.cfg.maskCode, 0, t.wires.t.setWidth 32⟩] ∧
    t.port.dev.mem = s.port.dev.mem ∧ t.port.dev.rf = s.port.dev.rf ∧
    (∀ w rest, s.port.dev.thermQ = w :: rest → t.wires.t = ((w &&& s.cfg.maskCode) >>> k).setWidth 8 ∧
      t.port.dev = { s.port.dev with thermQ := rest }) ∧
    (s.port.dev.thermQ = [] →
      t.wires.t = ((Config.freeTherm s.port.dev.draws &&& s.cfg.maskCode) >>> k).setWidth 8 ∧
      t.port.dev = { s.port.dev with draws := s.port.dev.draws + 1 })

/-- AVGUPD: the first sample becomes the average, a later one enters with weight 2^-K, truncated; only the pair of
THERM_PATH is written (R266). While accumulator and sample lie between lo and hi the new average does too, and a constant
input keeps the accumulator. -/
def Obligations.AvgupdAveragesWithinTheSamples : Prop :=
  ∀ (s : State) (q : Path), q = s.cfg.thermPath → ∃ acc : Nat,
    acc = (if s.pt.avgValid[q] = true then
        (s.pt.avgAcc[q] * 2 ^ s.cfg.avgRcpLog2 - s.pt.avgAcc[q] + s.wires.t.toNat * 2 ^ s.cfg.avgPrec) /
          2 ^ s.cfg.avgRcpLog2
      else s.wires.t.toNat * 2 ^ s.cfg.avgPrec) ∧
    exec .avgupd s = .next { s with
      pt := { s.pt with avgAcc := s.pt.avgAcc.set q acc, avgValid := s.pt.avgValid.set q true },
      wires := { s.wires with avg := BitVec.ofNat 8 (acc / 2 ^ s.cfg.avgPrec) } } ∧
    (∀ lo hi : Nat, hi < 256 → lo ≤ s.wires.t.toNat → s.wires.t.toNat ≤ hi →
      (s.pt.avgValid[q] = true → lo * 2 ^ s.cfg.avgPrec ≤ s.pt.avgAcc[q] ∧ s.pt.avgAcc[q] ≤ hi * 2 ^ s.cfg.avgPrec) →
      lo * 2 ^ s.cfg.avgPrec ≤ acc ∧ acc ≤ hi * 2 ^ s.cfg.avgPrec ∧
        lo ≤ (BitVec.ofNat 8 (acc / 2 ^ s.cfg.avgPrec)).toNat ∧ (BitVec.ofNat 8 (acc / 2 ^ s.cfg.avgPrec)).toNat ≤ hi)

/-- RAWDELTA clamps the change since the last applied sample to the tables and records the sample (R272): the index is
always inside them (R304), POS only for a rise. DLOOKUP reads the two tables of the polarity, negated for NEG (R286). -/
def Obligations.RawdeltaIndexesAndDlookupReads : Prop :=
  ∀ s : State, s.cfg.wf = true →
    (∃ k : Nat, k < s.cfg.deltaTblSz ∧
      k = min ((s.wires.t.toNat : Int) - s.pt.lastApplied.toNat).natAbs (s.cfg.deltaTblSz - 1) ∧
      exec .rawdelta s = .next { s with
        pt := { s.pt with lastApplied := s.wires.t },
        wires := { s.wires with
          pol := if s.pt.lastApplied.toNat < s.wires.t.toNat ∧ 2 ≤ s.cfg.deltaTblSz then .pos else .neg, k := k } }) ∧
    (s.wires.k < s.cfg.deltaTblSz → s.wires.pol = .pos → ∃ o c : Byte,
      s.cfg.dtOfdmPos[s.wires.k]? = some o ∧ s.cfg.dtCckPos[s.wires.k]? = some c ∧
      exec .dlookup s = .next { s with wires := { s.wires with deltaO := (o.toNat : Int), deltaC := (c.toNat : Int) } }) ∧
    (s.wires.k < s.cfg.deltaTblSz → s.wires.pol = .neg → ∃ o c : Byte,
      s.cfg.dtOfdmNeg[s.wires.k]? = some o ∧ s.cfg.dtCckNeg[s.wires.k]? = some c ∧
      exec .dlookup s = .next { s with wires := { s.wires with deltaO := -(o.toNat : Int), deltaC := -(c.toNat : Int) } })

/-- The two passes with the least effect (R274). With the sentinel reference a pass disables the controller, warns, and
makes no transaction (R263). With a small change and a small drift it reads the sensor, updates the average, and does
nothing else. -/
def Obligations.PassWithoutWork : Prop :=
  ∀ s : State,
    (s.thermalRef = s.cfg.thermUnsupported → exec .pass s = .next { s with
      seq := { s.seq with phase := .ptPassSense }, pt := { s.pt with disabled := true },
      warnReg := warnBump s.warnReg .thermUnsupported }) ∧
    (s.thermalRef ≠ s.cfg.thermUnsupported → s.pt.initTrigger = false → s.pt.anchorValid = true →
      ∀ w rest k q acc, s.port.dev.thermQ = w :: rest → isCtz s.cfg.maskCode k → q = s.cfg.thermPath →
      ∀ t : Byte, t = ((w &&& s.cfg.maskCode) >>> k).setWidth 8 →
      ((t.toNat : Int) - s.pt.lastApplied.toNat).natAbs ≤ s.cfg.compThresh →
      acc = (if s.pt.avgValid[q] = true then
          (s.pt.avgAcc[q] * 2 ^ s.cfg.avgRcpLog2 - s.pt.avgAcc[q] + t.toNat * 2 ^ s.cfg.avgPrec) / 2 ^ s.cfg.avgRcpLog2
        else t.toNat * 2 ^ s.cfg.avgPrec) →
      (((acc / 2 ^ s.cfg.avgPrec % 256 : Nat) : Int) - s.pt.anchor.toNat).natAbs < s.cfg.iqkThresh →
      exec .pass s = .next { s with
        seq := { s.seq with phase := .ptPassSense },
        pt := { s.pt with avgAcc := s.pt.avgAcc.set q acc, avgValid := s.pt.avgValid.set q true },
        port := ⟨{ s.port.dev with thermQ := rest }, s.port.trace ++ [⟨0x74, BitVec.ofNat 8 s.cfg.thermPath.val,
          s.cfg.rfTMeter.setWidth 16, s.cfg.maskCode, 0, (w &&& s.cfg.maskCode) >>> k⟩]⟩ })

/-- A whole pass (R274): UNSUPCHK, and if it says stop nothing more; THREAD, AVGUPD, NEEDIQK and COMPCHK; if COMPCHK says go,
RAWDELTA and PATHCOMP for path 0 and then path 1; and if NEEDIQK said so before, a nested IQKRUN, the anchor taken from the
average when the run is applied and there is one (R157), and RESYNC whether or not it succeeded. -/
def Obligations.PassIsItsComposition : Prop :=
  ∀ s : State, ∃ u : State, exec .unsupchk { s with seq := { s.seq with phase := .ptPassSense } } = .next u ∧
    (u.wires.stop = true → exec .pass s = .next { u with wires := s.wires }) ∧
    (u.wires.stop = false → ∃ t a n g c : State, exec .thread u = .next t ∧ exec .avgupd t = .next a ∧
      exec .needIqk a = .next n ∧ exec .compchk n = .next g ∧
      (g.wires.go = true → ∃ d p0 : State,
        exec .rawdelta { g with seq := { g.seq with phase := .ptPassComp } } = .next d ∧
        exec .pathcomp { d with work := { d.work with p := 0 } } = .next p0 ∧
        exec .pathcomp { p0 with work := { p0.work with p := 1 } } = .next c) ∧
      (g.wires.go = false → c = g) ∧
      (c.wires.needIqk = n.wires.needIqk) ∧
      (n.wires.needIqk = false → exec .pass s = .next { c with wires := s.wires }) ∧
      (n.wires.needIqk = true → ∃ r f : State, exec .iqkrun { c with seq := ⟨.ptPassIqk, true⟩ } = .next r ∧
        exec .resync { r with
          seq := ⟨.ptResync, false⟩,
          pt := if r.wires.found = true ∧ r.pt.avgValid[r.cfg.thermPath] = true then { r.pt with
              anchor := BitVec.ofNat 8 (r.pt.avgAcc[r.cfg.thermPath] / 2 ^ r.cfg.avgPrec), anchorValid := true }
            else r.pt } = .next f ∧
        exec .pass s = .next { f with wires := s.wires }))

/-- A pass that finds the first-pass flag set, or a change above COMP_THRESH, takes the sample as the last applied one,
clears the flag, and leaves both paths at the delta indices of the lookup for that change (R270, R272, R286, R298); a
nested calibration does not touch them. The first transaction is the thermal read, whose result is the CODE field of the
pending answer (assumption log 9). -/
def Obligations.PassCompensatesBothPaths : Prop :=
  ∀ s : State, s.thermalRef ≠ s.cfg.thermUnsupported →
    ∀ w rest, s.port.dev.thermQ = w :: rest → ∀ t : Byte, t = (fieldGet w s.cfg.maskCode).setWidth 8 →
    (s.pt.initTrigger = true ∨ s.cfg.compThresh < ((t.toNat : Int) - s.pt.lastApplied.toNat).natAbs) →
    ∃ u : State, exec .pass s = .next u ∧ u.pt.lastApplied = t ∧ u.pt.initTrigger = false ∧
      (∀ p : Path,
        u.pt.deltaOfdm[p].toInt = (dLookup s.cfg (polarityOf (rawDeltaOf s.cfg t s.pt.lastApplied))
          (rawDeltaOf s.cfg t s.pt.lastApplied).natAbs).1 ∧
        u.pt.deltaCck[p].toInt = (dLookup s.cfg (polarityOf (rawDeltaOf s.cfg t s.pt.lastApplied))
          (rawDeltaOf s.cfg t s.pt.lastApplied).natAbs).2) ∧
      ∃ l, u.port.trace = s.port.trace ++ (⟨0x74, BitVec.ofNat 8 s.cfg.thermPath.val, s.cfg.rfTMeter.setWidth 16,
        s.cfg.maskCode, 0, fieldGet w s.cfg.maskCode⟩ : TraceRec) :: l

/-- Idempotence (R276): of two passes in a row that read the same code, the second makes no transaction but its thermal
read and leaves the device's storage alone, whenever neither finds the drift that calls for a calibration, that is, neither
ends in PT_RESYNC. The two codes are pending answers (assumption log 9). -/
def Obligations.RepeatedPassIsQuiet : Prop :=
  ∀ (s : State) (w1 w2 : RfWord) (rest : List RfWord), s.port.dev.thermQ = w1 :: w2 :: rest →
    w1 &&& s.cfg.maskCode = w2 &&& s.cfg.maskCode → s.thermalRef ≠ s.cfg.thermUnsupported →
    ∃ t u : State, exec .pass s = .next t ∧ exec .pass t = .next u ∧
      (t.seq.phase ≠ .ptResync → u.seq.phase ≠ .ptResync →
        u.port.dev.mem = t.port.dev.mem ∧ u.port.dev.rf = t.port.dev.rf ∧
        u.port.trace = t.port.trace ++ [⟨0x74, BitVec.ofNat 8 s.cfg.thermPath.val, s.cfg.rfTMeter.setWidth 16,
          s.cfg.maskCode, 0, fieldGet w2 s.cfg.maskCode⟩])

/-! ## Unit 6: swing -/

/-- SWCLAMP clamps the request to the table and answers the rest as the remnant, exactly (R291): the remnant is zero in
range, negative only at index 0 and positive only at the last index. -/
def Obligations.SwclampKeepsRemnant : Prop :=
  ∀ s : State,
    (s.wires.tbl = .ofdm → ∃ idx : Fin 43,
      exec .swclamp s = .next { s with wires := { s.wires with idxO := idx, remO := s.wires.req - idx.val } } ∧
      (0 ≤ s.wires.req → s.wires.req ≤ 42 → (idx.val : Int) = s.wires.req) ∧
      (s.wires.req < 0 → idx.val = 0) ∧ (42 < s.wires.req → idx.val = 42)) ∧
    (s.wires.tbl = .cck → ∃ idx : Fin 33,
      exec .swclamp s = .next { s with wires := { s.wires with idxC := idx, remC := s.wires.req - idx.val } } ∧
      (0 ≤ s.wires.req → s.wires.req ≤ 32 → (idx.val : Int) = s.wires.req) ∧
      (s.wires.req < 0 → idx.val = 0) ∧ (32 < s.wires.req → idx.val = 32))

/-- SWOFDM (R293): with doneFlag = 0 one word write of the raw entry; with doneFlag = 1 the word of R120 made of the two
products with the entry's D, then the C_HI field and the two extension bits. No other byte changes. That an entry may be any
word, so that the raw write can set TXIQ bits 15:10, is the model's choice (assumption log 31). -/
def Obligations.SwofdmWritesEntry : Prop :=
  ∀ s : State, s.cfg.wf = true → s.port.dev.mem.wf = true →
    ∀ (p : Path) (e : Word) (d : Elem), p = s.work.p → e = s.cfg.ofdmTbl[s.wires.idxO] → d = e.extractLsb' 22 10 →
    ∃ t : State, exec .swofdm s = .next t ∧ t = { s with port := t.port } ∧
      t.port.dev.rf = s.port.dev.rf ∧ s.port.dev.sameAnswers t.port.dev ∧
      (s.cal.doneFlag = false →
        t.port.trace = s.port.trace ++ [wrRecord s.cfg.txiq[p] e] ∧ t.port.dev.mem.wordAt s.cfg.txiq[p] = e ∧
        ∀ b : Addr, ¬ inWord b s.cfg.txiq[p] → t.port.dev.mem.byteAt b = s.port.dev.mem.byteAt b) ∧
      (s.cal.doneFlag = true → ∀ a c, a = iqmult s.cfg (canon s.cfg s.cal.txX[p]) d →
        c = iqmult s.cfg (canon s.cfg s.cal.txY[p]) d →
        t.port.trace = s.port.trace ++ [wrRecord s.cfg.txiq[p] (d ++ c.1.extractLsb' 0 6 ++ 0#6 ++ a.1),
          wrmRecord s.cfg.txiqChi[p] s.cfg.maskCHi (c.1.setWidth 32 >>> 6),
          wrmRecord s.cfg.ecca s.cfg.maskExtA[p] (bitWord a.2), wrmRecord s.cfg.ecca s.cfg.maskExtC[p] (bitWord c.2)] ∧
        t.port.dev.mem.wordAt s.cfg.txiq[p] = d ++ c.1.extractLsb' 0 6 ++ 0#6 ++ a.1 ∧
        fieldGet (t.port.dev.mem.wordAt s.cfg.txiqChi[p]) s.cfg.maskCHi = c.1.setWidth 32 >>> 6 ∧
        t.port.dev.mem.wordAt s.cfg.txiqChi[p] &&& ~~~s.cfg.maskCHi =
          s.port.dev.mem.wordAt s.cfg.txiqChi[p] &&& ~~~s.cfg.maskCHi ∧
        fieldGet (t.port.dev.mem.wordAt s.cfg.ecca) s.cfg.maskExtA[p] = bitWord a.2 ∧
        fieldGet (t.port.dev.mem.wordAt s.cfg.ecca) s.cfg.maskExtC[p] = bitWord c.2 ∧
        t.port.dev.mem.wordAt s.cfg.ecca &&& ~~~(s.cfg.maskExtA[p] ||| s.cfg.maskExtC[p]) =
          s.port.dev.mem.wordAt s.cfg.ecca &&& ~~~(s.cfg.maskExtA[p] ||| s.cfg.maskExtC[p]) ∧
        ∀ b : Addr, ¬ inTxImbalance s.cfg p b → t.port.dev.mem.byteAt b = s.port.dev.mem.byteAt b)

/-- SWCCK writes the eight bytes of the entry of CCK_TBL_1_13 to CCK_REG[0..7], one byte write each, ascending (R295); no
other byte changes. -/
def Obligations.SwcckWritesEightBytes : Prop :=
  ∀ s : State, s.cfg.wf = true → s.port.dev.mem.wf = true → ∃ t : State, exec .swcck s = .next t ∧
    t = { s with port := t.port } ∧
    t.port.trace = s.port.trace ++
      (List.finRange 8).map (fun k => wrByteRecord (s.cfg.cckReg k) (s.cfg.cckTbl[s.wires.idxC])[k]) ∧
    t.port.dev.rf = s.port.dev.rf ∧ s.port.dev.sameAnswers t.port.dev ∧
    (∀ k : Fin 8, t.port.dev.mem.byteAt (s.cfg.cckReg k) = (s.cfg.cckTbl[s.wires.idxC])[k]) ∧
    (∀ b : Addr, (∀ k : Fin 8, b ≠ s.cfg.cckReg k) → t.port.dev.mem.byteAt b = s.port.dev.mem.byteAt b)

/-- The channel-14 table is never read (R296): whatever replaces it, every operation does the same, and keeps what
replaced it. -/
def Obligations.Channel14TableNeverRead : Prop :=
  ∀ (i : Instr) (s : State) (tbl : Vector (Vector Byte 8) 33),
    exec i { s with cfg := { s.cfg with cckTbl14 := tbl } } =
      match exec i s with
      | .next t => .next { t with cfg := { t.cfg with cckTbl14 := tbl } }
      | .fault f => .fault f
      | .refused r => .refused r

/-- COMMIT stores the two deltas and the two remnants of its path and then makes the two hook transactions, REAPPLY with
the channel the first one answered, with what CHAN and REAPPLY do to the environment (R297). The other path's fields and
every other register stay. An operand outside
-255..255, which the sequencer never gives, is cut to the register's width: the model's choice (assumption log 15). -/
def Obligations.CommitStoresAndReapplies : Prop :=
  ∀ (s : State) (p : Path), p = s.work.p → ∃ (t : State) (ch : Byte), exec .commit s = .next t ∧
    t = { s with
      port := t.port,
      pt := { s.pt with
        deltaOfdm := s.pt.deltaOfdm.set p (BitVec.ofInt 9 s.wires.deltaO),
        deltaCck := s.pt.deltaCck.set p (BitVec.ofInt 9 s.wires.deltaC),
        remnantOfdm := s.pt.remnantOfdm.set p (BitVec.ofInt 10 s.wires.remO),
        remnantCck := s.pt.remnantCck.set p (BitVec.ofInt 10 s.wires.remC) } } ∧
    (-255 ≤ s.wires.deltaO → s.wires.deltaO ≤ 255 → t.pt.deltaOfdm[p].toInt = s.wires.deltaO) ∧
    (-255 ≤ s.wires.deltaC → s.wires.deltaC ≤ 255 → t.pt.deltaCck[p].toInt = s.wires.deltaC) ∧
    (-255 ≤ s.wires.remO → s.wires.remO ≤ 255 → t.pt.remnantOfdm[p].toInt = s.wires.remO) ∧
    (-255 ≤ s.wires.remC → s.wires.remC ≤ 255 → t.pt.remnantCck[p].toInt = s.wires.remC) ∧
    t.port.trace = s.port.trace ++
      [⟨0x78, 0, 0, 0, 0, ch.setWidth 32⟩, ⟨0x79, 0, 0, 0, ch.setWidth 32, 0⟩] ∧
    (∀ c rest, s.port.dev.chanQ = c :: rest → ch = c) ∧
    (∃ u v : State, exec .hookChan { s with pt := t.pt } = .next u ∧ u.wires.chan = ch ∧ exec .hookReapply u = .next v ∧
      t = { v with wires := s.wires }) ∧
    (∀ a : Addr, s.cfg.regClass a ≠ .storage → t.port.dev.mem.byteAt a = s.port.dev.mem.byteAt a)

/-- PATHCOMP is skipped, with no effect at all, exactly when both deltas are unchanged (R298). Otherwise it uses two
indices inside the tables, stores the deltas, and remnant = baseline + delta - index holds for both tables at once (R304);
it is SWOFDM of the first index, SWCCK of the second and COMMIT of the deltas and remnants, for its own path, and so makes 1
or 4, then 8, then 2 transactions, those of R293, R295 and R297, and touches only its own path's fields. -/
def Obligations.PathcompSkipsOrKeepsRemnantLaw : Prop :=
  ∀ (s : State) (p : Path) (d : Int × Int), p = s.work.p → d = dLookup s.cfg s.wires.pol s.wires.k →
    (d.1 = s.pt.deltaOfdm[p].toInt → d.2 = s.pt.deltaCck[p].toInt → exec .pathcomp s = .next s) ∧
    (¬ (d.1 = s.pt.deltaOfdm[p].toInt ∧ d.2 = s.pt.deltaCck[p].toInt) →
      ∃ (t : State) (iO : Fin 43) (iC : Fin 33) (l m : List TraceRec), exec .pathcomp s = .next t ∧
        t = { s with
          port := t.port,
          pt := { s.pt with
            deltaOfdm := t.pt.deltaOfdm, deltaCck := t.pt.deltaCck, remnantOfdm := t.pt.remnantOfdm,
            remnantCck := t.pt.remnantCck } } ∧
        t.pt.deltaOfdm[p].toInt = d.1 ∧ t.pt.deltaCck[p].toInt = d.2 ∧
        (iO.val : Int) = max 0 (min 42 (s.pt.ofdmIndex.toNat + d.1)) ∧
        (iC.val : Int) = max 0 (min 32 (s.pt.cckIndex.toNat + d.2)) ∧
        t.pt.remnantOfdm[p].toInt = s.pt.ofdmIndex.toNat + d.1 - iO.val ∧
        t.pt.remnantCck[p].toInt = s.pt.cckIndex.toNat + d.2 - iC.val ∧
        (∀ p' : Path, p' ≠ p → t.pt.deltaOfdm[p'] = s.pt.deltaOfdm[p'] ∧ t.pt.deltaCck[p'] = s.pt.deltaCck[p'] ∧
          t.pt.remnantOfdm[p'] = s.pt.remnantOfdm[p'] ∧ t.pt.remnantCck[p'] = s.pt.remnantCck[p']) ∧
        t.port.trace = s.port.trace ++ l ++
          (List.finRange 8).map (fun k => wrByteRecord (s.cfg.cckReg k) (s.cfg.cckTbl[iC])[k]) ++ m ∧
        (s.cal.doneFlag = false → l = [wrRecord s.cfg.txiq[p] s.cfg.ofdmTbl[iO]]) ∧
        (s.cal.doneFlag = true → ∀ (e : Elem) a c, e = s.cfg.ofdmTbl[iO].extractLsb' 22 10 →
          a = iqmult s.cfg (canon s.cfg s.cal.txX[p]) e → c = iqmult s.cfg (canon s.cfg s.cal.txY[p]) e →
          l = [wrRecord s.cfg.txiq[p] (e ++ c.1.extractLsb' 0 6 ++ 0#6 ++ a.1),
            wrmRecord s.cfg.txiqChi[p] s.cfg.maskCHi (c.1.setWidth 32 >>> 6),
            wrmRecord s.cfg.ecca s.cfg.maskExtA[p] (bitWord a.2),
            wrmRecord s.cfg.ecca s.cfg.maskExtC[p] (bitWord c.2)]) ∧
        m.map TraceRec.kind = [0x78, 0x79] ∧
        ∃ u v w : State, exec .swofdm { s with wires := { s.wires with idxO := iO } } = .next u ∧
          u.port.trace = s.port.trace ++ l ∧ exec .swcck { u with wires := { u.wires with idxC := iC } } = .next v ∧
          exec .commit { v with wires := { v.wires with
            deltaO := d.1, deltaC := d.2, remO := s.pt.ofdmIndex.toNat + d.1 - iO.val,
            remC := s.pt.cckIndex.toNat + d.2 - iC.val } } = .next w ∧ w.port.trace = v.port.trace ++ m ∧
          t = { w with wires := s.wires })

/-- RESYNCO takes the lowest OFDM entry whose D is the field the device holds, RESYNCC the lowest CCK entry whose first
byte is the byte it holds, each the default index when there is none, with one read; RESYNC is the first, then the second
(R300, R301, R302). Nothing else changes: no delta, no remnant, no byte. -/
def Obligations.ResyncFindsLowestEntry : Prop :=
  ∀ s : State, s.cfg.wf = true →
    (∃ (i : BitVec 6) (v : Word), exec .resynco s = .next { s with
        pt := { s.pt with ofdmIndex := i },
        port := ⟨s.port.dev, s.port.trace ++ [rdmRecord s.cfg.txiq[0] s.cfg.maskD v]⟩ } ∧
      v = fieldGet (s.port.dev.mem.wordAt s.cfg.txiq[0]) s.cfg.maskD ∧
      (∀ j : Fin 43, (s.cfg.ofdmTbl[j].extractLsb' 22 10).setWidth 32 = v →
        (∀ j' < j, (s.cfg.ofdmTbl[j'].extractLsb' 22 10).setWidth 32 ≠ v) → i.toNat = j.val) ∧
      ((∀ j : Fin 43, (s.cfg.ofdmTbl[j].extractLsb' 22 10).setWidth 32 ≠ v) → i = s.cfg.defOfdmIndex)) ∧
    (∃ (i : BitVec 6) (b : Byte), exec .resyncc s = .next { s with
        pt := { s.pt with cckIndex := i },
        port := ⟨s.port.dev, s.port.trace ++ [rdByteRecord (s.cfg.cckReg 0) b]⟩ } ∧
      b = s.port.dev.mem.byteAt (s.cfg.cckReg 0) ∧
      (∀ j : Fin 33, (s.cfg.cckTbl[j])[0] = b → (∀ j' < j, (s.cfg.cckTbl[j'])[0] ≠ b) → i.toNat = j.val) ∧
      ((∀ j : Fin 33, (s.cfg.cckTbl[j])[0] ≠ b) → i = s.cfg.defCckIndex)) ∧
    ∃ t u : State, exec .resynco s = .next t ∧ exec .resyncc t = .next u ∧ exec .resync s = .next u

/-! ## Unit 0: host commands -/

/-- Acceptance (R151): the checks in their order, busy, illegal code, INIT when initialised, another command when not.
A refused code changes nothing but STATUS and the refusal counter (R326); it is lost. -/
def Obligations.CommandAcceptance : Prop :=
  ∀ (s : State) (code pin : Byte) (rest : List HostEvent), s.useq = [] → s.cmds = .command code pin :: rest →
    ∀ refuse : Byte → State, refuse = (fun st => { s with
      cmds := rest, thermalRefIn := pin, status := st, warnReg := warnBump s.warnReg .refused }) →
    (s.busy = true → step s = .next (refuse 0x82)) ∧
    (s.busy = false → code ∉ [0x01#8, 0x02#8, 0x03#8, 0x04#8] → step s = .next (refuse 0x80)) ∧
    (s.busy = false → code = 0x01 → s.inited = true → step s = .next (refuse 0x83)) ∧
    (s.busy = false → code ∈ [0x02#8, 0x03#8, 0x04#8] → s.inited = false → step s = .next (refuse 0x81))

/-- INIT (R153): both records are created with the values of R53, thermalRef and lastApplied take the input port's level,
hciKind the hook's answer, the baseline indices what the resync finds; exactly three transactions, no device write. The
reserved hook answer 3 is refused by the model (U6; assumption log 16). -/
def Obligations.InitCreatesState : Prop :=
  ∀ s : State, s.cfg.wf = true → s.busy = false → s.inited = false →
    (∀ b rest, s.port.dev.hciQ = b :: rest → b = 3 → exec .init s = .refused .reservedHciKind) ∧
    ((∀ b rest, s.port.dev.hciQ = b :: rest → b ≠ 3) → ∃ (t : State) (v : Word) (b : Byte), exec .init s = .next t ∧
      t = { s with
        inited := true, busy := false, seq := ⟨.idle, t.seq.ret⟩, work := t.work, thermalRef := s.thermalRefIn,
        hciKind := t.hciKind, status := 0x01, outcome := 0x00, warnReg := 0x0000, port := t.port, cal := t.cal,
        pt := { ofdmIndex := ofdmIndexOf s.cfg (v.setWidth 10), cckIndex := cckIndexOf s.cfg b, avgAcc := #v[0, 0],
                avgValid := #v[false, false], deltaOfdm := #v[0, 0], deltaCck := #v[0, 0], remnantOfdm := #v[0, 0],
                remnantCck := #v[0, 0], triggered := false, initTrigger := true, disabled := false,
                lastApplied := s.thermalRefIn, anchor := 0, anchorValid := false } } ∧
      (∀ p : Path, t.cal.txX[p].toNat = 2 ^ s.cfg.frac ∧ t.cal.txY[p] = 0) ∧ t.cal.doneFlag = false ∧
      v = fieldGet (s.port.dev.mem.wordAt s.cfg.txiq[0]) s.cfg.maskD ∧ b = s.port.dev.mem.byteAt (s.cfg.cckReg 0) ∧
      t.port.trace = s.port.trace ++ [⟨0x7A, 0, 0, 0, 0, (hciCode t.hciKind).setWidth 32⟩,
        rdmRecord s.cfg.txiq[0] s.cfg.maskD v, rdByteRecord (s.cfg.cckReg 0) b] ∧
      t.port.dev.mem = s.port.dev.mem ∧ t.port.dev.rf = s.port.dev.rf ∧
      (∀ c rest, s.port.dev.hciQ = c :: rest → hciCode t.hciKind = c))

/-- CALIBRATE, accepted, is an IQK run under busy, the anchor taken from the average when the run is applied and there is
one (R157), and STATUS 0x01 when it is applied, 0x02 when not (R154). -/
def Obligations.CalibrateRunsTheEngine : Prop :=
  ∀ s : State, s.busy = false → s.inited = true → ∃ r : State, exec .iqkrun { s with busy := true } = .next r ∧
    exec .calibrate s = .next { r with
      wires := s.wires, busy := false, seq := { r.seq with phase := .idle },
      status := if r.wires.found = true then 0x01 else 0x02,
      pt := if r.wires.found = true ∧ s.pt.avgValid[s.cfg.thermPath] = true then { s.pt with
          anchor := BitVec.ofNat 8 (s.pt.avgAcc[s.cfg.thermPath] / 2 ^ s.cfg.avgPrec), anchorValid := true }
        else s.pt }

/-- TICK, accepted (R155): disabled, it answers its status and nothing else; ARMED, it arms and becomes SAMPLED; SAMPLED,
it makes a pass and becomes ARMED again, and answers 0x03 when that pass disabled the controller. -/
def Obligations.TickStateMachine : Prop :=
  ∀ s : State, s.busy = false → s.inited = true →
    (s.pt.disabled = true → exec .tick s = .next { s with status := 0x03 }) ∧
    (s.pt.disabled = false → s.pt.triggered = false →
      ∃ r : State, exec .arm { s with busy := true, seq := { s.seq with phase := .ptArm } } = .next r ∧
        exec .tick s = .next { r with
          busy := false, seq := { s.seq with phase := .idle }, status := 0x01, pt := { s.pt with triggered := true } }) ∧
    (s.pt.disabled = false → s.pt.triggered = true →
      ∃ r : State, exec .pass { s with busy := true } = .next r ∧
        exec .tick s = .next { r with
          busy := false, seq := { r.seq with phase := .idle }, pt := { r.pt with triggered := false },
          status := if r.pt.disabled = true then 0x03 else 0x01 })

/-- The two resets (R53, R156, R350, R351). DETACH, accepted, and the hardware reset give every element of the table of
R53 its value, make no transaction and leave the device alone; DETACH then sets STATUS to 0x01. The working registers are
unspecified: nothing is said of them (assumption log 12). -/
def Obligations.ResetsGiveTheTable : Prop :=
  ∀ s : State, ∀ table : State → Byte → State → Prop,
    table = (fun s st t => t = { s with
      inited := false, busy := false, seq := ⟨.idle, t.seq.ret⟩, work := t.work, thermalRef := 0, hciKind := .usb,
      status := st, outcome := 0x00, warnReg := 0x0000, port := t.port,
      cal := ⟨#v[BitVec.ofNat 10 (2 ^ s.cfg.frac), BitVec.ofNat 10 (2 ^ s.cfg.frac)], #v[0, 0], false⟩,
      pt := { ofdmIndex := s.cfg.defOfdmIndex, cckIndex := s.cfg.defCckIndex, avgAcc := #v[0, 0],
              avgValid := #v[false, false], deltaOfdm := #v[0, 0], deltaCck := #v[0, 0], remnantOfdm := #v[0, 0],
              remnantCck := #v[0, 0], triggered := false, initTrigger := false, disabled := false,
              lastApplied := 0, anchor := 0, anchorValid := false } } ∧
      t.port.trace = s.port.trace ∧ t.port.dev.mem = s.port.dev.mem ∧ t.port.dev.rf = s.port.dev.rf) →
    (s.busy = false → s.inited = true → ∃ t : State, exec .detach s = .next t ∧ table s 0x01 t) ∧
    (∀ rest, s.useq = [] → s.cmds = .hardwareReset :: rest →
      ∃ t : State, step s = .next t ∧ table { s with cmds := rest } 0x00 t)

/-! ## Conditions, and the whole machine -/

/-- A warning moves its own counter up by one, to 15 at most, and leaves the other three alone (R327, R133). -/
def Obligations.WarnCountersSaturate : Prop :=
  ∀ (r : BitVec 16) (x y : Warning),
    (warnCount (warnBump r x) x).toNat = min 15 ((warnCount r x).toNat + 1) ∧
    (y ≠ x → warnCount (warnBump r x) y = warnCount r y)

/-- The state after reset, with the default configuration and with every configuration the block accepts, meets the
invariant that holds between commands; a configuration that violates a constraint is refused by name when the block is
built (R356, U13; some of the constraints are the model's own, read from the layouts: assumption log 21). -/
def Obligations.InvHoldsAtReset : Prop :=
  State.reset.Inv ∧ ∀ c : Config,
    (c.wf = true → ∃ s, State.build c = .ok s ∧ s = State.resetWith c ∧ s.Inv) ∧
    (c.wf = false → ∃ q, State.build c = .error (.badConfiguration q) ∧ c.meets q = false)

/-- Every step keeps the invariant between commands (R39, R32, R342): from any state that meets it, whatever the host or
another agent presents, a command, an illegal code, a device write or a reset, the state after the step meets it again. -/
def Obligations.StepKeepsInv : Prop :=
  ∀ s t : State, s.Inv → step s = .next t → t.Inv

/-- Between commands no step stops (R158, R332): with no reserved bus kind pending, every step from a state that meets the
invariant answers a next state, and none becomes pending. -/
def Obligations.StepNeverStopsBetweenCommands : Prop :=
  ∀ s : State, s.Inv → s.port.dev.hciLegal → s.Safe ∧ ∀ t : State, step s = .next t → t.port.dev.hciLegal

/-- doneFlag, once true, is cleared only by INIT and DETACH, which create and discard the record (R34, invariant (3) of
R39); CalibrationState is written only by these, by RETAIN and by what runs it, and after such a write doneFlag is set;
the anchor is written only by these two, by NEEDIQK and by what runs NEEDIQK or ANCHORUPD (R268). -/
def Obligations.CalibrationRecordsAreGuarded : Prop :=
  ∀ (i : Instr) (s t : State), exec i s = .next t →
    (s.cal.doneFlag = true → t.cal.doneFlag = false → i = .init ∨ i = .detach) ∧
    (t.cal ≠ s.cal → i ∈ [.init, .detach, .retain, .iqkrun, .pass, .calibrate, .tick]) ∧
    (t.cal ≠ s.cal → i ≠ .init → i ≠ .detach → t.cal.doneFlag = true) ∧
    (t.pt.anchor ≠ s.pt.anchor ∨ t.pt.anchorValid ≠ s.pt.anchorValid →
      i ∈ [.init, .detach, .needIqk, .pass, .calibrate, .tick])

/-- What every step keeps, from every state: the configuration (R356), the trace so far, to which only transaction records
are appended (R81, R140), the canonical form of both stores, and every byte that is not of class STORAGE (R80). -/
def Obligations.StepKeepsConfigTraceAndStores : Prop :=
  ∀ s t : State, step s = .next t →
    t.cfg = s.cfg ∧ (∃ l, t.port.trace = s.port.trace ++ l ∧ ∀ r ∈ l, isTransaction r) ∧
    (s.port.dev.mem.wf = true → t.port.dev.mem.wf = true ∧
      ∀ a : Addr, s.cfg.regClass a ≠ .storage → t.port.dev.mem.byteAt a = s.port.dev.mem.byteAt a) ∧
    (rfWf s.cfg s.port.dev.rf = true → rfWf t.cfg t.port.dev.rf = true)

end
end

