-- ==== Sys2Proof/Laws/Fields.lean ====
section
/-! SUPPORT. Masked fields (R84, R85): what a masked read finds after a masked write. -/

namespace Sys2Proof.Machine

theorem trailingZeros_shifted (k fuel n : Nat) (hn : n % 2 = 1) (hk : k < fuel) :
    trailingZeros fuel (n * 2 ^ k) = k := by
  induction k generalizing fuel with
  | zero =>
    obtain ⟨f, rfl⟩ : ∃ f, fuel = f + 1 := ⟨fuel - 1, by omega⟩
    simp [trailingZeros, hn]
  | succ k ih =>
    obtain ⟨f, rfl⟩ : ∃ f, fuel = f + 1 := ⟨fuel - 1, by omega⟩
    have h2 : n * 2 ^ (k + 1) = 2 * (n * 2 ^ k) := by ring
    rw [trailingZeros, if_neg (by omega), h2, Nat.mul_div_cancel_left _ (by omega), ih f (by omega)]
    omega

/-- A field mask of `n` bits starts at its trailing-zero count. -/
theorem isField_ctz {w n : Nat} {m : BitVec w} (h : isField m n) (hn : 0 < n) :
    ctz m < w ∧ m.toNat = (2 ^ n - 1) * 2 ^ ctz m := by
  simp only [isField, List.any_eq_true, List.mem_range, beq_iff_eq] at h
  obtain ⟨k, hk, he⟩ := h
  have hodd : (2 ^ n - 1) % 2 = 1 := by
    obtain ⟨j, rfl⟩ : ∃ j, n = j + 1 := ⟨n - 1, by omega⟩
    have := Nat.one_le_two_pow (n := j); rw [Nat.pow_succ]; omega
  have : ctz m = k := by rw [ctz, he]; exact trailingZeros_shifted k w _ hodd hk
  rw [this]; exact ⟨hk, he⟩

/-- A field reads back the value written to it, when the value fits the field (R84, R85). -/
theorem fieldGet_fieldSet_self {w n : Nat} {m : BitVec w} (h : isField m n) (hn : 0 < n) (old : BitVec w) {v : BitVec w}
    (hv : v.toNat < 2 ^ n) : fieldGet (fieldSet old m v) m = v := by
  obtain ⟨hk, he⟩ := isField_ctz h hn
  have hbit : ∀ i, m.getLsbD i = (decide (ctz m ≤ i) && decide (i < ctz m + n)) := by
    intro i
    rw [BitVec.getLsbD, he, Nat.mul_comm, Nat.testBit_two_pow_mul, Nat.testBit_two_pow_sub_one]
    by_cases h1 : ctz m ≤ i
    · simp only [ge_iff_le, h1, decide_true, Bool.true_and, decide_eq_decide]; omega
    · simp [h1]
  have hvbit : ∀ i, n ≤ i → v.getLsbD i = false := by
    intro i hi
    rw [BitVec.getLsbD]
    exact Nat.testBit_lt_two_pow (lt_of_lt_of_le hv (Nat.pow_le_pow_right (by omega) hi))
  have hmw : ctz m + n ≤ w := by
    by_contra hc
    have h1 := hbit w
    rw [BitVec.getLsbD_of_ge _ _ (le_refl w)] at h1
    have h2 : ctz m ≤ w := by omega
    have h3 : w < ctz m + n := by omega
    simp [h2, h3] at h1
  apply BitVec.eq_of_getLsbD_eq
  intro i hi
  simp only [fieldGet, fieldSet, BitVec.getLsbD_ushiftRight, BitVec.getLsbD_and, BitVec.getLsbD_or, BitVec.getLsbD_not,
    BitVec.getLsbD_shiftLeft, hbit]
  by_cases hin : i < n
  · have h1 : ctz m + i < w := by omega
    simp [h1, hin]
  · rw [hvbit i (by omega)]
    have h3 : ¬ ctz m + i < ctz m + n := by omega
    simp [h3]

/-- A masked write leaves every disjoint field alone (R85). -/
theorem fieldGet_fieldSet_of_disjoint {w : Nat} {m m' : BitVec w} (h : m &&& m' = 0) (old v : BitVec w) :
    fieldGet (fieldSet old m v) m' = fieldGet old m' := by
  unfold fieldGet fieldSet
  congr 1
  apply BitVec.eq_of_getLsbD_eq
  intro i hi
  have hb : (m.getLsbD i && m'.getLsbD i) = false := by rw [← BitVec.getLsbD_and, h]; simp
  simp only [BitVec.getLsbD_and, BitVec.getLsbD_or, BitVec.getLsbD_not]
  cases h1 : m.getLsbD i <;> cases h2 : m'.getLsbD i <;> simp_all

/-- Writing back what a masked read found changes nothing. -/
theorem fieldSet_fieldGet {w : Nat} (old m : BitVec w) (hc : ∀ i, i < ctz m → m.getLsbD i = false) :
    fieldSet old m (fieldGet old m) = old := by
  apply BitVec.eq_of_getLsbD_eq
  intro i hi
  simp only [fieldGet, fieldSet, BitVec.getLsbD_ushiftRight, BitVec.getLsbD_and, BitVec.getLsbD_or, BitVec.getLsbD_not,
    BitVec.getLsbD_shiftLeft]
  by_cases hlt : i < ctz m
  · rw [hc i hlt]
    simp [hi]
  · rw [show ctz m + (i - ctz m) = i by omega]
    cases m.getLsbD i <;> simp [hi, hlt]

theorem trailingZeros_low (fuel n i : Nat) (h : i < trailingZeros fuel n) : n.testBit i = false := by
  induction fuel generalizing n i with
  | zero => simp [trailingZeros] at h
  | succ f ih =>
    rw [trailingZeros] at h
    split at h
    · omega
    · rename_i ho
      cases i with
      | zero => simp [Nat.testBit_zero]; omega
      | succ i => rw [Nat.testBit_succ]; exact ih _ _ (by omega)

/-- Below its trailing-zero count a mask has no bit. -/
theorem ctz_low {w : Nat} (m : BitVec w) (i : Nat) (h : i < ctz m) : m.getLsbD i = false :=
  trailingZeros_low w m.toNat i h

/-- Two words have the same field exactly when they agree under its mask. -/
theorem fieldGet_eq_iff {w : Nat} (x y m : BitVec w) : fieldGet x m = fieldGet y m ↔ x &&& m = y &&& m := by
  constructor
  · intro h
    apply BitVec.eq_of_getLsbD_eq
    intro i hi
    by_cases hc : i < ctz m
    · simp [ctz_low m i hc]
    · have := congrArg (fun b => b.getLsbD (i - ctz m)) h
      simp only [fieldGet, BitVec.getLsbD_ushiftRight, show ctz m + (i - ctz m) = i by omega] at this
      exact this
  · intro h; simp [fieldGet, h]

/-- Writing the field of another word copies its bits under the mask (R84, R85). -/
theorem fieldSet_fieldGet_eq {w : Nat} (old x m : BitVec w) :
    fieldSet old m (fieldGet x m) = (old &&& ~~~m) ||| (x &&& m) := by
  apply BitVec.eq_of_getLsbD_eq
  intro i hi
  simp only [fieldGet, fieldSet, BitVec.getLsbD_ushiftRight, BitVec.getLsbD_and, BitVec.getLsbD_or, BitVec.getLsbD_not,
    BitVec.getLsbD_shiftLeft]
  by_cases hlt : i < ctz m
  · rw [ctz_low m i hlt]
    simp [hi]
  · rw [show ctz m + (i - ctz m) = i by omega]
    cases m.getLsbD i <;> simp [hi, hlt]

/-- The trailing-zero count is the position of the lowest set bit (R12). -/
theorem ctz_eq {w : Nat} {m : BitVec w} {k : Nat} (h : m.getLsbD k = true) (hl : ∀ i < k, m.getLsbD i = false) :
    ctz m = k := by
  have hkw : k < w := BitVec.lt_of_getLsbD h
  have key : ∀ (fuel n : Nat), k < fuel → n.testBit k = true → (∀ i < k, n.testBit i = false) →
      trailingZeros fuel n = k := by
    clear h hl hkw
    induction k with
    | zero =>
      intro fuel n hf h1 _
      obtain ⟨f, rfl⟩ : ∃ f, fuel = f + 1 := ⟨fuel - 1, by omega⟩
      have : n % 2 = 1 := by simpa [Nat.testBit_zero] using h1
      simp [trailingZeros, this]
    | succ k ih =>
      intro fuel n hf h1 h2
      obtain ⟨f, rfl⟩ : ∃ f, fuel = f + 1 := ⟨fuel - 1, by omega⟩
      have h0 : ¬ n % 2 = 1 := by
        have := h2 0 (by omega)
        simpa [Nat.testBit_zero] using this
      rw [trailingZeros, if_neg h0, ih f (n / 2) (by omega) (by rwa [← Nat.testBit_succ])
        (fun i hi => by rw [← Nat.testBit_succ]; exact h2 _ (by omega))]
      omega
  exact key w m.toNat hkw h hl

/-! ## Words and their bytes (R76) -/

theorem word_of_bytes (v : Word) : byteOf v 3 ++ byteOf v 2 ++ byteOf v 1 ++ byteOf v 0 = v := by
  apply BitVec.eq_of_getLsbD_eq
  intro i hi
  simp only [byteOf, BitVec.getLsbD_append, BitVec.getLsbD_extractLsb']
  by_cases h1 : i < 8
  · simp [h1]
  · by_cases h2 : i < 16
    · have e : 8 * 1 + (i - 8) = i := by omega
      have : i - 8 < 8 := by omega
      simp [h1, this, e]
    · by_cases h3 : i < 24
      · have e : 8 * 2 + (i - 8 - 8) = i := by omega
        have a1 : ¬ i - 8 < 8 := by omega
        have a2 : i - 8 - 8 < 8 := by omega
        simp [h1, a1, a2, e]
      · have e : 8 * 3 + (i - 8 - 8 - 8) = i := by omega
        have a1 : ¬ i - 8 < 8 := by omega
        have a2 : ¬ i - 8 - 8 < 8 := by omega
        have a3 : i - 8 - 8 - 8 < 8 := by omega
        simp [h1, a1, a2, a3, e]

theorem addr_add_ne (a : Addr) {i j : Nat} (hi : i < 4) (hj : j < 4) (h : i ≠ j) :
    a + BitVec.ofNat 16 i ≠ a + BitVec.ofNat 16 j := by
  intro e
  have h2 := congrArg BitVec.toNat e
  simp only [BitVec.toNat_add, BitVec.toNat_ofNat] at h2
  have := a.isLt
  omega

/-! ## Canonical values (R170, R171, R174) -/

/-- The value a raw word of at most ten bits encodes to (R171). -/
theorem encodeRaw_toNat {c : Config} (h : c.readW ≤ 10) (s : Int) : (encodeRaw c s).toNat = (s % 2 ^ c.readW).toNat := by
  have hp : (2 : Int) ^ c.readW ≤ 2 ^ 10 := pow_le_pow_right₀ (by norm_num) h
  have h0 : 0 ≤ s % 2 ^ c.readW := Int.emod_nonneg _ (by positivity)
  have h1 : s % 2 ^ c.readW < 2 ^ c.readW := Int.emod_lt_of_pos _ (by positivity)
  rw [encodeRaw, BitVec.toNat_ofInt]
  congr 1
  exact Int.emod_eq_of_lt h0 (by norm_num at hp ⊢; omega)

theorem encodeRaw_canon {c : Config} (h : c.readW ≤ 10) {u : Raw} (hu : u.toNat < 2 ^ c.readW) :
    encodeRaw c (canon c u) = u := by
  apply BitVec.eq_of_toNat_eq
  have e : (canon c u) % (2 : Int) ^ c.readW = (u.toNat : Int) := by
    have := Int.bmod_emod (x := (u.toNat : Int)) (m := 2 ^ c.readW)
    rw [Nat.cast_pow, Nat.cast_ofNat] at this
    rw [canon, sext, this, Int.emod_eq_of_lt (by omega) (by exact_mod_cast hu)]
  rw [encodeRaw_toNat h, e, Int.toNat_natCast]

/-- The range of CANON (R170). -/
theorem canon_range {c : Config} (h : 1 ≤ c.readW) (u : Raw) :
    -(2 : Int) ^ (c.readW - 1) ≤ canon c u ∧ canon c u < 2 ^ (c.readW - 1) := by
  have hm : 0 < 2 ^ c.readW := by positivity
  have e : 2 ^ c.readW = 2 * 2 ^ (c.readW - 1) := by
    rw [← Nat.pow_succ']
    congr 1
    omega
  have h1 := Int.le_bmod (x := (u.toNat : Int)) hm
  have h2 := Int.bmod_lt (x := (u.toNat : Int)) hm
  have e3 : ((2 ^ (c.readW - 1) : Nat) : Int) = 2 ^ (c.readW - 1) := by push_cast; rfl
  rw [← e3]
  unfold canon sext
  generalize 2 ^ (c.readW - 1) = M at *
  rw [e] at h1 h2 ⊢
  omega

theorem canon_encodeRaw {c : Config} (h : c.readW ≤ 10) (h0 : 1 ≤ c.readW) {s : Int}
    (h1 : -(2 : Int) ^ (c.readW - 1) ≤ s) (h2 : s < 2 ^ (c.readW - 1)) : canon c (encodeRaw c s) = s := by
  have e : 2 ^ c.readW = 2 * 2 ^ (c.readW - 1) := by
    rw [← Nat.pow_succ']
    congr 1
    omega
  have e3 : ((2 ^ (c.readW - 1) : Nat) : Int) = 2 ^ (c.readW - 1) := by push_cast; rfl
  have e4 : ((2 ^ c.readW : Nat) : Int) = 2 ^ c.readW := by push_cast; rfl
  have hn : 0 ≤ s % 2 ^ c.readW := Int.emod_nonneg _ (by positivity)
  rw [canon, sext, encodeRaw_toNat h, Int.toNat_of_nonneg hn, ← e4, Int.emod_bmod]
  rw [← e3] at h1 h2
  generalize 2 ^ (c.readW - 1) = M at *
  rw [e]
  apply Int.bmod_eq_of_le <;> omega

/-- With ten bits CANON is the sign extension of the whole word (R170). -/
theorem canon_eq_toInt {c : Config} (h : c.readW = 10) (u : Raw) : canon c u = u.toInt := by
  rw [canon, sext, h, BitVec.toInt_eq_toNat_bmod]

/-! ## The sign extension of R12 -/

/-- `sext_N` of an N-bit value, as R170 writes it. -/
theorem sext_eq {n v : Nat} (h : 1 ≤ n) (hv : v < 2 ^ n) :
    sext n v = if v < 2 ^ (n - 1) then (v : Int) else (v : Int) - 2 ^ n := by
  have e : 2 ^ n = 2 * 2 ^ (n - 1) := by
    rw [← Nat.pow_succ']
    congr 1
    omega
  have e4 : ((2 ^ n : Nat) : Int) = 2 ^ n := by push_cast; rfl
  rw [sext, Int.bmod_def, ← e4, Int.emod_eq_of_lt (by omega) (by exact_mod_cast hv)]
  generalize 2 ^ (n - 1) = M at *
  rw [e] at hv ⊢
  split <;> split <;> omega

/-! ## The product of IQMULT (R172) -/

/-- An element has ELEM_W bits. -/
theorem iqmult_lt (c : Config) (x : Int) (d : Elem) (h : c.elemW ≤ 10) : (iqmult c x d).1.toNat < 2 ^ c.elemW := by
  have hp : (2 : Int) ^ c.elemW ≤ 2 ^ 10 := pow_le_pow_right₀ (by norm_num) h
  have h0 : 0 ≤ ((x * (d.toNat : Int)) >>> c.frac) % 2 ^ c.elemW := Int.emod_nonneg _ (by positivity)
  have h1 : ((x * (d.toNat : Int)) >>> c.frac) % 2 ^ c.elemW < 2 ^ c.elemW := Int.emod_lt_of_pos _ (by positivity)
  have e4 : ((2 ^ c.elemW : Nat) : Int) = 2 ^ c.elemW := by push_cast; rfl
  simp only [iqmult, BitVec.toNat_ofInt]
  generalize ((x * (d.toNat : Int)) >>> c.frac) % 2 ^ c.elemW = z at *
  rw [Int.emod_eq_of_lt h0 (by norm_num at hp ⊢; omega)]
  omega

end Sys2Proof.Machine
end

