-- ==== Sys2Proof/Laws/Config.lean ====
section
/-! SUPPORT. What an accepted configuration guarantees (R356, R77, R40, R50), in the form the proofs use it; and the default
configuration is accepted. -/

namespace Sys2Proof

/-- An accepted configuration meets every constraint. -/
theorem Config.meets_of_wf {c : Config} (h : c.wf = true) (q : ConfigProblem) : c.meets q = true := by
  have hq : q ∈ ConfigProblem.all := by cases q <;> simp [ConfigProblem.all]
  simp only [Config.wf, Config.problem, Option.isNone_iff_eq_none, List.find?_eq_none] at h
  simpa using h q hq

/-- A configuration that meets every constraint is accepted. -/
theorem Config.wf_of_meets {c : Config} (h : ∀ q, c.meets q = true) : c.wf = true := by
  simp [Config.wf, Config.problem, h]

end Sys2Proof

namespace Sys2Proof.Machine

/-! ## Classes and addresses -/

/-- A STATUS register is no STORAGE access (R43, R80). -/
theorem isStorage_of_status {c : Config} {a : Addr} (h : a ∈ c.statusWords) : isStorage c .w32 a = false := by
  have hc : c.regClass a = .absent ∨ c.regClass a = .status := by
    unfold Config.regClass
    split
    · exact .inl rfl
    · rw [if_pos]
      · exact .inr rfl
      simp only [List.any_eq_true]
      exact ⟨a, h, by simp [Width.bytes]⟩
  rcases hc with hc | hc <;> simp [isStorage, Width.bytes, hc]

theorem isStorage_iff {c : Config} {w : Width} {a : Addr} :
    isStorage c w a = true ↔ ∀ b ∈ w.bytes a, c.regClass b = .storage := by
  simp [isStorage]

section wf
variable {c : Config} (h : c.wf = true)
include h

/-- Every word register of class STORAGE is one (R41, R42, R40). -/
theorem storageWord_isStorage {a : Addr} (ha : a ∈ c.storageWords) : isStorage c .w32 a = true := by
  have hm := c.meets_of_wf h .classOverlap
  simp only [Config.meets, Bool.and_eq_true, List.all_eq_true, beq_iff_eq] at hm
  rw [isStorage_iff]
  intro b hb
  exact hm.1 b (List.mem_append_left _ (List.mem_flatten.mpr ⟨_, List.mem_map_of_mem ha, hb⟩))

theorem txiq_isStorage (p : Path) : isStorage c .w32 c.txiq[p] = true :=
  storageWord_isStorage h (by simp [Config.storageWords])

theorem txiqChi_isStorage (p : Path) : isStorage c .w32 c.txiqChi[p] = true :=
  storageWord_isStorage h (by simp [Config.storageWords])

theorem ecca_isStorage : isStorage c .w32 c.ecca = true :=
  storageWord_isStorage h (by simp [Config.storageWords])

theorem rxiq_isStorage (p : Path) : isStorage c .w32 c.rxiq[p] = true :=
  storageWord_isStorage h (by simp [Config.storageWords])

theorem rxiqYhi_isStorage (p : Path) : isStorage c .w32 c.rxiqYhi[p] = true :=
  storageWord_isStorage h (by simp [Config.storageWords])

/-- Every CCK byte register is of class STORAGE (R44). -/
theorem cckReg_storage (k : Fin 8) : c.regClass (c.cckReg k) = .storage := by
  have hm := c.meets_of_wf h .classOverlap
  simp only [Config.meets, Bool.and_eq_true, List.all_eq_true, beq_iff_eq] at hm
  exact hm.1 _ (List.mem_append_right _ (List.mem_map_of_mem (List.mem_finRange k)))

/-- No byte of IQK_TRIG is STORAGE (R43). -/
theorem iqkTrig_trigger {b : Addr} (hb : b ∈ Width.w32.bytes c.iqkTrig) : c.regClass b ≠ .storage := by
  have hm := c.meets_of_wf h .classOverlap
  simp only [Config.meets, Bool.and_eq_true, List.all_eq_true, beq_iff_eq] at hm
  rw [hm.2 b hb]
  decide

/-- A control access of a list is a STORAGE access and aligned (R50, R77). -/
theorem listAccess_isStorage {x : Width × Addr} (hx : x ∈ c.listAccesses) :
    isStorage c x.1 x.2 = true ∧ x.1.aligned x.2 = true := by
  have hm := c.meets_of_wf h .listElement
  have ha := c.meets_of_wf h .misaligned
  simp only [Config.meets, Bool.and_eq_true, List.all_eq_true, beq_iff_eq] at hm ha
  refine ⟨isStorage_iff.mpr fun b hb => (hm.1 x hx b hb).1, ha.2 x hx⟩

/-- A control element of the backup set. -/
theorem backupCtl_isStorage {a : Addr} {m : Word} (hx : BackupElem.ctl a m ∈ c.backupSet) :
    isStorage c .w32 a = true ∧ a.toNat % 4 = 0 := by
  have hm : (Width.w32, a) ∈ c.listAccesses :=
    List.mem_append_left _ (List.mem_filterMap.mpr ⟨_, hx, rfl⟩)
  have := listAccess_isStorage h hm
  exact ⟨this.1, by simpa [Width.aligned] using this.2⟩

/-- An RF element of the backup set is not the thermal meter (R50). -/
theorem backupRf_ne {p : Path} {i : Byte} {m : RfWord} (hx : BackupElem.rf p i m ∈ c.backupSet) :
    ¬ (p = c.thermPath ∧ i = c.rfTMeter) := by
  have hm := c.meets_of_wf h .listElement
  simp only [Config.meets, Bool.and_eq_true, List.all_eq_true, bne_iff_ne] at hm
  have := hm.2 (p, i) (List.mem_append_left _ (List.mem_filterMap.mpr ⟨_, hx, rfl⟩))
  rintro ⟨rfl, rfl⟩
  exact this rfl

/-- An RF element of the backup set has a mask of RF_DATA_W bits (R86). -/
theorem backupRf_mask {p : Path} {i : Byte} {m : RfWord} (hx : BackupElem.rf p i m ∈ c.backupSet) :
    m.toNat < 2 ^ c.rfDataW := by
  have hm := c.meets_of_wf h .fieldMask
  simp only [Config.meets, Bool.and_eq_true, List.all_eq_true] at hm
  have : BackupElem.maskOk c (.rf p i m) = true := hm.1.2 _ hx
  simp only [BackupElem.maskOk, Config.rfMaskOk, Bool.and_eq_true, decide_eq_true_eq] at this
  exact this.2

/-- The widths of an accepted configuration fit their layouts (R25, R120, R122, R123, R140). -/
theorem widths_le : 3 ≤ c.readW ∧ c.readW ≤ 10 ∧ 1 ≤ c.elemW ∧ c.elemW ≤ 10 ∧ c.addrW ≤ 16 ∧ c.rfDataW ≤ 32 ∧
    1 ≤ c.thermW ∧ c.thermW ≤ 8 ∧ 1 ≤ c.frac ∧ c.frac + 2 ≤ c.readW := by
  have hw := c.meets_of_wf h .width
  have hs := c.meets_of_wf h .scale
  simp only [Config.meets, Bool.and_eq_true, decide_eq_true_eq] at hw hs
  omega

end wf

/-! ## Words at aligned addresses -/

/-- The bytes of an aligned word lie in its four-byte slot (R77). -/
theorem word_slot {b x : Addr} (hb : b.toNat % 4 = 0) (hx : x ∈ Width.w32.bytes b) : x.toNat / 4 = b.toNat / 4 := by
  have h2 := b.isLt
  have one : ∀ i : Nat, i < 4 → (b + BitVec.ofNat 16 i).toNat / 4 = b.toNat / 4 := by
    intro i hi
    simp only [BitVec.toNat_add, BitVec.toNat_ofNat]
    omega
  simp only [Width.bytes, List.mem_cons, List.not_mem_nil, or_false] at hx
  rcases hx with rfl | rfl | rfl | rfl
  · rfl
  · exact one 1 (by omega)
  · exact one 2 (by omega)
  · exact one 3 (by omega)

/-- Two aligned words are the same word or share no byte (R77). -/
theorem word_disjoint {a b : Addr} (ha : a.toNat % 4 = 0) (hb : b.toNat % 4 = 0) (h : a ≠ b) :
    ∀ x ∈ Width.w32.bytes b, x ∉ Width.w32.bytes a := by
  intro x hx hy
  have h1 := word_slot hb hx
  have h2 := word_slot ha hy
  exact h (BitVec.eq_of_toNat_eq (by omega))

end Sys2Proof.Machine

namespace Sys2Proof

/-! ## The default configuration is accepted -/

theorem risingTable_length (f : Nat → Byte) (n : Nat) : (risingTable f n).length = n := by
  induction n with
  | zero => rfl
  | succ n ih =>
    rw [risingTable]
    split
    · rename_i h
      rw [List.getLast?_eq_none_iff] at h
      rw [h] at ih
      simp at ih
      simp [← ih]
    · simp [ih]

theorem rising_append (l : List Byte) (a b : Byte) (h : rising l = true) (hl : l.getLast? = some a) (hab : a ≤ b) :
    rising (l ++ [b]) = true := by
  induction l with
  | nil => simp at hl
  | cons x l ih =>
    cases l with
    | nil =>
      simp only [List.getLast?_singleton, Option.some.injEq] at hl
      simp [rising, hl, hab]
    | cons y l =>
      simp only [rising, Bool.and_eq_true, decide_eq_true_eq] at h
      have := ih h.2 (by simpa using hl)
      simp only [List.cons_append] at this
      simp [rising, h.1, this]

theorem rising_risingTable (f : Nat → Byte) (n : Nat) : rising (risingTable f n) = true := by
  induction n with
  | zero => rfl
  | succ n ih =>
    rw [risingTable]
    split
    · rfl
    · rename_i a h
      refine rising_append _ a _ ih h ?_
      split
      · assumption
      · exact BitVec.le_refl a

/-- The counts P1 to P7 of an accepted configuration. -/
theorem Config.counts {c : Config} (h : c.wf = true) : c.nRound = 3 ∧ c.roundHybrid = 3 ∧ c.nPath = 2 ∧ c.nSlot = 8 ∧
    c.ofdmTblSz = 43 ∧ c.cckTblSz = 33 ∧ c.cckNreg = 8 := by
  have hm := c.meets_of_wf h .count
  simp only [Config.meets, Bool.and_eq_true, beq_iff_eq, decide_eq_true_eq] at hm
  obtain ⟨⟨⟨⟨⟨⟨h1, h2⟩, h3⟩, h4⟩, h5⟩, h6⟩, h7⟩ := hm
  have h8 : c.nRound = 3 := h1
  have h9 := c.roundHybrid.isLt
  exact ⟨h1, Fin.ext (show c.roundHybrid.val = 3 by omega), h3, h4, h5, h6, h7⟩

theorem Config.nRound_eq (c : Config) (h : c.wf = true) : c.nRound = 3 := (Config.counts h).1

theorem Config.roundHybrid_eq (c : Config) (h : c.wf = true) : c.roundHybrid = 3 := (Config.counts h).2.1

/-- The counts P1 and P3 to P7 of an accepted configuration are the sizes of the state and the tables. -/
theorem Config.counts_of_types {c : Config} (h : c.wf = true) : Fintype.card Path = c.nPath ∧ Fintype.card Slot = c.nSlot ∧
    Fintype.card Round = c.nRound + 1 ∧ c.ofdmTbl.size = c.ofdmTblSz ∧ c.cckTbl.size = c.cckTblSz ∧
    c.cckTbl14.size = c.cckTblSz ∧ ∀ e ∈ c.cckTbl.toList, e.size = c.cckNreg := by
  obtain ⟨h1, -, h3, h4, h5, h6, h7⟩ := Config.counts h
  simp [Vector.size, h1, h3, h4, h5, h6, h7]

/-- The default indices of an accepted configuration lie in their tables (P27, P28). -/
theorem Config.defaultIndex_le {c : Config} (h : c.wf = true) : c.defOfdmIndex.toNat ≤ 42 ∧ c.defCckIndex.toNat ≤ 32 := by
  have hm := c.meets_of_wf h .defaultIndex
  simp only [Config.meets, Bool.and_eq_true, decide_eq_true_eq] at hm
  have hc := Config.counts h
  omega

/-- Outside the calibration-mode lists no operation of an accepted configuration depends on the bus kind (R91). -/
theorem Config.plainOps_no_ant {c : Config} (h : c.wf = true) : ∀ o ∈ c.plainOps, o.usesAnt = false := by
  have hm := c.meets_of_wf h .antUse
  simpa [Config.meets] using hm

theorem Config.default_wf : Config.default.wf = true := by
  apply Config.wf_of_meets
  intro q
  cases q
  case deltaTable =>
    simp only [Config.meets, Config.deltaTables, Config.default, List.all_cons, List.all_nil, risingTable_length,
      rising_risingTable, beq_self_eq_true, Bool.and_self]
  all_goals decide +kernel

end Sys2Proof
end

