-- ==== Sys2Proof/Laws/Store.lean ====
section
/-! SUPPORT. The laws of the sparse stores: a read after a write to the same key gives the value written, a write leaves
every other key alone, and a write keeps the canonical form. -/

namespace Sys2Proof.Machine

variable {w : Nat}

@[simp] theorem Store.read_nil (a : Nat) : Store.read ([] : Store w) a = 0#w := rfl

theorem Store.read_cons (k : Nat) (v : BitVec w) (t : Store w) (a : Nat) :
    Store.read ((k, v) :: t) a = if a = k then v else Store.read t a := rfl

/-- A key below every listed key reads as unlisted. -/
theorem Store.read_below {bound lo : Nat} {m : Store w} (h : Store.wfFrom bound lo m) {a : Nat} (ha : a < lo) :
    Store.read m a = 0#w := by
  induction m generalizing lo with
  | nil => rfl
  | cons e t ih =>
    obtain ⟨k, v⟩ := e
    simp only [Store.wfFrom, Bool.and_eq_true, decide_eq_true_eq] at h
    obtain ⟨⟨⟨h1, -⟩, -⟩, h4⟩ := h
    rw [Store.read_cons, if_neg (by omega)]
    exact ih h4 (by omega)

/-- Every other key reads as before, whatever the store. -/
theorem Store.read_write_of_ne (m : Store w) {a b : Nat} (v : BitVec w) (h : b ≠ a) :
    Store.read (Store.write m a v) b = Store.read m b := by
  induction m with
  | nil =>
    by_cases hv : v = 0#w
    · simp [Store.write, hv]
    · simp [Store.write, hv, Store.read, h]
  | cons e t ih =>
    obtain ⟨k, u⟩ := e
    simp only [Store.write]
    split
    · split
      · rfl
      · rw [Store.read_cons, if_neg h]
    · split
      · subst a
        split <;> simp [Store.read, h]
      · rw [Store.read_cons, Store.read_cons, ih]

/-- The key written reads the value written, in a canonical store. -/
theorem Store.read_write_self {bound lo : Nat} {m : Store w} (h : Store.wfFrom bound lo m) (a : Nat) (v : BitVec w) :
    Store.read (Store.write m a v) a = v := by
  induction m generalizing lo with
  | nil =>
    by_cases hv : v = 0#w
    · simp [Store.write, hv]
    · simp [Store.write, hv, Store.read]
  | cons e t ih =>
    obtain ⟨k, u⟩ := e
    have h0 := h
    simp only [Store.wfFrom, Bool.and_eq_true, decide_eq_true_eq] at h
    obtain ⟨⟨⟨h1, -⟩, -⟩, h4⟩ := h
    simp only [Store.write]
    split
    · rename_i hlt
      split
      · rename_i hv
        rw [hv, Store.read_cons, if_neg (by omega)]
        exact Store.read_below h4 (by omega)
      · simp [Store.read]
    · split
      · rename_i he
        split
        · rename_i hv
          rw [hv]
          exact Store.read_below h4 (by omega)
        · simp [Store.read]
      · rename_i hne
        rw [Store.read_cons, if_neg hne]
        exact ih h4

/-- A write keeps the canonical form. -/
theorem Store.wfFrom_write {bound lo : Nat} {m : Store w} (h : Store.wfFrom bound lo m) {a : Nat} (hl : lo ≤ a)
    (hb : a < bound) (v : BitVec w) : Store.wfFrom bound lo (Store.write m a v) := by
  induction m generalizing lo with
  | nil =>
    by_cases hv : v = 0#w
    · simp [Store.write, hv, Store.wfFrom]
    · simp [Store.write, hv, Store.wfFrom, hl, hb]
  | cons e t ih =>
    obtain ⟨k, u⟩ := e
    have h0 := h
    simp only [Store.wfFrom, Bool.and_eq_true, decide_eq_true_eq] at h
    obtain ⟨⟨⟨h1, h2⟩, h3⟩, h4⟩ := h
    have hlow : ∀ {l l' : Nat} {x : Store w}, l' ≤ l → Store.wfFrom bound l x → Store.wfFrom bound l' x := by
      intro l l' x hle hx
      cases x with
      | nil => rfl
      | cons e y =>
        simp only [Store.wfFrom, Bool.and_eq_true, decide_eq_true_eq] at hx ⊢
        exact ⟨⟨⟨by omega, hx.1.1.2⟩, hx.1.2⟩, hx.2⟩
    simp only [Store.write]
    split
    · split
      · exact h0
      · rename_i hlt hv
        simp only [Store.wfFrom, Bool.and_eq_true, decide_eq_true_eq]
        exact ⟨⟨⟨hl, hb⟩, hv⟩, ⟨⟨⟨by omega, h2⟩, h3⟩, h4⟩⟩
    · split
      · split
        · exact hlow (by omega) h4
        · rename_i he hv
          simp only [Store.wfFrom, Bool.and_eq_true, decide_eq_true_eq]
          subst he
          exact ⟨⟨⟨hl, hb⟩, hv⟩, h4⟩
      · simp only [Store.wfFrom, Bool.and_eq_true, decide_eq_true_eq]
        exact ⟨⟨⟨h1, h2⟩, h3⟩, ih h4 (by omega)⟩

/-- Writing what is already held changes nothing, in a canonical store. -/
theorem Store.write_read_self {bound lo : Nat} {m : Store w} (h : Store.wfFrom bound lo m) (a : Nat) :
    Store.write m a (Store.read m a) = m := by
  induction m generalizing lo with
  | nil => simp [Store.write]
  | cons e t ih =>
    obtain ⟨k, u⟩ := e
    simp only [Store.wfFrom, Bool.and_eq_true, decide_eq_true_eq] at h
    obtain ⟨⟨⟨h1, h2⟩, h3⟩, h4⟩ := h
    simp only [Store.write]
    split
    · rename_i hlt
      have hr : Store.read ((k, u) :: t) a = 0#w := by
        rw [Store.read_cons, if_neg (by omega)]
        exact Store.read_below h4 (by omega)
      rw [hr, if_pos rfl]
    · split
      · rename_i he
        subst he
        rw [Store.read_cons, if_pos rfl, if_neg h3]
      · rename_i hne
        rw [Store.read_cons, if_neg hne, ih h4]

/-! ## The control space -/

@[simp] theorem Memory.byteAt_nil (a : Addr) : Memory.byteAt [] a = 0 := rfl

theorem Memory.byteAt_setByte_of_ne (m : Memory) {a b : Addr} (v : Byte) (h : b ≠ a) :
    (m.setByte a v).byteAt b = m.byteAt b :=
  Store.read_write_of_ne _ _ (fun e => h (BitVec.eq_of_toNat_eq e))

theorem Memory.byteAt_setByte_self {m : Memory} (hm : m.wf) (a : Addr) (v : Byte) : (m.setByte a v).byteAt a = v :=
  Store.read_write_self hm _ _

theorem Memory.wf_setByte {m : Memory} (hm : m.wf) (a : Addr) (v : Byte) : (m.setByte a v).wf :=
  Store.wfFrom_write hm (Nat.zero_le _) a.isLt _

theorem Memory.setByte_byteAt {m : Memory} (hm : m.wf) (a : Addr) : m.setByte a (m.byteAt a) = m :=
  Store.write_read_self hm _

/-! ## The RF space -/

theorem rfKey_lt (p : Path) (i : Byte) : rfKey p i < 512 := by
  unfold rfKey; have := p.isLt; have := i.isLt; omega

theorem rfKey_inj {p p' : Path} {i i' : Byte} (h : rfKey p i = rfKey p' i') : p = p' ∧ i = i' := by
  unfold rfKey at h
  have := i.isLt; have := i'.isLt; have := p.isLt; have := p'.isLt
  exact ⟨Fin.ext (by omega), BitVec.eq_of_toNat_eq (by omega)⟩

/-- A write lists no value but the one written. -/
theorem Store.mem_write {m : Store w} {a : Nat} {v : BitVec w} {e : Nat × BitVec w} (h : e ∈ Store.write m a v) :
    e ∈ m ∨ e.2 = v := by
  induction m with
  | nil =>
    simp only [Store.write] at h
    split at h
    · exact .inl h
    · exact .inr (by rw [List.mem_singleton.mp h])
  | cons x t ih =>
    obtain ⟨k, u⟩ := x
    simp only [Store.write] at h
    split at h
    · split at h
      · exact .inl h
      · rcases List.mem_cons.mp h with rfl | h
        · exact .inr rfl
        · exact .inl h
    · split at h
      · split at h
        · exact .inl (List.mem_cons_of_mem _ h)
        · rcases List.mem_cons.mp h with rfl | h
          · exact .inr rfl
          · exact .inl (List.mem_cons_of_mem _ h)
      · rcases List.mem_cons.mp h with rfl | h
        · exact .inl List.mem_cons_self
        · exact (ih h).imp_left (List.mem_cons_of_mem _)

/-- A location holds no more than RF_DATA_W bits (R71, P13). -/
theorem rfTrunc_lt (c : Config) (v : RfWord) : (rfTrunc c v).toNat < 2 ^ c.rfDataW := by
  have h1 : (rfTrunc c v).toNat ≤ (2 ^ c.rfDataW - 1) % 2 ^ 32 := by
    rw [rfTrunc, BitVec.toNat_and, BitVec.toNat_ofNat]
    exact Nat.and_le_right
  have h2 := Nat.mod_le (2 ^ c.rfDataW - 1) (2 ^ 32)
  have h3 : 0 < 2 ^ c.rfDataW := by positivity
  omega

/-- A word of RF_DATA_W bits is held whole (R71, P13). -/
theorem rfTrunc_of_lt {c : Config} {v : RfWord} (h : v.toNat < 2 ^ c.rfDataW) : rfTrunc c v = v := by
  apply BitVec.eq_of_toNat_eq
  rw [rfTrunc, BitVec.toNat_and, BitVec.toNat_ofNat]
  rcases Nat.lt_or_ge c.rfDataW 32 with hw | hw
  · have h2 : 2 ^ c.rfDataW < 2 ^ 32 := Nat.pow_lt_pow_right (by omega) hw
    rw [Nat.mod_eq_of_lt (by omega), Nat.and_two_pow_sub_one_eq_mod, Nat.mod_eq_of_lt h]
  · obtain ⟨k, hk⟩ : ∃ k, 2 ^ c.rfDataW = 2 ^ 32 * (k + 1) := by
      refine ⟨2 ^ (c.rfDataW - 32) - 1, ?_⟩
      have : 0 < 2 ^ (c.rfDataW - 32) := by positivity
      rw [Nat.sub_add_cancel this, ← Nat.pow_add]
      congr 1
      omega
    have e : (2 ^ c.rfDataW - 1) % 2 ^ 32 = 2 ^ 32 - 1 := by rw [hk]; omega
    rw [e, Nat.and_two_pow_sub_one_eq_mod, Nat.mod_eq_of_lt v.isLt]

theorem rfWf_iff {c : Config} {m : Store 32} :
    rfWf c m = true ↔ Store.wfFrom 512 0 m = true ∧ ∀ e ∈ m, e.2.toNat < 2 ^ c.rfDataW := by
  simp [rfWf]

theorem rfWf_write {c : Config} {m : Store 32} (hm : rfWf c m) (p : Path) (i : Byte) (v : RfWord) :
    rfWf c (Store.write m (rfKey p i) (rfTrunc c v)) := by
  obtain ⟨h1, h2⟩ := rfWf_iff.mp hm
  refine rfWf_iff.mpr ⟨Store.wfFrom_write h1 (Nat.zero_le _) (rfKey_lt p i) _, fun e he => ?_⟩
  rcases Store.mem_write he with h | h
  · exact h2 e h
  · rw [h]
    exact rfTrunc_lt c v

/-- What a canonical RF space holds at a location fits RF_DATA_W. -/
theorem rfWf_read {c : Config} {m : Store 32} (hm : rfWf c m) (a : Nat) : (Store.read m a).toNat < 2 ^ c.rfDataW := by
  have h := (rfWf_iff.mp hm).2
  clear hm
  induction m with
  | nil => simp
  | cons e t ih =>
    obtain ⟨k, v⟩ := e
    rw [Store.read_cons]
    split
    · exact h _ List.mem_cons_self
    · exact ih fun e he => h e (List.mem_cons_of_mem _ he)

end Sys2Proof.Machine
end

