-- ==== Sys2Proof/Laws/Port.lean ====
section
/-! SUPPORT. What a port primitive can do: it appends to the trace and keeps the stores canonical (`Port.Grows`), and it
leaves every byte outside the access alone. -/

namespace Sys2Proof.Machine

/-- What every use of the port does: the trace grows by transaction records, canonical stores stay canonical, a byte that
is not STORAGE keeps its value, and no bus kind becomes pending. -/
structure Port.Grows (c : Config) (q q' : Port) : Prop where
  trace : ∃ l, q'.trace = q.trace ++ l ∧ ∀ r ∈ l, 0x70 ≤ r.kind.toNat ∧ r.kind.toNat ≤ 0x7A
  mem : q.dev.mem.wf → q'.dev.mem.wf
  rf : rfWf c q.dev.rf → rfWf c q'.dev.rf
  frame : ∀ a, c.regClass a ≠ .storage → q'.dev.mem.byteAt a = q.dev.mem.byteAt a
  hci : ∀ b ∈ q'.dev.hciQ, b ∈ q.dev.hciQ

theorem Port.Grows.refl {c : Config} (q : Port) : q.Grows c q := ⟨⟨[], by simp, by simp⟩, id, id, fun _ _ => rfl, fun _ h => h⟩

theorem Port.Grows.trans {c : Config} {x y z : Port} (h : x.Grows c y) (k : y.Grows c z) : x.Grows c z := by
  obtain ⟨⟨l, hl, hl'⟩, h2, h3, h4, h5⟩ := h
  obtain ⟨⟨m, hm, hm'⟩, k2, k3, k4, k5⟩ := k
  refine ⟨⟨l ++ m, by rw [hm, hl, List.append_assoc], fun r hr => ?_⟩, k2 ∘ h2, k3 ∘ h3,
    fun a ha => (k4 a ha).trans (h4 a ha), fun b hb => h5 b (k5 b hb)⟩
  exact (List.mem_append.mp hr).elim (hl' r) (hm' r)

/-- A change of the environment that keeps canonical stores canonical, followed by one record. -/
theorem Port.Grows.log {c : Config} {q : Port} {dv : Device} {r : TraceRec} (h1 : q.dev.mem.wf → dv.mem.wf)
    (h2 : rfWf c q.dev.rf → rfWf c dv.rf)
    (h3 : ∀ a, c.regClass a ≠ .storage → dv.mem.byteAt a = q.dev.mem.byteAt a := by simp)
    (h4 : ∀ b ∈ dv.hciQ, b ∈ q.dev.hciQ := by simp)
    (hr : 0x70 ≤ r.kind.toNat ∧ r.kind.toNat ≤ 0x7A := by simp) :
    q.Grows c (Port.log { q with dev := dv } r) := ⟨⟨[r], rfl, by simpa using hr⟩, h1, h2, h3, h4⟩

/-! ## The environment's answers leave the stores alone -/

@[simp] theorem Device.drawStatus_mem (d : Device) : d.drawStatus.2.mem = d.mem := by unfold drawStatus; split <;> rfl
@[simp] theorem Device.drawStatus_rf (d : Device) : d.drawStatus.2.rf = d.rf := by unfold drawStatus; split <;> rfl
@[simp] theorem Device.drawTherm_mem (d : Device) : d.drawTherm.2.mem = d.mem := by unfold drawTherm; split <;> rfl
@[simp] theorem Device.drawTherm_rf (d : Device) : d.drawTherm.2.rf = d.rf := by unfold drawTherm; split <;> rfl
@[simp] theorem Device.drawVerdict_mem (d : Device) : d.drawVerdict.2.mem = d.mem := by
  unfold drawVerdict; split <;> rfl
@[simp] theorem Device.drawVerdict_rf (d : Device) : d.drawVerdict.2.rf = d.rf := by unfold drawVerdict; split <;> rfl
@[simp] theorem Device.drawChan_mem (d : Device) : d.drawChan.2.mem = d.mem := by unfold drawChan; split <;> rfl
@[simp] theorem Device.drawChan_rf (d : Device) : d.drawChan.2.rf = d.rf := by unfold drawChan; split <;> rfl
@[simp] theorem Device.drawReapply_mem (d : Device) : d.drawReapply.2.mem = d.mem := by
  unfold drawReapply; split <;> rfl
@[simp] theorem Device.drawReapply_rf (d : Device) : d.drawReapply.2.rf = d.rf := by unfold drawReapply; split <;> rfl
@[simp] theorem Device.drawHci_mem (d : Device) : d.drawHci.2.mem = d.mem := by unfold drawHci; split <;> rfl
@[simp] theorem Device.drawHci_rf (d : Device) : d.drawHci.2.rf = d.rf := by unfold drawHci; split <;> rfl

@[simp] theorem Port.answer_mem (c : Config) (q : Port) (w : Width) (a : Addr) :
    (q.answer c w a).2.mem = q.dev.mem := by unfold answer; split <;> simp
@[simp] theorem Port.answer_rf (c : Config) (q : Port) (w : Width) (a : Addr) :
    (q.answer c w a).2.rf = q.dev.rf := by unfold answer; split <;> simp
@[simp] theorem Port.rfAnswer_mem (c : Config) (q : Port) (p : Path) (i : Byte) :
    (q.rfAnswer c p i).2.mem = q.dev.mem := by unfold rfAnswer; split <;> simp
@[simp] theorem Port.rfAnswer_rf (c : Config) (q : Port) (p : Path) (i : Byte) :
    (q.rfAnswer c p i).2.rf = q.dev.rf := by unfold rfAnswer; split <;> simp

/-! ## Stores -/

theorem Device.storeByte_wf (c : Config) {d : Device} (h : d.mem.wf) (a : Addr) (v : Byte) :
    (d.storeByte c a v).mem.wf := by
  unfold storeByte; split
  · exact Memory.wf_setByte h a v
  · exact h

@[simp] theorem Device.storeByte_rf (c : Config) (d : Device) (a : Addr) (v : Byte) :
    (d.storeByte c a v).rf = d.rf := by unfold storeByte; split <;> rfl

theorem Device.byteAt_storeByte_of_ne (c : Config) (d : Device) {a b : Addr} (v : Byte) (h : b ≠ a) :
    (d.storeByte c a v).mem.byteAt b = d.mem.byteAt b := by
  unfold storeByte; split
  · exact Memory.byteAt_setByte_of_ne _ _ h
  · rfl

theorem Device.byteAt_storeByte_self {c : Config} {d : Device} (h : d.mem.wf) {a : Addr} (ha : c.regClass a = .storage)
    (v : Byte) : (d.storeByte c a v).mem.byteAt a = v := by
  unfold storeByte; rw [if_pos ha]; exact Memory.byteAt_setByte_self h a v

theorem Device.store_wf (c : Config) {d : Device} (h : d.mem.wf) (w : Width) (a : Addr) (v : Word) :
    (d.store c w a v).mem.wf := by
  cases w <;> simp only [store] <;> repeat' first | exact h | apply Device.storeByte_wf

@[simp] theorem Device.store_rf (c : Config) (d : Device) (w : Width) (a : Addr) (v : Word) :
    (d.store c w a v).rf = d.rf := by cases w <;> simp [store]

/-- A store leaves every byte outside the access alone. -/
theorem Device.byteAt_store_of_not_mem (c : Config) (d : Device) {w : Width} {a b : Addr} (v : Word)
    (h : b ∉ w.bytes a) : (d.store c w a v).mem.byteAt b = d.mem.byteAt b := by
  cases w <;> simp only [Width.bytes, List.mem_cons, List.not_mem_nil, or_false, not_or] at h
  · exact byteAt_storeByte_of_ne c d _ h
  · obtain ⟨h0, h1⟩ := h
    simp only [store]
    rw [byteAt_storeByte_of_ne _ _ _ h1, byteAt_storeByte_of_ne _ _ _ h0]
  · obtain ⟨h0, h1, h2, h3⟩ := h
    simp only [store]
    rw [byteAt_storeByte_of_ne _ _ _ h3, byteAt_storeByte_of_ne _ _ _ h2, byteAt_storeByte_of_ne _ _ _ h1,
      byteAt_storeByte_of_ne _ _ _ h0]

/-- A word stored to a STORAGE register reads back (R80, R93). -/
theorem Device.wordAt_store_self {c : Config} {d : Device} (h : d.mem.wf) {a : Addr} (ha : isStorage c .w32 a)
    (v : Word) : (d.store c .w32 a v).mem.wordAt a = v := by
  simp only [isStorage, Width.bytes, List.all_cons, List.all_nil, Bool.and_true, Bool.and_eq_true, beq_iff_eq] at ha
  obtain ⟨c0, c1, c2, c3⟩ := ha
  have n01 : a ≠ a + 1 := by bv_omega
  have n02 : a ≠ a + 2 := by bv_omega
  have n03 : a ≠ a + 3 := by bv_omega
  have n12 : a + 1 ≠ a + 2 := by bv_omega
  have n13 : a + 1 ≠ a + 3 := by bv_omega
  have n23 : a + 2 ≠ a + 3 := by bv_omega
  have w0 := Device.storeByte_wf c h a (byteOf v 0)
  have w1 := Device.storeByte_wf c w0 (a + 1) (byteOf v 1)
  have w2 := Device.storeByte_wf c w1 (a + 2) (byteOf v 2)
  simp only [Memory.wordAt, Device.store]
  rw [Device.byteAt_storeByte_self w2 c3, Device.byteAt_storeByte_of_ne _ _ _ n23, Device.byteAt_storeByte_self w1 c2,
    Device.byteAt_storeByte_of_ne _ _ _ n13, Device.byteAt_storeByte_of_ne _ _ _ n12, Device.byteAt_storeByte_self w0 c1,
    Device.byteAt_storeByte_of_ne _ _ _ n03, Device.byteAt_storeByte_of_ne _ _ _ n02,
    Device.byteAt_storeByte_of_ne _ _ _ n01, Device.byteAt_storeByte_self h c0]
  exact word_of_bytes v

/-- A store changes the control space and nothing else of the device. -/
theorem Device.storeByte_eq (c : Config) (d : Device) (a : Addr) (v : Byte) :
    d.storeByte c a v = { d with mem := (d.storeByte c a v).mem } := by unfold storeByte; split <;> rfl

theorem Device.store_eq (c : Config) (d : Device) (w : Width) (a : Addr) (v : Word) :
    d.store c w a v = { d with mem := (d.store c w a v).mem } := by
  have one : ∀ (d e : Device) (b : Addr) (x : Byte), (∃ m, e = { d with mem := m }) →
      ∃ m, e.storeByte c b x = { d with mem := m } := by
    rintro d _ b x ⟨m, rfl⟩
    exact ⟨_, storeByte_eq c _ b x⟩
  obtain ⟨m, e⟩ : ∃ m, d.store c w a v = { d with mem := m } := by
    cases w
    · exact ⟨_, storeByte_eq c d a _⟩
    · exact one _ _ _ _ ⟨_, storeByte_eq c d a _⟩
    · exact one _ _ _ _ (one _ _ _ _ (one _ _ _ _ ⟨_, storeByte_eq c d a _⟩))
  rw [e]

/-- A byte that is not STORAGE keeps what it held (R80). -/
theorem Device.byteAt_storeByte_of_class (c : Config) (d : Device) (a : Addr) {b : Addr} (v : Byte)
    (h : c.regClass b ≠ .storage) : (d.storeByte c a v).mem.byteAt b = d.mem.byteAt b := by
  by_cases e : b = a
  · subst e; unfold storeByte; rw [if_neg h]
  · exact byteAt_storeByte_of_ne c d v e

theorem Device.byteAt_store_of_class (c : Config) (d : Device) (w : Width) (a : Addr) {b : Addr} (v : Word)
    (h : c.regClass b ≠ .storage) : (d.store c w a v).mem.byteAt b = d.mem.byteAt b := by
  cases w <;> simp only [store, byteAt_storeByte_of_class c _ _ _ h]

/-- Byte `k` of an access holds byte `k` of the value stored (R83, R76). -/
theorem Device.byteAt_store_self {c : Config} {d : Device} (h : d.mem.wf) {w : Width} {a b : Addr} (v : Word) {k : Nat}
    (hk : (w.bytes a)[k]? = some b) (hb : c.regClass b = .storage) :
    (d.store c w a v).mem.byteAt b = byteOf v k := by
  have n01 : a ≠ a + 1 := by bv_omega
  have n02 : a ≠ a + 2 := by bv_omega
  have n03 : a ≠ a + 3 := by bv_omega
  have n12 : a + 1 ≠ a + 2 := by bv_omega
  have n13 : a + 1 ≠ a + 3 := by bv_omega
  have n23 : a + 2 ≠ a + 3 := by bv_omega
  have w0 := storeByte_wf c h a (byteOf v 0)
  have w1 := storeByte_wf c w0 (a + 1) (byteOf v 1)
  have w2 := storeByte_wf c w1 (a + 2) (byteOf v 2)
  cases w
  · match k with
    | 0 => cases hk; exact byteAt_storeByte_self h hb _
    | k + 1 => simp [Width.bytes] at hk
  · match k with
    | 0 => cases hk; simp only [store]; rw [byteAt_storeByte_of_ne _ _ _ n01, byteAt_storeByte_self h hb]
    | 1 => cases hk; exact byteAt_storeByte_self w0 hb _
    | k + 2 => simp [Width.bytes] at hk
  · match k with
    | 0 =>
      cases hk; simp only [store]
      rw [byteAt_storeByte_of_ne _ _ _ n03, byteAt_storeByte_of_ne _ _ _ n02, byteAt_storeByte_of_ne _ _ _ n01,
        byteAt_storeByte_self h hb]
    | 1 =>
      cases hk; simp only [store]
      rw [byteAt_storeByte_of_ne _ _ _ n13, byteAt_storeByte_of_ne _ _ _ n12, byteAt_storeByte_self w0 hb]
    | 2 => cases hk; simp only [store]; rw [byteAt_storeByte_of_ne _ _ _ n23, byteAt_storeByte_self w1 hb]
    | 3 => cases hk; exact byteAt_storeByte_self w2 hb _
    | k + 4 => simp [Width.bytes] at hk

/-- A word none of whose bytes is stored to reads as before. -/
theorem Memory.wordAt_congr {m m' : Memory} {a : Addr} (h : ∀ b ∈ Width.w32.bytes a, m'.byteAt b = m.byteAt b) :
    m'.wordAt a = m.wordAt a := by
  simp only [Width.bytes, List.mem_cons, List.not_mem_nil, or_false, forall_eq_or_imp, forall_eq] at h
  simp only [Memory.wordAt, h]

theorem Device.hookWrite_wf (c : Config) {d : Device} (h : d.mem.wf) (x : DevWrite) : (d.hookWrite c x).mem.wf := by
  cases x
  · exact Device.storeByte_wf c h _ _
  · exact h

theorem Device.hookWrite_rf (c : Config) {d : Device} (h : rfWf c d.rf) (x : DevWrite) : rfWf c (d.hookWrite c x).rf := by
  cases x
  · simpa [Device.hookWrite] using h
  · exact rfWf_write h _ _ _

theorem Device.outsideWrite_wf (c : Config) {d : Device} (h : d.mem.wf) (x : DevWrite) :
    (d.outsideWrite c x).mem.wf := by
  cases x
  · exact Device.storeByte_wf c h _ _
  · exact h

theorem Device.outsideWrite_rf (c : Config) {d : Device} (h : rfWf c d.rf) (x : DevWrite) :
    rfWf c (d.outsideWrite c x).rf := by
  cases x
  · simpa [Device.outsideWrite] using h
  · exact rfWf_write h _ _ _

/-- One write of the hook leaves the kept bits of every byte alone (R90). -/
theorem Device.hookWrite_kept (c : Config) {d : Device} (h : d.mem.wf) (x : DevWrite) (b : Addr) :
    (d.hookWrite c x).mem.byteAt b &&& keptBits c b = d.mem.byteAt b &&& keptBits c b := by
  cases x with
  | rf p i v => rfl
  | ctl a v =>
    simp only [Device.hookWrite]
    by_cases e : b = a
    · subst e
      by_cases hs : c.regClass b = .storage
      · rw [byteAt_storeByte_self h hs]
        ext i hi
        simp only [BitVec.getElem_and, BitVec.getElem_or, BitVec.getElem_not]
        cases (keptBits c b)[i] <;> simp
      · rw [byteAt_storeByte_of_class _ _ _ _ hs]
    · rw [byteAt_storeByte_of_ne _ _ _ e]

/-- A whole call of the hook leaves the kept bits alone (R90). -/
theorem Device.hookWrites_kept (c : Config) (l : List DevWrite) {d : Device} (h : d.mem.wf) (b : Addr) :
    (l.foldl (Device.hookWrite c) d).mem.byteAt b &&& keptBits c b = d.mem.byteAt b &&& keptBits c b := by
  induction l generalizing d with
  | nil => rfl
  | cons x l ih => rw [List.foldl_cons, ih (hookWrite_wf c h x), hookWrite_kept c h]

/-- The hook writes STORAGE locations only (R90). -/
theorem Device.hookWrites_of_class (c : Config) (l : List DevWrite) (d : Device) {b : Addr}
    (h : c.regClass b ≠ .storage) : (l.foldl (Device.hookWrite c) d).mem.byteAt b = d.mem.byteAt b := by
  induction l generalizing d with
  | nil => rfl
  | cons x l ih =>
    rw [List.foldl_cons, ih]
    cases x
    · exact byteAt_storeByte_of_class _ _ _ _ h
    · rfl

/-- The kept bits of the bytes of TXIQ[0] hold field D (R90). -/
theorem maskD_kept (c : Config) {k : Nat} (hk : k < 4) :
    byteOf c.maskD k &&& keptBits c (c.txiq[0] + BitVec.ofNat 16 k) = byteOf c.maskD k := by
  unfold keptBits
  split
  · exact BitVec.and_allOnes
  · have e1 : c.txiq[0] + BitVec.ofNat 16 k - c.txiq[0] = BitVec.ofNat 16 k := by
      rw [BitVec.add_comm]; exact BitVec.add_sub_cancel _ _
    have e2 : (BitVec.ofNat 16 k).toNat = k := by simp only [BitVec.toNat_ofNat]; omega
    rw [e1, e2, if_pos hk, BitVec.and_self]

/-- A word under a mask, byte by byte (R76). -/
theorem Memory.wordAt_and (m : Memory) (a : Addr) (x : Word) :
    m.wordAt a &&& x = (m.byteAt (a + 3) &&& byteOf x 3) ++ (m.byteAt (a + 2) &&& byteOf x 2) ++
      (m.byteAt (a + 1) &&& byteOf x 1) ++ (m.byteAt a &&& byteOf x 0) := by
  have app : ∀ {n k : Nat} (p q : BitVec n) (u v : BitVec k), (p ++ u) &&& (q ++ v) = (p &&& q) ++ (u &&& v) := by
    intro n k p q u v
    apply BitVec.eq_of_getLsbD_eq
    intro i hi
    simp only [BitVec.getLsbD_and, BitVec.getLsbD_append]
    split <;> rfl
  conv_lhs => rw [← word_of_bytes x]
  simp only [Memory.wordAt, app]

/-- The full mask keeps every bit. -/
@[simp] theorem and_widthMask32 (x : Word) : x &&& widthMask .w32 = x := BitVec.and_allOnes

/-! ## The queue of bus kinds -/

@[simp] theorem Device.drawStatus_hciQ (d : Device) : d.drawStatus.2.hciQ = d.hciQ := by unfold drawStatus; split <;> rfl
@[simp] theorem Device.drawTherm_hciQ (d : Device) : d.drawTherm.2.hciQ = d.hciQ := by unfold drawTherm; split <;> rfl
@[simp] theorem Device.drawVerdict_hciQ (d : Device) : d.drawVerdict.2.hciQ = d.hciQ := by
  unfold drawVerdict; split <;> rfl
@[simp] theorem Device.drawChan_hciQ (d : Device) : d.drawChan.2.hciQ = d.hciQ := by unfold drawChan; split <;> rfl
@[simp] theorem Device.drawReapply_hciQ (d : Device) : d.drawReapply.2.hciQ = d.hciQ := by
  unfold drawReapply; split <;> rfl

theorem Device.drawHci_hciQ (d : Device) : ∀ b ∈ d.drawHci.2.hciQ, b ∈ d.hciQ := by
  intro b hb
  unfold drawHci at hb
  split at hb
  · rename_i a l h
    rw [h]
    exact List.mem_cons_of_mem _ hb
  · exact hb

theorem Device.hookWrites_hciQ (c : Config) (l : List DevWrite) (d : Device) :
    (l.foldl (Device.hookWrite c) d).hciQ = d.hciQ := by
  induction l generalizing d with
  | nil => rfl
  | cons x l ih =>
    rw [List.foldl_cons, ih]
    cases x
    · simp only [Device.hookWrite, Device.storeByte]
      split <;> rfl
    · rfl

@[simp] theorem Port.answer_hciQ (c : Config) (q : Port) (w : Width) (a : Addr) :
    (q.answer c w a).2.hciQ = q.dev.hciQ := by unfold answer; split <;> simp
@[simp] theorem Port.rfAnswer_hciQ (c : Config) (q : Port) (p : Path) (i : Byte) :
    (q.rfAnswer c p i).2.hciQ = q.dev.hciQ := by unfold rfAnswer; split <;> simp

/-! ## The primitives -/

section grows
variable (c : Config) (q : Port)

theorem Port.rd_grows (w : Width) (a : Addr) : q.Grows c (q.rd c w a).2 := .log (by simp) (by simp)

theorem Port.wr_grows (w : Width) (a : Addr) (v : Word) : q.Grows c (q.wr c w a v) :=
  .log (fun h => Device.store_wf c h w a v) (by simp) (fun _ h => Device.byteAt_store_of_class c _ w a v h)
    (by rw [Device.store_eq]; simp)

theorem Port.rdm_grows (a : Addr) (m : Word) : q.Grows c (q.rdm c a m).2 := .log (by simp) (by simp)

theorem Port.wrm_grows (a : Addr) (m v : Word) : q.Grows c (q.wrm c a m v) :=
  .log (fun h => Device.store_wf c h .w32 a _) (by simp) (fun _ h => Device.byteAt_store_of_class c _ .w32 a _ h)
    (by rw [Device.store_eq]; simp)

theorem Port.rfrd_grows (p : Path) (i : Byte) (m : RfWord) : q.Grows c (q.rfrd c p i m).2 := .log (by simp) (by simp)

theorem Port.rfwr_grows (p : Path) (i : Byte) (m : RfWord) (v : Word) : q.Grows c (q.rfwr c p i m v) :=
  .log (fun h => h) (fun h => rfWf_write h p i _) (by simp [Device.storeRf]) (by simp [Device.storeRf])

theorem Port.delay_grows (u : DelayUnit) (d : Word) : q.Grows c (q.delay u d) := .log (dv := q.dev) id id

theorem Port.poll_grows (a : Addr) (m e : Word) (iv lim : Nat) : q.Grows c (q.poll a m e iv lim).2 :=
  .log (by simp) (by simp)

theorem Port.chan_grows : q.Grows c q.chan.2 := .log (by simp) (by simp)

theorem Port.reapply_grows (ch : Byte) : q.Grows c (q.reapply c ch) := by
  have key : ∀ (l : List DevWrite) (d : Device), (d.mem.wf → (l.foldl (Device.hookWrite c) d).mem.wf) ∧
      (rfWf c d.rf → rfWf c (l.foldl (Device.hookWrite c) d).rf) := by
    intro l
    induction l with
    | nil => exact fun d => ⟨id, id⟩
    | cons x l ih =>
      exact fun d => ⟨fun h => (ih _).1 (Device.hookWrite_wf c h x), fun h => (ih _).2 (Device.hookWrite_rf c h x)⟩
  have k := key q.dev.drawReapply.1 q.dev.drawReapply.2
  rw [Device.drawReapply_mem, Device.drawReapply_rf] at k
  refine .log k.1 k.2 (fun a ha => ?_) (fun b hb => ?_)
  · rw [Device.hookWrites_of_class c _ _ ha, Device.drawReapply_mem]
  · rwa [Device.hookWrites_hciQ, Device.drawReapply_hciQ] at hb

theorem Port.hci_grows {k : HciKind} {q' : Port} (h : q.hci = some (k, q')) : q.Grows c q' := by
  unfold Port.hci at h
  split at h
  · rename_i k' dv hd
    simp only [Option.some.injEq, Prod.mk.injEq] at h
    obtain ⟨-, rfl⟩ := h
    have e : dv = q.dev.drawHci.2 := by rw [hd]
    subst e
    exact .log (by simp) (by simp) (by simp) (Device.drawHci_hciQ _)
  · simp at h

theorem Port.perform_grows (h : HciKind) (o : ListOp) : q.Grows c (q.perform c h o) := by
  cases o
  · exact Port.wr_grows c q _ _ _
  · exact Port.wrm_grows c q _ _ _
  · exact Port.rfwr_grows c q _ _ _ _
  · exact Port.delay_grows c q _ _

theorem Port.performAll_grows (h : HciKind) (l : List ListOp) : q.Grows c (q.performAll c h l) := by
  induction l generalizing q with
  | nil => exact .refl q
  | cons o l ih => exact (Port.perform_grows c q h o).trans (ih _)

theorem Port.backupOne_grows (e : BackupElem) : q.Grows c (q.backupOne c e).2 := by
  cases e
  · exact Port.rdm_grows c q _ _
  · exact Port.rfrd_grows c q _ _ _

theorem Port.backupAll_grows (l : List BackupElem) : q.Grows c (q.backupAll c l).2 := by
  induction l generalizing q with
  | nil => exact .refl q
  | cons e l ih => exact (Port.backupOne_grows c q e).trans (ih _)

theorem Port.restoreOne_grows (x : BackupElem × Word) : q.Grows c (q.restoreOne c x) := by
  obtain ⟨e, v⟩ := x
  cases e
  · exact Port.wrm_grows c q _ _ _
  · exact Port.rfwr_grows c q _ _ _ _

theorem Port.restoreAll_grows (l : List (BackupElem × Word)) : q.Grows c (q.restoreAll c l) := by
  induction l generalizing q with
  | nil => exact .refl q
  | cons e l ih => exact (Port.restoreOne_grows c q e).trans (ih _)

end grows

/-! ## Bytes a primitive leaves alone -/

section frames
variable (c : Config) (q : Port)

@[simp] theorem Port.rd_mem (w : Width) (a : Addr) : (q.rd c w a).2.dev.mem = q.dev.mem := by simp [rd, log]
@[simp] theorem Port.rdm_mem (a : Addr) (m : Word) : (q.rdm c a m).2.dev.mem = q.dev.mem := by simp [rdm, log]
@[simp] theorem Port.rfrd_mem (p : Path) (i : Byte) (m : RfWord) : (q.rfrd c p i m).2.dev.mem = q.dev.mem := by
  simp [rfrd, log]
@[simp] theorem Port.rfwr_mem (p : Path) (i : Byte) (m : RfWord) (v : Word) :
    (q.rfwr c p i m v).dev.mem = q.dev.mem := rfl
@[simp] theorem Port.delay_mem (u : DelayUnit) (d : Word) : (q.delay u d).dev = q.dev := rfl
@[simp] theorem Port.poll_mem (a : Addr) (m e : Word) (iv lim : Nat) : (q.poll a m e iv lim).2.dev.mem = q.dev.mem := by
  simp [poll, log]
@[simp] theorem Port.chan_mem : q.chan.2.dev.mem = q.dev.mem := by simp [chan, log]

theorem Port.byteAt_wr_of_not_mem {w : Width} {a b : Addr} (v : Word) (h : b ∉ w.bytes a) :
    (q.wr c w a v).dev.mem.byteAt b = q.dev.mem.byteAt b := Device.byteAt_store_of_not_mem c q.dev v h

theorem Port.byteAt_wrm_of_not_mem {a b : Addr} (m v : Word) (h : b ∉ Width.w32.bytes a) :
    (q.wrm c a m v).dev.mem.byteAt b = q.dev.mem.byteAt b := Device.byteAt_store_of_not_mem c q.dev _ h

/-- The word of a STORAGE register after a masked write (R85). -/
theorem Port.wordAt_wrm_self {c : Config} {q : Port} (h : q.dev.mem.wf) {a : Addr} (ha : isStorage c .w32 a)
    (m v : Word) : (q.wrm c a m v).dev.mem.wordAt a = fieldSet (q.dev.mem.wordAt a) m v :=
  Device.wordAt_store_self h ha _

/-- The word of a STORAGE register after a whole write (R83). -/
theorem Port.wordAt_wr_self {c : Config} {q : Port} (h : q.dev.mem.wf) {a : Addr} (ha : isStorage c .w32 a) (v : Word) :
    (q.wr c .w32 a v).dev.mem.wordAt a = v := Device.wordAt_store_self h ha v

/-- What a masked read of a STORAGE register answers (R84). -/
theorem Port.rdm_storage {c : Config} {q : Port} {a : Addr} (ha : isStorage c .w32 a) (m : Word) :
    q.rdm c a m = (fieldGet (q.dev.mem.wordAt a) m, q.log ⟨0x72, 0x20, a, m, 0, fieldGet (q.dev.mem.wordAt a) m⟩) := by
  simp [Port.rdm, Port.answer, ha, Memory.valueAt, Port.log]

end frames

end Sys2Proof.Machine
end

