-- ==== Sys2Proof/Laws/Lists.lean ====
section
/-! SUPPORT. What performing a list (R192), saving the backup set (R190) and restoring it (R210, R250) do: their records,
and what they leave alone. -/

namespace Sys2Proof.Machine

theorem Device.sameAnswers.refl (d : Device) : d.sameAnswers d := ⟨rfl, rfl, rfl, rfl, rfl, rfl, rfl⟩

theorem Device.sameAnswers.trans {a b c : Device} (h : a.sameAnswers b) (k : b.sameAnswers c) : a.sameAnswers c :=
  ⟨k.1.trans h.1, k.2.1.trans h.2.1, k.2.2.1.trans h.2.2.1, k.2.2.2.1.trans h.2.2.2.1,
    k.2.2.2.2.1.trans h.2.2.2.2.1, k.2.2.2.2.2.1.trans h.2.2.2.2.2.1, k.2.2.2.2.2.2.trans h.2.2.2.2.2.2⟩

theorem Device.store_answers (c : Config) (d : Device) (w : Width) (a : Addr) (v : Word) :
    d.sameAnswers (d.store c w a v) := by
  rw [Device.store_eq]; exact ⟨rfl, rfl, rfl, rfl, rfl, rfl, rfl⟩

theorem Port.wrm_answers (c : Config) (q : Port) (a : Addr) (m v : Word) : q.dev.sameAnswers (q.wrm c a m v).dev :=
  Device.store_answers _ _ _ _ _

theorem Port.wr_answers (c : Config) (q : Port) (w : Width) (a : Addr) (v : Word) :
    q.dev.sameAnswers (q.wr c w a v).dev := Device.store_answers _ _ _ _ _

@[simp] theorem Port.wr_rf (c : Config) (q : Port) (w : Width) (a : Addr) (v : Word) :
    (q.wr c w a v).dev.rf = q.dev.rf := by simp [Port.wr, Port.log]

@[simp] theorem Port.wrm_rf (c : Config) (q : Port) (a : Addr) (m v : Word) : (q.wrm c a m v).dev.rf = q.dev.rf := by
  simp [Port.wrm, Port.log]

theorem Port.rfwr_read_of_ne (c : Config) (q : Port) {p p' : Path} {i i' : Byte} (m : RfWord) (v : Word)
    (h : ¬ (p = p' ∧ i = i')) : Store.read (q.rfwr c p i m v).dev.rf (rfKey p' i') = Store.read q.dev.rf (rfKey p' i') :=
  Store.read_write_of_ne _ _ (fun e => h ⟨(rfKey_inj e).1.symm, (rfKey_inj e).2.symm⟩)

/-! ## List operations -/

section lists
variable (c : Config) (h : HciKind)

theorem Port.perform_trace (q : Port) (o : ListOp) : (q.perform c h o).trace = q.trace ++ [listRecord c h o] := by
  cases o <;> rfl

theorem Port.perform_answers (q : Port) (o : ListOp) : q.dev.sameAnswers (q.perform c h o).dev := by
  cases o
  · exact Port.wr_answers _ _ _ _ _
  · exact Port.wrm_answers _ _ _ _ _
  · exact ⟨rfl, rfl, rfl, rfl, rfl, rfl, rfl⟩
  · exact .refl _

theorem Port.perform_byteAt (q : Port) {o : ListOp} {a : Addr} (ha : ¬ o.covers a) :
    (q.perform c h o).dev.mem.byteAt a = q.dev.mem.byteAt a := by
  cases o
  · exact Port.byteAt_wr_of_not_mem _ _ _ ha
  · exact Port.byteAt_wrm_of_not_mem _ _ _ _ ha
  · rfl
  · rfl

theorem Port.perform_rf (q : Port) {o : ListOp} {p : Path} {i : Byte} (hp : ¬ o.coversRf p i) :
    Store.read (q.perform c h o).dev.rf (rfKey p i) = Store.read q.dev.rf (rfKey p i) := by
  cases o
  · simp [Port.perform]
  · simp [Port.perform]
  · exact Port.rfwr_read_of_ne _ _ _ _ hp
  · rfl

theorem Port.performAll_cons (q : Port) (o : ListOp) (l : List ListOp) :
    q.performAll c h (o :: l) = (q.perform c h o).performAll c h l := rfl

theorem Port.performAll_append (q : Port) (l m : List ListOp) :
    q.performAll c h (l ++ m) = (q.performAll c h l).performAll c h m := List.foldl_append

theorem Port.performAll_trace (q : Port) (l : List ListOp) :
    (q.performAll c h l).trace = q.trace ++ l.map (listRecord c h) := by
  induction l generalizing q with
  | nil => simp [Port.performAll]
  | cons o l ih => rw [Port.performAll_cons, ih, Port.perform_trace]; simp

/-- Operations without ANT do the same on every bus kind (R91). -/
theorem Port.performAll_hci (h' : HciKind) (q : Port) {l : List ListOp} (hl : ∀ o ∈ l, o.usesAnt = false) :
    q.performAll c h l = q.performAll c h' l := by
  induction l generalizing q with
  | nil => rfl
  | cons o l ih =>
    have ho : q.perform c h o = q.perform c h' o := by
      have hu := hl o List.mem_cons_self
      rcases o with ⟨_, _, _ | _⟩ | ⟨_, _, _ | _⟩ | ⟨_, _, _, _ | _⟩ | _ <;> first | rfl | cases hu
    rw [Port.performAll_cons, Port.performAll_cons, ho, ih _ (fun o ho => hl o (List.mem_cons_of_mem _ ho))]

theorem Port.performAll_answers (q : Port) (l : List ListOp) : q.dev.sameAnswers (q.performAll c h l).dev := by
  induction l generalizing q with
  | nil => exact .refl _
  | cons o l ih => exact (Port.perform_answers c h q o).trans (ih _)

/-- A list leaves every byte alone that none of its operations reaches. -/
theorem Port.performAll_byteAt (q : Port) {l : List ListOp} {a : Addr} (ha : ∀ o ∈ l, ¬ o.covers a) :
    (q.performAll c h l).dev.mem.byteAt a = q.dev.mem.byteAt a := by
  induction l generalizing q with
  | nil => rfl
  | cons o l ih =>
    rw [Port.performAll_cons, ih _ (fun o ho => ha o (List.mem_cons_of_mem _ ho)),
      Port.perform_byteAt c h q (ha o List.mem_cons_self)]

/-- A list leaves every RF location alone that none of its operations reaches. -/
theorem Port.performAll_rf (q : Port) {l : List ListOp} {p : Path} {i : Byte} (hp : ∀ o ∈ l, ¬ o.coversRf p i) :
    Store.read (q.performAll c h l).dev.rf (rfKey p i) = Store.read q.dev.rf (rfKey p i) := by
  induction l generalizing q with
  | nil => rfl
  | cons o l ih =>
    rw [Port.performAll_cons, ih _ (fun o ho => hp o (List.mem_cons_of_mem _ ho)),
      Port.perform_rf c h q (hp o List.mem_cons_self)]

/-- The word a list writes last stands at the end (R192, R93). -/
theorem Port.performAll_wordAt_wr {q : Port} (hq : q.dev.mem.wf = true) {l1 l2 : List ListOp} {a : Addr} (v : ListVal)
    (ha : isStorage c .w32 a = true) (hl : ∀ o ∈ l2, ∀ b ∈ Width.w32.bytes a, ¬ o.covers b) :
    (q.performAll c h (l1 ++ .wr .w32 a v :: l2)).dev.mem.wordAt a = ListVal.value c h v := by
  have hg := (Port.performAll_grows c q h l1).mem hq
  rw [Port.performAll_append, Port.performAll_cons]
  generalize q.performAll c h l1 = q1 at hg
  have hw : (q1.perform c h (.wr .w32 a v)).dev.mem.wordAt a = ListVal.value c h v := Port.wordAt_wr_self hg ha _
  rw [← hw]
  exact Memory.wordAt_congr (fun b hb => Port.performAll_byteAt c h _ (fun o ho => hl o ho b hb))

end lists

/-! ## The backup set -/

/-- Saving one element of an accepted backup set: its record, and no other change. -/
theorem Port.backupOne_eq {c : Config} (h : c.wf = true) (q : Port) {e : BackupElem} (he : e ∈ c.backupSet) :
    q.backupOne c e = (heldBy q.dev e, q.log (backupRecord (heldBy q.dev e) e)) := by
  cases e with
  | ctl a m => exact Port.rdm_storage (backupCtl_isStorage h he).1 m
  | rf p i m =>
    have hne := backupRf_ne h he
    simp only [Port.backupOne, Port.rfrd, Port.rfAnswer, if_neg hne]
    rfl

theorem Port.backupAll_eq {c : Config} (h : c.wf = true) (q : Port) {l : List BackupElem}
    (hl : ∀ e ∈ l, e ∈ c.backupSet) :
    q.backupAll c l = (l.map (heldBy q.dev),
      ⟨q.dev, q.trace ++ l.map (fun e => backupRecord (heldBy q.dev e) e)⟩) := by
  induction l generalizing q with
  | nil => simp [Port.backupAll]
  | cons e l ih =>
    rw [Port.backupAll, Port.backupOne_eq h q (hl e List.mem_cons_self),
      ih (q.log _) (fun e he => hl e (List.mem_cons_of_mem _ he))]
    simp [Port.log]

section restore
variable (c : Config)

theorem Port.restoreAll_cons (q : Port) (x : BackupElem × Word) (l : List (BackupElem × Word)) :
    q.restoreAll c (x :: l) = (q.restoreOne c x).restoreAll c l := rfl

theorem Port.restoreOne_trace (q : Port) (x : BackupElem × Word) :
    (q.restoreOne c x).trace = q.trace ++ [restoreRecord x] := by
  obtain ⟨e, v⟩ := x; cases e <;> rfl

theorem Port.restoreAll_trace (q : Port) (l : List (BackupElem × Word)) :
    (q.restoreAll c l).trace = q.trace ++ l.map restoreRecord := by
  induction l generalizing q with
  | nil => simp [Port.restoreAll]
  | cons x l ih => rw [Port.restoreAll_cons, ih, Port.restoreOne_trace]; simp

theorem Port.restoreOne_answers (q : Port) (x : BackupElem × Word) : q.dev.sameAnswers (q.restoreOne c x).dev := by
  obtain ⟨e, v⟩ := x
  cases e
  · exact Port.wrm_answers _ _ _ _ _
  · exact ⟨rfl, rfl, rfl, rfl, rfl, rfl, rfl⟩

theorem Port.restoreAll_answers (q : Port) (l : List (BackupElem × Word)) :
    q.dev.sameAnswers (q.restoreAll c l).dev := by
  induction l generalizing q with
  | nil => exact .refl _
  | cons o l ih => exact (Port.restoreOne_answers c q o).trans (ih _)

theorem Port.restoreOne_byteAt (q : Port) {x : BackupElem × Word} {a : Addr} (ha : ¬ x.1.covers a) :
    (q.restoreOne c x).dev.mem.byteAt a = q.dev.mem.byteAt a := by
  obtain ⟨e, v⟩ := x
  cases e
  · exact Port.byteAt_wrm_of_not_mem _ _ _ _ ha
  · rfl

theorem Port.restoreAll_byteAt (q : Port) {l : List (BackupElem × Word)} {a : Addr} (ha : ∀ x ∈ l, ¬ x.1.covers a) :
    (q.restoreAll c l).dev.mem.byteAt a = q.dev.mem.byteAt a := by
  induction l generalizing q with
  | nil => rfl
  | cons o l ih =>
    rw [Port.restoreAll_cons, ih _ (fun o ho => ha o (List.mem_cons_of_mem _ ho)),
      Port.restoreOne_byteAt c q (ha o List.mem_cons_self)]

theorem Port.restoreOne_rf (q : Port) {x : BackupElem × Word} {p : Path} {i : Byte} (hp : x.1.rfLoc ≠ some (p, i)) :
    Store.read (q.restoreOne c x).dev.rf (rfKey p i) = Store.read q.dev.rf (rfKey p i) := by
  obtain ⟨e, v⟩ := x
  cases e
  · simp [Port.restoreOne]
  · refine Port.rfwr_read_of_ne _ _ _ _ ?_
    rintro ⟨rfl, rfl⟩
    exact hp rfl

theorem Port.restoreAll_rf (q : Port) {l : List (BackupElem × Word)} {p : Path} {i : Byte}
    (hp : ∀ x ∈ l, x.1.rfLoc ≠ some (p, i)) :
    Store.read (q.restoreAll c l).dev.rf (rfKey p i) = Store.read q.dev.rf (rfKey p i) := by
  induction l generalizing q with
  | nil => rfl
  | cons o l ih =>
    rw [Port.restoreAll_cons, ih _ (fun o ho => hp o (List.mem_cons_of_mem _ ho)),
      Port.restoreOne_rf c q (hp o List.mem_cons_self)]

/-- Restoring one element makes it hold again what it held, and keeps every element that already does. -/
theorem Port.restoreOne_heldBy {c : Config} (hc : c.wf = true) {d : Device} {q : Port} (hm : q.dev.mem.wf = true)
    (hr : rfWf c q.dev.rf = true) {e' : BackupElem} (he' : e' ∈ c.backupSet) :
    heldBy (q.restoreOne c (e', heldBy d e')).dev e' = heldBy d e' ∧
      ∀ e ∈ c.backupSet, heldBy q.dev e = heldBy d e →
        heldBy (q.restoreOne c (e', heldBy d e')).dev e = heldBy d e := by
  have take : ∀ {w : Nat} (old x m : BitVec w), ((old &&& ~~~m) ||| (x &&& m)) &&& m = x &&& m := by
    intro w old x m
    ext i hi
    simp only [BitVec.getElem_and, BitVec.getElem_or, BitVec.getElem_not]
    cases m[i] <;> simp
  have mix : ∀ {w : Nat} {old x m : BitVec w} (n : BitVec w), old &&& m = x &&& m →
      ((old &&& ~~~n) ||| (x &&& n)) &&& m = x &&& m := by
    intro w old x m n h
    apply BitVec.eq_of_getLsbD_eq
    intro i hi
    have := congrArg (fun b => b.getLsbD i) h
    simp only [BitVec.getLsbD_and, BitVec.getLsbD_or, BitVec.getLsbD_not] at this ⊢
    cases n.getLsbD i <;> simp_all
  cases e' with
  | ctl a m =>
    have hw : (q.restoreOne c (.ctl a m, heldBy d (.ctl a m))).dev.mem.wordAt a =
        (q.dev.mem.wordAt a &&& ~~~m) ||| (d.mem.wordAt a &&& m) :=
      (Port.wordAt_wrm_self hm (backupCtl_isStorage hc he').1 m _).trans (fieldSet_fieldGet_eq _ _ _)
    constructor
    · refine (fieldGet_eq_iff _ _ _).mpr ?_
      rw [hw, take]
    · intro e he hh
      cases e with
      | ctl b n =>
        have hh' := (fieldGet_eq_iff _ _ _).mp hh
        refine (fieldGet_eq_iff _ _ _).mpr ?_
        by_cases hab : a = b
        · subst hab
          rw [hw, mix _ hh']
        · rw [Memory.wordAt_congr, hh']
          exact fun x hx => Port.restoreOne_byteAt c q
            (word_disjoint (backupCtl_isStorage hc he').2 (backupCtl_isStorage hc he).2 hab x hx)
      | rf p i n => simpa [heldBy, Port.restoreOne] using hh
  | rf p i m =>
    have hw : Store.read (q.restoreOne c (.rf p i m, heldBy d (.rf p i m))).dev.rf (rfKey p i) =
        (Store.read q.dev.rf (rfKey p i) &&& ~~~m) ||| (Store.read d.rf (rfKey p i) &&& m) := by
      simp only [Port.restoreOne, Port.rfwr, Port.log, Device.storeRf, heldBy]
      rw [Store.read_write_self (rfWf_iff.mp hr).1, fieldSet_fieldGet_eq]
      refine rfTrunc_of_lt ?_
      rw [BitVec.toNat_or, BitVec.toNat_and, BitVec.toNat_and]
      exact Nat.or_lt_two_pow (lt_of_le_of_lt Nat.and_le_left (rfWf_read hr _))
        (lt_of_le_of_lt Nat.and_le_right (backupRf_mask hc he'))
    constructor
    · refine (fieldGet_eq_iff _ _ _).mpr ?_
      rw [hw, take]
    · intro e he hh
      cases e with
      | ctl b n => simpa [heldBy, Port.restoreOne] using hh
      | rf p' i' n =>
        have hh' := (fieldGet_eq_iff _ _ _).mp hh
        refine (fieldGet_eq_iff _ _ _).mpr ?_
        by_cases hab : p = p' ∧ i = i'
        · obtain ⟨rfl, rfl⟩ := hab
          rw [hw, mix _ hh']
        · simp only [Port.restoreOne]
          rw [Port.rfwr_read_of_ne _ _ _ _ hab, hh']

end restore

end Sys2Proof.Machine
end

