-- ==== Sys2Proof/Laws/Fill.lean ====
section
/-! SUPPORT. What the imbalance and swing writes do to the device: FILLTX (R242), FILLRX (R244), SWOFDM (R293) and SWCCK
(R295), each said once for its registers, its records and its frame. -/

namespace Sys2Proof

theorem distinct_iff_nodup {α : Type} [DecidableEq α] (l : List α) : distinct l = true ↔ l.Nodup := by
  induction l with
  | nil => simp [distinct]
  | cons a l ih => simp [distinct, ih]

end Sys2Proof

namespace Sys2Proof.Machine

/-! ## Fields of an accepted configuration (R41, R42) -/

/-- A field's value is below two to its width (R84). -/
theorem fieldGet_lt {w n : Nat} {m : BitVec w} (h : isField m n = true) (hn : 0 < n) (x : BitVec w) :
    (fieldGet x m).toNat < 2 ^ n := by
  obtain ⟨-, hc⟩ := isField_ctz h hn
  rw [fieldGet, BitVec.toNat_ushiftRight, Nat.shiftRight_eq_div_pow, Nat.div_lt_iff_lt_mul (by positivity)]
  have h1 : (x &&& m).toNat ≤ m.toNat := by rw [BitVec.toNat_and]; exact Nat.and_le_right
  have h2 : 0 < 2 ^ ctz m := by positivity
  have h3 : 0 < 2 ^ n := by positivity
  calc _ ≤ _ := h1
    _ = _ := hc
    _ < _ := Nat.mul_lt_mul_of_pos_right (by omega) h2

/-- A masked write changes nothing outside its mask (R85). -/
theorem fieldSet_outside {w : Nat} (old m v x : BitVec w) (h : m &&& x = 0) : fieldSet old m v &&& x = old &&& x := by
  unfold fieldSet
  ext i hi
  have hm : (m[i] && x[i]) = false := by
    rw [← BitVec.getElem_and, h]
    exact BitVec.getElem_zero hi
  simp only [BitVec.getElem_and, BitVec.getElem_or, BitVec.getElem_not]
  revert hm
  cases m[i] <;> cases x[i] <;> simp

theorem txiq_mem (c : Config) (p : Path) : c.txiq[p] ∈ c.storageWords := by
  simp [Config.storageWords]

theorem txiqChi_mem (c : Config) (p : Path) : c.txiqChi[p] ∈ c.storageWords := by
  simp [Config.storageWords]

theorem ecca_mem (c : Config) : c.ecca ∈ c.storageWords := by
  simp [Config.storageWords]

theorem rxiq_mem (c : Config) (p : Path) : c.rxiq[p] ∈ c.storageWords := by
  simp [Config.storageWords]

theorem rxiqYhi_mem (c : Config) (p : Path) : c.rxiqYhi[p] ∈ c.storageWords := by
  simp [Config.storageWords]

section wf
variable {c : Config} (h : c.wf = true)
include h

theorem maskA_field : isField c.maskA c.elemW = true := by
  have hm := c.meets_of_wf h .fieldMask
  simp only [Config.meets, Bool.and_eq_true, List.all_cons] at hm
  tauto

theorem maskD_field : isField c.maskD c.elemW = true := by
  have hm := c.meets_of_wf h .fieldMask
  simp only [Config.meets, Bool.and_eq_true, List.all_cons] at hm
  tauto

theorem maskX_field : isField c.maskX c.readW = true := by
  have hm := c.meets_of_wf h .fieldMask
  simp only [Config.meets, Bool.and_eq_true, List.all_cons] at hm
  tauto

theorem maskCLo_field : isField c.maskCLo 6 = true := by
  have hm := c.meets_of_wf h .fieldMask
  simp only [Config.meets, Bool.and_eq_true, List.all_cons] at hm
  tauto

theorem maskYLo_field : isField c.maskYLo 6 = true := by
  have hm := c.meets_of_wf h .fieldMask
  simp only [Config.meets, Bool.and_eq_true, List.all_cons] at hm
  tauto

theorem maskCHi_field : isField c.maskCHi 4 = true := by
  have hm := c.meets_of_wf h .fieldMask
  simp only [Config.meets, Bool.and_eq_true, List.all_cons] at hm
  tauto

theorem maskCode_field : isField c.maskCode c.thermW = true := by
  have hm := c.meets_of_wf h .fieldMask
  simp only [Config.meets, Bool.and_eq_true] at hm
  tauto

theorem maskYHi_field (p : Path) : isField c.maskYHi[p] 4 = true := by
  have hm := c.meets_of_wf h .fieldMask
  simp only [Config.meets, Bool.and_eq_true, List.all_eq_true] at hm
  have : (c.maskCHi :: c.maskYHi.toList).all (isField · 4) = true := by rw [List.all_eq_true]; tauto
  exact List.all_eq_true.mp this _ (List.mem_cons_of_mem _ (by simp))

theorem maskExt_field (p : Path) : isField c.maskExtA[p] 1 = true ∧ isField c.maskExtC[p] 1 = true := by
  have hm := c.meets_of_wf h .fieldMask
  simp only [Config.meets, Bool.and_eq_true] at hm
  have : (c.maskExtA.toList ++ c.maskExtC.toList ++ [c.maskRdy, c.maskTxFail, c.maskRxFail]).all (isField · 1) = true := by
    tauto
  rw [List.all_eq_true] at this
  exact ⟨this _ (by simp), this _ (by simp)⟩

theorem maskA_cLo_disjoint : c.maskA &&& c.maskCLo = 0 ∧ c.maskA &&& c.maskD = 0 ∧ c.maskCLo &&& c.maskD = 0 := by
  have hm := c.meets_of_wf h .fieldMask
  simp only [Config.meets, Bool.and_eq_true] at hm
  have : disjoint [c.maskA, c.maskCLo, c.maskD] = true := by tauto
  simpa [disjoint, and_assoc] using this

theorem maskX_yLo_disjoint : c.maskX &&& c.maskYLo = 0 := by
  have hm := c.meets_of_wf h .fieldMask
  simp only [Config.meets, Bool.and_eq_true] at hm
  have : disjoint [c.maskX, c.maskYLo] = true := by tauto
  simpa [disjoint] using this

theorem maskExt_disjoint (p : Path) : c.maskExtA[p] &&& c.maskExtC[p] = 0 := by
  have hm := c.meets_of_wf h .fieldMask
  simp only [Config.meets, Bool.and_eq_true] at hm
  have : disjoint (c.maskExtA.toList ++ c.maskExtC.toList) = true := by tauto
  have e : ∀ x : Vector Word 2, x.toList = [x[0], x[1]] := by
    intro x
    apply List.ext_getElem (by simp)
    intro i h1 h2
    match i, h2 with
    | 0, _ => simp
    | 1, _ => simp
  rw [e, e] at this
  simp only [disjoint, List.cons_append, List.nil_append, List.all_cons, List.all_nil, Bool.and_eq_true, beq_iff_eq] at this
  fin_cases p
  · exact this.1.2.1
  · exact this.2.1.2.1

/-! ## Word registers (R40, R77) -/

theorem storageWords_nodup : c.storageWords.Nodup := by
  have hm := c.meets_of_wf h .sameAddress
  simp only [Config.meets, Bool.and_eq_true] at hm
  have := (distinct_iff_nodup _).mp hm.1
  exact (List.nodup_append.mp (List.nodup_append.mp this).1).1

theorem storageWord_aligned {a : Addr} (ha : a ∈ c.storageWords) : a.toNat % 4 = 0 := by
  have hm := c.meets_of_wf h .misaligned
  simp only [Config.meets, Bool.and_eq_true, List.all_eq_true] at hm
  have := hm.1 a (by simp [ha])
  simpa [Width.aligned] using this

/-- The five word registers of a path are five different addresses (R40). -/
theorem imbalance_distinct (p : Path) :
    c.txiq[p] ≠ c.txiqChi[p] ∧ c.txiq[p] ≠ c.ecca ∧ c.txiqChi[p] ≠ c.ecca ∧ c.rxiq[p] ≠ c.rxiqYhi[p] := by
  have hn := storageWords_nodup h
  have e : ∀ x : Vector Addr 2, x.toList = [x[0], x[1]] := by
    intro x
    apply List.ext_getElem (by simp)
    intro i h1 h2
    match i, h2 with
    | 0, _ => simp
    | 1, _ => simp
  simp only [Config.storageWords, e, List.cons_append, List.nil_append, List.nodup_cons, List.mem_cons, not_or] at hn
  fin_cases p
  · exact ⟨fun e => hn.1.2.1 e, fun e => hn.1.2.2.2.1 e, fun e => hn.2.2.1.2.1 e, fun e => hn.2.2.2.2.2.1.2.1 e⟩
  · exact ⟨fun e => hn.2.1.2.1 e, fun e => hn.2.1.2.2.1 e, fun e => hn.2.2.2.1.1 e, fun e => hn.2.2.2.2.2.2.1.2.1 e⟩

/-- A masked write of one word register leaves another one alone. -/
theorem wordAt_wrm_ne (q : Port) {a b : Addr} (ha : a ∈ c.storageWords) (hb : b ∈ c.storageWords) (hab : a ≠ b) (m v : Word) :
    (q.wrm c a m v).dev.mem.wordAt b = q.dev.mem.wordAt b :=
  Memory.wordAt_congr fun _ hx => Port.byteAt_wrm_of_not_mem _ _ _ _
    (word_disjoint (storageWord_aligned h ha) (storageWord_aligned h hb) hab _ hx)

/-- A masked write of a word register merges the field. -/
theorem wordAt_wrm_self {q : Port} (hq : q.dev.mem.wf = true) {a : Addr} (ha : a ∈ c.storageWords) (m v : Word) :
    (q.wrm c a m v).dev.mem.wordAt a = fieldSet (q.dev.mem.wordAt a) m v :=
  Port.wordAt_wrm_self hq (storageWord_isStorage h ha) _ _

end wf

theorem Port.wrm_wf {c : Config} {q : Port} (h : q.dev.mem.wf = true) (a : Addr) (m v : Word) :
    (q.wrm c a m v).dev.mem.wf = true := (Port.wrm_grows c q a m v).mem h

/-! ## Values of fields -/

theorem raw32_lt {a : BitVec 10} {n : Nat} (h : a.toNat < 2 ^ n) : (a.setWidth 32).toNat < 2 ^ n := by
  have := a.isLt
  rw [BitVec.toNat_setWidth]
  omega

theorem high4_lt (a : BitVec 10) : (high4 a).toNat < 2 ^ 4 := by
  have := (a.extractLsb' 6 4).isLt
  simp only [high4, BitVec.toNat_setWidth]
  omega

theorem low6_lt (a : BitVec 10) : (low6 a).toNat < 2 ^ 6 := by
  have := (a.extractLsb' 0 6).isLt
  simp only [low6, BitVec.toNat_setWidth]
  omega

theorem bitWord_lt (b : Bool) : (bitWord b).toNat < 2 ^ 1 := by cases b <;> decide

theorem high4_eq (a : BitVec 10) : high4 a = a.setWidth 32 >>> 6 := by
  have := a.isLt
  apply BitVec.eq_of_toNat_eq
  simp only [high4, BitVec.toNat_setWidth, BitVec.extractLsb'_toNat, BitVec.toNat_ushiftRight, Nat.shiftRight_eq_div_pow]
  omega

theorem low6_eq (a : BitVec 10) : low6 a = a.setWidth 32 &&& 0x3F := by
  have := a.isLt
  apply BitVec.eq_of_toNat_eq
  simp only [low6, BitVec.toNat_setWidth, BitVec.extractLsb'_toNat, BitVec.toNat_and]
  rw [show BitVec.toNat (0x3F : Word) = 2 ^ 6 - 1 from rfl, Nat.and_two_pow_sub_one_eq_mod]
  simp only [Nat.shiftRight_zero]
  omega

/-! ## The fills and the swing writes -/

/-- The effect of a chain of masked writes and reads on the device: the RF space and the pending answers stay. -/
structure Port.MemOnly (q q' : Port) : Prop where
  rf : q'.dev.rf = q.dev.rf
  answers : q.dev.sameAnswers q'.dev

theorem Port.MemOnly.trans {a b c : Port} (h : a.MemOnly b) (k : b.MemOnly c) : a.MemOnly c :=
  ⟨k.rf.trans h.rf, h.answers.trans k.answers⟩

theorem Port.wrm_memOnly (c : Config) (q : Port) (a : Addr) (m v : Word) : q.MemOnly (q.wrm c a m v) :=
  ⟨Port.wrm_rf c q a m v, Port.wrm_answers c q a m v⟩

theorem Port.wr_memOnly (c : Config) (q : Port) (w : Width) (a : Addr) (v : Word) : q.MemOnly (q.wr c w a v) :=
  ⟨Port.wr_rf c q w a v, Port.wr_answers c q w a v⟩

theorem Port.wrm_trace (c : Config) (q : Port) (a : Addr) (m v : Word) :
    (q.wrm c a m v).trace = q.trace ++ [wrmRecord a m v] := rfl

theorem Port.wr32_trace (c : Config) (q : Port) (a : Addr) (v : Word) :
    (q.wr c .w32 a v).trace = q.trace ++ [wrRecord a v] := by
  simp [Port.wr, Port.log, wrRecord, widthAux]
  rfl

/-- FILLTX said once (R242): its D, its six records, the three words afterwards, and its frame. -/
theorem fillTx_spec {c : Config} (h : c.wf = true) (p : Path) (x y : Raw) (q : Port) (hq : q.dev.mem.wf = true) (d : Word)
    (hd : d = fieldGet (q.dev.mem.wordAt c.txiq[p]) c.maskD) (a e : Elem × Bool)
    (ha : a = iqmult c (canon c x) (d.setWidth 10)) (he : e = iqmult c (canon c y) (d.setWidth 10)) :
    let q' := fillTx c p x y q
    q.MemOnly q' ∧
    q'.trace = q.trace ++ [rdmRecord c.txiq[p] c.maskD d, wrmRecord c.txiq[p] c.maskA (a.1.setWidth 32),
      wrmRecord c.ecca c.maskExtA[p] (bitWord a.2), wrmRecord c.txiqChi[p] c.maskCHi (high4 e.1),
      wrmRecord c.txiq[p] c.maskCLo (low6 e.1), wrmRecord c.ecca c.maskExtC[p] (bitWord e.2)] ∧
    q'.dev.mem.wordAt c.txiq[p] =
      fieldSet (fieldSet (q.dev.mem.wordAt c.txiq[p]) c.maskA (a.1.setWidth 32)) c.maskCLo (low6 e.1) ∧
    q'.dev.mem.wordAt c.txiqChi[p] = fieldSet (q.dev.mem.wordAt c.txiqChi[p]) c.maskCHi (high4 e.1) ∧
    q'.dev.mem.wordAt c.ecca =
      fieldSet (fieldSet (q.dev.mem.wordAt c.ecca) c.maskExtA[p] (bitWord a.2)) c.maskExtC[p] (bitWord e.2) ∧
    ∀ b, ¬ inTxImbalance c p b → q'.dev.mem.byteAt b = q.dev.mem.byteAt b := by
  obtain ⟨n1, n2, n3, -⟩ := imbalance_distinct h p
  have m1 := txiq_mem c p
  have m2 := txiqChi_mem c p
  have m3 := ecca_mem c
  intro q'
  have hq' : q' = (((((Port.mk q.dev (q.trace ++ [rdmRecord c.txiq[p] c.maskD d])).wrm c c.txiq[p] c.maskA
      (a.1.setWidth 32)).wrm c c.ecca c.maskExtA[p] (bitWord a.2)).wrm c c.txiqChi[p] c.maskCHi (high4 e.1)).wrm c
      c.txiq[p] c.maskCLo (low6 e.1)).wrm c c.ecca c.maskExtC[p] (bitWord e.2) := by
    show fillTx c p x y q = _
    rw [fillTx, Port.rdm_storage (txiq_isStorage h p), ha, he, hd]
    rfl
  rw [hq']
  clear hq' q'
  have g0 : q.MemOnly ⟨q.dev, q.trace ++ [rdmRecord c.txiq[p] c.maskD d]⟩ := ⟨rfl, .refl _⟩
  have w0 : (Port.mk q.dev (q.trace ++ [rdmRecord c.txiq[p] c.maskD d])).dev.mem.wf = true := hq
  have t0 : (Port.mk q.dev (q.trace ++ [rdmRecord c.txiq[p] c.maskD d])).trace =
    q.trace ++ [rdmRecord c.txiq[p] c.maskD d] := rfl
  have e0 : (Port.mk q.dev (q.trace ++ [rdmRecord c.txiq[p] c.maskD d])).dev.mem = q.dev.mem := rfl
  generalize Port.mk q.dev (q.trace ++ [rdmRecord c.txiq[p] c.maskD d]) = q0 at *
  have w1 := Port.wrm_wf w0 (c := c) c.txiq[p] c.maskA (a.1.setWidth 32)
  have w2 := Port.wrm_wf w1 (c := c) c.ecca c.maskExtA[p] (bitWord a.2)
  have w3 := Port.wrm_wf w2 (c := c) c.txiqChi[p] c.maskCHi (high4 e.1)
  have w4 := Port.wrm_wf w3 (c := c) c.txiq[p] c.maskCLo (low6 e.1)
  refine ⟨?_, ?_, ?_, ?_, ?_, ?_⟩
  · exact ((((g0.trans (Port.wrm_memOnly _ _ _ _ _)).trans (Port.wrm_memOnly _ _ _ _ _)).trans
      (Port.wrm_memOnly _ _ _ _ _)).trans (Port.wrm_memOnly _ _ _ _ _)).trans (Port.wrm_memOnly _ _ _ _ _)
  · simp only [Port.wrm_trace, t0, List.append_assoc, List.cons_append, List.nil_append]
  · rw [wordAt_wrm_ne h _ m3 m1 n2.symm, wordAt_wrm_self h w3 m1, wordAt_wrm_ne h _ m2 m1 n1.symm,
      wordAt_wrm_ne h _ m3 m1 n2.symm, wordAt_wrm_self h w0 m1, e0]
  · rw [wordAt_wrm_ne h _ m3 m2 n3.symm, wordAt_wrm_ne h _ m1 m2 n1, wordAt_wrm_self h w2 m2,
      wordAt_wrm_ne h _ m3 m2 n3.symm, wordAt_wrm_ne h _ m1 m2 n1, e0]
  · rw [wordAt_wrm_self h w4 m3, wordAt_wrm_ne h _ m1 m3 n2, wordAt_wrm_ne h _ m2 m3 n3, wordAt_wrm_self h w1 m3,
      wordAt_wrm_ne h _ m1 m3 n2, e0]
  · intro b hb
    have hb' : b ∉ Width.w32.bytes c.txiq[p] ∧ b ∉ Width.w32.bytes c.txiqChi[p] ∧ b ∉ Width.w32.bytes c.ecca := by
      simpa [inTxImbalance, inWord, not_or] using hb
    rw [Port.byteAt_wrm_of_not_mem _ _ _ _ hb'.2.2, Port.byteAt_wrm_of_not_mem _ _ _ _ hb'.1,
      Port.byteAt_wrm_of_not_mem _ _ _ _ hb'.2.1, Port.byteAt_wrm_of_not_mem _ _ _ _ hb'.2.2,
      Port.byteAt_wrm_of_not_mem _ _ _ _ hb'.1, e0]

/-- FILLRX said once (R244). -/
theorem fillRx_spec {c : Config} (h : c.wf = true) (p : Path) (x y : Raw) (q : Port) (hq : q.dev.mem.wf = true) :
    let q' := fillRx c p x y q
    q.MemOnly q' ∧
    q'.trace = q.trace ++ [wrmRecord c.rxiq[p] c.maskX (x.setWidth 32), wrmRecord c.rxiq[p] c.maskYLo (low6 y),
      wrmRecord c.rxiqYhi[p] c.maskYHi[p] (high4 y)] ∧
    q'.dev.mem.wordAt c.rxiq[p] =
      fieldSet (fieldSet (q.dev.mem.wordAt c.rxiq[p]) c.maskX (x.setWidth 32)) c.maskYLo (low6 y) ∧
    q'.dev.mem.wordAt c.rxiqYhi[p] = fieldSet (q.dev.mem.wordAt c.rxiqYhi[p]) c.maskYHi[p] (high4 y) ∧
    ∀ b, ¬ inRxImbalance c p b → q'.dev.mem.byteAt b = q.dev.mem.byteAt b := by
  obtain ⟨-, -, -, n⟩ := imbalance_distinct h p
  have m1 := rxiq_mem c p
  have m2 := rxiqYhi_mem c p
  have w1 := Port.wrm_wf hq (c := c) c.rxiq[p] c.maskX (x.setWidth 32)
  have w2 := Port.wrm_wf w1 (c := c) c.rxiq[p] c.maskYLo (low6 y)
  simp only [fillRx]
  refine ⟨?_, ?_, ?_, ?_, ?_⟩
  · exact ((Port.wrm_memOnly _ _ _ _ _).trans (Port.wrm_memOnly _ _ _ _ _)).trans (Port.wrm_memOnly _ _ _ _ _)
  · simp only [Port.wrm_trace, List.append_assoc, List.cons_append, List.nil_append]
  · rw [wordAt_wrm_ne h _ m2 m1 n.symm, wordAt_wrm_self h w1 m1, wordAt_wrm_self h hq m1]
  · rw [wordAt_wrm_self h w2 m2, wordAt_wrm_ne h _ m1 m2 n, wordAt_wrm_ne h _ m1 m2 n]
  · intro b hb
    have hb' : b ∉ Width.w32.bytes c.rxiq[p] ∧ b ∉ Width.w32.bytes c.rxiqYhi[p] := by
      simpa [inRxImbalance, inWord, not_or] using hb
    rw [Port.byteAt_wrm_of_not_mem _ _ _ _ hb'.2, Port.byteAt_wrm_of_not_mem _ _ _ _ hb'.1,
      Port.byteAt_wrm_of_not_mem _ _ _ _ hb'.1]

/-- SWCCK said once (R295): its eight records, its eight bytes, its frame. -/
theorem swCck_spec {c : Config} (h : c.wf = true) (idx : Fin 33) (q : Port) (hq : q.dev.mem.wf = true) :
    let q' := swCck c idx q
    q.MemOnly q' ∧
    q'.trace = q.trace ++ (List.finRange 8).map (fun k => wrByteRecord (c.cckReg k) (c.cckTbl[idx])[k]) ∧
    (∀ k : Fin 8, q'.dev.mem.byteAt (c.cckReg k) = (c.cckTbl[idx])[k]) ∧
    ∀ b, (∀ k : Fin 8, b ≠ c.cckReg k) → q'.dev.mem.byteAt b = q.dev.mem.byteAt b := by
  have hinj : ∀ j j' : Fin 8, c.cckReg j = c.cckReg j' → j = j' := by
    intro j j' hh
    simp only [Config.cckReg] at hh
    have h1 := congrArg BitVec.toNat hh
    have h2 := c.cckReg0.isLt
    have h3 : j.val < 8 := j.isLt
    have h4 : j'.val < 8 := j'.isLt
    simp only [BitVec.toNat_add, BitVec.toNat_ofNat] at h1
    omega
  have hb : ∀ b : Byte, (b.setWidth 32 : Word) &&& 0xFF = b.setWidth 32 := by
    intro b
    have hlt := b.isLt
    apply BitVec.eq_of_toNat_eq
    rw [BitVec.toNat_and, BitVec.toNat_setWidth, show BitVec.toNat (0xFF : Word) = 2 ^ 8 - 1 from rfl,
      Nat.and_two_pow_sub_one_eq_mod]
    omega
  have hx : ∀ b : Byte, byteOf (b.setWidth 32) 0 = b := by
    intro b
    have hlt := b.isLt
    apply BitVec.eq_of_toNat_eq
    simp only [byteOf, BitVec.extractLsb'_toNat, BitVec.toNat_setWidth, Nat.mul_zero, Nat.shiftRight_zero]
    omega
  have key : ∀ (l : List (Fin 8)) (q : Port), q.dev.mem.wf = true → l.Nodup →
      let q' := l.foldl (fun q k => q.wr c .w8 (c.cckReg k) (((c.cckTbl[idx])[k]).setWidth 32)) q
      q.MemOnly q' ∧ q'.trace = q.trace ++ l.map (fun k => wrByteRecord (c.cckReg k) (c.cckTbl[idx])[k]) ∧
      (∀ k ∈ l, q'.dev.mem.byteAt (c.cckReg k) = (c.cckTbl[idx])[k]) ∧
      ∀ b, (∀ k ∈ l, b ≠ c.cckReg k) → q'.dev.mem.byteAt b = q.dev.mem.byteAt b := by
    intro l
    induction l with
    | nil => exact fun q _ _ => ⟨⟨rfl, .refl _⟩, by simp, by simp, fun _ _ => rfl⟩
    | cons k l ih =>
      intro q hq hl
      obtain ⟨h1, h2, h3, h4⟩ := ih (q.wr c .w8 (c.cckReg k) (((c.cckTbl[idx])[k]).setWidth 32))
        ((Port.wr_grows _ _ _ _ _).mem hq) hl.of_cons
      simp only [List.foldl_cons]
      refine ⟨(Port.wr_memOnly _ _ _ _ _).trans h1, ?_, ?_, ?_⟩
      · rw [h2]
        simp [Port.wr, Port.log, wrByteRecord, widthAux, widthMask]
        exact hb _
      · intro j hj
        rcases List.mem_cons.mp hj with rfl | hj
        · rw [h4 _ (fun k' hk' e => (List.nodup_cons.mp hl).1 (by rw [hinj _ _ e]; exact hk'))]
          simp only [Port.wr, Port.log, Device.store]
          rw [Device.byteAt_storeByte_self hq (cckReg_storage h j), hx]
        · exact h3 j hj
      · intro b hb'
        rw [h4 b (fun k' hk' => hb' k' (List.mem_cons_of_mem _ hk'))]
        exact Port.byteAt_wr_of_not_mem _ _ _ (by simp [Width.bytes, hb' k List.mem_cons_self])
  obtain ⟨h1, h2, h3, h4⟩ := key (List.finRange 8) q hq (List.nodup_finRange 8)
  exact ⟨h1, h2, fun k => h3 k (List.mem_finRange k), fun b hb' => h4 b (fun k _ => hb' k)⟩

/-- SWOFDM with doneFlag = 0 (R293). -/
theorem swOfdm_raw_spec {c : Config} (h : c.wf = true) {cal : CalState} (hd : cal.doneFlag = false) (p : Path) (idx : Fin 43)
    (q : Port) (hq : q.dev.mem.wf = true) :
    let q' := swOfdm c cal p idx q
    q.MemOnly q' ∧ q'.trace = q.trace ++ [wrRecord c.txiq[p] c.ofdmTbl[idx]] ∧
    q'.dev.mem.wordAt c.txiq[p] = c.ofdmTbl[idx] ∧
    ∀ b, ¬ inWord b c.txiq[p] → q'.dev.mem.byteAt b = q.dev.mem.byteAt b := by
  simp only [swOfdm, hd, Bool.false_eq_true, if_false]
  exact ⟨Port.wr_memOnly _ _ _ _ _, Port.wr32_trace _ _ _ _, Port.wordAt_wr_self hq (txiq_isStorage h p) _,
    fun b hb => Port.byteAt_wr_of_not_mem _ _ _ hb⟩

/-- SWOFDM with doneFlag = 1 (R293). -/
theorem swOfdm_matrix_spec {c : Config} (h : c.wf = true) {cal : CalState} (hd : cal.doneFlag = true) (p : Path)
    (idx : Fin 43) (q : Port) (hq : q.dev.mem.wf = true) (a e : Elem × Bool)
    (ha : a = iqmult c (canon c cal.txX[p]) (entryD c.ofdmTbl[idx])) (he : e = iqmult c (canon c cal.txY[p]) (entryD c.ofdmTbl[idx])) :
    let q' := swOfdm c cal p idx q
    q.MemOnly q' ∧
    q'.trace = q.trace ++ [wrRecord c.txiq[p] (acd a.1 e.1 (entryD c.ofdmTbl[idx])),
      wrmRecord c.txiqChi[p] c.maskCHi (high4 e.1), wrmRecord c.ecca c.maskExtA[p] (bitWord a.2),
      wrmRecord c.ecca c.maskExtC[p] (bitWord e.2)] ∧
    q'.dev.mem.wordAt c.txiq[p] = acd a.1 e.1 (entryD c.ofdmTbl[idx]) ∧
    q'.dev.mem.wordAt c.txiqChi[p] = fieldSet (q.dev.mem.wordAt c.txiqChi[p]) c.maskCHi (high4 e.1) ∧
    q'.dev.mem.wordAt c.ecca =
      fieldSet (fieldSet (q.dev.mem.wordAt c.ecca) c.maskExtA[p] (bitWord a.2)) c.maskExtC[p] (bitWord e.2) ∧
    ∀ b, ¬ inTxImbalance c p b → q'.dev.mem.byteAt b = q.dev.mem.byteAt b := by
  obtain ⟨n1, n2, n3, -⟩ := imbalance_distinct h p
  have m1 := txiq_mem c p
  have m2 := txiqChi_mem c p
  have m3 := ecca_mem c
  simp only [swOfdm, hd, if_true, ← ha, ← he]
  have w0 : (q.wr c .w32 c.txiq[p] (acd a.1 e.1 (entryD c.ofdmTbl[idx]))).dev.mem.wf = true := (Port.wr_grows _ _ _ _ _).mem hq
  have e1 := Port.wordAt_wr_self hq (txiq_isStorage h p) (acd a.1 e.1 (entryD c.ofdmTbl[idx]))
  have e0 : ∀ b, b ∉ Width.w32.bytes c.txiq[p] →
      (q.wr c .w32 c.txiq[p] (acd a.1 e.1 (entryD c.ofdmTbl[idx]))).dev.mem.byteAt b = q.dev.mem.byteAt b :=
    fun b hb => Port.byteAt_wr_of_not_mem _ _ _ hb
  have ew : ∀ b ∈ c.storageWords, c.txiq[p] ≠ b →
      (q.wr c .w32 c.txiq[p] (acd a.1 e.1 (entryD c.ofdmTbl[idx]))).dev.mem.wordAt b = q.dev.mem.wordAt b :=
    fun b hb hne => Memory.wordAt_congr fun _ hx => e0 _
      (word_disjoint (storageWord_aligned h m1) (storageWord_aligned h hb) hne _ hx)
  have t0 := Port.wr32_trace c q c.txiq[p] (acd a.1 e.1 (entryD c.ofdmTbl[idx]))
  have g0 := Port.wr_memOnly c q .w32 c.txiq[p] (acd a.1 e.1 (entryD c.ofdmTbl[idx]))
  generalize q.wr c .w32 c.txiq[p] (acd a.1 e.1 (entryD c.ofdmTbl[idx])) = q0 at *
  have w1 := Port.wrm_wf w0 (c := c) c.txiqChi[p] c.maskCHi (high4 e.1)
  have w2 := Port.wrm_wf w1 (c := c) c.ecca c.maskExtA[p] (bitWord a.2)
  refine ⟨?_, ?_, ?_, ?_, ?_, ?_⟩
  · exact ((g0.trans (Port.wrm_memOnly _ _ _ _ _)).trans (Port.wrm_memOnly _ _ _ _ _)).trans (Port.wrm_memOnly _ _ _ _ _)
  · simp only [Port.wrm_trace, t0, List.append_assoc, List.cons_append, List.nil_append]
  · rw [wordAt_wrm_ne h _ m3 m1 n2.symm, wordAt_wrm_ne h _ m3 m1 n2.symm, wordAt_wrm_ne h _ m2 m1 n1.symm, e1]
  · rw [wordAt_wrm_ne h _ m3 m2 n3.symm, wordAt_wrm_ne h _ m3 m2 n3.symm, wordAt_wrm_self h w0 m2, ew _ m2 n1]
  · rw [wordAt_wrm_self h w2 m3, wordAt_wrm_self h w1 m3, wordAt_wrm_ne h _ m2 m3 n3, ew _ m3 n2]
  · intro b hb
    have hb' : b ∉ Width.w32.bytes c.txiq[p] ∧ b ∉ Width.w32.bytes c.txiqChi[p] ∧ b ∉ Width.w32.bytes c.ecca := by
      simpa [inTxImbalance, inWord, not_or] using hb
    rw [Port.byteAt_wrm_of_not_mem _ _ _ _ hb'.2.2, Port.byteAt_wrm_of_not_mem _ _ _ _ hb'.2.2,
      Port.byteAt_wrm_of_not_mem _ _ _ _ hb'.2.1, e0 b hb'.1]

end Sys2Proof.Machine
end

