-- ==== Sys2Proof/Laws/State.lean ====
section
/-! SUPPORT. One lemma per field per named update of State, true by rfl: no later proof unfolds an update. -/

namespace Sys2Proof.Machine

section setPort
variable (s : State) (q : Port)
@[simp] theorem State.setPort_cfg : (s.setPort q).cfg = s.cfg := rfl
@[simp] theorem State.setPort_inited : (s.setPort q).inited = s.inited := rfl
@[simp] theorem State.setPort_busy : (s.setPort q).busy = s.busy := rfl
@[simp] theorem State.setPort_seq : (s.setPort q).seq = s.seq := rfl
@[simp] theorem State.setPort_work : (s.setPort q).work = s.work := rfl
@[simp] theorem State.setPort_cal : (s.setPort q).cal = s.cal := rfl
@[simp] theorem State.setPort_pt : (s.setPort q).pt = s.pt := rfl
@[simp] theorem State.setPort_thermalRef : (s.setPort q).thermalRef = s.thermalRef := rfl
@[simp] theorem State.setPort_hciKind : (s.setPort q).hciKind = s.hciKind := rfl
@[simp] theorem State.setPort_status : (s.setPort q).status = s.status := rfl
@[simp] theorem State.setPort_outcome : (s.setPort q).outcome = s.outcome := rfl
@[simp] theorem State.setPort_warnReg : (s.setPort q).warnReg = s.warnReg := rfl
@[simp] theorem State.setPort_port : (s.setPort q).port = q := rfl
@[simp] theorem State.setPort_thermalRefIn : (s.setPort q).thermalRefIn = s.thermalRefIn := rfl
@[simp] theorem State.setPort_wires : (s.setPort q).wires = s.wires := rfl
@[simp] theorem State.setPort_useq : (s.setPort q).useq = s.useq := rfl
@[simp] theorem State.setPort_cmds : (s.setPort q).cmds = s.cmds := rfl
end setPort

section setPhase
variable (s : State) (ph : Phase)
@[simp] theorem State.setPhase_cfg : (s.setPhase ph).cfg = s.cfg := rfl
@[simp] theorem State.setPhase_inited : (s.setPhase ph).inited = s.inited := rfl
@[simp] theorem State.setPhase_busy : (s.setPhase ph).busy = s.busy := rfl
@[simp] theorem State.setPhase_seq : (s.setPhase ph).seq = { s.seq with phase := ph } := rfl
@[simp] theorem State.setPhase_work : (s.setPhase ph).work = s.work := rfl
@[simp] theorem State.setPhase_cal : (s.setPhase ph).cal = s.cal := rfl
@[simp] theorem State.setPhase_pt : (s.setPhase ph).pt = s.pt := rfl
@[simp] theorem State.setPhase_thermalRef : (s.setPhase ph).thermalRef = s.thermalRef := rfl
@[simp] theorem State.setPhase_hciKind : (s.setPhase ph).hciKind = s.hciKind := rfl
@[simp] theorem State.setPhase_status : (s.setPhase ph).status = s.status := rfl
@[simp] theorem State.setPhase_outcome : (s.setPhase ph).outcome = s.outcome := rfl
@[simp] theorem State.setPhase_warnReg : (s.setPhase ph).warnReg = s.warnReg := rfl
@[simp] theorem State.setPhase_port : (s.setPhase ph).port = s.port := rfl
@[simp] theorem State.setPhase_thermalRefIn : (s.setPhase ph).thermalRefIn = s.thermalRefIn := rfl
@[simp] theorem State.setPhase_wires : (s.setPhase ph).wires = s.wires := rfl
@[simp] theorem State.setPhase_useq : (s.setPhase ph).useq = s.useq := rfl
@[simp] theorem State.setPhase_cmds : (s.setPhase ph).cmds = s.cmds := rfl
end setPhase

section setWires
variable (s : State) (x : Wires)
@[simp] theorem State.setWires_cfg : (s.setWires x).cfg = s.cfg := rfl
@[simp] theorem State.setWires_inited : (s.setWires x).inited = s.inited := rfl
@[simp] theorem State.setWires_busy : (s.setWires x).busy = s.busy := rfl
@[simp] theorem State.setWires_seq : (s.setWires x).seq = s.seq := rfl
@[simp] theorem State.setWires_work : (s.setWires x).work = s.work := rfl
@[simp] theorem State.setWires_cal : (s.setWires x).cal = s.cal := rfl
@[simp] theorem State.setWires_pt : (s.setWires x).pt = s.pt := rfl
@[simp] theorem State.setWires_thermalRef : (s.setWires x).thermalRef = s.thermalRef := rfl
@[simp] theorem State.setWires_hciKind : (s.setWires x).hciKind = s.hciKind := rfl
@[simp] theorem State.setWires_status : (s.setWires x).status = s.status := rfl
@[simp] theorem State.setWires_outcome : (s.setWires x).outcome = s.outcome := rfl
@[simp] theorem State.setWires_warnReg : (s.setWires x).warnReg = s.warnReg := rfl
@[simp] theorem State.setWires_port : (s.setWires x).port = s.port := rfl
@[simp] theorem State.setWires_thermalRefIn : (s.setWires x).thermalRefIn = s.thermalRefIn := rfl
@[simp] theorem State.setWires_wires : (s.setWires x).wires = x := rfl
@[simp] theorem State.setWires_useq : (s.setWires x).useq = s.useq := rfl
@[simp] theorem State.setWires_cmds : (s.setWires x).cmds = s.cmds := rfl
end setWires

section setWork
variable (s : State) (k : Work)
@[simp] theorem State.setWork_cfg : (s.setWork k).cfg = s.cfg := rfl
@[simp] theorem State.setWork_inited : (s.setWork k).inited = s.inited := rfl
@[simp] theorem State.setWork_busy : (s.setWork k).busy = s.busy := rfl
@[simp] theorem State.setWork_seq : (s.setWork k).seq = s.seq := rfl
@[simp] theorem State.setWork_work : (s.setWork k).work = k := rfl
@[simp] theorem State.setWork_cal : (s.setWork k).cal = s.cal := rfl
@[simp] theorem State.setWork_pt : (s.setWork k).pt = s.pt := rfl
@[simp] theorem State.setWork_thermalRef : (s.setWork k).thermalRef = s.thermalRef := rfl
@[simp] theorem State.setWork_hciKind : (s.setWork k).hciKind = s.hciKind := rfl
@[simp] theorem State.setWork_status : (s.setWork k).status = s.status := rfl
@[simp] theorem State.setWork_outcome : (s.setWork k).outcome = s.outcome := rfl
@[simp] theorem State.setWork_warnReg : (s.setWork k).warnReg = s.warnReg := rfl
@[simp] theorem State.setWork_port : (s.setWork k).port = s.port := rfl
@[simp] theorem State.setWork_thermalRefIn : (s.setWork k).thermalRefIn = s.thermalRefIn := rfl
@[simp] theorem State.setWork_wires : (s.setWork k).wires = s.wires := rfl
@[simp] theorem State.setWork_useq : (s.setWork k).useq = s.useq := rfl
@[simp] theorem State.setWork_cmds : (s.setWork k).cmds = s.cmds := rfl
end setWork

section setPt
variable (s : State) (x : PtState)
@[simp] theorem State.setPt_cfg : (s.setPt x).cfg = s.cfg := rfl
@[simp] theorem State.setPt_inited : (s.setPt x).inited = s.inited := rfl
@[simp] theorem State.setPt_busy : (s.setPt x).busy = s.busy := rfl
@[simp] theorem State.setPt_seq : (s.setPt x).seq = s.seq := rfl
@[simp] theorem State.setPt_work : (s.setPt x).work = s.work := rfl
@[simp] theorem State.setPt_cal : (s.setPt x).cal = s.cal := rfl
@[simp] theorem State.setPt_pt : (s.setPt x).pt = x := rfl
@[simp] theorem State.setPt_thermalRef : (s.setPt x).thermalRef = s.thermalRef := rfl
@[simp] theorem State.setPt_hciKind : (s.setPt x).hciKind = s.hciKind := rfl
@[simp] theorem State.setPt_status : (s.setPt x).status = s.status := rfl
@[simp] theorem State.setPt_outcome : (s.setPt x).outcome = s.outcome := rfl
@[simp] theorem State.setPt_warnReg : (s.setPt x).warnReg = s.warnReg := rfl
@[simp] theorem State.setPt_port : (s.setPt x).port = s.port := rfl
@[simp] theorem State.setPt_thermalRefIn : (s.setPt x).thermalRefIn = s.thermalRefIn := rfl
@[simp] theorem State.setPt_wires : (s.setPt x).wires = s.wires := rfl
@[simp] theorem State.setPt_useq : (s.setPt x).useq = s.useq := rfl
@[simp] theorem State.setPt_cmds : (s.setPt x).cmds = s.cmds := rfl
end setPt

section setCal
variable (s : State) (x : CalState)
@[simp] theorem State.setCal_cfg : (s.setCal x).cfg = s.cfg := rfl
@[simp] theorem State.setCal_inited : (s.setCal x).inited = s.inited := rfl
@[simp] theorem State.setCal_busy : (s.setCal x).busy = s.busy := rfl
@[simp] theorem State.setCal_seq : (s.setCal x).seq = s.seq := rfl
@[simp] theorem State.setCal_work : (s.setCal x).work = s.work := rfl
@[simp] theorem State.setCal_cal : (s.setCal x).cal = x := rfl
@[simp] theorem State.setCal_pt : (s.setCal x).pt = s.pt := rfl
@[simp] theorem State.setCal_thermalRef : (s.setCal x).thermalRef = s.thermalRef := rfl
@[simp] theorem State.setCal_hciKind : (s.setCal x).hciKind = s.hciKind := rfl
@[simp] theorem State.setCal_status : (s.setCal x).status = s.status := rfl
@[simp] theorem State.setCal_outcome : (s.setCal x).outcome = s.outcome := rfl
@[simp] theorem State.setCal_warnReg : (s.setCal x).warnReg = s.warnReg := rfl
@[simp] theorem State.setCal_port : (s.setCal x).port = s.port := rfl
@[simp] theorem State.setCal_thermalRefIn : (s.setCal x).thermalRefIn = s.thermalRefIn := rfl
@[simp] theorem State.setCal_wires : (s.setCal x).wires = s.wires := rfl
@[simp] theorem State.setCal_useq : (s.setCal x).useq = s.useq := rfl
@[simp] theorem State.setCal_cmds : (s.setCal x).cmds = s.cmds := rfl
end setCal

section warn
variable (s : State) (w : Warning)
@[simp] theorem State.warn_cfg : (s.warn w).cfg = s.cfg := rfl
@[simp] theorem State.warn_inited : (s.warn w).inited = s.inited := rfl
@[simp] theorem State.warn_busy : (s.warn w).busy = s.busy := rfl
@[simp] theorem State.warn_seq : (s.warn w).seq = s.seq := rfl
@[simp] theorem State.warn_work : (s.warn w).work = s.work := rfl
@[simp] theorem State.warn_cal : (s.warn w).cal = s.cal := rfl
@[simp] theorem State.warn_pt : (s.warn w).pt = s.pt := rfl
@[simp] theorem State.warn_thermalRef : (s.warn w).thermalRef = s.thermalRef := rfl
@[simp] theorem State.warn_hciKind : (s.warn w).hciKind = s.hciKind := rfl
@[simp] theorem State.warn_status : (s.warn w).status = s.status := rfl
@[simp] theorem State.warn_outcome : (s.warn w).outcome = s.outcome := rfl
@[simp] theorem State.warn_warnReg : (s.warn w).warnReg = warnBump s.warnReg w := rfl
@[simp] theorem State.warn_port : (s.warn w).port = s.port := rfl
@[simp] theorem State.warn_thermalRefIn : (s.warn w).thermalRefIn = s.thermalRefIn := rfl
@[simp] theorem State.warn_wires : (s.warn w).wires = s.wires := rfl
@[simp] theorem State.warn_useq : (s.warn w).useq = s.useq := rfl
@[simp] theorem State.warn_cmds : (s.warn w).cmds = s.cmds := rfl
end warn

section refuse
variable (s : State) (code : Byte)
@[simp] theorem State.refuse_cfg : (s.refuse code).cfg = s.cfg := rfl
@[simp] theorem State.refuse_inited : (s.refuse code).inited = s.inited := rfl
@[simp] theorem State.refuse_busy : (s.refuse code).busy = s.busy := rfl
@[simp] theorem State.refuse_seq : (s.refuse code).seq = s.seq := rfl
@[simp] theorem State.refuse_work : (s.refuse code).work = s.work := rfl
@[simp] theorem State.refuse_cal : (s.refuse code).cal = s.cal := rfl
@[simp] theorem State.refuse_pt : (s.refuse code).pt = s.pt := rfl
@[simp] theorem State.refuse_thermalRef : (s.refuse code).thermalRef = s.thermalRef := rfl
@[simp] theorem State.refuse_hciKind : (s.refuse code).hciKind = s.hciKind := rfl
@[simp] theorem State.refuse_status : (s.refuse code).status = code := rfl
@[simp] theorem State.refuse_outcome : (s.refuse code).outcome = s.outcome := rfl
@[simp] theorem State.refuse_warnReg : (s.refuse code).warnReg = warnBump s.warnReg .refused := rfl
@[simp] theorem State.refuse_port : (s.refuse code).port = s.port := rfl
@[simp] theorem State.refuse_thermalRefIn : (s.refuse code).thermalRefIn = s.thermalRefIn := rfl
@[simp] theorem State.refuse_wires : (s.refuse code).wires = s.wires := rfl
@[simp] theorem State.refuse_useq : (s.refuse code).useq = s.useq := rfl
@[simp] theorem State.refuse_cmds : (s.refuse code).cmds = s.cmds := rfl
end refuse

section finish
variable (s : State) (code : Byte)
@[simp] theorem State.finish_cfg : (s.finish code).cfg = s.cfg := rfl
@[simp] theorem State.finish_inited : (s.finish code).inited = s.inited := rfl
@[simp] theorem State.finish_busy : (s.finish code).busy = false := rfl
@[simp] theorem State.finish_seq : (s.finish code).seq = { s.seq with phase := .idle } := rfl
@[simp] theorem State.finish_work : (s.finish code).work = s.work := rfl
@[simp] theorem State.finish_cal : (s.finish code).cal = s.cal := rfl
@[simp] theorem State.finish_pt : (s.finish code).pt = s.pt := rfl
@[simp] theorem State.finish_thermalRef : (s.finish code).thermalRef = s.thermalRef := rfl
@[simp] theorem State.finish_hciKind : (s.finish code).hciKind = s.hciKind := rfl
@[simp] theorem State.finish_status : (s.finish code).status = code := rfl
@[simp] theorem State.finish_outcome : (s.finish code).outcome = s.outcome := rfl
@[simp] theorem State.finish_warnReg : (s.finish code).warnReg = s.warnReg := rfl
@[simp] theorem State.finish_port : (s.finish code).port = s.port := rfl
@[simp] theorem State.finish_thermalRefIn : (s.finish code).thermalRefIn = s.thermalRefIn := rfl
@[simp] theorem State.finish_wires : (s.finish code).wires = s.wires := rfl
@[simp] theorem State.finish_useq : (s.finish code).useq = s.useq := rfl
@[simp] theorem State.finish_cmds : (s.finish code).cmds = s.cmds := rfl
end finish

section overwrite
variable (s : State) (q q' : Port) (x x' : Wires) (k k' : Work) (t t' : PtState) (ph ph' : Phase)
@[simp] theorem State.setPort_setPort : (s.setPort q).setPort q' = s.setPort q' := rfl
@[simp] theorem State.setWires_setWires : (s.setWires x).setWires x' = s.setWires x' := rfl
@[simp] theorem State.setWork_setWork : (s.setWork k).setWork k' = s.setWork k' := rfl
@[simp] theorem State.setPt_setPt : (s.setPt t).setPt t' = s.setPt t' := rfl
@[simp] theorem State.setPhase_setPhase : (s.setPhase ph).setPhase ph' = s.setPhase ph' := rfl
@[simp] theorem State.setPort_self : s.setPort s.port = s := rfl
@[simp] theorem State.setWires_self : s.setWires s.wires = s := rfl
@[simp] theorem State.setWork_self : s.setWork s.work = s := rfl
@[simp] theorem State.setPt_self : s.setPt s.pt = s := rfl
end overwrite

end Sys2Proof.Machine
end

