-- ==== Sys2Proof/Laws/Apply.lean ====
section
/-! SUPPORT. What APPLY does for one path (R248). -/

namespace Sys2Proof.Machine

theorem fillTx_length (c : Config) (p : Path) (x y : Raw) (q : Port) :
    ∃ l, (fillTx c p x y q).trace = q.trace ++ l ∧ l.length = 6 := by
  simp only [fillTx]
  exact ⟨_, by simp only [Port.wrm_trace, Port.rdm, Port.log, List.append_assoc]; rfl, by simp⟩

theorem fillRx_length (c : Config) (p : Path) (x y : Raw) (q : Port) :
    ∃ l, (fillRx c p x y q).trace = q.trace ++ l ∧ l.length = 3 := by
  simp only [fillRx]
  exact ⟨_, by simp only [Port.wrm_trace, List.append_assoc]; rfl, by simp⟩

/-- APPLY for one path: FILLTX of a usable TX reading, then FILLRX of a usable RX reading (R248). -/
def applyPort (c : Config) (k : Work) (cand : BitVec 2) (p : Path) (q : Port) : Port :=
  let q1 := if usable c k cand (txGroup p) = true then fillTx c p (k.resAt (candRound cand) (slotX (txGroup p)))
    (k.resAt (candRound cand) (slotY (txGroup p))) q else q
  if usable c k cand (rxGroup p) = true then fillRx c p (k.resAt (candRound cand) (slotX (rxGroup p)))
    (k.resAt (candRound cand) (slotY (rxGroup p))) q1 else q1

theorem applyPath_eq (cand : BitVec 2) (p : Path) (s : State) :
    applyPath cand p s = (s.setWork { s.work with p := p }).setPort (applyPort s.cfg s.work cand p s.port) := by
  have hu : ∀ g, usable s.cfg { s.work with p := p } cand g = usable s.cfg s.work cand g := fun g => rfl
  unfold applyPath applyPort
  simp only [State.setWork_work, hu]
  by_cases h1 : usable s.cfg s.work cand (txGroup p) = true <;> by_cases h2 : usable s.cfg s.work cand (rxGroup p) = true <;>
    simp only [h1, h2, if_true] <;> rfl

/-- APPLY for one path said once (R248): the path scalar, the fills of what is usable, their number of transactions, and
the bytes they leave alone. -/
theorem applyPath_spec (cand : BitVec 2) (p : Path) (s : State) (h : s.cfg.wf = true) :
    applyPath cand p s = { s with work := { s.work with p := p }, port := (applyPath cand p s).port } ∧
    s.port.MemOnly (applyPath cand p s).port ∧
    (∃ l, (applyPath cand p s).port.trace = s.port.trace ++ l ∧ l.length =
      (if usable s.cfg s.work cand (txGroup p) then 6 else 0) + (if usable s.cfg s.work cand (rxGroup p) then 3 else 0)) ∧
    (∀ b, ((usable s.cfg s.work cand (txGroup p) = true → ¬ inTxImbalance s.cfg p b) ∧
        (usable s.cfg s.work cand (rxGroup p) = true → ¬ inRxImbalance s.cfg p b)) →
      (applyPath cand p s).port.dev.mem.byteAt b = s.port.dev.mem.byteAt b) := by
  have ftm : ∀ x y (q : Port), q.MemOnly (fillTx s.cfg p x y q) := by
    intro x y q
    simp only [fillTx]
    rw [Port.rdm_storage (txiq_isStorage h p)]
    have g0 : ∀ t, q.MemOnly ⟨q.dev, t⟩ := fun t => ⟨rfl, .refl _⟩
    exact (((((g0 _).trans (Port.wrm_memOnly _ _ _ _ _)).trans (Port.wrm_memOnly _ _ _ _ _)).trans
      (Port.wrm_memOnly _ _ _ _ _)).trans (Port.wrm_memOnly _ _ _ _ _)).trans (Port.wrm_memOnly _ _ _ _ _)
  have frm : ∀ x y (q : Port), q.MemOnly (fillRx s.cfg p x y q) := by
    intro x y q
    exact (((Port.wrm_memOnly _ _ _ _ _)).trans (Port.wrm_memOnly _ _ _ _ _)).trans (Port.wrm_memOnly _ _ _ _ _)
  have ftb : ∀ x y (q : Port) b, ¬ inTxImbalance s.cfg p b → (fillTx s.cfg p x y q).dev.mem.byteAt b = q.dev.mem.byteAt b := by
    intro x y q b hb
    have hb' : b ∉ Width.w32.bytes s.cfg.txiq[p] ∧ b ∉ Width.w32.bytes s.cfg.txiqChi[p] ∧ b ∉ Width.w32.bytes s.cfg.ecca := by
      simpa [inTxImbalance, inWord, not_or] using hb
    simp only [fillTx]
    rw [Port.byteAt_wrm_of_not_mem _ _ _ _ hb'.2.2, Port.byteAt_wrm_of_not_mem _ _ _ _ hb'.1,
      Port.byteAt_wrm_of_not_mem _ _ _ _ hb'.2.1, Port.byteAt_wrm_of_not_mem _ _ _ _ hb'.2.2,
      Port.byteAt_wrm_of_not_mem _ _ _ _ hb'.1, Port.rdm_mem]
  have frb : ∀ x y (q : Port) b, ¬ inRxImbalance s.cfg p b → (fillRx s.cfg p x y q).dev.mem.byteAt b = q.dev.mem.byteAt b := by
    intro x y q b hb
    have hb' : b ∉ Width.w32.bytes s.cfg.rxiq[p] ∧ b ∉ Width.w32.bytes s.cfg.rxiqYhi[p] := by
      simpa [inRxImbalance, inWord, not_or] using hb
    simp only [fillRx]
    rw [Port.byteAt_wrm_of_not_mem _ _ _ _ hb'.2, Port.byteAt_wrm_of_not_mem _ _ _ _ hb'.1,
      Port.byteAt_wrm_of_not_mem _ _ _ _ hb'.1]
  have hu : ∀ g, usable s.cfg { s.work with p := p } cand g = usable s.cfg s.work cand g := fun g => rfl
  unfold applyPath
  simp only [State.setWork_work, hu, State.setWork_cfg, State.setWork_port]
  by_cases h1 : usable s.cfg s.work cand (txGroup p) = true <;> by_cases h2 : usable s.cfg s.work cand (rxGroup p) = true
  · rw [if_pos h1, if_pos h2]
    refine ⟨rfl, (ftm _ _ _).trans (frm _ _ _), ?_, ?_⟩
    · obtain ⟨l1, e1, n1⟩ := fillTx_length s.cfg p (s.work.resAt (candRound cand) (slotX (txGroup p)))
        (s.work.resAt (candRound cand) (slotY (txGroup p))) s.port
      obtain ⟨l2, e2, n2⟩ := fillRx_length s.cfg p (s.work.resAt (candRound cand) (slotX (rxGroup p)))
        (s.work.resAt (candRound cand) (slotY (rxGroup p))) (fillTx s.cfg p
          (s.work.resAt (candRound cand) (slotX (txGroup p))) (s.work.resAt (candRound cand) (slotY (txGroup p))) s.port)
      refine ⟨l1 ++ l2, ?_, by simp [n1, n2, h1, h2]⟩
      rw [← List.append_assoc, ← e1]; exact e2
    · intro b hb
      exact (frb _ _ _ b (hb.2 h2)).trans (ftb _ _ _ b (hb.1 h1))
  · rw [if_pos h1, if_neg h2]
    refine ⟨rfl, (ftm _ _ _), ?_, fun b hb => ftb _ _ _ b (hb.1 h1)⟩
    obtain ⟨l1, e1, n1⟩ := fillTx_length s.cfg p (s.work.resAt (candRound cand) (slotX (txGroup p)))
      (s.work.resAt (candRound cand) (slotY (txGroup p))) s.port
    exact ⟨l1, e1, by simp [n1, h1, h2]⟩
  · rw [if_neg h1, if_pos h2]
    refine ⟨rfl, (frm _ _ _), ?_, fun b hb => frb _ _ _ b (hb.2 h2)⟩
    obtain ⟨l1, e1, n1⟩ := fillRx_length s.cfg p (s.work.resAt (candRound cand) (slotX (rxGroup p)))
      (s.work.resAt (candRound cand) (slotY (rxGroup p))) s.port
    exact ⟨l1, e1, by simp [n1, h1, h2]⟩
  · rw [if_neg h1, if_neg h2]
    exact ⟨rfl, ⟨rfl, .refl _⟩, ⟨[], by simp, by simp [h1, h2]⟩, fun _ _ => rfl⟩

end Sys2Proof.Machine
end

