-- ==== Sys2Proof/Laws/Bits.lean ====
section
/-! SUPPORT. What a list of operations (R192), a restore (R210, R250) and a call of the REAPPLY hook (R90) leave in the
device, bit by bit. -/

namespace Sys2Proof.Machine

/-! ## The last bit stored at a place -/

@[simp] theorem lastBit_nil {α : Type} (f : α → Option Bool) (x : Bool) : lastBit f [] x = x := rfl

@[simp] theorem lastBit_cons {α : Type} (f : α → Option Bool) (o : α) (l : List α) (x : Bool) :
    lastBit f (o :: l) x = lastBit f l ((f o).getD x) := rfl

/-- A byte of an access is the byte of its own distance from the access' address (R76). -/
theorem Width.bytes_getElem {w : Width} {a b : Addr} (h : b ∈ w.bytes a) : (w.bytes a)[(b - a).toNat]? = some b := by
  cases w <;> simp only [Width.bytes, List.mem_cons, List.not_mem_nil, or_false] at h
  · subst h; simp [Width.bytes]
  · rcases h with rfl | rfl <;> simp [Width.bytes]
  · rcases h with rfl | rfl | rfl | rfl <;> simp [Width.bytes]

/-- Bit `k` of byte `j` of a word (R76). -/
theorem byteOf_getLsbD (v : Word) (j : Nat) {k : Nat} (hk : k < 8) : (byteOf v j).getLsbD k = v.getLsbD (8 * j + k) := by
  simp [byteOf, hk]

/-- Byte `j` of the word at `a` is the byte at `a + j` (R76). -/
theorem Memory.byteOf_wordAt (m : Memory) {a b : Addr} (h : b ∈ Width.w32.bytes a) :
    byteOf (m.wordAt a) (b - a).toNat = m.byteAt b := by
  have hb := Width.bytes_getElem h
  generalize (b - a).toNat = j at hb
  apply BitVec.eq_of_getLsbD_eq
  intro i hi
  rw [byteOf_getLsbD _ _ hi]
  simp only [Memory.wordAt, BitVec.getLsbD_append]
  match j with
  | 0 => cases hb; rw [if_pos (by omega)]; congr 1; omega
  | 1 => cases hb; rw [if_neg (by omega), if_pos (by omega)]; congr 1; omega
  | 2 => cases hb; rw [if_neg (by omega), if_neg (by omega), if_pos (by omega)]; congr 1; omega
  | 3 => cases hb; rw [if_neg (by omega), if_neg (by omega), if_neg (by omega)]; congr 1; omega
  | k + 4 => simp [Width.bytes] at hb

/-- A bit after a masked write: the shifted value's where the mask has it, else the old one (R85). -/
theorem fieldSet_getLsbD {w : Nat} (old m v : BitVec w) (i : Nat) :
    (fieldSet old m v).getLsbD i = if m.getLsbD i = true then (v <<< ctz m).getLsbD i else old.getLsbD i := by
  by_cases hi : i < w
  · simp only [fieldSet, BitVec.getLsbD_or, BitVec.getLsbD_and, BitVec.getLsbD_not, hi, decide_true, Bool.true_and]
    cases m.getLsbD i <;> simp
  · rw [BitVec.getLsbD_of_ge _ _ (by omega), BitVec.getLsbD_of_ge m _ (by omega), BitVec.getLsbD_of_ge old _ (by omega)]
    rfl

/-- A bit of an RF location after a store of it (R71, R87). -/
theorem rfTrunc_getLsbD (c : Config) (v : RfWord) {k : Nat} (hk : k < c.rfDataW) : (rfTrunc c v).getLsbD k = v.getLsbD k := by
  have e : (BitVec.ofNat 32 (2 ^ c.rfDataW - 1)).getLsbD k = (decide (k < 32)) := by
    rw [BitVec.getLsbD_ofNat, Nat.testBit_two_pow_sub_one, decide_eq_true hk, Bool.and_true]
  rw [rfTrunc, BitVec.getLsbD_and, e]
  by_cases h : k < 32
  · simp [h]
  · rw [BitVec.getLsbD_of_ge _ _ (by omega)]; simp

section lists
variable (c : Config) (h : HciKind)

/-- One list operation, bit by bit (R83, R85). -/
theorem Port.perform_ctlBit {q : Port} (hq : q.dev.mem.wf = true) (o : ListOp) (b : Addr) {k : Nat} (hk : k < 8) :
    ((q.perform c h o).dev.mem.byteAt b).getLsbD k =
      if c.regClass b = .storage then (ctlBit c h b k o).getD ((q.dev.mem.byteAt b).getLsbD k)
      else (q.dev.mem.byteAt b).getLsbD k := by
  split
  · rename_i hs
    cases o with
    | wr w a v =>
      simp only [ctlBit]
      split
      · rename_i hb
        rw [show (q.perform c h (.wr w a v)).dev.mem.byteAt b = byteOf (ListVal.value c h v) (b - a).toNat from
          Device.byteAt_store_self hq _ (Width.bytes_getElem hb) hs, byteOf_getLsbD _ _ hk]
        rfl
      · rename_i hb
        rw [Port.perform_byteAt c h q (o := .wr w a v) hb]
        rfl
    | wrm a m v =>
      simp only [ctlBit]
      by_cases hb : b ∈ Width.w32.bytes a
      · rw [show (q.perform c h (.wrm a m v)).dev.mem.byteAt b =
            byteOf (fieldSet (q.dev.mem.wordAt a) m (ListVal.value c h v)) (b - a).toNat from
          Device.byteAt_store_self hq _ (Width.bytes_getElem hb) hs, byteOf_getLsbD _ _ hk, fieldSet_getLsbD,
          ← byteOf_getLsbD (q.dev.mem.wordAt a) _ hk, Memory.byteOf_wordAt _ hb]
        by_cases hm : m.getLsbD (8 * (b - a).toNat + k) = true
        · rw [if_pos hm, if_pos ⟨hb, hm⟩]; rfl
        · rw [if_neg hm, if_neg (fun x => hm x.2)]; rfl
      · rw [Port.perform_byteAt c h q (o := .wrm a m v) hb, if_neg (fun x => hb x.1)]
        rfl
    | rfwr p i m v => rfl
    | delay u d => rfl
  · rename_i hs
    rw [(Port.perform_grows c q h o).frame b hs]

/-- One list operation on the RF space, bit by bit (R87). -/
theorem Port.perform_rfBit {q : Port} (hq : rfWf c q.dev.rf = true) (o : ListOp) (p : Path) (i : Byte) {k : Nat}
    (hk : k < c.rfDataW) : (Store.read (q.perform c h o).dev.rf (rfKey p i)).getLsbD k =
      (rfBit c h p i k o).getD ((Store.read q.dev.rf (rfKey p i)).getLsbD k) := by
  cases o with
  | wr w a v => rw [Port.perform_rf c h q (o := .wr w a v) (fun x => x)]; rfl
  | wrm a m v => rw [Port.perform_rf c h q (o := .wrm a m v) (fun x => x)]; rfl
  | delay u d => rfl
  | rfwr p' i' m v =>
    simp only [rfBit]
    by_cases e : p' = p ∧ i' = i
    · obtain ⟨rfl, rfl⟩ := e
      rw [show Store.read (q.perform c h (.rfwr p' i' m v)).dev.rf (rfKey p' i') =
          rfTrunc c (fieldSet (Store.read q.dev.rf (rfKey p' i')) m (ListVal.value c h v)) from
        Store.read_write_self (rfWf_iff.mp hq).1 _ _, rfTrunc_getLsbD c _ hk, fieldSet_getLsbD]
      by_cases hm : m.getLsbD k = true <;> simp [hm]
    · rw [Port.perform_rf c h q (o := .rfwr p' i' m v) e, if_neg (fun x => e ⟨x.1, x.2.1⟩)]
      rfl

/-- What performing a list leaves in the device (R192, R93). -/
theorem Port.performAll_effect (q : Port) (l : List ListOp) : listEffect c h l q.dev (q.performAll c h l).dev := by
  induction l generalizing q with
  | nil => exact ⟨fun _ b k _ => by simp [Port.performAll], fun _ _ _ _ _ => rfl⟩
  | cons o l ih =>
    have g := Port.perform_grows c q h o
    refine ⟨fun hm b k hk => ?_, fun hr p i k hk => ?_⟩
    · rw [Port.performAll_cons, (ih _).1 (g.mem hm) b k hk, Port.perform_ctlBit c h hm o b hk, lastBit_cons]
      split <;> rfl
    · rw [Port.performAll_cons, (ih _).2 (g.rf hr) p i k hk, Port.perform_rfBit c h hr o p i hk, lastBit_cons]

/-- Restoring backup elements is performing their write-backs (R210, R250). -/
theorem Port.restoreAll_eq_performAll (q : Port) (xs : List (BackupElem × Word)) :
    q.restoreAll c xs = q.performAll c h (xs.map writeBack) := by
  induction xs generalizing q with
  | nil => rfl
  | cons x xs ih =>
    rw [Port.restoreAll_cons, List.map_cons, Port.performAll_cons, ih]
    obtain ⟨e | e, v⟩ := x <;> rfl

end lists

/-! ## The REAPPLY hook, bit by bit (R90) -/

/-- A bit that the resync does not read is not among the kept bits (U9). -/
theorem keptBits_getLsbD (c : Config) (b : Addr) {k : Nat} (hk : k < 8) :
    (keptBits c b).getLsbD k = true ↔ probedBit c b k := by
  have hw : inWord b c.txiq[0] ↔ (b - c.txiq[0]).toNat < 4 := by
    constructor
    · intro h
      have := Width.bytes_getElem h
      by_contra hn
      rw [List.getElem?_eq_none (by simp only [Width.bytes, List.length_cons, List.length_nil]; omega)] at this
      cases this
    · intro h
      simp only [inWord, Width.bytes, List.mem_cons, List.not_mem_nil, or_false]
      generalize c.txiq[0] = a at *
      bv_omega
  unfold keptBits probedBit
  rw [hw]
  split
  · rename_i e
    exact iff_of_true (by simpa using (BitVec.getLsbD_allOnes (v := 8) (i := k)).trans (decide_eq_true hk)) (.inl e)
  · rename_i e
    split
    · rename_i e4
      rw [byteOf_getLsbD _ _ hk]
      exact ⟨fun x => .inr ⟨e4, x⟩, fun x => (x.resolve_left e).2⟩
    · rename_i e4
      exact iff_of_false (by simp) (fun x => e4 (x.resolve_left e).1)

theorem Device.hookWrite_ctlBit (c : Config) {d : Device} (hd : d.mem.wf = true) (x : DevWrite) {b : Addr} {k : Nat}
    (hk : k < 8) (hs : c.regClass b = .storage) (hp : ¬ probedBit c b k) :
    ((d.hookWrite c x).mem.byteAt b).getLsbD k = (hookCtlBit b k x).getD ((d.mem.byteAt b).getLsbD k) := by
  cases x with
  | rf p i v => rfl
  | ctl a v =>
    simp only [Device.hookWrite, hookCtlBit]
    by_cases e : a = b
    · subst e
      rw [byteAt_storeByte_self hd hs, if_pos rfl]
      have hb : (keptBits c a).getLsbD k = false := by
        rw [← Bool.not_eq_true, keptBits_getLsbD c a hk]; exact hp
      simp only [BitVec.getLsbD_or, BitVec.getLsbD_and, BitVec.getLsbD_not, hb, hk]
      simp
    · rw [byteAt_storeByte_of_ne _ _ _ (Ne.symm e), if_neg e]
      rfl

theorem Device.hookWrite_rfBit (c : Config) {d : Device} (hd : rfWf c d.rf = true) (x : DevWrite) (p : Path) (i : Byte)
    {k : Nat} (hk : k < c.rfDataW) : (Store.read (d.hookWrite c x).rf (rfKey p i)).getLsbD k =
      (hookRfBit p i k x).getD ((Store.read d.rf (rfKey p i)).getLsbD k) := by
  cases x with
  | ctl a v => simp [Device.hookWrite, hookRfBit]
  | rf p' i' v =>
    simp only [Device.hookWrite, hookRfBit, Device.storeRf]
    by_cases e : p' = p ∧ i' = i
    · obtain ⟨rfl, rfl⟩ := e
      rw [Store.read_write_self (rfWf_iff.mp hd).1, rfTrunc_getLsbD c _ hk]
      simp
    · rw [if_neg e, Store.read_write_of_ne _ _ (fun x => e ⟨(rfKey_inj x).1.symm, (rfKey_inj x).2.symm⟩)]
      rfl

/-- What a call of the hook leaves in the control space (R90). -/
theorem Device.hookWrites_ctlBit (c : Config) (ws : List DevWrite) {d : Device} (hd : d.mem.wf = true) {b : Addr}
    {k : Nat} (hk : k < 8) (hs : c.regClass b = .storage) (hp : ¬ probedBit c b k) :
    ((ws.foldl (Device.hookWrite c) d).mem.byteAt b).getLsbD k =
      lastBit (hookCtlBit b k) ws ((d.mem.byteAt b).getLsbD k) := by
  induction ws generalizing d with
  | nil => rfl
  | cons x ws ih => rw [List.foldl_cons, ih (hookWrite_wf c hd x), hookWrite_ctlBit c hd x hk hs hp, lastBit_cons]

/-- What a call of the hook leaves in the RF space (R90). -/
theorem Device.hookWrites_rfBit (c : Config) (ws : List DevWrite) {d : Device} (hd : rfWf c d.rf = true) (p : Path)
    (i : Byte) {k : Nat} (hk : k < c.rfDataW) :
    (Store.read (ws.foldl (Device.hookWrite c) d).rf (rfKey p i)).getLsbD k =
      lastBit (hookRfBit p i k) ws ((Store.read d.rf (rfKey p i)).getLsbD k) := by
  induction ws generalizing d with
  | nil => rfl
  | cons x ws ih => rw [List.foldl_cons, ih (hookWrite_rf c hd x), hookWrite_rfBit c hd x p i hk, lastBit_cons]

/-- The hook's writes change no pending answer. -/
theorem Device.hookWrites_answers (c : Config) (ws : List DevWrite) (d : Device) :
    d.sameAnswers (ws.foldl (Device.hookWrite c) d) := by
  induction ws generalizing d with
  | nil => exact .refl _
  | cons x ws ih =>
    refine .trans ?_ (ih _)
    cases x
    · rw [Device.hookWrite, Device.storeByte_eq]; exact ⟨rfl, rfl, rfl, rfl, rfl, rfl, rfl⟩
    · exact ⟨rfl, rfl, rfl, rfl, rfl, rfl, rfl⟩

end Sys2Proof.Machine
end

