-- ==== Sys2Proof/Laws/Frames.lean ====
section
/-! SUPPORT. What each operation of the sequencer leaves alone: `State.Keeps` for every micro-operation, `State.MeasKeeps`
for the measurement half of an IQK run, `State.SelKeeps` for the selection half. -/

namespace Sys2Proof.Machine

/-! ## Warnings (R327, R133) -/

theorem warnCount_toNat (r : BitVec 16) (x : Warning) : (warnCount r x).toNat = r.toNat / 2 ^ x.shift % 16 := by
  simp [warnCount, BitVec.extractLsb'_toNat, Nat.shiftRight_eq_div_pow]

theorem warnBump_toNat (r : BitVec 16) (x : Warning) :
    (warnBump r x).toNat = if r.toNat / 2 ^ x.shift % 16 = 15 then r.toNat else r.toNat + 2 ^ x.shift := by
  have hr := r.isLt
  have h15 : warnCount r x = 15 ↔ r.toNat / 2 ^ x.shift % 16 = 15 := by
    rw [← warnCount_toNat]
    exact ⟨fun h => by rw [h]; rfl, fun h => BitVec.eq_of_toNat_eq (by rw [h]; rfl)⟩
  unfold warnBump
  split
  · rename_i h; rw [if_pos (h15.mp h)]
  · rename_i h
    rw [if_neg (fun k => h (h15.mpr k))]
    have hk : r.toNat / 2 ^ x.shift % 16 ≠ 15 := fun k => h (h15.mpr k)
    cases x <;> simp [Warning.shift, BitVec.toNat_add] at hk ⊢ <;> omega

/-- A warning moves its own counter up by one, to 15 at most (R327). -/
theorem warnCount_warnBump_self (r : BitVec 16) (x : Warning) :
    (warnCount (warnBump r x) x).toNat = min 15 ((warnCount r x).toNat + 1) := by
  have hr := r.isLt
  rw [warnCount_toNat, warnCount_toNat, warnBump_toNat]
  split <;> cases x <;> simp only [Warning.shift] at * <;> omega

/-- A warning leaves the other three counters alone (R327). -/
theorem warnCount_warnBump_of_ne (r : BitVec 16) {x y : Warning} (h : y ≠ x) :
    warnCount (warnBump r x) y = warnCount r y := by
  have hr := r.isLt
  apply BitVec.eq_of_toNat_eq
  rw [warnCount_toNat, warnCount_toNat, warnBump_toNat]
  split <;> cases x <;> cases y <;> first | exact absurd rfl h | (simp only [Warning.shift] at * <;> omega)

/-! ## What every micro-operation of units 2 to 6 leaves alone -/

structure State.Keeps (s t : State) : Prop where
  cfg : t.cfg = s.cfg
  inited : t.inited = s.inited
  busy : t.busy = s.busy
  thermalRef : t.thermalRef = s.thermalRef
  hciKind : t.hciKind = s.hciKind
  status : t.status = s.status
  thermalRefIn : t.thermalRefIn = s.thermalRefIn
  wires : t.wires = s.wires
  useq : t.useq = s.useq
  cmds : t.cmds = s.cmds
  port : s.port.Grows s.cfg t.port
  /-- BKP stays as long as the backup set (R20) -/
  bkp : s.work.bkp.length = s.cfg.backupSet.length → t.work.bkp.length = t.cfg.backupSet.length

theorem State.Keeps.refl (s : State) : s.Keeps s := ⟨rfl, rfl, rfl, rfl, rfl, rfl, rfl, rfl, rfl, rfl, .refl _, id⟩

theorem State.Keeps.trans {a b c : State} (h : a.Keeps b) (k : b.Keeps c) : a.Keeps c :=
  ⟨k.cfg.trans h.cfg, k.inited.trans h.inited, k.busy.trans h.busy, k.thermalRef.trans h.thermalRef,
    k.hciKind.trans h.hciKind, k.status.trans h.status, k.thermalRefIn.trans h.thermalRefIn, k.wires.trans h.wires,
    k.useq.trans h.useq, k.cmds.trans h.cmds, h.port.trans (h.cfg ▸ k.port),
    fun e => k.bkp (h.bkp e)⟩

/-- The measurement half of a run: no long-lived record changes, and of the warnings only W_POLL_TIMEOUT (R194, R200,
R205, R208, R210, R250). -/
structure State.MeasKeeps (s t : State) : Prop extends State.Keeps s t where
  pt : t.pt = s.pt
  cal : t.cal = s.cal
  outcome : t.outcome = s.outcome
  ret : t.seq.ret = s.seq.ret
  warn : ∀ x, x ≠ .pollTimeout → warnCount t.warnReg x = warnCount s.warnReg x

theorem State.MeasKeeps.refl (s : State) : s.MeasKeeps s := ⟨.refl s, rfl, rfl, rfl, rfl, fun _ _ => rfl⟩

theorem State.MeasKeeps.trans {a b c : State} (h : a.MeasKeeps b) (k : b.MeasKeeps c) : a.MeasKeeps c :=
  ⟨h.toKeeps.trans k.toKeeps, k.pt.trans h.pt, k.cal.trans h.cal, k.outcome.trans h.outcome, k.ret.trans h.ret,
    fun x hx => (k.warn x hx).trans (h.warn x hx)⟩

theorem State.setPort_keeps (s : State) {q : Port} (h : s.port.Grows s.cfg q) : s.MeasKeeps (s.setPort q) :=
  ⟨⟨rfl, rfl, rfl, rfl, rfl, rfl, rfl, rfl, rfl, rfl, h, id⟩, rfl, rfl, rfl, rfl, fun _ _ => rfl⟩

theorem State.setWork_keeps (s : State) (k : Work) (h : k.bkp = s.work.bkp := by rfl) : s.MeasKeeps (s.setWork k) :=
  ⟨⟨rfl, rfl, rfl, rfl, rfl, rfl, rfl, rfl, rfl, rfl, .refl _, fun e => (congrArg List.length h).trans e⟩, rfl, rfl, rfl, rfl, fun _ _ => rfl⟩

theorem State.setPhase_keeps (s : State) (ph : Phase) : s.MeasKeeps (s.setPhase ph) :=
  ⟨⟨rfl, rfl, rfl, rfl, rfl, rfl, rfl, rfl, rfl, rfl, .refl _, id⟩, rfl, rfl, rfl, rfl, fun _ _ => rfl⟩

theorem State.perform_keeps (s : State) (l : List ListOp) : s.MeasKeeps (s.perform l) :=
  s.setPort_keeps (Port.performAll_grows _ _ _ l)

theorem State.warnPoll_keeps (s : State) : s.MeasKeeps (s.warn .pollTimeout) :=
  ⟨⟨rfl, rfl, rfl, rfl, rfl, rfl, rfl, rfl, rfl, rfl, .refl _, id⟩, rfl, rfl, rfl, rfl,
    fun _ h => warnCount_warnBump_of_ne _ h⟩

/-! ## Measurement -/

theorem Port.backupAll_length (c : Config) (q : Port) (l : List BackupElem) : (q.backupAll c l).1.length = l.length := by
  induction l generalizing q with
  | nil => rfl
  | cons e l ih => exact congrArg (· + 1) (ih _)

/-- After BACKUP there is one word for each element of the backup set (R190, R20). -/
theorem backup_bkp (s : State) : (backup s).work.bkp.length = (backup s).cfg.backupSet.length :=
  Port.backupAll_length _ _ _

theorem backup_keeps (s : State) : s.MeasKeeps (backup s) :=
  ⟨⟨rfl, rfl, rfl, rfl, rfl, rfl, rfl, rfl, rfl, rfl, Port.backupAll_grows _ _ _, fun _ => backup_bkp s⟩, rfl, rfl, rfl,
    rfl, fun _ _ => rfl⟩

theorem calcfg_keeps (kind : MeasKind) (p : Path) (s : State) : s.MeasKeeps (calcfg kind p s) := by
  cases kind <;> exact s.perform_keeps _

theorem oneshotPort_grows (c : Config) (q : Port) : q.Grows c (oneshotPort c q).2 := by
  have hw : ∀ (l : List Word) (q : Port), q.Grows c (l.foldl (fun q w => q.wr c .w32 c.iqkTrig w) q) := by
    intro l
    induction l with
    | nil => exact fun q => .refl q
    | cons w l ih => exact fun q => (Port.wr_grows c q .w32 _ w).trans (ih _)
  exact ((hw _ _).trans (Port.delay_grows _ _ _ _)).trans (Port.poll_grows _ _ _ _ _ _ _)

theorem oneshot_keeps (s : State) : s.MeasKeeps (oneshot s).2 := by
  have hg := oneshotPort_grows s.cfg s.port
  unfold oneshot
  split <;> rename_i h <;> rw [h] at hg
  · exact s.setPort_keeps hg
  · exact (s.setPort_keeps hg).trans (State.warnPoll_keeps _)

theorem readAttempt_grows (c : Config) (m : Word) (x y : Addr) (n : Word) (q : Port) :
    q.Grows c (readAttempt c m x y n q).2 :=
  ((Port.rdm_grows _ _ _ _).trans (Port.rdm_grows _ _ _ _)).trans (Port.rdm_grows _ _ _ _)

theorem txatt_keeps (s : State) : s.MeasKeeps (txatt s).2 := by
  have hk := oneshot_keeps s
  unfold txatt
  split <;> rename_i h <;> rw [h] at hk
  · exact hk
  · exact hk.trans (State.setPort_keeps _ (readAttempt_grows _ _ _ _ _ _))

theorem rxatt_keeps (s : State) : s.MeasKeeps (rxatt s).2 := by
  have hk := oneshot_keeps s
  unfold rxatt
  split <;> rename_i h <;> rw [h] at hk
  · exact hk
  · exact hk.trans (State.setPort_keeps _ (readAttempt_grows _ _ _ _ _ _))

theorem tries_keeps {att : State → Attempt × State} (ha : ∀ s : State, s.MeasKeeps (att s).2) (r : Round) (g : Group) (n a : Nat)
    (s : State) : s.MeasKeeps (tries att r g n a s).2 := by
  induction n generalizing a s with
  | zero => exact s.setWork_keeps _
  | succ n ih =>
    have hk := (s.setWork_keeps { s.work with a := a }).trans (ha _)
    rw [tries]
    split <;> rename_i h <;> rw [h] at hk
    · exact hk.trans (State.setWork_keeps _ _)
    · exact hk.trans (ih _ _)

theorem txmeas_keeps (r : Round) (p : Path) (s : State) : s.MeasKeeps (txmeas r p s).2 :=
  (calcfg_keeps .tx p s).trans (tries_keeps txatt_keeps _ _ _ _ _)

theorem rxmeas_keeps (r : Round) (p : Path) (txok : Bool) (s : State) : s.MeasKeeps (rxmeas r p txok s) := by
  unfold rxmeas
  split
  · exact (calcfg_keeps .rx p s).trans (tries_keeps rxatt_keeps _ _ _ _ _)
  · exact s.setWork_keeps _

theorem roundRestore_keeps (s : State) : s.MeasKeeps (roundRestore s) :=
  (((s.setPhase_keeps _).trans (State.setPort_keeps _ (Port.restoreAll_grows _ _ _))).trans
    (State.perform_keeps _ _)).trans (State.perform_keeps _ _)

theorem roundPath_keeps (r : Round) (p : Path) (s : State) : s.MeasKeeps (roundPath r p s) :=
  ((s.setWork_keeps _).trans (txmeas_keeps _ _ _)).trans (rxmeas_keeps _ _ _ _)

theorem measRound_keeps (r : Round) (s : State) : s.MeasKeeps (measRound r s) :=
  ((((s.setPhase_keeps _).trans (State.setWork_keeps _ _)).trans (roundPath_keeps r 0 _)).trans
    (roundPath_keeps r 1 _)).trans (roundRestore_keeps _)

/-! ## Selection -/

theorem voteOver_keeps (r : Round) (l : List Round) (s : State) : s.MeasKeeps (voteOver r l s).2 := by
  induction l generalizing s with
  | nil => exact .refl s
  | cons j l ih =>
    rw [voteOver]
    split
    · exact s.setWork_keeps _
    · exact (s.setWork_keeps _).trans (ih _)

theorem vote_keeps (r : Round) (s : State) : s.MeasKeeps (vote r s).2 :=
  ((s.setPhase_keeps _).trans (State.setWork_keeps _ _)).trans (voteOver_keeps _ _ _)

theorem hybAcc_keeps (s : State) : s.MeasKeeps (hybAcc s) := (s.setPhase_keeps _).trans (State.setWork_keeps _ _)

theorem hybNorm_keeps (s : State) : s.MeasKeeps (hybNorm s) := s.setWork_keeps _

/-! ## Application -/

theorem fillTx_grows (c : Config) (p : Path) (x y : Raw) (q : Port) : q.Grows c (fillTx c p x y q) :=
  (((((Port.rdm_grows _ _ _ _).trans (Port.wrm_grows _ _ _ _ _)).trans (Port.wrm_grows _ _ _ _ _)).trans
    (Port.wrm_grows _ _ _ _ _)).trans (Port.wrm_grows _ _ _ _ _)).trans (Port.wrm_grows _ _ _ _ _)

theorem fillRx_grows (c : Config) (p : Path) (x y : Raw) (q : Port) : q.Grows c (fillRx c p x y q) :=
  ((Port.wrm_grows _ _ _ _ _).trans (Port.wrm_grows _ _ _ _ _)).trans (Port.wrm_grows _ _ _ _ _)

theorem applyPath_keeps (cand : BitVec 2) (p : Path) (s : State) : s.MeasKeeps (applyPath cand p s) := by
  have key : ∀ (u : State) (b1 b2 : Bool) (x y x' y' : Raw),
      u.MeasKeeps (let v := if b1 then u.setPort (fillTx u.cfg p x y u.port) else u
        if b2 then v.setPort (fillRx v.cfg p x' y' v.port) else v) := by
    intro u b1 b2 x y x' y'
    have h1 : u.MeasKeeps (if b1 then u.setPort (fillTx u.cfg p x y u.port) else u) := by
      cases b1
      · exact .refl u
      · exact u.setPort_keeps (fillTx_grows _ _ _ _ _)
    cases b2
    · exact h1
    · exact h1.trans (State.setPort_keeps _ (fillRx_grows _ _ _ _ _))
  exact (s.setWork_keeps _).trans (key _ _ _ _ _ _ _)

theorem applyCand_keeps (cand : BitVec 2) (s : State) : s.MeasKeeps (applyCand cand s) :=
  ((s.setPhase_keeps _).trans (applyPath_keeps _ _ _)).trans (applyPath_keeps _ _ _)

theorem finalRestore_keeps (s : State) : s.MeasKeeps (finalRestore s) :=
  ((s.setPhase_keeps _).trans (State.setPort_keeps _ (Port.restoreAll_grows _ _ _))).trans (State.perform_keeps _ _)

/-- RETAIN changes CalibrationState and nothing else (R246). -/
theorem retain_keeps (cand : BitVec 2) (s : State) : s.Keeps (retain cand s) :=
  ⟨rfl, rfl, rfl, rfl, rfl, rfl, rfl, rfl, rfl, rfl, .refl _, id⟩

/-! ## Swing and sense -/

theorem swOfdm_grows (c : Config) (cal : CalState) (p : Path) (idx : Fin 43) (q : Port) :
    q.Grows c (swOfdm c cal p idx q) := by
  unfold swOfdm
  dsimp only
  split
  · exact (((Port.wr_grows _ _ _ _ _).trans (Port.wrm_grows _ _ _ _ _)).trans (Port.wrm_grows _ _ _ _ _)).trans
      (Port.wrm_grows _ _ _ _ _)
  · exact Port.wr_grows _ _ _ _ _

theorem swCck_grows (c : Config) (idx : Fin 33) (q : Port) : q.Grows c (swCck c idx q) := by
  unfold swCck
  generalize List.finRange 8 = l
  induction l generalizing q with
  | nil => exact .refl q
  | cons k l ih => exact (Port.wr_grows c q .w8 _ _).trans (ih _)

theorem commit_keeps (p : Path) (dO dC rO rC : Int) (s : State) : s.Keeps (commit p dO dC rO rC s) :=
  ⟨rfl, rfl, rfl, rfl, rfl, rfl, rfl, rfl, rfl, rfl, (Port.chan_grows _ _).trans (Port.reapply_grows _ _ _), id⟩

theorem pathComp_keeps (p : Path) (pol : Polarity) (k : Nat) (s : State) : s.Keeps (pathComp p pol k s) := by
  unfold pathComp
  dsimp only
  split
  · exact .refl s
  · exact (s.setPort_keeps ((swOfdm_grows _ _ _ _ _).trans (swCck_grows _ _ _))).toKeeps.trans (commit_keeps _ _ _ _ _ _)

theorem resyncO_keeps (s : State) : s.Keeps (resyncO s) :=
  ⟨rfl, rfl, rfl, rfl, rfl, rfl, rfl, rfl, rfl, rfl, Port.rdm_grows _ _ _ _, id⟩

theorem resyncC_keeps (s : State) : s.Keeps (resyncC s) :=
  ⟨rfl, rfl, rfl, rfl, rfl, rfl, rfl, rfl, rfl, rfl, Port.rd_grows _ _ _ _, id⟩

theorem resync_keeps (s : State) : s.Keeps (resync s) := (resyncO_keeps s).trans (resyncC_keeps _)

theorem setPt_keeps (s : State) (x : PtState) : s.Keeps (s.setPt x) :=
  ⟨rfl, rfl, rfl, rfl, rfl, rfl, rfl, rfl, rfl, rfl, .refl _, id⟩

theorem anchorUpd_keeps (s : State) : s.Keeps (anchorUpd s) := by
  unfold anchorUpd
  split
  · exact setPt_keeps s _
  · exact .refl s

theorem iqkFinish_keeps (found : Bool) (s : State) : s.Keeps (iqkFinish found s).2 := by
  have h : ∀ u : State, s.Keeps u → s.Keeps { finalRestore u with outcome := outcomeWord found s.work.cand } := by
    intro u hu
    have hk := hu.trans (finalRestore_keeps u).toKeeps
    exact ⟨hk.cfg, hk.inited, hk.busy, hk.thermalRef, hk.hciKind, hk.status, hk.thermalRefIn, hk.wires, hk.useq, hk.cmds,
      hk.port, hk.bkp⟩
  unfold iqkFinish
  cases found
  · exact h s (.refl s)
  · exact h _ ((applyCand_keeps _ _).toKeeps.trans (retain_keeps _ _))

theorem hybChk_keeps (s : State) : s.Keeps (hybChk s).2 := by
  unfold hybChk
  split <;> exact ⟨rfl, rfl, rfl, rfl, rfl, rfl, rfl, rfl, rfl, rfl, .refl _, id⟩

theorem hybrid_keeps (s : State) : s.Keeps (hybrid s).2 :=
  ((hybAcc_keeps s).toKeeps.trans (hybNorm_keeps _).toKeeps).trans (hybChk_keeps _)

theorem iqkRun_keeps (s : State) : s.Keeps (iqkRun s).2 := by
  have h1 := ((((s.setWork_keeps s.work.clear).trans (backup_keeps _)).trans (measRound_keeps 0 _)).trans
    (measRound_keeps 1 _)).trans (vote_keeps 1 _)
  unfold iqkRun
  dsimp only
  split
  · exact h1.toKeeps.trans (iqkFinish_keeps _ _)
  · have h2 := (h1.trans (measRound_keeps 2 _)).trans (vote_keeps 2 _)
    split
    · exact h2.toKeeps.trans (iqkFinish_keeps _ _)
    · exact (h2.toKeeps.trans (hybrid_keeps _)).trans (iqkFinish_keeps _ _)

theorem iqkAnchored_keeps (s : State) : s.Keeps (iqkAnchored s).2 := by
  unfold iqkAnchored
  dsimp only
  split
  · exact (iqkRun_keeps s).trans (anchorUpd_keeps _)
  · exact iqkRun_keeps s

end Sys2Proof.Machine
end

