-- ==== Sys2Proof/Laws/Measure.lean ====
section
/-! SUPPORT. Recording a reading (R200, R205), the one-shot (R194), an attempt's reads (R196, R203), and the retry loop: one
lemma each that says everything it can do. -/

namespace Sys2Proof.Machine

/-! ## Slots, readings, rounds (R113, R114) -/

theorem slotX_ne_slotY (g g' : Group) : slotX g ≠ slotY g' := by
  intro h
  have := congrArg Fin.val h
  simp only [slotX, slotY] at this
  omega

theorem groupOf_slotX (g : Group) : groupOf (slotX g) = g := by
  apply Fin.ext; simp only [groupOf, slotX]; omega

theorem groupOf_slotY (g : Group) : groupOf (slotY g) = g := by
  apply Fin.ext; simp only [groupOf, slotY]; omega

theorem slot_of_group {i : Slot} {g : Group} (h : groupOf i = g) : i = slotX g ∨ i = slotY g := by
  have hg := congrArg Fin.val h
  simp only [groupOf] at hg
  rcases Nat.mod_two_eq_zero_or_one i.val with h0 | h0
  · left; apply Fin.ext; simp only [slotX]; omega
  · right; apply Fin.ext; simp only [slotY]; omega

theorem txGroup_ne_rxGroup (p p' : Path) : txGroup p ≠ rxGroup p' := by
  intro h
  have := congrArg Fin.val h
  simp only [txGroup, rxGroup] at this
  omega

theorem txGroup_inj {p p' : Path} (h : txGroup p = txGroup p') : p = p' := by
  have := congrArg Fin.val h
  simp only [txGroup] at this
  exact Fin.ext (by omega)

theorem rxGroup_inj {p p' : Path} (h : rxGroup p = rxGroup p') : p = p' := by
  have := congrArg Fin.val h
  simp only [rxGroup] at this
  exact Fin.ext (by omega)

/-! ## Recording a reading -/

section setReading
variable (k : Work) (r : Round) (g : Group) (x y : Raw) (b : Bool)

theorem Work.resAt_setReading (r' : Round) (i : Slot) : (k.setReading r g x y b).resAt r' i =
    if r' = r then (if i = slotY g then y else if i = slotX g then x else k.resAt r' i) else k.resAt r' i := by
  simp only [Work.resAt, Work.setReading, Fin.getElem_fin, Vector.getElem_set]
  by_cases hr : r' = r
  · subst hr
    simp only [if_true, Vector.getElem_set]
    by_cases hy : i = slotY g
    · subst hy; simp
    · have hy' : ¬ (slotY g).val = i.val := fun e => hy (Fin.ext e.symm)
      by_cases hx : i = slotX g
      · subst hx; simp [hy', hy]
      · have hx' : ¬ (slotX g).val = i.val := fun e => hx (Fin.ext e.symm)
        simp [hy, hy', hx, hx']
  · have hr' : ¬ r.val = r'.val := fun e => hr (Fin.ext e.symm)
    simp [hr, hr']

/-- Recording a reading of a measurement round sets its tag; ROUND_HYBRID has none (R24). -/
theorem Work.failAt_setReading (r' : Round) (g' : Group) : (k.setReading r g x y b).failAt r' g' =
    if r' = r ∧ g' = g ∧ r.val < nRound then b else k.failAt r' g' := by
  simp only [Work.failAt, Work.setReading, Work.setFail]
  by_cases hn : r'.val < nRound
  · rw [dif_pos hn, dif_pos hn]
    by_cases hm : r.val < nRound
    · simp only [dif_pos hm, Fin.getElem_fin, Vector.getElem_set]
      by_cases hr : r' = r
      · subst hr
        by_cases hg : g' = g
        · subst hg; simp [hm]
        · have hg' : ¬ g.val = g'.val := fun e => hg (Fin.ext e.symm)
          simp [hg, hg']
      · have hr' : ¬ r.val = r'.val := fun e => hr (Fin.ext e.symm)
        simp [hr, hr']
    · rw [if_neg (by tauto)]
      simp only [dif_neg hm]
  · rw [dif_neg hn, dif_neg hn, if_neg]
    rintro ⟨rfl, -, h⟩
    exact hn h

theorem Work.setReading_x : (k.setReading r g x y b).resAt r (slotX g) = x := by
  rw [Work.resAt_setReading, if_pos rfl, if_neg (slotX_ne_slotY g g), if_pos rfl]

theorem Work.setReading_y : (k.setReading r g x y b).resAt r (slotY g) = y := by
  rw [Work.resAt_setReading, if_pos rfl, if_pos rfl]

theorem Work.setReading_tag (h : r.val < nRound) : (k.setReading r g x y b).failAt r g = b := by
  rw [Work.failAt_setReading, if_pos ⟨rfl, rfl, h⟩]

theorem Work.setReading_res_other {r' : Round} {i : Slot} (h : ¬ (r' = r ∧ groupOf i = g)) :
    (k.setReading r g x y b).resAt r' i = k.resAt r' i := by
  rw [Work.resAt_setReading]
  split
  · rename_i hr
    have hi : groupOf i ≠ g := fun e => h ⟨hr, e⟩
    rw [if_neg (by rintro rfl; exact hi (groupOf_slotY g)), if_neg (by rintro rfl; exact hi (groupOf_slotX g))]
  · rfl

theorem Work.setReading_tag_other {r' : Round} {g' : Group} (h : ¬ (r' = r ∧ g' = g)) :
    (k.setReading r g x y b).failAt r' g' = k.failAt r' g' := by
  rw [Work.failAt_setReading, if_neg (fun e => h ⟨e.1, e.2.1⟩)]

end setReading

/-! ## One attempt -/

/-- A write of the trigger register stores nothing (R80, R43). -/
theorem Device.store_iqkTrig {c : Config} (h : c.wf = true) (d : Device) (v : Word) : d.store c .w32 c.iqkTrig v = d := by
  have t : ∀ b ∈ Width.w32.bytes c.iqkTrig, ∀ (d : Device) (v : Byte), d.storeByte c b v = d := by
    intro b hb d v
    unfold Device.storeByte
    rw [if_neg (iqkTrig_trigger h hb)]
  simp only [Width.bytes, List.mem_cons, List.not_mem_nil, or_false, forall_eq_or_imp, forall_eq] at t
  simp only [Device.store, t]

/-- The whole of a one-shot's transactions (R194). -/
theorem oneshotPort_eq {c : Config} (h : c.wf = true) (q : Port) : oneshotPort c q =
    (q.dev.drawVerdict.1, ⟨q.dev.drawVerdict.2, q.trace ++ oneshotRecords c q.dev.drawVerdict.1⟩) := by
  have hw : ∀ (l : List Word) (q : Port), l.foldl (fun q w => q.wr c .w32 c.iqkTrig w) q =
      ⟨q.dev, q.trace ++ l.map (fun w => ⟨0x71, 0x20, c.iqkTrig, 0xFFFFFFFF, w, 0⟩)⟩ := by
    intro l
    induction l with
    | nil => intro q; simp
    | cons w l ih =>
      intro q
      rw [List.foldl_cons, ih]
      simp [Port.wr, Port.log, Device.store_iqkTrig h, widthAux]
      rfl
  simp only [oneshotPort, hw, Port.delay, Port.poll, Port.log, oneshotRecords, unitAux]
  simp [List.append_assoc]

/-- The whole of ONESHOT (R194). -/
theorem oneshot_eq {s : State} (h : s.cfg.wf = true) : oneshot s = (s.port.dev.drawVerdict.1, { s with
    warnReg := if s.port.dev.drawVerdict.1 = .timeout then warnBump s.warnReg .pollTimeout else s.warnReg,
    port := ⟨s.port.dev.drawVerdict.2, s.port.trace ++ oneshotRecords s.cfg s.port.dev.drawVerdict.1⟩ }) := by
  unfold oneshot
  rw [oneshotPort_eq h]
  cases hv : s.port.dev.drawVerdict.1 <;> simp [State.setPort, State.warn]

/-- A masked read of a STATUS register answers the environment's next word (R80, R84). -/
theorem Port.rdm_status {c : Config} (q : Port) {a : Addr} (ha : a ∈ c.statusWords) (m : Word) :
    q.rdm c a m = (fieldGet q.dev.drawStatus.1 m,
      ⟨q.dev.drawStatus.2, q.trace ++ [rdmRecord a m (fieldGet q.dev.drawStatus.1 m)]⟩) := by
  simp [Port.rdm, Port.answer, isStorage_of_status ha, Port.log, rdmRecord]

/-- The three reads of an attempt (R196, R203). -/
theorem readAttempt_eq {c : Config} (fm rm : Word) {ax ay : Addr} (hx : ax ∈ c.statusWords) (hy : ay ∈ c.statusWords)
    (q : Port) : readAttempt c fm ax ay rm q = ((drawAttempt fm rm q.dev).1,
      ⟨(drawAttempt fm rm q.dev).2, q.trace ++ attemptRecords c fm ax ay rm q.dev⟩) := by
  have hf : c.iqkFail ∈ c.statusWords := by simp [Config.statusWords]
  simp only [readAttempt, Port.rdm_status _ hf, Port.rdm_status _ hx, Port.rdm_status _ hy, drawAttempt, attemptRecords]
  simp

/-- An attempt of the measurement `m` said once (R196, R203): a one-shot; after a timeout no values; after `ok` the three
status reads and their check. -/
structure IsAttempt (m : Config → MeasSpec) (att : State → Attempt × State) : Prop where
  keeps : ∀ s : State, s.MeasKeeps (att s).2
  timedOut : ∀ s : State, s.cfg.wf = true → s.port.dev.drawVerdict.1 = .timeout → att s = (.timedOut, { s with
    warnReg := warnBump s.warnReg .pollTimeout,
    port := ⟨s.port.dev.drawVerdict.2, s.port.trace ++ oneshotRecords s.cfg .timeout⟩ })
  answered : ∀ s : State, s.cfg.wf = true → s.port.dev.drawVerdict.1 = .ok →
    ∀ a, a = drawAttempt (m s.cfg).failMask (m s.cfg).resMask s.port.dev.drawVerdict.2 →
    att s = (.answered ((m s.cfg).check a.1.1 a.1.2.1 a.1.2.2) a.1.2.1 a.1.2.2, s.setPort ⟨a.2,
      s.port.trace ++ (oneshotRecords s.cfg .ok ++ attemptRecords s.cfg (m s.cfg).failMask (m s.cfg).addrX (m s.cfg).addrY
        (m s.cfg).resMask s.port.dev.drawVerdict.2)⟩)

theorem oneshotRecords_polls (c : Config) (v : Verdict) : (oneshotRecords c v).countP (fun r => r.kind == 0x77) = 1 := by
  have h : ∀ l : List Word, (l.map (fun w => (⟨0x71, 0x20, c.iqkTrig, 0xFFFFFFFF, w, 0⟩ : TraceRec))).countP
      (fun r => r.kind == 0x77) = 0 := by
    intro l
    rw [List.countP_eq_zero]
    intro r hr
    obtain ⟨w, -, rfl⟩ := List.mem_map.mp hr
    simp
  rw [oneshotRecords, List.countP_append, h]
  rfl

theorem txatt_isAttempt : IsAttempt txSpec txatt where
  keeps := txatt_keeps
  timedOut s hs hv := by
    unfold txatt
    rw [oneshot_eq hs, hv]
    simp
  answered s hs hv a ha := by
    have sx : s.cfg.iqkTxX ∈ s.cfg.statusWords ∧ s.cfg.iqkTxY ∈ s.cfg.statusWords := by simp [Config.statusWords]
    subst ha
    unfold txatt
    rw [oneshot_eq hs, hv]
    simp [readAttempt_eq _ _ sx.1 sx.2, State.setPort, txSpec]

theorem rxatt_isAttempt : IsAttempt rxSpec rxatt where
  keeps := rxatt_keeps
  timedOut s hs hv := by
    unfold rxatt
    rw [oneshot_eq hs, hv]
    simp
  answered s hs hv a ha := by
    have sx : s.cfg.iqkRxX ∈ s.cfg.statusWords ∧ s.cfg.iqkRxY ∈ s.cfg.statusWords := by simp [Config.statusWords]
    subst ha
    unfold rxatt
    rw [oneshot_eq hs, hv]
    simp [readAttempt_eq _ _ sx.1 sx.2, State.setPort, rxSpec]

/-! ## The retry loop -/

/-- What a measurement records: the reading of the success with a clear tag, else the sentinel with its tag (R200, R205). -/
def Work.record (k : Work) (c : Config) (r : Round) (g : Group) : Option (Raw × Raw) → Work
  | some xy => k.setReading r g xy.1 xy.2 false
  | none => k.setReading r g (xUnity c) 0 true

/-- WARN after `n` timeouts (R194, R327). -/
def warnTimeouts : Nat → BitVec 16 → BitVec 16
  | 0, r => r
  | n + 1, r => warnTimeouts n (warnBump r .pollTimeout)

/-- `n` timeouts move their counter up by `n`, to 15 at most, and leave the others alone (R327). -/
theorem warnTimeouts_count (n : Nat) (r : BitVec 16) :
    (warnCount (warnTimeouts n r) .pollTimeout).toNat = min 15 ((warnCount r .pollTimeout).toNat + n) ∧
    ∀ x, x ≠ .pollTimeout → warnCount (warnTimeouts n r) x = warnCount r x := by
  induction n generalizing r with
  | zero =>
    have := (warnCount r .pollTimeout).isLt
    exact ⟨by simp only [warnTimeouts]; omega, fun _ _ => rfl⟩
  | succ n ih =>
    obtain ⟨h1, h2⟩ := ih (warnBump r .pollTimeout)
    refine ⟨?_, fun x hx => (h2 x hx).trans (warnCount_warnBump_of_ne _ hx)⟩
    rw [warnTimeouts, h1, warnCount_warnBump_self]
    omega

/-- The retry loop said once (R200, R205): it is the measurement's attempts against the environment's answers. -/
theorem tries_eq {m : Config → MeasSpec} {att : State → Attempt × State} (ha : IsAttempt m att) (r : Round) (g : Group)
    (n a : Nat) (s : State) (hs : s.cfg.wf = true) (e : Measured) (he : e = drawMeasured s.cfg (m s.cfg) n s.port.dev) :
    ∃ b, tries att r g n a s = (e.reading.isSome, { s with
      work := { s.work.record s.cfg r g e.reading with a := b }, warnReg := warnTimeouts e.timeouts s.warnReg,
      port := ⟨e.dev, s.port.trace ++ e.records⟩ }) := by
  subst he
  induction n generalizing a s with
  | zero =>
    refine ⟨s.work.a, ?_⟩
    simp only [tries, drawMeasured, Option.isSome_none, warnTimeouts, List.append_nil, Work.record]
    rfl
  | succ n ih =>
    have h0 : (s.setWork { s.work with a := a }).cfg.wf = true := hs
    rw [tries, drawMeasured]
    cases hv : s.port.dev.drawVerdict.1
    · rw [ha.answered (s.setWork { s.work with a := a }) h0 hv _ rfl]
      simp only [State.setWork_cfg, State.setWork_port]
      generalize drawAttempt (m s.cfg).failMask (m s.cfg).resMask s.port.dev.drawVerdict.2 = d
      generalize attemptRecords s.cfg (m s.cfg).failMask (m s.cfg).addrX (m s.cfg).addrY (m s.cfg).resMask
        s.port.dev.drawVerdict.2 = l
      cases hc : (m s.cfg).check d.1.1 d.1.2.1 d.1.2.2
      · obtain ⟨b, hb⟩ := ih (a + 1)
          ((s.setWork { s.work with a := a }).setPort ⟨d.2, s.port.trace ++ (oneshotRecords s.cfg .ok ++ l)⟩) h0
        refine ⟨b, ?_⟩
        simp only [hb, Bool.false_eq_true, if_false, State.setPort_cfg, State.setWork_cfg, State.setPort_port,
          List.append_assoc]
        refine Prod.ext rfl ?_
        simp only [State.setPort, State.setWork]
        cases (drawMeasured s.cfg (m s.cfg) n d.2).reading <;> rfl
      · refine ⟨a, ?_⟩
        simp only [if_true]
        rfl
    · rw [ha.timedOut (s.setWork { s.work with a := a }) h0 hv]
      obtain ⟨b, hb⟩ := ih (a + 1) { s.setWork { s.work with a := a } with
        warnReg := warnBump s.warnReg .pollTimeout,
        port := ⟨s.port.dev.drawVerdict.2, s.port.trace ++ oneshotRecords s.cfg .timeout⟩ } h0
      refine ⟨b, ?_⟩
      simp only [State.setWork_cfg, State.setWork_port, State.setWork_warnReg] at hb ⊢
      simp only [hb, List.append_assoc]
      refine Prod.ext rfl ?_
      simp only [State.setWork]
      cases (drawMeasured s.cfg (m s.cfg) n s.port.dev.drawVerdict.2).reading <;> rfl

/-- A measurement that has a reading has one its check passes; it makes at most its bound of polls, all of them when it
fails, and no more timeouts than polls (R200, R205). -/
theorem drawMeasured_spec (c : Config) (m : MeasSpec) (hm : ∀ f x y, m.check f x y = true → f = false) (n : Nat)
    (d : Device) : (∀ x y, (drawMeasured c m n d).reading = some (x, y) → m.check false x y = true) ∧
    (drawMeasured c m n d).records.countP (fun r => r.kind == 0x77) ≤ n ∧
    ((drawMeasured c m n d).reading = none → (drawMeasured c m n d).records.countP (fun r => r.kind == 0x77) = n) := by
  have ho : ∀ d', (attemptRecords c m.failMask m.addrX m.addrY m.resMask d').countP (fun r => r.kind == 0x77) = 0 :=
    fun _ => rfl
  induction n generalizing d with
  | zero => simp [drawMeasured]
  | succ n ih =>
    rw [drawMeasured]
    dsimp only
    cases d.drawVerdict.1 <;> dsimp only
    · split
      · rename_i h
        refine ⟨fun x y e => ?_, ?_, by simp⟩
        · obtain ⟨rfl, rfl⟩ := Prod.ext_iff.mp (Option.some.inj e)
          rwa [hm _ _ _ h] at h
        · rw [List.countP_append, oneshotRecords_polls, ho]
          omega
      · obtain ⟨h1, h2, h3⟩ := ih (drawAttempt m.failMask m.resMask d.drawVerdict.2).2
        refine ⟨h1, ?_, fun e => ?_⟩
        · rw [List.countP_append, List.countP_append, oneshotRecords_polls, ho]
          omega
        · rw [List.countP_append, List.countP_append, oneshotRecords_polls, ho, h3 e]
          omega
    · obtain ⟨h1, h2, h3⟩ := ih d.drawVerdict.2
      refine ⟨h1, ?_, fun e => ?_⟩
      · rw [List.countP_append, oneshotRecords_polls]
        omega
      · rw [List.countP_append, oneshotRecords_polls, h3 e]
        omega

theorem txSpec_check (c : Config) (f : Bool) (x y : Raw) (h : (txSpec c).check f x y = true) : f = false := by
  simp only [txSpec, txchk, Bool.and_eq_true, Bool.not_eq_true'] at h
  exact h.1.1

theorem rxSpec_check (c : Config) (f : Bool) (x y : Raw) (h : (rxSpec c).check f x y = true) : f = false := by
  simp only [rxSpec, rxchk, Bool.and_eq_true, Bool.not_eq_true'] at h
  exact h.1.1.1.1.1

/-! ## One measurement, one round -/

/-- X_UNITY is 2^FRAC (P15, R115). -/
theorem xUnity_toNat {c : Config} (h : c.wf = true) : (xUnity c).toNat = 2 ^ c.frac := by
  have hm := widths_le h
  have h2 : 2 ^ c.frac ≤ 2 ^ 8 := Nat.pow_le_pow_right (by omega) (by omega)
  simp only [xUnity, BitVec.toNat_ofNat]
  exact Nat.mod_eq_of_lt (by omega)

theorem calcfg_work (kind : MeasKind) (p : Path) (s : State) : (calcfg kind p s).work = s.work := by cases kind <;> rfl

theorem calcfg_seq (kind : MeasKind) (p : Path) (s : State) : (calcfg kind p s).seq = s.seq := by cases kind <;> rfl

/-- A list makes no poll. -/
theorem listRecord_polls (c : Config) (h : HciKind) (l : List ListOp) :
    (l.map (listRecord c h)).countP (fun r => r.kind == 0x77) = 0 := by
  rw [List.countP_eq_zero]
  intro r hr
  obtain ⟨o, -, rfl⟩ := List.mem_map.mp hr
  cases o <;> simp [listRecord]

theorem calcfg_trace (kind : MeasKind) (p : Path) (s : State) : ∃ l, (calcfg kind p s).port.trace = s.port.trace ++ l ∧
    l.countP (fun r => r.kind == 0x77) = 0 := by
  cases kind <;> exact ⟨_, Port.performAll_trace _ _ _ _, listRecord_polls _ _ _⟩

/-- A measurement begins in the state its calibration-mode list leaves (R200, R205, R192). -/
theorem calcfg_eq (kind : MeasKind) (p : Path) (s : State) :
    calcfg kind p s = s.setPort (calcfg kind p s).port := by cases kind <;> rfl

/-- TXMEAS said once (R200): CALCFG, then the attempts against the environment's answers. -/
theorem txmeas_eq (r : Round) (p : Path) (s : State) (hs : s.cfg.wf = true) (e : Measured)
    (he : e = drawMeasured s.cfg (txSpec s.cfg) s.cfg.retryTx (calcfg .tx p s).port.dev) :
    ∃ b, txmeas r p s = (e.reading.isSome, { s with
      work := { s.work.record s.cfg r (txGroup p) e.reading with a := b }, warnReg := warnTimeouts e.timeouts s.warnReg,
      port := ⟨e.dev, (calcfg .tx p s).port.trace ++ e.records⟩ }) :=
  tries_eq txatt_isAttempt r (txGroup p) s.cfg.retryTx 0 (calcfg .tx p s) hs e he

/-- RXMEAS after a successful TX said once (R205). -/
theorem rxmeas_eq (r : Round) (p : Path) (s : State) (hs : s.cfg.wf = true) (e : Measured)
    (he : e = drawMeasured s.cfg (rxSpec s.cfg) s.cfg.retryRx (calcfg .rx p s).port.dev) :
    ∃ b, rxmeas r p true s = { s with
      work := { s.work.record s.cfg r (rxGroup p) e.reading with a := b }, warnReg := warnTimeouts e.timeouts s.warnReg,
      port := ⟨e.dev, (calcfg .rx p s).port.trace ++ e.records⟩ } := by
  obtain ⟨b, h⟩ := tries_eq rxatt_isAttempt r (rxGroup p) s.cfg.retryRx 0 (calcfg .rx p s) hs e he
  exact ⟨b, by rw [rxmeas, if_pos rfl, h]; rfl⟩

/-- What TXMEAS records (R200). -/
theorem txmeas_spec (r : Round) (p : Path) (s : State) (hs : s.cfg.wf = true) :
    (∃ x y m, (txmeas r p s).2.work = { (s.work.setReading r (txGroup p) x y (!(txmeas r p s).1)) with a := m } ∧
      ((txmeas r p s).1 = true → txchk s.cfg false x y = true) ∧
      ((txmeas r p s).1 = false → x = xUnity s.cfg ∧ y = 0)) ∧
    (txmeas r p s).2.seq = s.seq := by
  obtain ⟨b, h⟩ := txmeas_eq r p s hs _ rfl
  have hd := (drawMeasured_spec s.cfg (txSpec s.cfg) (txSpec_check _) s.cfg.retryTx (calcfg .tx p s).port.dev).1
  generalize drawMeasured s.cfg (txSpec s.cfg) s.cfg.retryTx (calcfg .tx p s).port.dev = e at *
  rw [h]
  cases he : e.reading with
  | none => exact ⟨⟨_, _, b, rfl, by simp, fun _ => ⟨rfl, rfl⟩⟩, rfl⟩
  | some xy => exact ⟨⟨xy.1, xy.2, b, rfl, fun _ => hd _ _ he, by simp⟩, rfl⟩

/-- What RXMEAS records (R205). -/
theorem rxmeas_spec (r : Round) (p : Path) (txok : Bool) (s : State) (hs : s.cfg.wf = true) :
    (∃ x y m b, (rxmeas r p txok s).work = { (s.work.setReading r (rxGroup p) x y (!b)) with a := m } ∧
      (b = true → txok = true ∧ rxchk s.cfg false x y = true) ∧ (b = false → x = xUnity s.cfg ∧ y = 0)) ∧
    (rxmeas r p txok s).seq = s.seq ∧
    (txok = false → (rxmeas r p txok s).port = s.port ∧ (rxmeas r p txok s).warnReg = s.warnReg) := by
  cases txok
  · exact ⟨⟨_, _, s.work.a, false, rfl, by simp, fun _ => ⟨rfl, rfl⟩⟩, rfl, fun _ => ⟨rfl, rfl⟩⟩
  · obtain ⟨b, h⟩ := rxmeas_eq r p s hs _ rfl
    have hd := (drawMeasured_spec s.cfg (rxSpec s.cfg) (rxSpec_check _) s.cfg.retryRx (calcfg .rx p s).port.dev).1
    generalize drawMeasured s.cfg (rxSpec s.cfg) s.cfg.retryRx (calcfg .rx p s).port.dev = e at *
    rw [h]
    cases he : e.reading with
    | none => exact ⟨⟨_, _, b, false, rfl, by simp, fun _ => ⟨rfl, rfl⟩⟩, rfl, by simp⟩
    | some xy => exact ⟨⟨xy.1, xy.2, b, true, rfl, fun _ => ⟨rfl, hd _ _ he⟩, by simp⟩, rfl, by simp⟩

/-- One path of a round: two readings, the RX one measured only if the TX one is (R208). -/
theorem roundPath_spec (r : Round) (p : Path) (s : State) (hs : s.cfg.wf = true) :
    (∃ tx ty rx ry m tb rb, (roundPath r p s).work = { (s.work.setReading r (txGroup p) tx ty (!tb)).setReading r
          (rxGroup p) rx ry (!rb) with a := m, p := p } ∧
      (tb = true → txchk s.cfg false tx ty = true) ∧ (tb = false → tx = xUnity s.cfg ∧ ty = 0) ∧
      (rb = true → tb = true ∧ rxchk s.cfg false rx ry = true) ∧ (rb = false → rx = xUnity s.cfg ∧ ry = 0)) ∧
    (roundPath r p s).seq = s.seq := by
  obtain ⟨⟨tx, ty, m, h1, h2, h3⟩, h4⟩ := txmeas_spec r p (s.setWork { s.work with p := p }) hs
  have hk := (txmeas_keeps r p (s.setWork { s.work with p := p })).cfg
  obtain ⟨⟨rx, ry, m', rb, k1, k2, k3⟩, k4, -⟩ := rxmeas_spec r p (txmeas r p (s.setWork { s.work with p := p })).1
    (txmeas r p (s.setWork { s.work with p := p })).2 (by rw [hk]; exact hs)
  rw [hk] at k2 k3
  refine ⟨⟨tx, ty, rx, ry, m', _, rb, ?_, h2, h3, k2, k3⟩, k4.trans h4⟩
  exact k1.trans (by rw [h1]; rfl)

/-- What a round leaves in one reading: the sentinel with its tag, or values its check passes (R208, R23, R24). -/
def ReadingFilled (c : Config) (chk : Config → Bool → Raw → Raw → Bool) (k : Work) (r : Round) (g : Group) : Prop :=
  (k.failAt r g = true → k.resAt r (slotX g) = xUnity c ∧ k.resAt r (slotY g) = 0) ∧
  (k.failAt r g = false → chk c false (k.resAt r (slotX g)) (k.resAt r (slotY g)) = true)

/-- A recorded reading is filled. -/
theorem readingFilled_setReading {c : Config} {chk : Config → Bool → Raw → Raw → Bool} (k : Work) {r : Round} (hr : r.val < nRound)
    (g : Group) {x y : Raw} {b : Bool} (h1 : b = true → chk c false x y = true) (h2 : b = false → x = xUnity c ∧ y = 0) :
    ReadingFilled c chk (k.setReading r g x y (!b)) r g := by
  unfold ReadingFilled
  rw [Work.setReading_tag _ _ _ _ _ _ hr, Work.setReading_x, Work.setReading_y]
  cases b <;> simp_all

/-- Recording another reading leaves it filled. -/
theorem ReadingFilled.other {c : Config} {chk : Config → Bool → Raw → Raw → Bool} {k : Work} {r : Round} {g g' : Group}
    (h : ReadingFilled c chk k r g) (hg : g ≠ g') (x y : Raw) (b : Bool) :
    ReadingFilled c chk (k.setReading r g' x y b) r g := by
  unfold ReadingFilled at h ⊢
  rw [Work.setReading_tag_other _ _ _ _ _ _ (fun e => hg e.2),
    Work.setReading_res_other _ _ _ _ _ _ (fun e => hg ((groupOf_slotX g).symm.trans e.2)),
    Work.setReading_res_other _ _ _ _ _ _ (fun e => hg ((groupOf_slotY g).symm.trans e.2))]
  exact h

end Sys2Proof.Machine
end

