-- ==== Sys2Proof/Laws/PerInstr.lean ====
section
/-! SUPPORT. The code round trip, operation by operation (R130, R135). -/

/-- Decoding the code of an operation gives the operation back. -/
def Sys2Proof.Laws.CodeRoundTrip.Statement (i : Sys2Proof.Instr) : Prop := Sys2Proof.decode (Sys2Proof.encode i) = .ok i

theorem Sys2Proof.Laws.CodeRoundTrip.init : Sys2Proof.Laws.CodeRoundTrip.Statement .init := rfl
theorem Sys2Proof.Laws.CodeRoundTrip.calibrate : Sys2Proof.Laws.CodeRoundTrip.Statement .calibrate := rfl
theorem Sys2Proof.Laws.CodeRoundTrip.tick : Sys2Proof.Laws.CodeRoundTrip.Statement .tick := rfl
theorem Sys2Proof.Laws.CodeRoundTrip.detach : Sys2Proof.Laws.CodeRoundTrip.Statement .detach := rfl
theorem Sys2Proof.Laws.CodeRoundTrip.canon : Sys2Proof.Laws.CodeRoundTrip.Statement .canon := rfl
theorem Sys2Proof.Laws.CodeRoundTrip.encode : Sys2Proof.Laws.CodeRoundTrip.Statement .encode := rfl
theorem Sys2Proof.Laws.CodeRoundTrip.iqmult : Sys2Proof.Laws.CodeRoundTrip.Statement .iqmult := rfl
theorem Sys2Proof.Laws.CodeRoundTrip.absdiff : Sys2Proof.Laws.CodeRoundTrip.Statement .absdiff := rfl
theorem Sys2Proof.Laws.CodeRoundTrip.backup : Sys2Proof.Laws.CodeRoundTrip.Statement .backup := rfl
theorem Sys2Proof.Laws.CodeRoundTrip.calcfg : Sys2Proof.Laws.CodeRoundTrip.Statement .calcfg := rfl
theorem Sys2Proof.Laws.CodeRoundTrip.oneshot : Sys2Proof.Laws.CodeRoundTrip.Statement .oneshot := rfl
theorem Sys2Proof.Laws.CodeRoundTrip.txchk : Sys2Proof.Laws.CodeRoundTrip.Statement .txchk := rfl
theorem Sys2Proof.Laws.CodeRoundTrip.rxchk : Sys2Proof.Laws.CodeRoundTrip.Statement .rxchk := rfl
theorem Sys2Proof.Laws.CodeRoundTrip.txatt : Sys2Proof.Laws.CodeRoundTrip.Statement .txatt := rfl
theorem Sys2Proof.Laws.CodeRoundTrip.rxatt : Sys2Proof.Laws.CodeRoundTrip.Statement .rxatt := rfl
theorem Sys2Proof.Laws.CodeRoundTrip.txmeas : Sys2Proof.Laws.CodeRoundTrip.Statement .txmeas := rfl
theorem Sys2Proof.Laws.CodeRoundTrip.rxmeas : Sys2Proof.Laws.CodeRoundTrip.Statement .rxmeas := rfl
theorem Sys2Proof.Laws.CodeRoundTrip.round : Sys2Proof.Laws.CodeRoundTrip.Statement .round := rfl
theorem Sys2Proof.Laws.CodeRoundTrip.roundrestore : Sys2Proof.Laws.CodeRoundTrip.Statement .roundrestore := rfl
theorem Sys2Proof.Laws.CodeRoundTrip.simslot : Sys2Proof.Laws.CodeRoundTrip.Statement .simslot := rfl
theorem Sys2Proof.Laws.CodeRoundTrip.simcmp : Sys2Proof.Laws.CodeRoundTrip.Statement .simcmp := rfl
theorem Sys2Proof.Laws.CodeRoundTrip.vote : Sys2Proof.Laws.CodeRoundTrip.Statement .vote := rfl
theorem Sys2Proof.Laws.CodeRoundTrip.hybacc : Sys2Proof.Laws.CodeRoundTrip.Statement .hybacc := rfl
theorem Sys2Proof.Laws.CodeRoundTrip.hybnorm : Sys2Proof.Laws.CodeRoundTrip.Statement .hybnorm := rfl
theorem Sys2Proof.Laws.CodeRoundTrip.hybchk : Sys2Proof.Laws.CodeRoundTrip.Statement .hybchk := rfl
theorem Sys2Proof.Laws.CodeRoundTrip.usable : Sys2Proof.Laws.CodeRoundTrip.Statement .usable := rfl
theorem Sys2Proof.Laws.CodeRoundTrip.filltx : Sys2Proof.Laws.CodeRoundTrip.Statement .filltx := rfl
theorem Sys2Proof.Laws.CodeRoundTrip.fillrx : Sys2Proof.Laws.CodeRoundTrip.Statement .fillrx := rfl
theorem Sys2Proof.Laws.CodeRoundTrip.retain : Sys2Proof.Laws.CodeRoundTrip.Statement .retain := rfl
theorem Sys2Proof.Laws.CodeRoundTrip.apply : Sys2Proof.Laws.CodeRoundTrip.Statement .apply := rfl
theorem Sys2Proof.Laws.CodeRoundTrip.finalrestore : Sys2Proof.Laws.CodeRoundTrip.Statement .finalrestore := rfl
theorem Sys2Proof.Laws.CodeRoundTrip.iqkrun : Sys2Proof.Laws.CodeRoundTrip.Statement .iqkrun := rfl
theorem Sys2Proof.Laws.CodeRoundTrip.arm : Sys2Proof.Laws.CodeRoundTrip.Statement .arm := rfl
theorem Sys2Proof.Laws.CodeRoundTrip.unsupchk : Sys2Proof.Laws.CodeRoundTrip.Statement .unsupchk := rfl
theorem Sys2Proof.Laws.CodeRoundTrip.thread : Sys2Proof.Laws.CodeRoundTrip.Statement .thread := rfl
theorem Sys2Proof.Laws.CodeRoundTrip.avgupd : Sys2Proof.Laws.CodeRoundTrip.Statement .avgupd := rfl
theorem Sys2Proof.Laws.CodeRoundTrip.needIqk : Sys2Proof.Laws.CodeRoundTrip.Statement .needIqk := rfl
theorem Sys2Proof.Laws.CodeRoundTrip.compchk : Sys2Proof.Laws.CodeRoundTrip.Statement .compchk := rfl
theorem Sys2Proof.Laws.CodeRoundTrip.rawdelta : Sys2Proof.Laws.CodeRoundTrip.Statement .rawdelta := rfl
theorem Sys2Proof.Laws.CodeRoundTrip.pass : Sys2Proof.Laws.CodeRoundTrip.Statement .pass := rfl
theorem Sys2Proof.Laws.CodeRoundTrip.dlookup : Sys2Proof.Laws.CodeRoundTrip.Statement .dlookup := rfl
theorem Sys2Proof.Laws.CodeRoundTrip.swclamp : Sys2Proof.Laws.CodeRoundTrip.Statement .swclamp := rfl
theorem Sys2Proof.Laws.CodeRoundTrip.swofdm : Sys2Proof.Laws.CodeRoundTrip.Statement .swofdm := rfl
theorem Sys2Proof.Laws.CodeRoundTrip.swcck : Sys2Proof.Laws.CodeRoundTrip.Statement .swcck := rfl
theorem Sys2Proof.Laws.CodeRoundTrip.commit : Sys2Proof.Laws.CodeRoundTrip.Statement .commit := rfl
theorem Sys2Proof.Laws.CodeRoundTrip.pathcomp : Sys2Proof.Laws.CodeRoundTrip.Statement .pathcomp := rfl
theorem Sys2Proof.Laws.CodeRoundTrip.resynco : Sys2Proof.Laws.CodeRoundTrip.Statement .resynco := rfl
theorem Sys2Proof.Laws.CodeRoundTrip.resyncc : Sys2Proof.Laws.CodeRoundTrip.Statement .resyncc := rfl
theorem Sys2Proof.Laws.CodeRoundTrip.resync : Sys2Proof.Laws.CodeRoundTrip.Statement .resync := rfl
theorem Sys2Proof.Laws.CodeRoundTrip.rd : Sys2Proof.Laws.CodeRoundTrip.Statement .rd := rfl
theorem Sys2Proof.Laws.CodeRoundTrip.wr : Sys2Proof.Laws.CodeRoundTrip.Statement .wr := rfl
theorem Sys2Proof.Laws.CodeRoundTrip.rdm : Sys2Proof.Laws.CodeRoundTrip.Statement .rdm := rfl
theorem Sys2Proof.Laws.CodeRoundTrip.wrm : Sys2Proof.Laws.CodeRoundTrip.Statement .wrm := rfl
theorem Sys2Proof.Laws.CodeRoundTrip.rfrd : Sys2Proof.Laws.CodeRoundTrip.Statement .rfrd := rfl
theorem Sys2Proof.Laws.CodeRoundTrip.rfwr : Sys2Proof.Laws.CodeRoundTrip.Statement .rfwr := rfl
theorem Sys2Proof.Laws.CodeRoundTrip.delay : Sys2Proof.Laws.CodeRoundTrip.Statement .delay := rfl
theorem Sys2Proof.Laws.CodeRoundTrip.poll : Sys2Proof.Laws.CodeRoundTrip.Statement .poll := rfl
theorem Sys2Proof.Laws.CodeRoundTrip.hookChan : Sys2Proof.Laws.CodeRoundTrip.Statement .hookChan := rfl
theorem Sys2Proof.Laws.CodeRoundTrip.hookReapply : Sys2Proof.Laws.CodeRoundTrip.Statement .hookReapply := rfl
theorem Sys2Proof.Laws.CodeRoundTrip.hookHci : Sys2Proof.Laws.CodeRoundTrip.Statement .hookHci := rfl
end

