-- ==== Sys2Proof/Laws/Select.lean ====
section
/-! SUPPORT. What the selection half of an IQK run answers (R220 to R230), and the whole run said once: its result, OUTCOME,
CalibrationState and warnings (R254). -/

namespace Sys2Proof.Machine

/-! ## Similarity and VOTE -/

/-- SIMCMP is agreement (R220, R222). -/
theorem simCmp_iff (c : Config) (k : Work) (j r : Round) : simCmp c k j r = true ↔ agree c k j r := by
  simp only [simCmp, agree, simSlot, List.all_eq_true, List.mem_finRange, true_imp_iff, Bool.and_eq_true, Bool.not_eq_true',
    decide_eq_true_eq, and_assoc]
  exact Iff.rfl

/-- A measured pair that agrees has no failed reading (R225). -/
theorem agree_measured {c : Config} {k : Work} {j r : Round} (h : agree c k j r) (g : Group) : k.failAt j g = false := by
  have := (h (slotX g)).1
  rwa [groupOf_slotX] at this

/-- The inner loop of VOTE over `l` (R224): what it found, and that it wrote nothing but j and the candidate. -/
theorem voteOver_spec (r : Round) (l : List Round) (s : State) :
    (voteOver r l s).2 = s.setWork { s.work with
      j := (voteOver r l s).2.work.j, cand := (voteOver r l s).2.work.cand,
      candValid := (voteOver r l s).2.work.candValid } ∧
    (((voteOver r l s).1 = false ∧ (∀ j ∈ l, ¬ agree s.cfg s.work j r) ∧ (voteOver r l s).2.work.cand = s.work.cand ∧
        (voteOver r l s).2.work.candValid = s.work.candValid) ∨
      ((voteOver r l s).1 = true ∧ (voteOver r l s).2.work.candValid = true ∧
        ∃ l1 j l2, l = l1 ++ j :: l2 ∧ (∀ i ∈ l1, ¬ agree s.cfg s.work i r) ∧ agree s.cfg s.work j r ∧
          (voteOver r l s).2.work.cand = candOf j)) := by
  induction l generalizing s with
  | nil => exact ⟨rfl, .inl ⟨rfl, by simp, rfl, rfl⟩⟩
  | cons j l ih =>
    rw [voteOver]
    split
    · rename_i h
      exact ⟨rfl, .inr ⟨rfl, rfl, [], j, l, rfl, by simp, (simCmp_iff _ _ _ _).mp h, rfl⟩⟩
    · rename_i h
      have hj : ¬ agree s.cfg s.work j r := fun ha => h ((simCmp_iff _ _ _ _).mpr ha)
      have hag : ∀ i, agree s.cfg { s.work with j := j } i r ↔ agree s.cfg s.work i r := fun i => Iff.rfl
      obtain ⟨h1, h2⟩ := ih (s.setWork { s.work with j := j })
      refine ⟨?_, ?_⟩
      · rw [h1]
        rfl
      · rcases h2 with ⟨a, b, e, f⟩ | ⟨a, b, l1, i, l2, rfl, h3, h4, h5⟩
        · refine .inl ⟨a, fun i hi => ?_, e, f⟩
          rcases List.mem_cons.mp hi with rfl | hi
          · exact hj
          · exact fun ha => b i hi ((hag i).mpr ha)
        · refine .inr ⟨a, b, j :: l1, i, l2, rfl, fun i' hi => ?_, (hag i).mp h4, h5⟩
          rcases List.mem_cons.mp hi with rfl | hi
          · exact hj
          · exact fun ha => h3 i' hi ((hag i').mpr ha)

theorem mem_roundsBefore {r j : Round} : j ∈ roundsBefore r ↔ j < r := by revert r j; decide

/-- VOTE said once (R224, R225). -/
theorem vote_spec (r : Round) (s : State) :
    (vote r s).2 = (s.setPhase .calVote).setWork { s.work with
      r := r, j := (vote r s).2.work.j, cand := (vote r s).2.work.cand, candValid := (vote r s).2.work.candValid } ∧
    (((vote r s).1 = false ∧ (∀ j < r, ¬ agree s.cfg s.work j r) ∧ (vote r s).2.work.cand = s.work.cand ∧
        (vote r s).2.work.candValid = s.work.candValid) ∨
      ((vote r s).1 = true ∧ (vote r s).2.work.candValid = true ∧
        ∃ j < r, (vote r s).2.work.cand = candOf j ∧ agree s.cfg s.work j r ∧ ∀ i < j, ¬ agree s.cfg s.work i r)) := by
  have hag : ∀ i, agree s.cfg { s.work with r := r } i r ↔ agree s.cfg s.work i r := fun i => Iff.rfl
  obtain ⟨h1, h2⟩ := voteOver_spec r (roundsBefore r) ((s.setPhase .calVote).setWork { s.work with r := r })
  refine ⟨?_, ?_⟩
  · unfold vote
    rw [h1]
    rfl
  · rcases h2 with ⟨a, b, e, f⟩ | ⟨a, b, l1, j, l2, hl, h3, h4, h5⟩
    · exact .inl ⟨a, fun j hj => (hag j).not.mp (b j (mem_roundsBefore.mpr hj)), e, f⟩
    · have hm : j ∈ roundsBefore r := by rw [hl]; simp
      refine .inr ⟨a, b, j, mem_roundsBefore.mp hm, h5, (hag j).mp h4, fun i hi => (hag i).not.mp (h3 i ?_)⟩
      have hi' : i ∈ roundsBefore r := mem_roundsBefore.mpr (lt_trans hi (mem_roundsBefore.mp hm))
      rw [hl] at hi'
      rcases List.mem_append.mp hi' with h | h
      · exact h
      · have hs : (roundsBefore r).Pairwise (· < ·) := (show (List.finRange 4).Pairwise (· < ·) by decide).filter _
        rw [hl] at hs
        have h6 := (List.pairwise_append.mp hs).2.1
        rcases List.mem_cons.mp h with rfl | h
        · exact absurd hi (lt_irrefl _)
        · exact absurd (lt_trans hi ((List.pairwise_cons.mp h6).1 i h)) (lt_irrefl _)

/-- A candidate VOTE selects is round 0 or 1 (R225). -/
theorem vote_cand {r : Round} (hr : r.val < nRound) {s : State} (h : (vote r s).1 = true) :
    (vote r s).2.work.cand = 0 ∨ (vote r s).2.work.cand = 1 := by
  obtain ⟨-, ⟨a, -⟩ | ⟨-, -, j, hj, hc, -⟩⟩ := vote_spec r s
  · rw [h] at a
    contradiction
  · rw [hc]
    have key : ∀ r j : Round, r.val < nRound → j < r → candOf j = 0 ∨ candOf j = 1 := by decide
    exact key r j hr hj

/-! ## The hybrid round -/

/-- The measurement rounds of an accepted configuration (P1, R112). -/
theorem measRounds_eq {c : Config} (h : c.wf = true) : measRounds c = [0, 1, 2] := by
  unfold measRounds
  rw [c.nRound_eq h]
  decide

/-- The contributors of a reading are its measured rounds (R226). -/
theorem contributors_sum (c : Config) (k : Work) (g : Group) (f : Round → Int) :
    ((contributors c k g).map f).sum = ((measRounds c).map (fun r => if k.failAt r g then 0 else f r)).sum := by
  unfold contributors
  induction measRounds c with
  | nil => rfl
  | cons a l ih =>
    simp only [List.filter_cons, List.map_cons, List.sum_cons]
    cases k.failAt a g <;> simp [ih]

theorem contributors_length (c : Config) (k : Work) (g : Group) : (contributors c k g).length = measuredCount c k g := by
  unfold contributors measuredCount
  induction measRounds c with
  | nil => rfl
  | cons a l ih =>
    simp only [List.filter_cons, List.map_cons, List.sum_cons]
    cases k.failAt a g <;> simp [ih]; omega

theorem hybSum_eq (c : Config) (k : Work) (i : Slot) : hybSum c k i = measuredSum c k i := by
  unfold hybSum measuredSum
  rw [contributors_sum]

theorem measuredCount_le {c : Config} (h : c.wf = true) (k : Work) (g : Group) : measuredCount c k g ≤ 3 := by
  rw [← contributors_length]
  unfold contributors
  rw [measRounds_eq h]
  exact List.length_filter_le _ _

/-- The sum of the contributors stays within their number times the range of a correlator value (R25, R176). -/
theorem measuredSum_bounds {c : Config} (h : 1 ≤ c.readW) (k : Work) (i : Slot) :
    -(2 : Int) ^ (c.readW - 1) * (measuredCount c k (groupOf i) : Int) ≤ measuredSum c k i ∧
    measuredSum c k i ≤ ((2 : Int) ^ (c.readW - 1) - 1) * (measuredCount c k (groupOf i) : Int) := by
  unfold measuredCount measuredSum
  induction measRounds c with
  | nil => simp
  | cons a l ih =>
    simp only [List.map_cons, List.sum_cons]
    have := canon_range h (k.resAt a i)
    generalize (List.map (fun r => if k.failAt r (groupOf i) = true then 0 else 1) l).sum = C at *
    generalize (2 : Int) ^ (c.readW - 1) = M at *
    split
    · simpa using ih
    · push_cast
      constructor <;> linarith

/-- The aggregate is zero exactly when every slot is (R230). -/
theorem aggregate_eq_zero (c : Config) (k : Work) : aggregate c k = 0 ↔ ∀ i : Slot, k.resAt c.roundHybrid i = 0 := by
  unfold aggregate
  rw [List.sum_eq_zero_iff]
  constructor
  · intro h i
    have := h _ (List.mem_map_of_mem (f := fun i => (k.resAt c.roundHybrid i).toNat) (List.mem_finRange i))
    exact BitVec.eq_of_toNat_eq this
  · intro h x hx
    obtain ⟨i, -, rfl⟩ := List.mem_map.mp hx
    rw [h i]
    rfl

/-! ## The whole run -/

/-- The end of a run (R254 steps 7 and 8): CalibrationState is RETAIN's when a candidate was found, else untouched. -/
theorem iqkFinish_spec (found : Bool) (s : State) :
    (iqkFinish found s).1 = found ∧ (iqkFinish found s).2.pt = s.pt ∧ (iqkFinish found s).2.seq.ret = s.seq.ret ∧
    (iqkFinish found s).2.seq.phase = .calFinal ∧
    (iqkFinish found s).2.outcome = outcomeWord found s.work.cand ∧
    (iqkFinish found s).2.cal = (if found then (retain s.work.cand s).cal else s.cal) ∧
    (iqkFinish found s).2.work = (if found then { s.work with p := 1 } else s.work) ∧
    ∀ x, x ≠ .pollTimeout → warnCount (iqkFinish found s).2.warnReg x = warnCount s.warnReg x := by
  have hw : ∀ p q (t : State), (applyPath p q t).work = { t.work with p := q } := by
    intro p q t
    unfold applyPath
    dsimp only
    split <;> split <;> rfl
  have ha : (applyCand s.work.cand s).work = { s.work with p := 1 } := by
    simp only [applyCand, hw, State.setPhase_work]
  have hk := applyCand_keeps s.work.cand s
  have hr : ∀ t : State, t.work = { s.work with p := 1 } → t.cfg = s.cfg →
      (retain s.work.cand t).cal = (retain s.work.cand s).cal := by
    intro t h1 h2
    simp only [retain, State.setCal_cal, retainedX, retainedY, h1, h2]
    rfl
  cases found
  · have hf := finalRestore_keeps s
    exact ⟨rfl, hf.pt, hf.ret, rfl, rfl, hf.cal, rfl, hf.warn⟩
  · have hf := finalRestore_keeps (retain s.work.cand (applyCand s.work.cand s))
    refine ⟨rfl, hf.pt.trans hk.pt, hf.ret.trans hk.ret, rfl, rfl, ?_, ?_, ?_⟩
    · exact hf.cal.trans (hr _ ha hk.cfg)
    · exact ha
    · exact fun x hx => (hf.warn x hx).trans (hk.warn x hx)

/-- The hybrid step either accepts the hybrid round or raises W_CAL_FAILED (R230); it changes nothing long-lived. -/
theorem hybrid_spec (s : State) :
    (hybrid s).2.pt = s.pt ∧ (hybrid s).2.cal = s.cal ∧ (hybrid s).2.seq.ret = s.seq.ret ∧
    (((hybrid s).1 = true ∧ (hybrid s).2.work.cand = candOf s.cfg.roundHybrid ∧ (hybrid s).2.work.candValid = true ∧
        (hybrid s).2.warnReg = s.warnReg) ∨
      ((hybrid s).1 = false ∧ (hybrid s).2.work.candValid = false ∧
        (hybrid s).2.warnReg = warnBump s.warnReg .calFailed)) := by
  unfold hybrid hybChk
  split
  · exact ⟨rfl, rfl, rfl, .inr ⟨rfl, rfl, rfl⟩⟩
  · exact ⟨rfl, rfl, rfl, .inl ⟨rfl, rfl, rfl, rfl⟩⟩

/-- IQKRUN said once (R254, R256): the state `u` its end starts from, and what the end does with it. -/
theorem iqkRun_spec (s : State) : ∃ (found : Bool) (u : State), iqkRun s = iqkFinish found u ∧
    u.pt = s.pt ∧ u.cal = s.cal ∧ u.cfg = s.cfg ∧ u.seq.ret = s.seq.ret ∧
    (∀ x, x ≠ .pollTimeout → x ≠ .calFailed → warnCount u.warnReg x = warnCount s.warnReg x) ∧
    (found = true → (u.work.cand = 0 ∨ u.work.cand = 1 ∨ u.work.cand = candOf s.cfg.roundHybrid) ∧ u.work.candValid = true ∧
      warnCount u.warnReg .calFailed = warnCount s.warnReg .calFailed) ∧
    (found = false → u.work.candValid = false ∧
      (warnCount u.warnReg .calFailed).toNat = min 15 ((warnCount s.warnReg .calFailed).toNat + 1)) := by
  have h0 := (((s.setWork_keeps s.work.clear).trans (backup_keeps _)).trans (measRound_keeps 0 _)).trans (measRound_keeps 1 _)
  unfold iqkRun
  dsimp only
  generalize measRound 1 (measRound 0 (backup (s.setWork s.work.clear))) = s1 at *
  have h1 := h0.trans (vote_keeps 1 s1)
  have found_of : ∀ (r : Round) (t : State), r.val < nRound → s.MeasKeeps (vote r t).2 → (vote r t).1 = true →
      ∃ (found : Bool) (u : State), iqkFinish true (vote r t).2 = iqkFinish found u ∧
      u.pt = s.pt ∧ u.cal = s.cal ∧ u.cfg = s.cfg ∧ u.seq.ret = s.seq.ret ∧
      (∀ x, x ≠ .pollTimeout → x ≠ .calFailed → warnCount u.warnReg x = warnCount s.warnReg x) ∧
      (found = true → (u.work.cand = 0 ∨ u.work.cand = 1 ∨ u.work.cand = candOf s.cfg.roundHybrid) ∧ u.work.candValid = true ∧
        warnCount u.warnReg .calFailed = warnCount s.warnReg .calFailed) ∧
      (found = false → u.work.candValid = false ∧
        (warnCount u.warnReg .calFailed).toNat = min 15 ((warnCount s.warnReg .calFailed).toNat + 1)) := by
    intro r t hr hk hv
    obtain ⟨-, ⟨a, -⟩ | ⟨-, b, -⟩⟩ := vote_spec r t
    · rw [hv] at a
      contradiction
    · refine ⟨true, (vote r t).2, rfl, hk.pt, hk.cal, hk.cfg, hk.ret, fun x hx _ => hk.warn x hx,
        fun _ => ⟨(vote_cand hr hv).imp_right .inl, b, hk.warn _ (by simp)⟩, by simp⟩
  split
  · rename_i hv
    exact found_of 1 s1 (by decide) h1 hv
  · have h2 := (h1.trans (measRound_keeps 2 _)).trans (vote_keeps 2 _)
    generalize measRound 2 (vote 1 s1).2 = s2 at *
    split
    · rename_i hv
      exact found_of 2 s2 (by decide) h2 hv
    · have h3 := hybrid_keeps (vote 2 s2).2
      have h4 := hybrid_spec (vote 2 s2).2
      generalize hybrid (vote 2 s2).2 = y at *
      generalize (vote 2 s2).2 = s3 at *
      obtain ⟨p1, p2, p3, h4⟩ := h4
      refine ⟨y.1, y.2, rfl, p1.trans h2.pt, p2.trans h2.cal, h3.cfg.trans h2.cfg, p3.trans h2.ret, ?_, ?_, ?_⟩
      · intro x hx hy
        rcases h4 with ⟨-, -, -, q⟩ | ⟨-, -, q⟩
        · rw [q]
          exact h2.warn x hx
        · rw [q, warnCount_warnBump_of_ne _ hy]
          exact h2.warn x hx
      · intro hb
        rcases h4 with ⟨-, q1, q2, q3⟩ | ⟨q, -⟩
        · refine ⟨.inr (.inr (h2.cfg ▸ q1)), q2, ?_⟩
          rw [q3]
          exact h2.warn _ (by simp)
        · rw [hb] at q
          contradiction
      · intro hb
        rcases h4 with ⟨q, -⟩ | ⟨-, q1, q2⟩
        · rw [hb] at q
          contradiction
        · refine ⟨q1, ?_⟩
          rw [q2, warnCount_warnBump_self, h2.warn _ (by simp)]

end Sys2Proof.Machine
end

