-- ==== Sys2Proof/Laws/Swing.lean ====
section
/-! SUPPORT. The resync's searches and reads (R300 to R302) and one path's compensation (R297, R298), each said once. -/

namespace Sys2Proof.Machine

/-! ## The searches of the resync -/

theorem ofdmIndexOf_low (c : Config) (v : Elem) (j : Fin 43) (h1 : entryD c.ofdmTbl[j] = v)
    (h2 : ∀ j' < j, entryD c.ofdmTbl[j'] ≠ v) : (ofdmIndexOf c v).toNat = j.val := by
  have hf : c.ofdmTbl.toList.findIdx? (fun e => entryD e == v) = some j.val := by
    rw [List.findIdx?_eq_some_iff_getElem]
    exact ⟨by simp, by simpa using h1, fun k hk => by simpa using h2 ⟨k, by omega⟩ hk⟩
  unfold ofdmIndexOf
  rw [hf]
  simp only [BitVec.toNat_ofNat]
  omega

theorem ofdmIndexOf_none (c : Config) (v : Elem) (h : ∀ j : Fin 43, entryD c.ofdmTbl[j] ≠ v) :
    ofdmIndexOf c v = c.defOfdmIndex := by
  have hf : c.ofdmTbl.toList.findIdx? (fun e => entryD e == v) = none := by
    rw [List.findIdx?_eq_none_iff]
    intro x hx
    obtain ⟨k, hk, rfl⟩ := List.getElem_of_mem hx
    simpa using h ⟨k, by simpa using hk⟩
  unfold ofdmIndexOf
  rw [hf]

theorem cckIndexOf_low (c : Config) (b : Byte) (j : Fin 33) (h1 : (c.cckTbl[j])[0] = b)
    (h2 : ∀ j' < j, (c.cckTbl[j'])[0] ≠ b) : (cckIndexOf c b).toNat = j.val := by
  have hf : c.cckTbl.toList.findIdx? (fun e => e[0] == b) = some j.val := by
    rw [List.findIdx?_eq_some_iff_getElem]
    exact ⟨by simp, by simpa using h1, fun k hk => by simpa using h2 ⟨k, by omega⟩ hk⟩
  unfold cckIndexOf
  rw [hf]
  simp only [BitVec.toNat_ofNat]
  omega

theorem cckIndexOf_none (c : Config) (b : Byte) (h : ∀ j : Fin 33, (c.cckTbl[j])[0] ≠ b) :
    cckIndexOf c b = c.defCckIndex := by
  have hf : c.cckTbl.toList.findIdx? (fun e => e[0] == b) = none := by
    rw [List.findIdx?_eq_none_iff]
    intro x hx
    obtain ⟨k, hk, rfl⟩ := List.getElem_of_mem hx
    simpa using h ⟨k, by simpa using hk⟩
  unfold cckIndexOf
  rw [hf]

/-- The index a search answers is in the table (R35). -/
theorem ofdmIndexOf_le {c : Config} (h : c.wf = true) (v : Elem) : (ofdmIndexOf c v).toNat ≤ 42 := by
  have hm := Config.defaultIndex_le h
  unfold ofdmIndexOf
  split
  · rename_i i hf
    rw [List.findIdx?_eq_some_iff_getElem] at hf
    obtain ⟨hi, -⟩ := hf
    have hi' : i < 43 := by simpa using hi
    simp only [BitVec.toNat_ofNat]
    omega
  · exact hm.1

theorem cckIndexOf_le {c : Config} (h : c.wf = true) (b : Byte) : (cckIndexOf c b).toNat ≤ 32 := by
  have hm := Config.defaultIndex_le h
  unfold cckIndexOf
  split
  · rename_i i hf
    rw [List.findIdx?_eq_some_iff_getElem] at hf
    obtain ⟨hi, -⟩ := hf
    have hi' : i < 33 := by simpa using hi
    simp only [BitVec.toNat_ofNat]
    omega
  · exact hm.2

/-! ## The reads of the resync -/

theorem resyncO_eq {s : State} (h : s.cfg.wf = true) : resyncO s =
    (s.setPort ⟨s.port.dev, s.port.trace ++ [rdmRecord s.cfg.txiq[0] s.cfg.maskD
      (fieldGet (s.port.dev.mem.wordAt s.cfg.txiq[0]) s.cfg.maskD)]⟩).setPt
      { s.pt with ofdmIndex := ofdmIndexOf s.cfg ((fieldGet (s.port.dev.mem.wordAt s.cfg.txiq[0]) s.cfg.maskD).setWidth 10) } := by
  have hs : isStorage s.cfg .w32 s.cfg.txiq[0] = true := txiq_isStorage h 0
  unfold resyncO
  rw [Port.rdm_storage hs]
  rfl

theorem resyncC_eq {s : State} (h : s.cfg.wf = true) : resyncC s =
    (s.setPort ⟨s.port.dev, s.port.trace ++ [rdByteRecord (s.cfg.cckReg 0) (s.port.dev.mem.byteAt (s.cfg.cckReg 0))]⟩).setPt
      { s.pt with cckIndex := cckIndexOf s.cfg (s.port.dev.mem.byteAt (s.cfg.cckReg 0)) } := by
  have hs : isStorage s.cfg .w8 (s.cfg.cckReg 0) = true := by
    rw [isStorage_iff]
    simp [Width.bytes, cckReg_storage h]
  simp [resyncC, Port.rd, Port.answer, hs, Memory.valueAt, Port.log, rdByteRecord, widthAux, widthMask]

/-! ## One path's compensation -/

/-- A delta index is in -255..255 (R286). -/
theorem dLookup_range (c : Config) (pol : Polarity) (k : Nat) :
    -255 ≤ (dLookup c pol k).1 ∧ (dLookup c pol k).1 ≤ 255 ∧ -255 ≤ (dLookup c pol k).2 ∧ (dLookup c pol k).2 ≤ 255 := by
  unfold dLookup
  cases pol
  · have h1 := (romByte c.dtOfdmPos k).isLt
    have h2 := (romByte c.dtCckPos k).isLt
    simp only
    omega
  · have h1 := (romByte c.dtOfdmNeg k).isLt
    have h2 := (romByte c.dtCckNeg k).isLt
    simp only
    omega

/-- A delta index survives its nine bits (R35, R286). -/
theorem toInt_ofInt9 {d : Int} (h1 : -255 ≤ d) (h2 : d ≤ 255) : (BitVec.ofInt 9 d).toInt = d := by
  rw [BitVec.toInt_ofInt]
  simp only [Int.bmod]
  omega

/-- A remnant survives its ten bits (R291). -/
theorem toInt_ofInt10 {d : Int} (h1 : -512 ≤ d) (h2 : d ≤ 511) : (BitVec.ofInt 10 d).toInt = d := by
  rw [BitVec.toInt_ofInt]
  simp only [Int.bmod]
  omega

theorem swClamp_fst (n : Nat) (req : Int) : (((swClamp n req).1.val : Nat) : Int) = max 0 (min (n : Int) req) := by
  simp only [swClamp, clamp]
  split
  · omega
  · split <;> omega

theorem swClamp_snd (n : Nat) (req : Int) : (swClamp n req).2 = req - (swClamp n req).1.val := by
  have h := swClamp_fst n req
  rw [h]
  simp only [swClamp, clamp]
  split
  · omega
  · split <;> omega

/-- PATHCOMP touches the long-lived state only in the four per-path fields of PowerTrackState (R297, R298). -/
theorem pathComp_pt (p : Path) (pol : Polarity) (k : Nat) (s : State) :
    (pathComp p pol k s).pt = { s.pt with
      deltaOfdm := s.pt.deltaOfdm.set p (BitVec.ofInt 9 (dLookup s.cfg pol k).1)
      deltaCck := s.pt.deltaCck.set p (BitVec.ofInt 9 (dLookup s.cfg pol k).2)
      remnantOfdm := (pathComp p pol k s).pt.remnantOfdm
      remnantCck := (pathComp p pol k s).pt.remnantCck } ∧
    (pathComp p pol k s).cal = s.cal ∧ (pathComp p pol k s).seq = s.seq ∧ (pathComp p pol k s).work = s.work ∧
    (pathComp p pol k s).outcome = s.outcome ∧ (pathComp p pol k s).warnReg = s.warnReg := by
  unfold pathComp
  simp only
  split
  · rename_i h
    refine ⟨?_, rfl, rfl, rfl, rfl, rfl⟩
    rw [h.1, h.2]
    simp
  · exact ⟨rfl, rfl, rfl, rfl, rfl, rfl⟩

/-- PowerTrackState after PATHCOMP (R298, R291, R297). -/
theorem pathComp_pt_eq (p : Path) (pol : Polarity) (k : Nat) (s : State) :
    (pathComp p pol k s).pt =
      if (dLookup s.cfg pol k).1 = s.pt.deltaOfdm[p].toInt ∧ (dLookup s.cfg pol k).2 = s.pt.deltaCck[p].toInt then s.pt
      else { s.pt with
        deltaOfdm := s.pt.deltaOfdm.set p (BitVec.ofInt 9 (dLookup s.cfg pol k).1)
        deltaCck := s.pt.deltaCck.set p (BitVec.ofInt 9 (dLookup s.cfg pol k).2)
        remnantOfdm := s.pt.remnantOfdm.set p
          (BitVec.ofInt 10 (swClamp 42 (s.pt.ofdmIndex.toNat + (dLookup s.cfg pol k).1)).2)
        remnantCck := s.pt.remnantCck.set p
          (BitVec.ofInt 10 (swClamp 32 (s.pt.cckIndex.toNat + (dLookup s.cfg pol k).2)).2) } := by
  unfold pathComp
  dsimp only
  split <;> rfl

/-- RESYNC changes the two baseline indices of PowerTrackState, within their tables, and nothing else long-lived (R302). -/
theorem resync_pt {s : State} (h : s.cfg.wf = true) :
    (resync s).pt = { s.pt with ofdmIndex := (resync s).pt.ofdmIndex, cckIndex := (resync s).pt.cckIndex } ∧
    (resync s).pt.ofdmIndex.toNat ≤ 42 ∧ (resync s).pt.cckIndex.toNat ≤ 32 ∧ (resync s).cal = s.cal ∧
    (resync s).outcome = s.outcome ∧ (resync s).seq = s.seq := by
  have e1 := resyncO_eq (s := s) h
  have e2 := resyncC_eq (s := resyncO s) h
  unfold resync
  rw [e2, e1]
  exact ⟨rfl, ofdmIndexOf_le h _, cckIndexOf_le h _, rfl, rfl, rfl⟩

end Sys2Proof.Machine
end

