-- ==== Sys2Proof/Laws/Sense.lean ====
section
/-! SUPPORT. What the sensing half leaves alone (`State.Keeps` for unit 5 and the pass), and the thermal read and the average
said once (R262 to R274). -/

namespace Sys2Proof.Machine

theorem setSeq_keeps (s : State) (x : Seq) : s.Keeps { s with seq := x } :=
  ⟨rfl, rfl, rfl, rfl, rfl, rfl, rfl, rfl, rfl, rfl, .refl _, id⟩

theorem arm_keeps (s : State) : s.MeasKeeps (arm s) := s.perform_keeps _

theorem unsupChk_keeps (s : State) : s.Keeps (unsupChk s).2 := by
  unfold unsupChk
  split <;> exact ⟨rfl, rfl, rfl, rfl, rfl, rfl, rfl, rfl, rfl, rfl, .refl _, id⟩

theorem thermRead_keeps (s : State) : s.MeasKeeps (thermRead s).2 := s.setPort_keeps (Port.rfrd_grows _ _ _ _ _)

theorem avgUpd_keeps (t : Byte) (s : State) : s.Keeps (avgUpd t s).2 := setPt_keeps s _

theorem needIqk_keeps (avg : Byte) (s : State) : s.Keeps (needIqk avg s).2 := by
  unfold needIqk
  split
  · exact .refl s
  · exact setPt_keeps s _

theorem compChk_keeps (t : Byte) (s : State) : s.Keeps (compChk t s).2 := by
  unfold compChk
  split
  · exact setPt_keeps s _
  · exact .refl s

theorem compensate_keeps (pol : Polarity) (k : Nat) (s : State) : s.Keeps (compensate pol k s) :=
  (((s.setWork_keeps _).toKeeps.trans (pathComp_keeps 0 pol k _)).trans (State.setWork_keeps _ _).toKeeps).trans
    (pathComp_keeps 1 pol k _)

theorem passComp_keeps (t : Byte) (s : State) : s.Keeps (passComp t s) :=
  ((s.setPhase_keeps _).toKeeps.trans (setPt_keeps _ _)).trans (compensate_keeps _ _ _)

theorem passIqk_keeps (s : State) : s.Keeps (passIqk s) :=
  (((setSeq_keeps s _).trans (iqkAnchored_keeps _)).trans (setSeq_keeps _ _)).trans (resync_keeps _)

theorem passBody_keeps (s : State) : s.Keeps (passBody s) := by
  unfold passBody
  dsimp only
  have h1 := (thermRead_keeps s).toKeeps
  generalize thermRead s = r at *
  have h2 := h1.trans (avgUpd_keeps r.1 r.2)
  generalize avgUpd r.1 r.2 = a at *
  have h3 := h2.trans (needIqk_keeps a.1 a.2)
  generalize needIqk a.1 a.2 = n at *
  have h4 := h3.trans (compChk_keeps r.1 n.2)
  generalize compChk r.1 n.2 = g at *
  split <;> split
  · exact (h4.trans (passComp_keeps _ _)).trans (passIqk_keeps _)
  · exact h4.trans (passIqk_keeps _)
  · exact h4.trans (passComp_keeps _ _)
  · exact h4

theorem pass_keeps (s : State) : s.Keeps (Machine.pass s) := by
  have h := (s.setPhase_keeps .ptPassSense).toKeeps.trans (unsupChk_keeps _)
  unfold Machine.pass
  dsimp only
  split
  · exact h
  · exact h.trans (passBody_keeps _)

/-! ## The thermal read and the average -/

/-- THREAD said once (R264): the environment's next answer under the CODE mask. -/
theorem thermRead_eq (s : State) : thermRead s = ((fieldGet s.port.dev.drawTherm.1 s.cfg.maskCode).setWidth 8,
    s.setPort ⟨s.port.dev.drawTherm.2, s.port.trace ++ [⟨0x74, pathAux s.cfg.thermPath, s.cfg.rfTMeter.setWidth 16,
      s.cfg.maskCode, 0, fieldGet s.port.dev.drawTherm.1 s.cfg.maskCode⟩]⟩) := by
  simp [thermRead, Port.rfrd, Port.rfAnswer, State.setPort, Port.log]

/-- The average stays between two bounds that hold the samples (R266). -/
theorem avgNext_bounds (c : Config) (valid : Bool) (acc : Nat) (t : Byte) (lo hi : Nat) (h1 : lo ≤ t.toNat) (h2 : t.toNat ≤ hi)
    (h3 : valid = true → lo * 2 ^ c.avgPrec ≤ acc ∧ acc ≤ hi * 2 ^ c.avgPrec) :
    lo * 2 ^ c.avgPrec ≤ avgNext c valid acc t ∧ avgNext c valid acc t ≤ hi * 2 ^ c.avgPrec := by
  unfold avgNext
  simp only [Nat.shiftLeft_eq, Nat.shiftRight_eq_div_pow]
  have e1 := Nat.mul_le_mul_right (2 ^ c.avgPrec) h1
  have e2 := Nat.mul_le_mul_right (2 ^ c.avgPrec) h2
  split
  · rename_i hv
    obtain ⟨h4, h5⟩ := h3 hv
    have hK : 0 < 2 ^ c.avgRcpLog2 := by positivity
    generalize lo * 2 ^ c.avgPrec = L at *
    generalize hi * 2 ^ c.avgPrec = H at *
    generalize t.toNat * 2 ^ c.avgPrec = T at *
    generalize 2 ^ c.avgRcpLog2 = K at *
    obtain ⟨n, rfl⟩ : ∃ n, K = n + 1 := ⟨K - 1, by omega⟩
    have e3 : acc * (n + 1) - acc = acc * n := by rw [Nat.mul_add]; omega
    rw [e3]
    constructor
    · rw [Nat.le_div_iff_mul_le hK]
      nlinarith
    · apply Nat.le_of_lt_succ
      rw [Nat.div_lt_iff_lt_mul hK]
      nlinarith
  · exact ⟨e1, e2⟩

/-! ## The run with its anchor, and what it leaves of PowerTrackState and CalibrationState (R154, R157) -/

/-- An IQK run leaves PowerTrackState alone, but for the anchor when it is applied and there is an average (R157). -/
theorem iqkAnchored_spec (s : State) :
    (iqkAnchored s).2.pt = (if (iqkAnchored s).1 = true ∧ s.pt.avgValid[s.cfg.thermPath] = true then { s.pt with
      anchor := BitVec.ofNat 8 (s.pt.avgAcc[s.cfg.thermPath] >>> s.cfg.avgPrec), anchorValid := true } else s.pt) ∧
    ((iqkAnchored s).1 = true → (iqkAnchored s).2.cal.doneFlag = true ∧ ((iqkAnchored s).2.outcome = 0x03 ∨
      (iqkAnchored s).2.outcome = 0x07 ∨ (iqkAnchored s).2.outcome = outcomeWord true (candOf s.cfg.roundHybrid))) ∧
    ((iqkAnchored s).1 = false → (iqkAnchored s).2.cal = s.cal ∧ (iqkAnchored s).2.outcome = 0x00) ∧
    (iqkAnchored s).2.seq.ret = s.seq.ret := by
  obtain ⟨found, u, e, k1, k2, k3, k4, -, k6, -⟩ := iqkRun_spec s
  obtain ⟨f1, f2, f3, -, f5, f6, -, -⟩ := iqkFinish_spec found u
  have hc := (iqkRun_keeps s).cfg
  rw [← e] at f1 f2 f3 f5 f6
  have hp : (iqkRun s).2.pt = s.pt := f2.trans k1
  have hs : ∀ t : State, (anchorUpd t).cal = t.cal ∧ (anchorUpd t).outcome = t.outcome ∧ (anchorUpd t).seq = t.seq := by
    intro t
    unfold anchorUpd
    split <;> exact ⟨rfl, rfl, rfl⟩
  unfold iqkAnchored
  clear e
  generalize iqkRun s = y at *
  obtain ⟨b, y⟩ := y
  simp only at *
  subst f1
  cases b
  · simp only [Bool.false_eq_true, if_false, false_and, false_imp_iff, true_and, true_imp_iff]
    exact ⟨hp, ⟨f6.trans k2, f5⟩, f3.trans k4⟩
  · obtain ⟨a1, a2, a3⟩ := hs y
    simp only [if_true, true_and, true_imp_iff, a1, a2, a3]
    refine ⟨?_, ⟨by rw [f6]; rfl, ?_⟩, by simp, f3.trans k4⟩
    · unfold anchorUpd
      simp only [hp, hc]
      split
      · rfl
      · exact hp
    · rw [f5]
      obtain ⟨q | q | q, -, -⟩ := k6 rfl <;> rw [q]
      · exact .inl (by decide)
      · exact .inr (.inl (by decide))
      · exact .inr (.inr rfl)

/-! ## The two threshold decisions and the compensation of both paths -/

/-- After NEEDIQK there is an anchor (R268). -/
theorem needIqk_state (avg : Byte) (s : State) :
    ∃ a, (needIqk avg s).2 = s.setPt { s.pt with anchor := a, anchorValid := true } := by
  unfold needIqk
  split
  · rename_i h
    refine ⟨s.pt.anchor, ?_⟩
    simp only [State.setPt]
    rw [← h]
  · exact ⟨_, rfl⟩

/-- After COMPCHK no first pass is awaited (R270). -/
theorem compChk_state (t : Byte) (s : State) : (compChk t s).2 = s.setPt { s.pt with initTrigger := false } := by
  unfold compChk
  split
  · rfl
  · rename_i h
    simp only [Bool.not_eq_true] at h
    simp only [State.setPt]
    rw [← h]

/-- The compensation of both paths leaves CalibrationState, OUTCOME, the sequencer's flags and the warnings alone (R274). -/
theorem compensate_rest (pol : Polarity) (k : Nat) (s : State) :
    (compensate pol k s).cal = s.cal ∧ (compensate pol k s).outcome = s.outcome ∧ (compensate pol k s).seq = s.seq ∧
    (compensate pol k s).warnReg = s.warnReg := by
  unfold compensate
  have p1 := pathComp_pt 0 pol k (s.setWork { s.work with p := 0 })
  generalize pathComp 0 pol k (s.setWork { s.work with p := 0 }) = a at *
  have p2 := pathComp_pt 1 pol k (a.setWork { a.work with p := 1 })
  exact ⟨p2.2.1.trans p1.2.1, p2.2.2.2.2.1.trans p1.2.2.2.2.1, p2.2.2.1.trans p1.2.2.1, p2.2.2.2.2.2.trans p1.2.2.2.2.2⟩

end Sys2Proof.Machine
end

