-- ==== Sys2Proof/Laws/Wires.lean ====
section
/-! SUPPORT. The operations that a composite one calls read and write no wire of State (assumption log 3): they commute with a
change of the wires, so a composite operation is the operations of its rule issued one after the other. -/

namespace Sys2Proof.Machine

/-! ## Unit 2 -/

theorem backup_wires (s : State) (w : Wires) : backup (s.setWires w) = (backup s).setWires w := rfl

theorem calcfg_wires (k : MeasKind) (p : Path) (s : State) (w : Wires) :
    calcfg k p (s.setWires w) = (calcfg k p s).setWires w := by cases k <;> rfl

theorem oneshot_wires (s : State) (w : Wires) : oneshot (s.setWires w) = ((oneshot s).1, (oneshot s).2.setWires w) := by
  unfold oneshot
  simp only [State.setWires_cfg, State.setWires_port]
  obtain ⟨v, q⟩ := oneshotPort s.cfg s.port
  cases v <;> rfl

theorem txatt_wires (s : State) (w : Wires) : txatt (s.setWires w) = ((txatt s).1, (txatt s).2.setWires w) := by
  unfold txatt
  rw [oneshot_wires]
  obtain ⟨v, t⟩ := oneshot s
  cases v <;> rfl

theorem rxatt_wires (s : State) (w : Wires) : rxatt (s.setWires w) = ((rxatt s).1, (rxatt s).2.setWires w) := by
  unfold rxatt
  rw [oneshot_wires]
  obtain ⟨v, t⟩ := oneshot s
  cases v <;> rfl

theorem tries_wires {att : State → Attempt × State} (ha : ∀ s w, att (s.setWires w) = ((att s).1, (att s).2.setWires w))
    (r : Round) (g : Group) (n a : Nat) (s : State) (w : Wires) :
    tries att r g n a (s.setWires w) = ((tries att r g n a s).1, (tries att r g n a s).2.setWires w) := by
  induction n generalizing a s with
  | zero => rfl
  | succ n ih =>
    have e : (s.setWires w).setWork { (s.setWires w).work with a := a } =
        (s.setWork { s.work with a := a }).setWires w := rfl
    rw [tries, tries, e, ha]
    obtain ⟨v, t⟩ := att (s.setWork { s.work with a := a })
    rcases v with _ | ⟨_ | _, x, y⟩
    · exact ih _ _
    · exact ih _ _
    · rfl

theorem txmeas_wires (r : Round) (p : Path) (s : State) (w : Wires) :
    txmeas r p (s.setWires w) = ((txmeas r p s).1, (txmeas r p s).2.setWires w) := by
  unfold txmeas
  rw [calcfg_wires]
  exact tries_wires txatt_wires _ _ _ _ _ _

theorem rxmeas_wires (r : Round) (p : Path) (txok : Bool) (s : State) (w : Wires) :
    rxmeas r p txok (s.setWires w) = (rxmeas r p txok s).setWires w := by
  cases txok
  · rfl
  · unfold rxmeas
    rw [if_pos rfl, if_pos rfl, calcfg_wires]
    exact congrArg Prod.snd (tries_wires rxatt_wires _ _ _ _ _ _)

theorem roundRestore_wires (s : State) (w : Wires) : roundRestore (s.setWires w) = (roundRestore s).setWires w := rfl

theorem roundPath_wires (r : Round) (p : Path) (s : State) (w : Wires) :
    roundPath r p (s.setWires w) = (roundPath r p s).setWires w := by
  unfold roundPath
  have e : (s.setWires w).setWork { (s.setWires w).work with p := p } = (s.setWork { s.work with p := p }).setWires w := rfl
  dsimp only
  rw [e, txmeas_wires, rxmeas_wires]

theorem measRound_wires (r : Round) (s : State) (w : Wires) : measRound r (s.setWires w) = (measRound r s).setWires w := by
  unfold measRound
  have e : ((s.setWires w).setPhase .calRound).setWork { (s.setWires w).work with r := r } =
    ((s.setPhase .calRound).setWork { s.work with r := r }).setWires w := rfl
  dsimp only
  rw [e, roundPath_wires, roundPath_wires, roundRestore_wires]

/-! ## Unit 3 -/

theorem voteOver_wires (r : Round) (l : List Round) (s : State) (w : Wires) :
    voteOver r l (s.setWires w) = ((voteOver r l s).1, (voteOver r l s).2.setWires w) := by
  induction l generalizing s with
  | nil => rfl
  | cons j l ih =>
    rw [voteOver, voteOver]
    by_cases h : simCmp s.cfg s.work j r = true
    · rw [if_pos h, if_pos (show simCmp (s.setWires w).cfg (s.setWires w).work j r = true from h)]
      rfl
    · rw [if_neg h, if_neg (show ¬ simCmp (s.setWires w).cfg (s.setWires w).work j r = true from h)]
      exact ih (s.setWork { s.work with j := j })

theorem vote_wires (r : Round) (s : State) (w : Wires) : vote r (s.setWires w) = ((vote r s).1, (vote r s).2.setWires w) :=
  voteOver_wires r (roundsBefore r) ((s.setPhase .calVote).setWork { s.work with r := r }) w

theorem hybAcc_wires (s : State) (w : Wires) : hybAcc (s.setWires w) = (hybAcc s).setWires w := rfl

theorem hybNorm_wires (s : State) (w : Wires) : hybNorm (s.setWires w) = (hybNorm s).setWires w := rfl

theorem hybChk_wires (s : State) (w : Wires) : hybChk (s.setWires w) = ((hybChk s).1, (hybChk s).2.setWires w) := by
  unfold hybChk
  by_cases h : aggregate s.cfg s.work = 0
  · rw [if_pos h, if_pos (show aggregate (s.setWires w).cfg (s.setWires w).work = 0 from h)]
    rfl
  · rw [if_neg h, if_neg (show ¬ aggregate (s.setWires w).cfg (s.setWires w).work = 0 from h)]
    rfl

theorem hybrid_wires (s : State) (w : Wires) : hybrid (s.setWires w) = ((hybrid s).1, (hybrid s).2.setWires w) := by
  unfold hybrid
  rw [hybAcc_wires, hybNorm_wires, hybChk_wires]

/-! ## Unit 4 -/

theorem applyPath_wires (cand : BitVec 2) (p : Path) (s : State) (w : Wires) :
    applyPath cand p (s.setWires w) = (applyPath cand p s).setWires w := by
  rw [applyPath_eq, applyPath_eq]
  rfl

theorem applyCand_wires (cand : BitVec 2) (s : State) (w : Wires) :
    applyCand cand (s.setWires w) = (applyCand cand s).setWires w := by
  unfold applyCand
  rw [show (s.setWires w).setPhase .calApply = (s.setPhase .calApply).setWires w from rfl, applyPath_wires, applyPath_wires]

theorem retain_wires (cand : BitVec 2) (s : State) (w : Wires) : retain cand (s.setWires w) = (retain cand s).setWires w := rfl

theorem finalRestore_wires (s : State) (w : Wires) : finalRestore (s.setWires w) = (finalRestore s).setWires w := rfl

theorem iqkFinish_wires (found : Bool) (s : State) (w : Wires) :
    iqkFinish found (s.setWires w) = ((iqkFinish found s).1, (iqkFinish found s).2.setWires w) := by
  cases found
  · rfl
  · unfold iqkFinish
    dsimp only
    rw [if_pos rfl, if_pos rfl, show (s.setWires w).work = s.work from rfl, applyCand_wires, retain_wires, finalRestore_wires]
    rfl

theorem iqkRun_wires (s : State) (w : Wires) : iqkRun (s.setWires w) = ((iqkRun s).1, (iqkRun s).2.setWires w) := by
  unfold iqkRun
  have e : (s.setWires w).setWork (s.setWires w).work.clear = (s.setWork s.work.clear).setWires w := rfl
  dsimp only
  rw [e, backup_wires, measRound_wires, measRound_wires, vote_wires]
  generalize vote 1 (measRound 1 (measRound 0 (backup (s.setWork s.work.clear)))) = v1
  obtain ⟨b1, v1⟩ := v1
  cases b1
  · dsimp only
    rw [if_neg Bool.false_ne_true, if_neg Bool.false_ne_true, measRound_wires, vote_wires]
    generalize vote 2 (measRound 2 v1) = v2
    obtain ⟨b2, v2⟩ := v2
    cases b2
    · dsimp only
      rw [if_neg Bool.false_ne_true, if_neg Bool.false_ne_true, hybrid_wires]
      generalize hybrid v2 = y
      exact iqkFinish_wires y.1 y.2 w
    · exact iqkFinish_wires true v2 w
  · exact iqkFinish_wires true v1 w

/-! ## Units 5 and 6 -/

theorem pathComp_wires (p : Path) (pol : Polarity) (k : Nat) (s : State) (w : Wires) :
    pathComp p pol k (s.setWires w) = (pathComp p pol k s).setWires w := by
  unfold pathComp
  simp only [State.setWires_cfg, State.setWires_pt]
  by_cases h : (dLookup s.cfg pol k).1 = s.pt.deltaOfdm[p].toInt ∧ (dLookup s.cfg pol k).2 = s.pt.deltaCck[p].toInt
  · simp only [h, and_self, if_true]
  · simp only [h, if_false]
    rfl

theorem unsupChk_wires (s : State) (w : Wires) :
    unsupChk (s.setWires w) = ((unsupChk s).1, (unsupChk s).2.setWires w) := by
  unfold unsupChk
  simp only [State.setWires_cfg, State.setWires_thermalRef]
  by_cases h : s.thermalRef = s.cfg.thermUnsupported
  · simp only [h, if_true]
    rfl
  · simp only [h, if_false]

theorem thermRead_wires (s : State) (w : Wires) :
    thermRead (s.setWires w) = ((thermRead s).1, (thermRead s).2.setWires w) := rfl

theorem avgUpd_wires (t : Byte) (s : State) (w : Wires) :
    avgUpd t (s.setWires w) = ((avgUpd t s).1, (avgUpd t s).2.setWires w) := rfl

theorem needIqk_wires (avg : Byte) (s : State) (w : Wires) :
    needIqk avg (s.setWires w) = ((needIqk avg s).1, (needIqk avg s).2.setWires w) := by
  unfold needIqk
  simp only [State.setWires_cfg, State.setWires_pt]
  by_cases h : s.pt.anchorValid = true <;> simp only [h, Bool.false_eq_true, if_true, if_false] <;> rfl

theorem compChk_wires (t : Byte) (s : State) (w : Wires) :
    compChk t (s.setWires w) = ((compChk t s).1, (compChk t s).2.setWires w) := by
  unfold compChk
  simp only [State.setWires_cfg, State.setWires_pt]
  by_cases h : s.pt.initTrigger = true <;> simp only [h, Bool.false_eq_true, if_true, if_false] <;> rfl

theorem rawDelta_wires (t : Byte) (s : State) (w : Wires) :
    rawDelta t (s.setWires w) = ((rawDelta t s).1, (rawDelta t s).2.setWires w) := rfl

theorem compensate_wires (pol : Polarity) (k : Nat) (s : State) (w : Wires) :
    compensate pol k (s.setWires w) = (compensate pol k s).setWires w := by
  unfold compensate
  have e : ∀ (t : State) (p : Path), (t.setWires w).setWork { (t.setWires w).work with p := p } =
    (t.setWork { t.work with p := p }).setWires w := fun _ _ => rfl
  dsimp only
  rw [e, pathComp_wires, e, pathComp_wires]

theorem anchorUpd_wires (s : State) (w : Wires) : anchorUpd (s.setWires w) = (anchorUpd s).setWires w := by
  unfold anchorUpd
  simp only [State.setWires_cfg, State.setWires_pt]
  by_cases h : s.pt.avgValid[s.cfg.thermPath] = true
  · simp only [h, if_true]
    rfl
  · simp only [h, Bool.false_eq_true, if_false]

theorem resync_wires (s : State) (w : Wires) : resync (s.setWires w) = (resync s).setWires w := rfl

end Sys2Proof.Machine
end

