-- ==== Sys2Proof/Tests/Slice0.lean ====
section
/-! SUPPORT. Tests on fixed values: the checks of a configuration refuse ill-formed ones, the codes of 30_encoding.md decode,
the vectors of 95_test_vectors.md come out, and every obligation with hypotheses has a state that meets them. -/

namespace Sys2Proof.Tests

open Sys2Proof Sys2Proof.Machine

set_option Elab.async false

/-! ## Fixtures (95_test_vectors.md section 0) -/

/-- FIX_DT. -/
def fixDt : List Byte := (List.range 30).map (fun k => BitVec.ofNat 8 (k / 2))

/-- FIX_CCK and FIX_DT on the default configuration, with the list values of LISTS_SMALL for ANT_SW_VAL. -/
def fixCfg : Config := { Config.default with
  cckTbl := cckTable (fun i k => BitVec.ofNat 8 ((9 + i) * (8 - k) / 8)), cckTbl14 := cckTable (fun _ _ => 0)
  dtOfdmPos := fixDt, dtOfdmNeg := fixDt, dtCckPos := fixDt, dtCckNeg := fixDt
  antUsb := 0, antSdio := 0x280, antPcie := 0x200 }

/-- LISTS_SMALL. -/
def smallCfg : Config := { fixCfg with
  backupSet := [.ctl 0x0764 0xFFFFFFFF, .ctl 0x0948 0xFFFFFFFF, .ctl 0x0C80 0xFFFFFFFF, .ctl 0x0C88 0xFFFFFFFF,
    .ctl 0x0C14 0xFFFFFFFF, .ctl 0x0C1C 0xFFFFFFFF]
  calcfgTx := #v[[.wr .w32 0x0948 .ant], [.wr .w32 0x0948 .ant]]
  calcfgRx := #v[[.wr .w32 0x0948 .ant], [.wr .w32 0x0948 .ant]]
  rxgainBaseline := [.wrm 0x0C50 0x7F (.lit 0x20)], rxmodeBaseline := [.wr .w32 0x0E28 (.lit 0)] }

/-- A block with the fixtures and LISTS_EMPTY. -/
def blk : State := State.resetWith fixCfg

/-- A block with LISTS_SMALL. -/
def blkS : State := { State.resetWith smallCfg with hciKind := .sdio }

/-- Stores a word at an address. -/
def put (a : Addr) (v : Word) (s : State) : State :=
  s.setPort { s.port with dev := s.port.dev.store s.cfg .w32 a v }

/-- Stores a byte at an address. -/
def put8 (a : Addr) (v : Byte) (s : State) : State := s.setPort { s.port with dev := s.port.dev.storeByte s.cfg a v }

/-- Pending answers: status words, thermal codes, polls. -/
def ask (st : List Word) (th : List Nat) (po : List Verdict) (s : State) : State :=
  s.setPort { s.port with dev := { s.port.dev with
    statusQ := st, thermQ := th.map (fun t => BitVec.ofNat 32 (t * 1024)), pollQ := po, chanQ := [6, 6], hciQ := [1],
    reapplyQ := [[], []] } }

/-- The three status words of one attempt (ENV MEAS). -/
def meas (tx f : Bool) (x y : Raw) : List Word :=
  [if f then (if tx then 0x10000000 else 0x08000000) else 0, x.setWidth 32 <<< 16, y.setWidth 32 <<< 16]

/-- An operation answers a next state of which `p` holds. -/
def gives (r : Result) (p : State → Bool) : Bool :=
  match r with
  | .next t => p t
  | .fault _ => false
  | .refused _ => false

/-- The word at an address. -/
def wordOf (t : State) (a : Addr) : Word := t.port.dev.mem.wordAt a

/-- The block with operands on the wires. -/
def on (x : Wires) (s : State) : State := s.setWires x

/-! ## WellFormed: every check refuses an ill-formed configuration, and the fixtures are accepted (R356) -/

theorem test_fixCfg_accepted : fixCfg.wf = true := by decide +kernel
theorem test_smallCfg_accepted : smallCfg.wf = true := by decide +kernel
theorem test_tableSize_refused : ({ fixCfg with ofdmTblSz := 42 } : Config).problem = some .count := by decide +kernel
theorem test_roundHybrid_refused : ({ fixCfg with roundHybrid := 2 } : Config).problem = some .count := by decide +kernel
theorem test_misaligned_refused : ({ fixCfg with ecca := 0x0C4E } : Config).problem = some .misaligned := by decide +kernel
theorem test_sameAddress_refused : ({ fixCfg with ecca := 0x0C80 } : Config).problem = some .sameAddress := by
  decide +kernel
theorem test_classOverlap_refused : ({ fixCfg with cckReg0 := 0x0E49 } : Config).problem = some .classOverlap := by
  decide +kernel
theorem test_fieldMask_refused : ({ fixCfg with maskA := 0x000001FF } : Config).problem = some .fieldMask := by
  decide +kernel
theorem test_fieldOverlap_refused : ({ fixCfg with maskCLo := 0x000003F0 } : Config).problem = some .fieldMask := by
  decide +kernel
theorem test_deltaTable_refused : ({ fixCfg with dtCckNeg := fixDt.reverse } : Config).problem = some .deltaTable := by
  decide +kernel
theorem test_deltaSize_refused : ({ fixCfg with
    deltaTblSz := 0, dtOfdmPos := [], dtOfdmNeg := [], dtCckPos := [], dtCckNeg := [] } : Config).problem =
      some .deltaSize := by decide +kernel
theorem test_retry_refused : ({ fixCfg with retryRx := 0 } : Config).problem = some .retry := by decide +kernel
theorem test_rxWindow_refused : ({ fixCfg with rxXUpper := 0x0E6 } : Config).problem = some .rxWindow := by decide +kernel
theorem test_thresholds_refused : ({ fixCfg with compThresh := 8 } : Config).problem = some .thresholds := by
  decide +kernel
theorem test_defaultIndex_refused : ({ fixCfg with defCckIndex := 33 } : Config).problem = some .defaultIndex := by
  decide +kernel
theorem test_scale_refused : ({ fixCfg with frac := 9 } : Config).problem = some .scale := by decide +kernel
theorem test_readW_refused : ({ fixCfg with readW := 11 } : Config).problem = some .width := by decide +kernel
theorem test_addrW_refused : ({ fixCfg with addrW := 11 } : Config).problem = some .width := by decide +kernel
theorem test_cckReg_beyond_addrW_refused : ({ fixCfg with cckReg0 := 0xFFF9 } : Config).problem = some .width := by
  decide +kernel
theorem test_listElement_refused :
    ({ fixCfg with backupSet := [.ctl 0x0E90 0xFFFFFFFF] } : Config).problem = some .listElement := by decide +kernel
theorem test_listRf_refused :
    ({ fixCfg with rxgainBaseline := [.rfwr 0 0x42 0x1 (.lit 0)] } : Config).problem = some .listElement := by
  decide +kernel
theorem test_ant_outside_calibration_refused : ({ fixCfg with idleImbalance := [.wr .w32 0x0C50 .ant] } : Config).problem =
    some .antUse := by decide +kernel
theorem test_ant_in_calibration_accepted : ({ fixCfg with calcfgTx := #v[[.wr .w32 0x0C50 .ant], []] } : Config).wf = true := by
  decide +kernel
theorem test_lock_footprint : (match outsideWrites [.ctl 0x0C80 1] { blk with busy := true } with
    | .refused r => decide (r = .lockViolated)
    | _ => false) = true := by decide +kernel
theorem test_lock_elsewhere : gives (outsideWrites [.ctl 0x0100 7, .rf 1 0x42 5] { blk with busy := true })
    (fun t => decide (t.port.dev.mem.byteAt 0x0100 = 7) && t.busy) = true := by decide +kernel
theorem test_build_refuses : (match State.build { fixCfg with retryTx := 0 } with
    | .ok _ => false
    | .error r => decide (r = .badConfiguration .retry)) = true := by decide +kernel
theorem test_host_may_not_issue_iqkrun : Instr.iqkrun.wellFormed .host = false := by decide
theorem test_sequencer_may_not_issue_tick : Instr.tick.wellFormed .sequencer = false := by decide

/-! ## Decoding: unit and operation digits written out from the code map of R135 -/

theorem test_decode_unit0 : decode (0b0000#4 ++ 0b0001#4) = .ok .init ∧ decode (0b0000#4 ++ 0b0010#4) = .ok .calibrate ∧
    decode (0b0000#4 ++ 0b0011#4) = .ok .tick ∧ decode (0b0000#4 ++ 0b0100#4) = .ok .detach := ⟨rfl, rfl, rfl, rfl⟩
theorem test_decode_unit1 : decode (0b0001#4 ++ 0b0000#4) = .ok .canon ∧ decode (0b0001#4 ++ 0b0001#4) = .ok .encode ∧
    decode (0b0001#4 ++ 0b0010#4) = .ok .iqmult ∧ decode (0b0001#4 ++ 0b0011#4) = .ok .absdiff := ⟨rfl, rfl, rfl, rfl⟩
theorem test_decode_unit2 : decode (0b0010#4 ++ 0b0000#4) = .ok .backup ∧ decode (0b0010#4 ++ 0b0001#4) = .ok .calcfg ∧
    decode (0b0010#4 ++ 0b0010#4) = .ok .oneshot ∧ decode (0b0010#4 ++ 0b0011#4) = .ok .txchk ∧
    decode (0b0010#4 ++ 0b0100#4) = .ok .rxchk ∧ decode (0b0010#4 ++ 0b0101#4) = .ok .txatt ∧
    decode (0b0010#4 ++ 0b0110#4) = .ok .rxatt ∧ decode (0b0010#4 ++ 0b0111#4) = .ok .txmeas ∧
    decode (0b0010#4 ++ 0b1000#4) = .ok .rxmeas ∧ decode (0b0010#4 ++ 0b1001#4) = .ok .round ∧
    decode (0b0010#4 ++ 0b1010#4) = .ok .roundrestore := ⟨rfl, rfl, rfl, rfl, rfl, rfl, rfl, rfl, rfl, rfl, rfl⟩
theorem test_decode_unit3 : decode (0b0011#4 ++ 0b0000#4) = .ok .simslot ∧ decode (0b0011#4 ++ 0b0001#4) = .ok .simcmp ∧
    decode (0b0011#4 ++ 0b0010#4) = .ok .vote ∧ decode (0b0011#4 ++ 0b0011#4) = .ok .hybacc ∧
    decode (0b0011#4 ++ 0b0100#4) = .ok .hybnorm ∧ decode (0b0011#4 ++ 0b0101#4) = .ok .hybchk :=
  ⟨rfl, rfl, rfl, rfl, rfl, rfl⟩
theorem test_decode_unit4 : decode (0b0100#4 ++ 0b0000#4) = .ok .usable ∧ decode (0b0100#4 ++ 0b0001#4) = .ok .filltx ∧
    decode (0b0100#4 ++ 0b0010#4) = .ok .fillrx ∧ decode (0b0100#4 ++ 0b0011#4) = .ok .retain ∧
    decode (0b0100#4 ++ 0b0100#4) = .ok .apply ∧ decode (0b0100#4 ++ 0b0101#4) = .ok .finalrestore ∧
    decode (0b0100#4 ++ 0b0110#4) = .ok .iqkrun := ⟨rfl, rfl, rfl, rfl, rfl, rfl, rfl⟩
theorem test_decode_unit5 : decode (0b0101#4 ++ 0b0000#4) = .ok .arm ∧ decode (0b0101#4 ++ 0b0001#4) = .ok .unsupchk ∧
    decode (0b0101#4 ++ 0b0010#4) = .ok .thread ∧ decode (0b0101#4 ++ 0b0011#4) = .ok .avgupd ∧
    decode (0b0101#4 ++ 0b0100#4) = .ok .needIqk ∧ decode (0b0101#4 ++ 0b0101#4) = .ok .compchk ∧
    decode (0b0101#4 ++ 0b0110#4) = .ok .rawdelta ∧ decode (0b0101#4 ++ 0b0111#4) = .ok .pass :=
  ⟨rfl, rfl, rfl, rfl, rfl, rfl, rfl, rfl⟩
theorem test_decode_unit6 : decode (0b0110#4 ++ 0b0000#4) = .ok .dlookup ∧ decode (0b0110#4 ++ 0b0001#4) = .ok .swclamp ∧
    decode (0b0110#4 ++ 0b0010#4) = .ok .swofdm ∧ decode (0b0110#4 ++ 0b0011#4) = .ok .swcck ∧
    decode (0b0110#4 ++ 0b0100#4) = .ok .commit ∧ decode (0b0110#4 ++ 0b0101#4) = .ok .pathcomp ∧
    decode (0b0110#4 ++ 0b0110#4) = .ok .resynco ∧ decode (0b0110#4 ++ 0b0111#4) = .ok .resyncc ∧
    decode (0b0110#4 ++ 0b1000#4) = .ok .resync := ⟨rfl, rfl, rfl, rfl, rfl, rfl, rfl, rfl, rfl⟩
theorem test_decode_unit7 : decode (0b0111#4 ++ 0b0000#4) = .ok .rd ∧ decode (0b0111#4 ++ 0b0001#4) = .ok .wr ∧
    decode (0b0111#4 ++ 0b0010#4) = .ok .rdm ∧ decode (0b0111#4 ++ 0b0011#4) = .ok .wrm ∧
    decode (0b0111#4 ++ 0b0100#4) = .ok .rfrd ∧ decode (0b0111#4 ++ 0b0101#4) = .ok .rfwr ∧
    decode (0b0111#4 ++ 0b0110#4) = .ok .delay ∧ decode (0b0111#4 ++ 0b0111#4) = .ok .poll ∧
    decode (0b0111#4 ++ 0b1000#4) = .ok .hookChan ∧ decode (0b0111#4 ++ 0b1001#4) = .ok .hookReapply ∧
    decode (0b0111#4 ++ 0b1010#4) = .ok .hookHci := ⟨rfl, rfl, rfl, rfl, rfl, rfl, rfl, rfl, rfl, rfl, rfl⟩

/-- Sixty codes decode; every other one is rejected (R135, R136). -/
theorem test_decode_count : ((List.range 256).filter (fun n => match decode (BitVec.ofNat 8 n) with
    | .ok _ => true
    | .error _ => false)).length = 60 := by decide +kernel
theorem test_reject_0x05 : decode 0x05 = .error (.unassigned 0x05) := rfl
theorem test_reject_0x2B : decode 0x2B = .error (.unassigned 0x2B) := rfl
theorem test_reject_0x80 : decode 0x80 = .error (.reservedUnit 0x8) := rfl
theorem test_reject_0xFF : decode 0xFF = .error (.reservedUnit 0xF) := rfl

/-! ## Unit 1 (vectors of section 2.1) -/

/-- The wires at zero. -/
def w0 : Wires := Wires.zero

theorem test_canon_0x3F0 : gives (exec .canon (on { w0 with u := 0x3F0 } blk)) (fun t => t.wires.s == -16) = true := by
  decide +kernel
theorem test_canon_0x1FF : gives (exec .canon (on { w0 with u := 0x1FF } blk)) (fun t => t.wires.s == 511) = true := by
  decide +kernel
theorem test_encode_neg512 : gives (exec .encode (on { w0 with s := -512 } blk)) (fun t => t.wires.u == 0x200) = true := by
  decide +kernel
theorem test_encode_256 : gives (exec .encode (on { w0 with s := 256 } blk)) (fun t => t.wires.u == 0x100) = true := by
  decide +kernel
theorem test_iqmult_negative : gives (exec .iqmult (on { w0 with s := -8, d := 0x142 } blk))
    (fun t => t.wires.elem == 0x3F5 && t.wires.ext) = true := by decide +kernel
theorem test_iqmult_wraps : gives (exec .iqmult (on { w0 with s := 511, d := 0x3FF } blk))
    (fun t => t.wires.elem == 0x3FA && !t.wires.ext) = true := by decide +kernel
/-- A block whose correlator values have nine bits (P9): 0x1FF is -1. -/
def nine : State := State.resetWith { fixCfg with
  readW := 9, frac := 7, maskX := 0x1FF, maskResTx := 0x01FF0000, maskResRx := 0x01FF0000 }

theorem test_canon_nine_bits : nine.cfg.wf = true ∧
    gives (exec .canon (on { w0 with u := 0x1FF } nine)) (fun t => t.wires.s == -1) = true := by decide +kernel
theorem test_absdiff_across_zero : gives (exec .absdiff (on { w0 with u := 0x3FE, v := 0x003 } blk))
    (fun t => t.wires.dist == 5) = true := by decide +kernel
theorem test_absdiff_largest : gives (exec .absdiff (on { w0 with u := 0x200, v := 0x1FF } blk))
    (fun t => t.wires.dist == 1023) = true := by decide +kernel

/-! ## Unit 7 (vectors of section 2.3) -/

/-- Bytes 0x0A20 to 0x0A23 hold 11 22 33 44. -/
def blkB : State := put 0x0A20 0x44332211 blk

theorem test_wr_byte : gives (exec .wr (on { w0 with width := .w8, addr := 0x0A22, val := 0x21 } blkB))
    (fun t => wordOf t 0x0A20 == 0x44212211) = true := by decide +kernel
theorem test_rd_word : gives (exec .rd (on { w0 with width := .w32, addr := 0x0A20 } blkB))
    (fun t => t.wires.val == 0x44332211) = true := by decide +kernel
theorem test_rd_half : gives (exec .rd (on { w0 with width := .w16, addr := 0x0A22 } blkB))
    (fun t => t.wires.val == 0x4433) = true := by decide +kernel
theorem test_rdm_storage : gives (exec .rdm (on { w0 with addr := 0x0C80, mask := 0x003F0000 } (put 0x0C80 0x3CB800F5 blk)))
    (fun t => t.wires.val == 0x38) = true := by decide +kernel
theorem test_rdm_status : gives (exec .rdm (on { w0 with addr := 0x0E94, mask := 0x03FF0000 } (ask [0x01040000] [] [] blk)))
    (fun t => t.wires.val == 0x104 && t.port.dev.statusQ == []) = true := by decide +kernel
theorem test_wrm_field : gives (exec .wrm (on { w0 with addr := 0x0C78, mask := 0xF000, val := 0xF } (put 0x0C78 0x12345678 blk)))
    (fun t => wordOf t 0x0C78 == 0x1234F678) = true := by decide +kernel
theorem test_wrm_clears : gives (exec .wrm (on { w0 with addr := 0x0C50, mask := 0x7F, val := 0x20 } (put 0x0C50 0x32 blk)))
    (fun t => wordOf t 0x0C50 == 0x20) = true := by decide +kernel
theorem test_rfrd_meter : gives (exec .rfrd (on { w0 with rfIndex := 0x42, rfMask := 0x0FC00 } (ask [] [38] [] blk)))
    (fun t => t.wires.val == 38) = true := by decide +kernel
theorem test_rfwr_trigger : gives (exec .rfwr (on { w0 with rfIndex := 0x42, rfMask := 0x30000, val := 3 } blk))
    (fun t => Store.read t.port.dev.rf 0x42 == 0x30000#32) = true := by decide +kernel
theorem test_delay_record : gives (exec .delay (on { w0 with delayUnit := .ms, dur := 20 } blk))
    (fun t => t.port.trace.map TraceRec.pack == [0x00000000000000140000000000000176#128]) = true := by decide +kernel
theorem test_poll_record : gives (exec .poll (on { w0 with addr := 0x0E90, mask := 0x400, expect := 1 } (ask [] [] [.timeout] blk)))
    (fun t => t.wires.verdict == .timeout &&
      t.port.trace.map TraceRec.pack == [0x0000000100000001000004000E902077#128]) = true := by decide +kernel
theorem test_hookChan : gives (exec .hookChan (ask [] [] [] blk)) (fun t => t.wires.chan == 6) = true := by decide +kernel
theorem test_hookReapply_record : gives (exec .hookReapply (on { w0 with chan := 6 } (ask [] [] [] blk)))
    (fun t => t.port.trace.map TraceRec.pack == [0x00000000000000060000000000000079#128]) = true := by decide +kernel
theorem test_hookHci_sdio : gives (exec .hookHci (ask [] [] [] blk)) (fun t => t.wires.hci == .sdio) = true := by
  decide +kernel

/-- The 128-bit form of R140, both ways (records of section 0). -/
theorem test_pack : TraceRec.pack ⟨0x71, 0x20, 0x0C80, 0xFFFFFFFF, 0x50800142, 0⟩ = 0x0000000050800142FFFFFFFF0C802071#128 ∧
    TraceRec.unpack 0x00000026000000000000FC0000420074#128 = ⟨0x74, 0x00, 0x0042, 0x0000FC00, 0, 38⟩ := by decide +kernel

/-! ## Unit 2 (vectors of section 2.4) -/

theorem test_backup : gives (exec .backup (put 0x0764 0x1800 blkS)) (fun t => t.work.bkp == [0x1800, 0, 0, 0, 0, 0]) = true := by
  decide +kernel
theorem test_calcfg_sdio : gives (exec .calcfg blkS)
    (fun t => t.port.trace == [⟨0x71, 0x20, 0x0948, 0xFFFFFFFF, 0x280, 0⟩]) = true := by decide +kernel
theorem test_oneshot_timeout : gives (exec .oneshot (ask [] [] [.timeout] blk))
    (fun t => t.wires.verdict == .timeout && t.warnReg == 0x0001 && t.port.trace.length == 4) = true := by decide +kernel
theorem test_txchk_pattern : gives (exec .txchk (on { w0 with x := 0x142 } blk)) (fun t => !t.wires.ok) = true := by
  decide +kernel
theorem test_txchk_no_range : gives (exec .txchk (on { w0 with x := 0x200, y := 0x1FF } blk)) (fun t => t.wires.ok) = true := by
  decide +kernel
theorem test_rxchk_strict : gives (exec .rxchk (on { w0 with x := 0x0E6 } blk)) (fun t => !t.wires.ok) = true := by
  decide +kernel
theorem test_rxchk_negative_y : gives (exec .rxchk (on { w0 with x := 0x100, y := 0x3E7 } blk)) (fun t => t.wires.ok) = true := by
  decide +kernel
theorem test_txatt_ok : gives (exec .txatt (ask (meas true false 0x104 0x3F8) [] [.ok] blk))
    (fun t => t.wires.ok && t.wires.x == 0x104 && t.wires.y == 0x3F8 && t.port.trace.length == 7) = true := by decide +kernel
theorem test_txatt_timeout : gives (exec .txatt (ask [] [] [.timeout] blk))
    (fun t => !t.wires.ok && t.port.trace.length == 4 && t.warnReg == 0x0001) = true := by decide +kernel
theorem test_rxatt_fail_bit : gives (exec .rxatt (ask (meas false true 0x100 0) [] [.ok] blk)) (fun t => !t.wires.ok) = true := by
  decide +kernel
theorem test_txmeas_second : gives (exec .txmeas (ask (meas true true 0 0 ++ meas true false 0x102 0x3FA) [] [.ok, .ok] blk))
    (fun t => t.wires.txok && t.work.resAt 0 0 == 0x102 && t.work.resAt 0 1 == 0x3FA && !t.work.failAt 0 0 &&
      t.port.trace.length == 14) = true := by decide +kernel
theorem test_txmeas_exhausted : gives (exec .txmeas (ask (meas true true 0 0 ++ meas true false 0x142 0) [] [.ok, .ok] blk))
    (fun t => !t.wires.txok && t.work.resAt 0 0 == 0x100 && t.work.resAt 0 1 == 0 && t.work.failAt 0 0) = true := by
  decide +kernel
theorem test_rxmeas_skipped : gives (exec .rxmeas blk)
    (fun t => t.work.resAt 0 2 == 0x100 && t.work.failAt 0 1 && t.port.trace == []) = true := by decide +kernel
theorem test_rxmeas_window : gives (exec .rxmeas (on { w0 with txok := true }
      (ask (meas false false 0x11A 0 ++ meas false false 0x103 0x3FD) [] [.ok, .ok] blk)))
    (fun t => t.work.resAt 0 2 == 0x103 && t.work.resAt 0 3 == 0x3FD && !t.work.failAt 0 1) = true := by decide +kernel

/-- Four good measurements, one for each reading of a round. -/
def goodRound : List Word :=
  meas true false 0x104 0x3F8 ++ meas false false 0x0FE 0x3FA ++ meas true false 0x0FC 0x008 ++ meas false false 0x102 0x3FE

theorem test_round : gives (exec .round (ask goodRound [] [.ok, .ok, .ok, .ok] blk))
    (fun t => t.work.res[0] == #v[0x104, 0x3F8, 0x0FE, 0x3FA, 0x0FC, 0x008, 0x102, 0x3FE] && t.port.trace.length == 28 &&
      t.seq.phase == .calRestore) = true := by decide +kernel

/-- After a backup of 0x1800 at 0x0764, something else stands there and at 0x0C50. -/
def backedUp : State :=
  put 0x0C50 0x32 (put 0x0764 0xFF { blkS with work := { blkS.work with bkp := [0x1800, 0, 0, 0, 0, 0] } })

theorem test_roundrestore : gives (exec .roundrestore backedUp)
    (fun t => wordOf t 0x0764 == 0x1800 && wordOf t 0x0C50 == 0x20 && t.port.trace.length == 7) = true := by decide +kernel

/-! ## Unit 3 (vectors of section 2.5) -/

/-- A block whose three rounds hold `x` in slot 0 and zero elsewhere, no reading failed. -/
def rounds (x : Raw) (y : Raw) (z : Raw) : State :=
  { blk with work := (((blk.work.setReading 0 0 x 0 false).setReading 1 0 y 0 false).setReading 2 0 z 0 false) }

/-- SEQ.j and SEQ.r. -/
def atRounds (j r : Round) (s : State) : State := { s with work := { s.work with j := j, r := r } }

theorem test_simslot_distance5 : gives (exec .simslot (atRounds 0 1 (rounds 0x104 0x0FF 0))) (fun t => t.wires.sim) = true := by
  decide +kernel
theorem test_simslot_both_failed : gives (exec .simslot (atRounds 0 1 { blk with
      work := (blk.work.setReading 0 0 0x100 0 true).setReading 1 0 0x100 0 true })) (fun t => !t.wires.sim) = true := by
  decide +kernel
theorem test_simcmp_one_far : gives (exec .simcmp (atRounds 0 1 (rounds 0x104 0x0FE 0))) (fun t => !t.wires.sim) = true := by
  decide +kernel
theorem test_vote_round0 : gives (exec .vote (atRounds 0 2 (rounds 0x104 0x10A 0x108)))
    (fun t => t.wires.found && t.work.cand == 0) = true := by decide +kernel
theorem test_vote_round1 : gives (exec .vote (atRounds 0 2 (rounds 0x104 0x110 0x112)))
    (fun t => t.wires.found && t.work.cand == 1) = true := by decide +kernel
theorem test_hybacc : gives (exec .hybacc (rounds 0x104 0x0F0 0x118))
    (fun t => t.work.hacc[0] == 780 && t.work.hcnt[0] == 3) = true := by decide +kernel
theorem test_hybnorm_truncates : gives (exec .hybnorm { blk with
      work := { blk.work with hcnt := #v[3, 0, 0, 0], hacc := #v[780, -23, 7, 0, 0, 0, 0, 0] } })
    (fun t => t.work.resAt 3 0 == 0x104 && t.work.resAt 3 1 == 0x3F9 && t.work.resAt 3 2 == 0) = true := by decide +kernel
theorem test_hybnorm_sum : gives (exec .hybnorm { blk with
      cfg := { fixCfg with hybridNorm := .sum }
      work := { blk.work with hcnt := #v[3, 0, 0, 0], hacc := #v[780, -23, 0, 0, 0, 0, 0, 0] } })
    (fun t => t.work.resAt 3 0 == 0x30C && t.work.resAt 3 1 == 0x3E9) = true := by decide +kernel
theorem test_hybchk_zero : gives (exec .hybchk blk) (fun t => !t.wires.found && t.warnReg == 0x0010) = true := by decide +kernel
theorem test_hybchk_nonzero : gives (exec .hybchk { blk with work := { blk.work with
      res := blk.work.res.set 3 #v[0, 0, 0, 0, 0, 0, 0, 1] } })
    (fun t => t.wires.found && t.work.cand == 3 && t.work.candValid) = true := by decide +kernel

/-! ## Unit 4 (vectors of section 2.6) -/

theorem test_usable_hybrid : gives (exec .usable (on { w0 with g := 1 } { blk with
      work := { blk.work with cand := 3, hcnt := #v[3, 2, 0, 0] } })) (fun t => t.wires.usable) = true := by decide +kernel
theorem test_usable_hybrid_not : gives (exec .usable (on { w0 with g := 2 } { blk with
      work := { blk.work with cand := 3, hcnt := #v[3, 2, 0, 0] } })) (fun t => !t.wires.usable) = true := by decide +kernel
theorem test_filltx : gives (exec .filltx (on { w0 with x := 0x104, y := 0x3F8 } (put 0x0C80 0x50800142 blk)))
    (fun t => wordOf t 0x0C80 == 0x50B50147 && wordOf t 0x0C94 == 0xF0000000 && wordOf t 0x0C4C == 0x20000000) = true := by
  decide +kernel
theorem test_filltx_keeps_15_10 : gives (exec .filltx (on { w0 with x := 0x104, y := 0x3F8 } (put 0x0C80 0x4000FD00 blk)))
    (fun t => wordOf t 0x0C80 == 0x4038FD04) = true := by decide +kernel
theorem test_fillrx_path0 : gives (exec .fillrx (on { w0 with x := 0x0FE, y := 0x3FA } blk))
    (fun t => wordOf t 0x0C14 == 0x0000E8FE && wordOf t 0x0CA0 == 0xF0000000) = true := by decide +kernel
theorem test_fillrx_path1 : gives (exec .fillrx (on { w0 with x := 0x103, y := 0x3FE } { blk with work := { blk.work with p := 1 } }))
    (fun t => wordOf t 0x0C1C == 0x0000F903 && wordOf t 0x0C78 == 0x0000F000) = true := by decide +kernel
theorem test_retain_hybrid : gives (exec .retain { blk with work := { blk.work with
      cand := 3, hcnt := #v[3, 3, 0, 0], res := blk.work.res.set 3 #v[0x104, 0x3F9, 0, 0, 0, 0, 0, 0] } })
    (fun t => t.cal == ⟨#v[0x104, 0x100], #v[0x3F9, 0x000], true⟩) = true := by decide +kernel
theorem test_apply_18_records : gives (exec .apply blk) (fun t => t.port.trace.length == 18) = true := by decide +kernel
theorem test_finalrestore : gives (exec .finalrestore backedUp)
    (fun t => t.port.trace == [⟨0x73, 0x20, 0x0764, 0xFFFFFFFF, 0x1800, 0⟩, ⟨0x73, 0x20, 0x0948, 0xFFFFFFFF, 0, 0⟩,
      ⟨0x71, 0x20, 0x0E28, 0xFFFFFFFF, 0, 0⟩]) = true := by decide +kernel

/-- Program P1's answers: rounds 0 and 2 agree, round 1 does not; two second attempts. -/
def p1 : List Word :=
  goodRound ++ (meas true false 0x110 0x3F8 ++ meas false false 0x0FD 0x3FB ++ meas true false 0x0FB 0x009 ++
    meas false false 0x11A 0x000 ++ meas false false 0x103 0x3FD) ++ (meas true true 0 0 ++ meas true false 0x102 0x3FA ++
    meas false false 0x0FF 0x3F9 ++ meas true false 0x0FD 0x007 ++ meas false false 0x101 0x3FF)

/-- The state of program P1 before CALIBRATE. -/
def p1State : State :=
  ask p1 [] (List.replicate 14 .ok) (put 0x0764 0x1800 (put 0x0C50 0x32 (put 0x0C80 0x40000100 (put 0x0C88 0x40000100
    { blkS with inited := true }))))

theorem test_iqkrun_p1 : gives (exec .iqkrun p1State)
    (fun t => t.wires.found && t.outcome == 0x03 && t.port.trace.length == 158 &&
      t.cal == ⟨#v[0x104, 0x0FC], #v[0x3F8, 0x008], true⟩ && wordOf t 0x0C80 == 0x40380104 && wordOf t 0x0C88 == 0x400800FC &&
      wordOf t 0x0764 == 0x1800) = true := by decide +kernel

/-! ## Unit 5 (vectors of section 2.7) -/

/-- A block with the given fields of PowerTrackState. -/
def onPt (f : PtState → PtState) : State := { blk with pt := f blk.pt, thermalRef := 30 }

theorem test_arm : gives (exec .arm blk)
    (fun t => t.port.trace == [⟨0x75, 0x00, 0x0042, 0x00030000, 0x3, 0⟩]) = true := by decide +kernel
theorem test_unsupchk_sentinel : gives (exec .unsupchk { blk with thermalRef := 0xFF })
    (fun t => t.wires.stop && t.pt.disabled && t.warnReg == 0x0100) = true := by decide +kernel
theorem test_unsupchk_legal_code : gives (exec .unsupchk { blk with thermalRef := 0x3F })
    (fun t => !t.wires.stop && !t.pt.disabled) = true := by decide +kernel
theorem test_thread : gives (exec .thread (ask [] [38] [] blk)) (fun t => t.wires.t == 38) = true := by decide +kernel
theorem test_avgupd_rising : gives (exec .avgupd (on { w0 with t := 46 } (onPt (fun x => { x with
      avgAcc := #v[32768, 0], avgValid := #v[true, false] }))))
    (fun t => t.pt.avgAcc[0] == 36352 && t.wires.avg == 35) = true := by decide +kernel
theorem test_avgupd_falling : gives (exec .avgupd (on { w0 with t := 2 } (onPt (fun x => { x with
      avgAcc := #v[39936, 0], avgValid := #v[true, false] }))))
    (fun t => t.pt.avgAcc[0] == 30464 && t.wires.avg == 29) = true := by decide +kernel
theorem test_needIqk_at_threshold : gives (exec .needIqk (on { w0 with avg := 22 } (onPt (fun x => { x with
      anchor := 30, anchorValid := true })))) (fun t => t.wires.needIqk) = true := by decide +kernel
theorem test_needIqk_below : gives (exec .needIqk (on { w0 with avg := 23 } (onPt (fun x => { x with
      anchor := 30, anchorValid := true })))) (fun t => !t.wires.needIqk) = true := by decide +kernel
theorem test_compchk_at_threshold : gives (exec .compchk (on { w0 with t := 28 } (onPt (fun x => { x with lastApplied := 30 }))))
    (fun t => !t.wires.go) = true := by decide +kernel
theorem test_compchk_above : gives (exec .compchk (on { w0 with t := 27 } (onPt (fun x => { x with lastApplied := 30 }))))
    (fun t => t.wires.go) = true := by decide +kernel
theorem test_rawdelta_clamps : gives (exec .rawdelta (on { w0 with t := 2 } (onPt (fun x => { x with lastApplied := 39 }))))
    (fun t => t.wires.pol == .neg && t.wires.k == 29 && t.pt.lastApplied == 2) = true := by decide +kernel
theorem test_rawdelta_zero_is_neg : gives (exec .rawdelta (on { w0 with t := 30 } (onPt (fun x => { x with lastApplied := 30 }))))
    (fun t => t.wires.pol == .neg && t.wires.k == 0) = true := by decide +kernel

/-- Tick 4 of program P2, as the pass finds it. -/
def p2State : State :=
  ask [] [38] [] (put8 0x0A22 29 (put 0x0C80 0x40000100 (put 0x0C88 0x40000100 (onPt (fun x => { x with
    avgAcc := #v[30720, 0], avgValid := #v[true, false], anchor := 30, anchorValid := true, lastApplied := 30 })))))

theorem test_pass_p2 : gives (exec .pass p2State)
    (fun t => t.port.trace.length == 23 && t.pt.avgAcc[0] == 32768 && t.pt.deltaOfdm == #v[4, 4] && t.pt.deltaCck == #v[4, 4] &&
      t.pt.remnantOfdm == #v[0, 0] && t.pt.lastApplied == 38 && wordOf t 0x0C80 == 0x50800142 &&
      wordOf t 0x0C88 == 0x50800142 && t.port.dev.mem.byteAt 0x0A29 == 4) = true := by decide +kernel

/-! ## Unit 6 (vectors of section 2.8) -/

theorem test_dlookup_pos : gives (exec .dlookup (on { w0 with pol := .pos, k := 8 } blk))
    (fun t => t.wires.deltaO == 4 && t.wires.deltaC == 4) = true := by decide +kernel
theorem test_dlookup_neg : gives (exec .dlookup (on { w0 with pol := .neg, k := 29 } blk))
    (fun t => t.wires.deltaO == -14 && t.wires.deltaC == -14) = true := by decide +kernel
theorem test_swclamp_ofdm : gives (exec .swclamp (on { w0 with tbl := .ofdm, req := 50 } blk))
    (fun t => t.wires.idxO == 42 && t.wires.remO == 8) = true := by decide +kernel
theorem test_swclamp_cck : gives (exec .swclamp (on { w0 with tbl := .cck, req := -1 } blk))
    (fun t => t.wires.idxC == 0 && t.wires.remC == -1) = true := by decide +kernel
theorem test_swofdm_raw : gives (exec .swofdm (on { w0 with idxO := 42 } blk))
    (fun t => wordOf t 0x0C80 == 0x7F8001FE && t.port.trace.length == 1) = true := by decide +kernel
theorem test_swofdm_matrix : gives (exec .swofdm (on { w0 with idxO := 29 } { blk with
      cal := ⟨#v[0x104, 0], #v[0x3F8, 0], true⟩ }))
    (fun t => wordOf t 0x0C80 == 0x3CB800F5 && wordOf t 0x0C94 == 0xF0000000 && wordOf t 0x0C4C == 0x80000000) = true := by
  decide +kernel
theorem test_swcck : gives (exec .swcck (on { w0 with idxC := 24 } blk))
    (fun t => t.port.trace.map (·.data) == [0x21, 0x1C, 0x18, 0x14, 0x10, 0x0C, 0x08, 0x04] &&
      wordOf t 0x0A22 == 0x14181C21) = true := by decide +kernel
theorem test_commit : gives (exec .commit (on { w0 with deltaO := -14, deltaC := 4, remO := 13, remC := -1 } (ask [] [] [] blk)))
    (fun t => t.pt.deltaOfdm[0].toInt == -14 && t.pt.remnantCck[0].toInt == -1 && t.pt.deltaOfdm[1] == 0 &&
      t.port.trace.map (·.kind) == [0x78, 0x79]) = true := by decide +kernel
theorem test_pathcomp_skip : gives (exec .pathcomp (on { w0 with pol := .pos, k := 1 } blk))
    (fun t => t.port.trace == []) = true := by decide +kernel
theorem test_pathcomp_11 : gives (exec .pathcomp (on { w0 with pol := .pos, k := 8 } (ask [] [] [] blk)))
    (fun t => t.port.trace.length == 11 && t.pt.deltaOfdm[0] == 4 && t.pt.remnantOfdm[0] == 0) = true := by decide +kernel
theorem test_resynco : gives (exec .resynco (put 0x0C80 0x7880_01E2 blk)) (fun t => t.pt.ofdmIndex == 41) = true := by
  decide +kernel
theorem test_resynco_fallback : gives (exec .resynco (put 0x0C80 0x40400000 blk)) (fun t => t.pt.ofdmIndex == 30) = true := by
  decide +kernel
theorem test_resyncc : gives (exec .resyncc (put8 0x0A22 40 blk)) (fun t => t.pt.cckIndex == 31) = true := by decide +kernel
theorem test_resyncc_fallback : gives (exec .resyncc (put8 0x0A22 42 blk)) (fun t => t.pt.cckIndex == 20) = true := by
  decide +kernel
theorem test_resync : gives (exec .resync (put8 0x0A22 9 (put 0x0C80 0x0B400000 blk)))
    (fun t => t.pt.ofdmIndex == 0 && t.pt.cckIndex == 0 && t.port.trace.length == 2) = true := by decide +kernel

/-! ## Unit 0 and the step (section 2.9 and program P6) -/

/-- The block after INIT with the sensor's reference code `r`. -/
def inited (r : Byte) (s : State) : State :=
  { s with inited := true, thermalRef := r, pt := { s.pt with initTrigger := true, lastApplied := r } }

/-- The block with one command on its port. -/
def cmd (code pin : Byte) (s : State) : State := { s with cmds := [.command code pin] }

theorem test_init : gives (step (cmd 0x01 30 (ask [] [] [] (put8 0x0A22 29 (put 0x0C80 0x40000100 blk)))))
    (fun t => t.inited && t.status == 0x01 && t.hciKind == .sdio && t.thermalRef == 30 && t.pt.lastApplied == 30 &&
      t.pt.initTrigger && t.pt.ofdmIndex == 30 && t.pt.cckIndex == 20 && t.port.trace.map (·.result) == [1, 0x100, 0x1D]) =
      true := by decide +kernel
theorem test_init_twice : gives (step (cmd 0x01 30 (inited 0xFF blk)))
    (fun t => t.status == 0x83 && t.warnReg == 0x1000 && t.thermalRef == 0xFF) = true := by decide +kernel
theorem test_calibrate_p1 : gives (step (cmd 0x02 0 p1State)) (fun t => t.status == 0x01 && t.outcome == 0x03 && !t.busy) =
    true := by decide +kernel
theorem test_calibrate_not_inited : gives (step (cmd 0x02 0 blk)) (fun t => t.status == 0x81 && t.warnReg == 0x1000) = true := by
  decide +kernel
theorem test_tick_arms : gives (step (cmd 0x03 0 (inited 30 blk)))
    (fun t => t.status == 0x01 && t.pt.triggered && t.port.trace.length == 1) = true := by decide +kernel
theorem test_tick_disables : gives (step (cmd 0x03 0 { inited 0xFF blk with pt := { (inited 0xFF blk).pt with triggered := true } }))
    (fun t => t.status == 0x03 && t.pt.disabled && !t.pt.triggered && t.port.trace == []) = true := by decide +kernel
theorem test_detach : gives (step (cmd 0x04 0 { inited 30 blk with warnReg := 0x1110, outcome := 0x03 }))
    (fun t => t.status == 0x01 && !t.inited && t.warnReg == 0x0000 && t.outcome == 0x00 && t.thermalRef == 0) = true := by
  decide +kernel
theorem test_detach_not_inited : gives (step (cmd 0x04 0 blk)) (fun t => t.status == 0x81) = true := by decide +kernel
theorem test_internal_code_refused : gives (step (cmd 0x46 0 blk)) (fun t => t.status == 0x80 && t.warnReg == 0x1000) = true := by
  decide +kernel
theorem test_busy_refused : gives (step (cmd 0x46 0 { blk with busy := true })) (fun t => t.status == 0x82) = true := by
  decide +kernel
theorem test_refusals_saturate : warnBump 0xF000 .refused = 0xF000 := by decide
theorem test_idle_step : gives (step blk) (fun t => decide (t.cmds = []) && t.status == 0x00) = true := by decide +kernel

/-! ## Witnesses: states and operands that meet the hypotheses of the obligations, each clause, boundary values included.
The obligation's name stands in the theorem's. -/

/-- What `gives` says as a next state. -/
theorem gives_next {r : Result} {p : State → Bool} (h : gives r p = true) : ∃ t, r = .next t ∧ p t = true := by
  cases r with
  | next t => exact ⟨t, rfl, h⟩
  | fault f => exact absurd h (by simp [gives])
  | refused f => exact absurd h (by simp [gives])

theorem test_hyp_DecodeInvertsEncode : decode 0x7A = .ok .hookHci := rfl

theorem test_hyp_StepRunsTheDecodedOperation :
    (decode 0x10 = .ok .canon ∧ ({ blk with useq := [0x10] } : State).useq = 0x10 :: [] ∧
      Instr.canon.wellFormed .sequencer = true) ∧
    (decode 0x03 = .ok .tick ∧ (cmd 0x03 30 blk).useq = [] ∧ (cmd 0x03 30 blk).cmds = .command 0x03 30 :: [] ∧
      (cmd 0x03 30 blk).busy = false ∧ Instr.tick.wellFormed .host = true) ∧
    (blk.useq = [] ∧ blk.cmds = []) := by decide +kernel

theorem test_hyp_CanonEncode_bounds : blk.cfg.wf = true ∧
    (-(2 ^ (blk.cfg.readW - 1)) : Int) ≤ (on { w0 with s := -512 } blk).wires.s ∧
    (on { w0 with s := 511 } blk).wires.s < 2 ^ (blk.cfg.readW - 1) ∧
    (on { w0 with u := 0x3FF } blk).wires.u.toNat < 2 ^ blk.cfg.readW := ⟨test_fixCfg_accepted, by decide +kernel⟩

theorem test_hyp_Iqmult : 1 ≤ blk.cfg.frac ∧ (on { w0 with s := 256, d := 0x3FF } blk).wires.s = 2 ^ blk.cfg.frac ∧
    (on { w0 with s := 256, d := 0x3FF } blk).wires.d.toNat < 2 ^ blk.cfg.elemW := by
  decide +kernel

theorem test_hyp_RdAnswers : isStorage fixCfg .w32 0x0C80 = true ∧ isStorage fixCfg .w16 0x0E90 = false ∧
    (ask [0x10] [] [] blk).port.dev.statusQ = 0x10 :: [] ∧ blk.port.dev.statusQ = [] := by decide +kernel

theorem test_hyp_WrStores : blkB.port.dev.mem.wf = true ∧ (Width.w32.bytes 0x0A20)[3]? = some 0x0A23 ∧
    fixCfg.regClass 0x0A23 = .storage ∧ (0x0A24#16 ∉ Width.w32.bytes 0x0A20) ∧ fixCfg.regClass 0x0E93 ≠ .storage := by
  decide +kernel

theorem test_hyp_isCtz : isCtz (0x003F0000 : Word) 16 ∧ isCtz (0x00000001 : Word) 0 ∧ isCtz (0x80000000 : Word) 31 ∧
    isCtz (0x0FC00 : RfWord) 10 := by unfold isCtz; decide +kernel

theorem test_hyp_RdmReadsField : isStorage fixCfg .w32 0x0C80 = true ∧ isStorage fixCfg .w32 0x0E94 = false ∧
    (ask [0x01040000] [] [] blk).port.dev.statusQ = 0x01040000 :: [] ∧ blk.port.dev.statusQ = [] := by decide +kernel

theorem test_hyp_WrmMergesField : blkB.port.dev.mem.wf = true ∧ isStorage fixCfg .w32 0x0A20 = true ∧
    ((0x3F#32 <<< 16) >>> 16 = 0x3F#32) ∧ ((0x3F#32 <<< 16) &&& 0x003F0000#32 = 0x3F#32 <<< 16) := by decide +kernel

theorem test_hyp_RfrdReadsAndRfwrMerges : ¬ (blk.work.p = fixCfg.thermPath ∧ (0x41 : Byte) = fixCfg.rfTMeter) ∧
    (blk.work.p = fixCfg.thermPath ∧ (0x42 : Byte) = fixCfg.rfTMeter) ∧
    (ask [] [63] [] blk).port.dev.thermQ = 0x0FC00 :: [] ∧ blk.port.dev.thermQ = [] ∧ rfWf blk.cfg blk.port.dev.rf = true ∧
    (0x0FC00 : RfWord).toNat < 2 ^ fixCfg.rfDataW := by
  decide +kernel

theorem test_hyp_TimeAndHookTransactions : (ask [] [] [.timeout] blk).port.dev.pollQ = .timeout :: [] ∧
    blk.port.dev.pollQ = [] ∧ (ask [] [] [] blk).port.dev.chanQ = 6 :: [6] ∧ blk.port.dev.chanQ = [] ∧
    (ask [] [] [] blk).port.dev.hciQ = 1 :: [] ∧ (1 : BitVec 2) ≠ 3 ∧ blk.port.dev.hciQ = [] := by decide +kernel

/-- The block with the reserved bus kind pending. -/
def hci3 : State := blk.setPort { blk.port with dev := { blk.port.dev with hciQ := [3] } }

theorem test_hyp_TimeAndHook_reserved : hci3.port.dev.hciQ = 3 :: [] := rfl

/-- The canonical form of a device that holds something, and of one that holds nothing: a premise of many obligations. -/
theorem test_hyp_stores : blkB.cfg.wf = true ∧ blkB.port.dev.mem.wf = true ∧ blk.port.dev.mem.wf = true ∧
    rfWf blk.cfg blk.port.dev.rf = true := ⟨test_fixCfg_accepted, by decide +kernel⟩

/-- A block whose next REAPPLY writes RXIQ[0], TXIQ[0] and an RF location. -/
def hooked : State := blk.setPort { blk.port with dev := { blk.port.dev with
  reapplyQ := [[.ctl 0x0C14 0x5A, .ctl 0x0C83 0xFF, .rf 0 0x41 0xABC]] } }

theorem test_hyp_ReapplyKeepsProbedFields : hooked.port.dev.mem.wf = true ∧ blk.port.dev.reapplyQ = [] ∧
    hooked.port.dev.reapplyQ = [.ctl 0x0C14 0x5A, .ctl 0x0C83 0xFF, .rf 0 0x41 0xABC] :: [] ∧
    fixCfg.regClass 0x0C14 = .storage ∧ ¬ probedBit fixCfg 0x0C14 1 ∧ probedBit fixCfg 0x0A22 7 ∧
    probedBit fixCfg 0x0C83 7 ∧ ¬ probedBit fixCfg 0x0C82 5 ∧ probedBit fixCfg 0x0C82 6 ∧ 19 < fixCfg.rfDataW := by
  unfold probedBit inWord
  decide +kernel

/-- U9: the hook's writes land but for field D. -/
theorem test_hookReapply_writes : gives (exec .hookReapply hooked) (fun t =>
    t.port.dev.mem.byteAt 0x0C14 == 0x5A && t.port.dev.mem.byteAt 0x0C83 == 0 &&
    Store.read t.port.dev.rf (rfKey 0 0x41) == 0xABC) = true := by decide +kernel

theorem test_hyp_BackupSavesTheSet : blkS.cfg.wf = true := test_smallCfg_accepted

theorem test_hyp_BackupThenRestoreIsVerbatim : ∃ t u : State, blkS.cfg.wf = true ∧ exec .backup blkS = .next t ∧
    u.cfg = blkS.cfg ∧ u.work.bkp = t.work.bkp ∧ u.port.dev.mem.wf = true ∧ rfWf blkS.cfg u.port.dev.rf = true ∧
    ∃ e ∈ blkS.cfg.backupSet.take 2, e ∈ blkS.cfg.backupSet ∧
      (∀ o ∈ blkS.cfg.rxmodeBaseline, ∀ a, e.covers a → ¬ o.covers a) ∧
      (∀ o ∈ blkS.cfg.rxmodeBaseline, ∀ p i, e.rfLoc = some (p, i) → ¬ o.coversRf p i) ∧
      (∀ o ∈ blkS.cfg.rxgainBaseline ++ blkS.cfg.idleImbalance, ∀ a, e.covers a → ¬ o.covers a) ∧
      (∀ o ∈ blkS.cfg.rxgainBaseline ++ blkS.cfg.idleImbalance, ∀ p i, e.rfLoc = some (p, i) → ¬ o.coversRf p i) := by
  have h : ∀ s : State, exec .backup s = .next (backup s) ∧ (put 0x0764 0xFF (backup s)).cfg = s.cfg ∧
      (put 0x0764 0xFF (backup s)).work.bkp = (backup s).work.bkp := fun _ => ⟨rfl, rfl, rfl⟩
  refine ⟨backup blkS, put 0x0764 0xFF (backup blkS), test_smallCfg_accepted, (h blkS).1, (h blkS).2.1, (h blkS).2.2,
    by decide +kernel, by decide +kernel, .ctl 0x0764 0xFFFFFFFF, by decide +kernel, by decide +kernel, ?_, ?_, ?_, ?_⟩
  · intro o ho a ha
    have h : o = .wr .w32 0x0E28 (.lit 0) := by simpa [blkS, smallCfg, fixCfg, Config.default, State.resetWith] using ho
    subst h
    simp only [BackupElem.covers, ListOp.covers] at ha ⊢
    have this : ((Width.w32.bytes 0x0764).all (fun a => !(Width.w32.bytes 0x0E28).contains a)) = true := by decide +kernel
    simpa using List.all_eq_true.mp this a ha
  · intro o _ p i h
    cases h
  · intro o ho a ha
    have h : o = .wrm 0x0C50 0x7F (.lit 0x20) := by simpa [blkS, smallCfg, fixCfg, Config.default, State.resetWith] using ho
    subst h
    simp only [BackupElem.covers, ListOp.covers] at ha ⊢
    have this : ((Width.w32.bytes 0x0764).all (fun a => !(Width.w32.bytes 0x0C50).contains a)) = true := by decide +kernel
    simpa using List.all_eq_true.mp this a ha
  · intro o _ p i h
    cases h

theorem test_hyp_CalcfgAndArm : blkS.port.dev.mem.wf = true ∧
    blkS.cfg.calcfgTx[blkS.work.p] = [] ++ ListOp.wr .w32 0x0948 .ant :: [] ∧ isStorage smallCfg .w32 0x0948 = true := by
  decide +kernel

/-- R83, R85, R87: the bits of a byte write, of a masked write inside and outside its mask, and of an RF write. -/
theorem test_hyp_listEffect : blkS.port.dev.mem.wf = true ∧ rfWf blkS.cfg blkS.port.dev.rf = true ∧
    ctlBit fixCfg .usb 0x0C51 7 (.wr .w8 0x0C51 (.lit 0x80)) = some true ∧
    ctlBit fixCfg .usb 0x0C52 0 (.wr .w16 0x0C50 (.lit 0)) = none ∧
    ctlBit fixCfg .usb 0x0C51 0 (.wrm 0x0C50 0x700 (.lit 1)) = some true ∧
    ctlBit fixCfg .usb 0x0C51 3 (.wrm 0x0C50 0x700 (.lit 0xF)) = none ∧
    rfBit fixCfg .usb 0 0x42 17 (.rfwr 0 0x42 0x30000 (.lit 2)) = some true ∧
    rfBit fixCfg .usb 0 0x42 18 (.rfwr 0 0x42 0x30000 (.lit 7)) = none := by
  decide +kernel

theorem test_hyp_AttemptReadsThreeRegisters : (ask [] [] [.timeout] blk).port.dev.drawVerdict.1 = .timeout ∧
    (ask [] [] [.ok] blk).port.dev.drawVerdict.1 = .ok := by decide +kernel

theorem test_hyp_Txmeas_Rxmeas_Round : blk.cfg.wf = true ∧ (atRounds 0 2 blk).work.r.val < nRound ∧
    gives (exec .rxmeas blk) (fun t => !blk.wires.txok && t.work.failAt 0 1) = true ∧
    gives (exec .round (ask goodRound [] [.ok, .ok, .ok, .ok] blk))
      (fun t => !t.work.failAt 0 0 && !t.work.failAt 0 1 && !t.work.failAt 0 3) = true ∧
    gives (exec .round (ask [] [] (List.replicate 4 .timeout) blk)) (fun t => t.work.failAt 0 0 && t.work.failAt 0 3) = true :=
  ⟨test_fixCfg_accepted, by decide +kernel⟩

/-- The answers to a TX measurement whose second attempt passes, and to one whose two attempts fail. -/
theorem test_hyp_drawMeasured :
    (drawMeasured fixCfg (txSpec fixCfg) 2 (ask (meas true true 0 0 ++ meas true false 0x102 0x3FA) [] [.ok, .ok] blk).port.dev).reading =
      some (0x102, 0x3FA) ∧
    (drawMeasured fixCfg (txSpec fixCfg) 2 (ask (meas true true 0 0) [] [.timeout, .ok] blk).port.dev).reading = none := by
  decide +kernel

theorem test_hyp_Vote_none : gives (exec .vote (atRounds 0 2 (rounds 0x104 0x0F0 0x118))) (fun t => !t.wires.found) = true := by
  decide +kernel

theorem test_hyp_HybridIsTheExactMean : blk.cfg.hybridNorm = .mean ∧
    measuredCount fixCfg (rounds 1 2 3).work 0 ≠ 0 ∧
    measuredCount fixCfg (((blk.work.setReading 0 0 0 0 true).setReading 1 0 0 0 true).setReading 2 0 0 0 true) 0 = 0 := by
  decide +kernel

theorem test_hyp_HybchkRefusesAllZero : (∀ i : Slot, blk.work.resAt 3 i = 0) ∧
    ∃ i : Slot, ({ blk.work with res := blk.work.res.set 3 #v[0, 0, 0, 0, 0, 0, 0, 1] } : Work).resAt 3 i ≠ 0 := by
  decide +kernel

theorem test_hyp_Hybrid_and_Fillrx : blk.cfg.wf = true ∧ (on { w0 with x := 0x3FF } blk).wires.x.toNat < 2 ^ blk.cfg.readW :=
  ⟨test_fixCfg_accepted, by decide +kernel⟩

theorem test_hyp_UsableAndRetain : ((2 : BitVec 2).toNat = (2 : Round).val ∧ (2 : Round).val < nRound) ∧
    usable fixCfg blk.work 0 (txGroup 1) = true ∧ usable fixCfg { blk.work with cand := 3 } 3 (txGroup 1) = false := by decide +kernel

/-- TX_FAIL in every attempt: no candidate. -/
def p4State : State := ask [] [] (List.replicate 12 .timeout) { blk with inited := true }

/-- Rounds 0 and 1 agree: the shortest run. -/
def shortState : State := ask (goodRound ++ goodRound) [] (List.replicate 8 .ok) blk

theorem test_hyp_IqkrunOutcome : gives (exec .iqkrun p1State) (fun t => t.wires.found) = true ∧
    gives (exec .iqkrun shortState) (fun t => t.wires.found && t.work.r == 1) = true ∧
    gives (exec .iqkrun p4State) (fun t => !t.wires.found && t.outcome == 0x00 && t.warnReg == 0x001C) = true := by
  decide +kernel

theorem test_hyp_CapabilityAndThreshold : ({ blk with thermalRef := 0xFF } : State).thermalRef = fixCfg.thermUnsupported ∧
    blk.thermalRef ≠ fixCfg.thermUnsupported ∧ blk.pt.anchorValid = false ∧
    (onPt (fun x => { x with anchorValid := true })).pt.anchorValid = true ∧ (inited 30 blk).pt.initTrigger = true ∧
    blk.pt.initTrigger = false := by decide +kernel

theorem test_hyp_ThreadReadsTheSensor : (ask [] [38] [] blk).port.dev.thermQ = 0x09800 :: [] ∧ blk.port.dev.thermQ = [] ∧
    isCtz blk.cfg.maskCode 10 := by unfold isCtz; decide +kernel

theorem test_hyp_Avgupd : (255 : Nat) < 256 ∧ 38 ≤ (on { w0 with t := 38 } p2State).wires.t.toNat ∧
    (on { w0 with t := 255 } p2State).wires.t.toNat ≤ 255 ∧ p2State.pt.avgValid[p2State.cfg.thermPath] = true ∧
    30 * 2 ^ p2State.cfg.avgPrec ≤ p2State.pt.avgAcc[p2State.cfg.thermPath] ∧
    p2State.pt.avgAcc[p2State.cfg.thermPath] ≤ 30 * 2 ^ p2State.cfg.avgPrec := by decide +kernel

theorem test_hyp_RawdeltaIndexesAndDlookup : (on { w0 with pol := .pos, k := 0 } blk).wires.k < blk.cfg.deltaTblSz ∧
    (on { w0 with pol := .neg, k := 29 } blk).wires.k < blk.cfg.deltaTblSz := by decide +kernel

/-- A small change (2) and a small drift: nothing to do. -/
def quiet : State := ask [] [32] [] (onPt (fun x => { x with
  avgAcc := #v[30720, 0], avgValid := #v[true, false], anchor := 30, anchorValid := true, lastApplied := 30 }))

theorem test_hyp_PassWithoutWork : quiet.thermalRef ≠ fixCfg.thermUnsupported ∧ quiet.pt.initTrigger = false ∧
    quiet.pt.anchorValid = true ∧ quiet.port.dev.thermQ = 0x08000 :: [] ∧
    (((0x08000#32 &&& quiet.cfg.maskCode) >>> 10).setWidth 8).toNat = 32 ∧
    ((32 : Int) - quiet.pt.lastApplied.toNat).natAbs ≤ quiet.cfg.compThresh ∧
    ((((30720 * 2 ^ 2 - 30720 + 32 * 2 ^ 10) / 2 ^ 2 / 2 ^ 10 % 256 : Nat) : Int) - quiet.pt.anchor.toNat).natAbs <
      quiet.cfg.iqkThresh := by decide +kernel

/-- No step in temperature, but a drift of the average from its anchor: a nested calibration, here with no candidate. -/
def drift : State := ask [] [30] (List.replicate 12 .timeout) (onPt (fun x => { x with
  avgAcc := #v[30720, 0], avgValid := #v[true, false], anchor := 22, anchorValid := true, lastApplied := 30 }))

theorem test_hyp_PassIsItsComposition :
    gives (exec .unsupchk { blk with thermalRef := 0xFF }) (fun t => t.wires.stop) = true ∧
    gives (exec .pass p2State) (fun t => t.seq.phase == .ptPassComp) = true ∧
    gives (exec .pass quiet) (fun t => t.seq.phase == .ptPassSense) = true ∧
    gives (exec .pass drift) (fun t => t.seq.phase == .ptResync && t.outcome == 0x00) = true := by decide +kernel

theorem test_hyp_PassCompensatesBothPaths :
    (p2State.thermalRef ≠ fixCfg.thermUnsupported ∧ p2State.port.dev.thermQ = 0x09800 :: [] ∧
      p2State.cfg.compThresh < ((((fieldGet 0x09800#32 p2State.cfg.maskCode).setWidth 8).toNat : Int) -
        p2State.pt.lastApplied.toNat).natAbs) ∧
    ((ask [] [30] [] (inited 30 blk)).thermalRef ≠ fixCfg.thermUnsupported ∧
      (ask [] [30] [] (inited 30 blk)).port.dev.thermQ = 0x07800 :: [] ∧
      (ask [] [30] [] (inited 30 blk)).pt.initTrigger = true) := by decide +kernel

/-- Program P2's state with the code 38 twice. -/
def twice38 : State := ask [] [38, 38] [] p2State

theorem test_hyp_RepeatedPassIsQuiet : twice38.port.dev.thermQ = 0x09800 :: 0x09800 :: [] ∧
    twice38.thermalRef ≠ fixCfg.thermUnsupported ∧
    gives (exec .pass twice38) (fun t => t.seq.phase != .ptResync &&
      gives (exec .pass t) (fun u => u.seq.phase != .ptResync && u.port.trace.length == 24)) = true := by decide +kernel

theorem test_hyp_SwclampKeepsRemnant : ((on { w0 with tbl := .ofdm, req := 42 } blk).wires.tbl = .ofdm) ∧
    ((on { w0 with tbl := .cck, req := 33 } blk).wires.tbl = .cck) := by decide +kernel

theorem test_hyp_Swofdm : blk.cal.doneFlag = false ∧
    ({ blk with cal := ⟨#v[0x104, 0], #v[0x3F8, 0], true⟩ } : State).cal.doneFlag = true := by decide +kernel

theorem test_hyp_Commit_ranges : (-255 : Int) ≤ (on { w0 with deltaO := -255, remC := 255 } blk).wires.deltaO ∧
    (on { w0 with deltaO := -255, remC := 255 } blk).wires.remC ≤ 255 ∧ (ask [] [] [] blk).port.dev.chanQ = 6 :: [6] := by
  decide +kernel

theorem test_hyp_PathcompSkipsOrKeepsRemnantLaw :
    ((dLookup fixCfg .pos 1).1 = blk.pt.deltaOfdm[(0 : Path)].toInt ∧
      (dLookup fixCfg .pos 1).2 = blk.pt.deltaCck[(0 : Path)].toInt) ∧
    (dLookup fixCfg .neg 29).1 ≠ blk.pt.deltaOfdm[(0 : Path)].toInt := by decide +kernel

theorem test_hyp_ResyncFindsLowestEntry :
    (fixCfg.ofdmTbl[(0 : Fin 43)].extractLsb' 22 10).setWidth 32 =
      fieldGet ((put 0x0C80 0x0B400000 blk).port.dev.mem.wordAt fixCfg.txiq[0]) fixCfg.maskD ∧
    (∀ j : Fin 43, (fixCfg.ofdmTbl[j].extractLsb' 22 10).setWidth 32 ≠
      fieldGet ((put 0x0C80 0x40400000 blk).port.dev.mem.wordAt fixCfg.txiq[0]) fixCfg.maskD) ∧
    (fixCfg.cckTbl[(32 : Fin 33)])[0] = (put8 0x0A22 41 blk).port.dev.mem.byteAt (fixCfg.cckReg 0) ∧
    (∀ j : Fin 33, (fixCfg.cckTbl[j])[0] ≠ (put8 0x0A22 42 blk).port.dev.mem.byteAt (fixCfg.cckReg 0)) := by decide +kernel

theorem test_hyp_CommandAcceptance : (cmd 0x03 30 blk).cmds = .command 0x03 30 :: [] ∧
    ({ cmd 0x03 30 blk with busy := true } : State).busy = true ∧ ((0x05 : Byte) ∉ [0x01#8, 0x02#8, 0x03#8, 0x04#8]) ∧
    (cmd 0x01 30 (inited 30 blk)).inited = true ∧ (cmd 0x04 30 blk).inited = false := by decide +kernel

theorem test_hyp_InitCreatesState : hci3.cfg.wf = true ∧ hci3.busy = false ∧ hci3.inited = false ∧
    hci3.port.dev.hciQ = 3 :: [] ∧ (ask [] [] [] blk).port.dev.hciQ = 1 :: [] := ⟨test_fixCfg_accepted, rfl, rfl, rfl, rfl⟩

theorem test_hyp_Calibrate_Tick_Resets : p1State.busy = false ∧ p1State.inited = true ∧
    gives (exec .calibrate p1State) (fun t => t.status == 0x01) = true ∧
    gives (exec .calibrate p4State) (fun t => t.status == 0x02) = true ∧
    (onPt (fun x => { x with disabled := true })).pt.disabled = true ∧
    (onPt (fun x => { x with triggered := true })).pt.triggered = true ∧
    ({ blk with cmds := [.hardwareReset] } : State).cmds = .hardwareReset :: [] := by decide +kernel

theorem test_hyp_WarnCountersSaturate : Warning.calFailed ≠ Warning.refused := by decide

theorem test_hyp_InvHoldsAtReset : fixCfg.wf = true ∧ ({ fixCfg with retryTx := 0 } : Config).wf = false :=
  ⟨test_fixCfg_accepted, by decide +kernel⟩

/-- A block after INIT that waits for its first pass, with a TICK on the command port, meets the invariant. -/
theorem test_hyp_StepKeepsInv : (cmd 0x03 30 (inited 30 blk)).Inv ∧
    (∃ t, step (cmd 0x03 30 (inited 30 blk)) = .next t ∧ t.pt.triggered = true) ∧
    (cmd 0x03 30 (inited 30 blk)).port.dev.hciLegal := by
  refine ⟨⟨test_fixCfg_accepted, rfl, rfl, rfl, rfl, rfl, rfl, rfl, .inl rfl, .inl rfl, by decide +kernel, by decide +kernel,
    by decide +kernel, by decide +kernel, by decide +kernel, by decide +kernel, by decide +kernel, ?_, fun _ => rfl,
    ?_, by decide +kernel, by decide +kernel⟩, gives_next (by decide +kernel), ?_⟩
  · intro h
    exact absurd h (by decide)
  · intro h
    exact absurd h (by decide)
  · intro b h
    cases h

theorem test_hyp_CalibrationRecordsAreGuarded :
    gives (exec .detach { inited 30 blk with cal := ⟨#v[0x104, 0], #v[0x3F8, 0], true⟩ }) (fun t => !t.cal.doneFlag) = true ∧
    gives (exec .retain blk) (fun t => t.cal != blk.cal && t.cal.doneFlag) = true ∧
    gives (exec .needIqk blk) (fun t => t.pt.anchorValid != blk.pt.anchorValid) = true := by decide +kernel

theorem test_hyp_StepKeepsConfigTraceAndStores : ∃ t, step (cmd 0x03 30 (inited 30 blkB)) = .next t ∧
    ((cmd 0x03 30 (inited 30 blkB)).port.dev.mem.wf && rfWf fixCfg (cmd 0x03 30 (inited 30 blkB)).port.dev.rf) = true :=
  gives_next (p := fun _ => (cmd 0x03 30 (inited 30 blkB)).port.dev.mem.wf &&
    rfWf fixCfg (cmd 0x03 30 (inited 30 blkB)).port.dev.rf) (by decide +kernel)

end Sys2Proof.Tests
end

/-! CalibrationState, doneFlag and the anchor: who may write them (O58). -/

namespace Sys2Proof.Machine

/-- What an operation does to the guarded records: CalibrationState stays as it is, or (where `mayCal` holds) is rewritten
with doneFlag set; the anchor stays as it is unless `mayAnchor` holds (R34, R246, R268). -/
structure State.Guards (mayCal mayAnchor : Prop) (s t : State) : Prop where
  cal : t.cal = s.cal ∨ mayCal ∧ t.cal.doneFlag = true
  anchor : (t.pt.anchor = s.pt.anchor ∧ t.pt.anchorValid = s.pt.anchorValid) ∨ mayAnchor

section guards
variable {P Q : Prop}

theorem State.Guards.of_eq {s t : State} (hc : t.cal = s.cal) (hp : t.pt = s.pt) : s.Guards P Q t :=
  ⟨.inl hc, .inl (by simp [hp])⟩

theorem State.Guards.refl (s : State) : s.Guards P Q s := .of_eq rfl rfl

theorem State.Guards.trans {a b c : State} (h : a.Guards P Q b) (k : b.Guards P Q c) : a.Guards P Q c where
  cal := by
    rcases k.cal with e | done
    · rw [e]
      exact h.cal
    · exact .inr done
  anchor := by
    rcases k.anchor with ⟨e1, e2⟩ | may
    · rw [e1, e2]
      exact h.anchor
    · exact .inr may

theorem State.MeasKeeps.guards {s t : State} (h : s.MeasKeeps t) : s.Guards P Q t := .of_eq h.cal h.pt

/-- An operation's result on the wires does not touch the records. -/
theorem State.Guards.setWires {s t : State} (h : s.Guards P Q t) (w : Wires) : s.Guards P Q (t.setWires w) :=
  ⟨h.cal, h.anchor⟩

/-! The sequencer's phase and flag, the lock, the end of a command and a refusal are no part of the records. -/

theorem State.setSeq_guards (s : State) (x : Seq) : s.Guards P Q { s with seq := x } := .of_eq rfl rfl

theorem State.setBusy_guards (s : State) (b : Bool) : s.Guards P Q { s with busy := b } := .of_eq rfl rfl

theorem State.finish_guards (s : State) (code : Byte) : s.Guards P Q (s.finish code) := .of_eq rfl rfl

theorem State.refuse_guards (s : State) (code : Byte) : s.Guards P Q (s.refuse code) := .of_eq rfl rfl

/-- What an operation answers is guarded when the state it computes is. -/
theorem State.Guards.of_next {s t u : State} (h : (.next u : Result) = .next t) (g : s.Guards P Q u) : s.Guards P Q t :=
  Host.Outcome.next.inj h ▸ g

/-! ## The IQK run and the anchor -/

theorem hybChk_guards (s : State) : s.Guards P Q (hybChk s).2 := by
  unfold hybChk
  split <;> exact .of_eq rfl rfl

theorem retain_guards (hP : P) (cand : BitVec 2) (s : State) : s.Guards P Q (retain cand s) :=
  ⟨.inr ⟨hP, rfl⟩, .inl ⟨rfl, rfl⟩⟩

theorem iqkRun_guards (hP : P) (s : State) : s.Guards P Q (iqkRun s).2 := by
  obtain ⟨found, u, e, hpt, hcal, -⟩ := iqkRun_spec s
  obtain ⟨-, fpt, -, -, -, fcal, -⟩ := iqkFinish_spec found u
  rw [e]
  refine ⟨?_, .inl (by simp [fpt, hpt])⟩
  cases found with
  | false => exact .inl (fcal.trans hcal)
  | true => exact .inr ⟨hP, by rw [fcal]; rfl⟩

theorem anchorUpd_guards (hQ : Q) (s : State) : s.Guards P Q (anchorUpd s) := by
  unfold anchorUpd
  split
  · exact ⟨.inl rfl, .inr hQ⟩
  · exact .refl s

theorem iqkAnchored_guards (hP : P) (hQ : Q) (s : State) : s.Guards P Q (iqkAnchored s).2 := by
  unfold iqkAnchored
  dsimp only
  split
  · exact (iqkRun_guards hP s).trans (anchorUpd_guards hQ _)
  · exact iqkRun_guards hP s

/-! ## The pass -/

theorem resyncO_guards (s : State) : s.Guards P Q (resyncO s) := ⟨.inl rfl, .inl ⟨rfl, rfl⟩⟩

theorem resyncC_guards (s : State) : s.Guards P Q (resyncC s) := ⟨.inl rfl, .inl ⟨rfl, rfl⟩⟩

theorem resync_guards (s : State) : s.Guards P Q (resync s) := (resyncO_guards s).trans (resyncC_guards _)

theorem commit_guards (p : Path) (dO dC rO rC : Int) (s : State) : s.Guards P Q (commit p dO dC rO rC s) :=
  ⟨.inl rfl, .inl ⟨rfl, rfl⟩⟩

theorem pathComp_guards (p : Path) (pol : Polarity) (k : Nat) (s : State) : s.Guards P Q (pathComp p pol k s) := by
  obtain ⟨hpt, hcal, -⟩ := pathComp_pt p pol k s
  exact ⟨.inl hcal, .inl (by rw [hpt]; exact ⟨rfl, rfl⟩)⟩

theorem unsupChk_guards (s : State) : s.Guards P Q (unsupChk s).2 := by
  unfold unsupChk
  split <;> exact ⟨.inl rfl, .inl ⟨rfl, rfl⟩⟩

theorem avgUpd_guards (t : Byte) (s : State) : s.Guards P Q (avgUpd t s).2 := ⟨.inl rfl, .inl ⟨rfl, rfl⟩⟩

theorem needIqk_guards (hQ : Q) (avg : Byte) (s : State) : s.Guards P Q (needIqk avg s).2 := by
  obtain ⟨a, e⟩ := needIqk_state avg s
  rw [e]
  exact ⟨.inl rfl, .inr hQ⟩

theorem compChk_guards (t : Byte) (s : State) : s.Guards P Q (compChk t s).2 := by
  rw [compChk_state]
  exact ⟨.inl rfl, .inl ⟨rfl, rfl⟩⟩

theorem rawDelta_guards (t : Byte) (s : State) : s.Guards P Q (rawDelta t s).2 := ⟨.inl rfl, .inl ⟨rfl, rfl⟩⟩

theorem compensate_guards (pol : Polarity) (k : Nat) (s : State) : s.Guards P Q (compensate pol k s) :=
  (((s.setWork_keeps _).guards.trans (pathComp_guards 0 pol k _)).trans (State.setWork_keeps _ _).guards).trans
    (pathComp_guards 1 pol k _)

theorem passComp_guards (t : Byte) (s : State) : s.Guards P Q (passComp t s) :=
  ((s.setPhase_keeps _).guards.trans (rawDelta_guards t _)).trans (compensate_guards _ _ _)

theorem passIqk_guards (hP : P) (hQ : Q) (s : State) : s.Guards P Q (passIqk s) :=
  (((s.setSeq_guards _).trans (iqkAnchored_guards hP hQ _)).trans (State.setSeq_guards _ _)).trans (resync_guards _)

theorem passBody_guards (hP : P) (hQ : Q) (s : State) : s.Guards P Q (passBody s) := by
  have decided := (((thermRead_keeps s).guards.trans (avgUpd_guards (thermRead s).1 _)).trans
    (needIqk_guards hQ (avgUpd (thermRead s).1 (thermRead s).2).1 _)).trans (compChk_guards (P := P) (thermRead s).1 _)
  unfold passBody
  dsimp only
  split <;> split
  · exact (decided.trans (passComp_guards _ _)).trans (passIqk_guards hP hQ _)
  · exact decided.trans (passIqk_guards hP hQ _)
  · exact decided.trans (passComp_guards _ _)
  · exact decided

theorem pass_guards (hP : P) (hQ : Q) (s : State) : s.Guards P Q (Machine.pass s) := by
  have checked := (s.setPhase_keeps .ptPassSense).guards.trans (unsupChk_guards (P := P) (Q := Q) _)
  unfold Machine.pass
  dsimp only
  split
  · exact checked
  · exact checked.trans (passBody_guards hP hQ _)

/-! ## The commands that make a run or a pass -/

theorem runCalibrate_guards (hP : P) (hQ : Q) (s : State) : s.Guards P Q (runCalibrate s) :=
  ((s.setBusy_guards true).trans (iqkAnchored_guards hP hQ _)).trans (State.finish_guards _ _)

/-- ptTriggered is no part of the records. -/
theorem State.setTriggered_guards (s : State) (b : Bool) : s.Guards P Q (s.setPt { s.pt with triggered := b }) :=
  ⟨.inl rfl, .inl ⟨rfl, rfl⟩⟩

theorem runTick_guards (hP : P) (hQ : Q) (s : State) : s.Guards P Q (runTick s) := by
  unfold runTick
  dsimp only
  split
  · exact (((s.setBusy_guards true).trans (pass_guards hP hQ _)).trans (State.setTriggered_guards _ false)).trans
      (State.finish_guards _ _)
  · exact ((((s.setBusy_guards true).trans (State.setPhase_keeps _ _).guards).trans (arm_keeps _).guards).trans
      (State.setTriggered_guards _ true)).trans (State.finish_guards _ _)

end guards

/-- The operations that may write CalibrationState without creating or discarding it: RETAIN and what runs it (R246). -/
def retainers : List Instr := [.retain, .iqkrun, .pass, .calibrate, .tick]

/-- The operations that may write the anchor without creating or discarding it: NEEDIQK and what runs NEEDIQK or ANCHORUPD
(R268, R157). -/
def anchorers : List Instr := [.needIqk, .pass, .calibrate, .tick]

/-- Every operation but INIT and DETACH guards the records (R34, R246, R268). -/
theorem exec_guards {i : Instr} {s t : State} (h : exec i s = .next t) (hi : i ≠ .init) (hd : i ≠ .detach) :
    s.Guards (i ∈ retainers) (i ∈ anchorers) t := by
  cases i with
  | init => exact absurd rfl hi
  | detach => exact absurd rfl hd
  | calibrate =>
    simp only [exec, execCalibrate] at h
    split at h
    · exact .of_next h (s.refuse_guards _)
    · exact .of_next h (runCalibrate_guards (by decide) (by decide) s)
  | tick =>
    simp only [exec, execTick] at h
    split at h
    · exact .of_next h (s.refuse_guards _)
    · split at h
      · exact .of_next h (.of_eq rfl rfl)
      · exact .of_next h (runTick_guards (by decide) (by decide) s)
  -- results go to the wires
  | canon | encode | iqmult | absdiff | txchk | rxchk | simslot | simcmp | usable | dlookup =>
    exact .of_next h (.of_eq rfl rfl)
  | swclamp =>
    simp only [exec, execSwclamp] at h
    split at h <;> exact .of_next h (.of_eq rfl rfl)
  -- transactions, and what consists of transactions
  | rd | wr | rdm | wrm | rfrd | rfwr | delay | poll | hookChan | hookReapply | filltx | fillrx | swofdm | swcck | arm |
    thread => exact .of_next h (.of_eq rfl rfl)
  | hookHci =>
    simp only [exec, execHookHci] at h
    split at h
    · exact .of_next h (.of_eq rfl rfl)
    · cases h
  -- the measurement and the selection of a run
  | backup => exact .of_next h (backup_keeps s).guards
  | calcfg => exact .of_next h (calcfg_keeps _ _ s).guards
  | oneshot => exact .of_next h ((oneshot_keeps s).guards.setWires _)
  | txatt => exact .of_next h ((txatt_keeps s).guards.setWires _)
  | rxatt => exact .of_next h ((rxatt_keeps s).guards.setWires _)
  | txmeas => exact .of_next h ((txmeas_keeps _ _ s).guards.setWires _)
  | rxmeas => exact .of_next h (rxmeas_keeps _ _ _ s).guards
  | round => exact .of_next h (measRound_keeps _ s).guards
  | roundrestore => exact .of_next h (roundRestore_keeps s).guards
  | vote => exact .of_next h ((vote_keeps _ s).guards.setWires _)
  | hybacc => exact .of_next h (hybAcc_keeps s).guards
  | hybnorm => exact .of_next h (hybNorm_keeps s).guards
  | hybchk => exact .of_next h ((hybChk_guards s).setWires _)
  -- its application
  | retain => exact .of_next h (retain_guards (by decide) _ s)
  | apply => exact .of_next h (applyCand_keeps _ s).guards
  | finalrestore => exact .of_next h (finalRestore_keeps s).guards
  | iqkrun => exact .of_next h ((iqkRun_guards (by decide) s).setWires _)
  -- the operations of a pass
  | unsupchk => exact .of_next h ((unsupChk_guards s).setWires _)
  | avgupd => exact .of_next h ((avgUpd_guards _ s).setWires _)
  | needIqk => exact .of_next h ((needIqk_guards (by decide) _ s).setWires _)
  | compchk => exact .of_next h ((compChk_guards _ s).setWires _)
  | rawdelta => exact .of_next h ((rawDelta_guards _ s).setWires _)
  | pass => exact .of_next h (pass_guards (by decide) (by decide) s)
  | commit => exact .of_next h (commit_guards _ _ _ _ _ s)
  | pathcomp => exact .of_next h (pathComp_guards _ _ _ s)
  | resynco => exact .of_next h (resyncO_guards s)
  | resyncc => exact .of_next h (resyncC_guards s)
  | resync => exact .of_next h (resync_guards s)

/-- Settles O58: every operation but INIT and DETACH guards the records (`exec_guards`), and what the statement says of those
two is that it allows them. -/
theorem calibrationRecordsAreGuarded : Obligations.CalibrationRecordsAreGuarded := by
  intro i s t h
  by_cases hi : i = .init
  · subst hi
    simp
  by_cases hd : i = .detach
  · subst hd
    simp
  have guarded := exec_guards h hi hd
  refine ⟨fun done cleared => ?_, fun changed => ?_, fun changed _ _ => ?_, fun changed => ?_⟩
  · rcases guarded.cal with e | ⟨-, e⟩
    · rw [e, done] at cleared
      contradiction
    · rw [e] at cleared
      contradiction
  · have member := (guarded.cal.resolve_left changed).1
    simp only [retainers, List.mem_cons] at member ⊢
    tauto
  · exact (guarded.cal.resolve_left changed).2
  · have member : i ∈ anchorers := guarded.anchor.resolve_left (by tauto)
    exact List.mem_cons_of_mem _ (List.mem_cons_of_mem _ member)

end Sys2Proof.Machine

/-! The invariant between commands in three parts, the two resets and the building of the block (O53, O55). -/

namespace Sys2Proof.Machine

/-! ## The invariant in three parts -/

/-- The ranges of PowerTrackState that also hold between the operations of a run (R35, R266, R286, R291, R298). -/
structure PtState.Ranged (c : Config) (x : PtState) : Prop where
  ofdmIndex : x.ofdmIndex.toNat ≤ 42
  cckIndex : x.cckIndex.toNat ≤ 32
  avgBound : ∀ p : Path, x.avgAcc[p] < 2 ^ (8 + c.avgPrec)
  otherPath : ∀ p : Path, p ≠ c.thermPath → x.avgAcc[p] = 0 ∧ x.avgValid[p] = false
  deltas : x.deltaOfdm[0] = x.deltaOfdm[1] ∧ x.deltaCck[0] = x.deltaCck[1]
  deltaRange : ∀ p : Path, -255 ≤ x.deltaOfdm[p].toInt ∧ -255 ≤ x.deltaCck[p].toInt
  remnants : x.remnantOfdm[0] = x.remnantOfdm[1] ∧ x.remnantCck[0] = x.remnantCck[1]

/-- The part of the invariant that also holds between the operations of a run. -/
structure State.RunInv (s : State) : Prop where
  config : s.cfg.wf = true
  mem : s.port.dev.mem.wf = true
  rf : rfWf s.cfg s.port.dev.rf = true
  bkp : s.work.bkp.length = s.cfg.backupSet.length
  ret : s.seq.ret = false
  outcome : legalOutcome s.outcome
  uncalibrated : s.cal.doneFlag = false → s.cal = CalState.initial s.cfg
  ranged : s.pt.Ranged s.cfg

/-- How the flags of PowerTrackState hang together before and after a pass, with `ref` the latched reference (R263, R266,
R268, R270). -/
structure PtState.Linked (c : Config) (ref : Byte) (x : PtState) : Prop where
  unsupported : x.disabled = true → ref = c.thermUnsupported
  anchored : x.anchorValid = x.avgValid[c.thermPath]
  firstPass : x.initTrigger = true → x.avgValid[c.thermPath] = false ∧ x.lastApplied = ref ∧
    x.deltaOfdm[0] = 0 ∧ x.deltaCck[0] = 0 ∧ x.remnantOfdm[0] = 0 ∧ x.remnantCck[0] = 0

/-- The links in a state. -/
abbrev State.Linked (s : State) : Prop := s.pt.Linked s.cfg s.thermalRef

theorem State.Inv.runInv {s : State} (h : s.Inv) : s.RunInv :=
  ⟨h.config, h.mem, h.rf, h.bkp, h.ret, h.outcome, h.uncalibrated,
    ⟨h.ofdmIndex, h.cckIndex, h.avgBound, h.otherPath, h.deltas, h.deltaRange, h.remnants⟩⟩

theorem State.Inv.linked {s : State} (h : s.Inv) : s.Linked :=
  ⟨fun hd => (h.disabled hd).1, h.anchored, h.firstPass⟩

/-- The two parts, and what holds of an idle block, make the invariant. -/
theorem State.RunInv.inv {s : State} (h : s.RunInv) (l : s.Linked) (hidle : s.seq.phase = .idle) (hbusy : s.busy = false)
    (huseq : s.useq = []) (hstatus : legalStatus s.status)
    (habsent : s.inited = false → s.cal = CalState.initial s.cfg ∧ s.pt = PtState.initial s.cfg ∧ s.thermalRef = 0 ∧
      s.hciKind = .usb ∧ s.outcome = 0x00)
    (harmed : s.pt.disabled = true → s.pt.triggered = false) : s.Inv where
  config := h.config
  mem := h.mem
  rf := h.rf
  bkp := h.bkp
  idle := hidle
  ret := h.ret
  notBusy := hbusy
  noMicro := huseq
  status := hstatus
  outcome := h.outcome
  ofdmIndex := h.ranged.ofdmIndex
  cckIndex := h.ranged.cckIndex
  avgBound := h.ranged.avgBound
  otherPath := h.ranged.otherPath
  deltas := h.ranged.deltas
  deltaRange := h.ranged.deltaRange
  remnants := h.ranged.remnants
  absent := habsent
  uncalibrated := h.uncalibrated
  disabled hd := ⟨l.unsupported hd, harmed hd⟩
  anchored := l.anchored
  firstPass := l.firstPass

/-! ## The state after a reset -/

theorem PtState.initial_avgAcc (c : Config) (p : Path) : (PtState.initial c).avgAcc[p] = 0 := by fin_cases p <;> rfl

theorem PtState.initial_avgValid (c : Config) (p : Path) : (PtState.initial c).avgValid[p] = false := by
  fin_cases p <;> rfl

theorem PtState.initial_deltaOfdm (c : Config) (p : Path) : (PtState.initial c).deltaOfdm[p] = 0 := by
  fin_cases p <;> rfl

theorem PtState.initial_deltaCck (c : Config) (p : Path) : (PtState.initial c).deltaCck[p] = 0 := by
  fin_cases p <;> rfl

/-- PowerTrackState after a reset is in its ranges (R53, P27, P28). -/
theorem PtState.initial_ranged {c : Config} (h : c.wf = true) : (PtState.initial c).Ranged c where
  ofdmIndex := (Config.defaultIndex_le h).1
  cckIndex := (Config.defaultIndex_le h).2
  avgBound p := by
    rw [PtState.initial_avgAcc]
    positivity
  otherPath p _ := ⟨PtState.initial_avgAcc c p, PtState.initial_avgValid c p⟩
  deltas := ⟨rfl, rfl⟩
  deltaRange p := by
    rw [PtState.initial_deltaOfdm, PtState.initial_deltaCck]
    decide
  remnants := ⟨rfl, rfl⟩

/-- A state whose registers are as a reset leaves them, its stores in canonical form, meets the invariant (R53). -/
theorem State.Inv.of_reset {s : State} (hcfg : s.cfg.wf = true) (hmem : s.port.dev.mem.wf = true)
    (hrf : rfWf s.cfg s.port.dev.rf = true) (hbkp : s.work.bkp.length = s.cfg.backupSet.length)
    (hseq : s.seq = ⟨.idle, false⟩) (hbusy : s.busy = false) (huseq : s.useq = []) (hstatus : legalStatus s.status)
    (hcal : s.cal = CalState.initial s.cfg) (hpt : s.pt = PtState.initial s.cfg)
    (hrest : s.thermalRef = 0 ∧ s.hciKind = .usb ∧ s.outcome = 0x00) : s.Inv := by
  have run : s.RunInv :=
    ⟨hcfg, hmem, hrf, hbkp, by rw [hseq], .inl hrest.2.2, fun _ => hcal, hpt ▸ PtState.initial_ranged hcfg⟩
  refine run.inv ⟨fun h => ?_, ?_, fun h => ?_⟩ (by rw [hseq]) hbusy huseq hstatus (fun _ => ⟨hcal, hpt, hrest⟩)
    (fun _ => by rw [hpt]; rfl)
  · rw [hpt] at h
    contradiction
  · rw [hpt, PtState.initial_avgValid]
    rfl
  · rw [hpt] at h
    contradiction

theorem freeWorkOf_bkp_length (c : Config) (n : Nat) : (freeWorkOf c n).bkp.length = c.backupSet.length := by
  simp [freeWorkOf]

/-- The block as it is built meets the invariant (R53, R356). -/
theorem State.resetWith_inv {c : Config} (h : c.wf = true) : (State.resetWith c).Inv :=
  .of_reset h rfl rfl (List.length_replicate ..) rfl rfl rfl (.inl rfl) rfl rfl ⟨rfl, rfl, rfl⟩

/-- A block whose records are discarded meets the invariant again, whatever the last command's status is (R53, R351). -/
theorem State.Inv.discard {s : State} (h : s.Inv) {code : Byte} (hcode : legalStatus code) :
    State.Inv { s.discard with status := code } :=
  .of_reset h.config h.mem h.rf (freeWorkOf_bkp_length _ _) rfl rfl h.noMicro hcode rfl rfl ⟨rfl, rfl, rfl⟩

/-- An accepted configuration is built into the reset state (R356). -/
theorem State.build_of_wf {c : Config} (h : c.wf = true) : State.build c = .ok (State.resetWith c) := by
  have none_violated : c.problem = none := by simpa [Config.wf] using h
  simp [State.build, none_violated]

/-- A configuration that is not accepted is refused by the name of a constraint that it violates (R356, U13). -/
theorem State.build_of_not_wf {c : Config} (h : c.wf = false) :
    ∃ q, State.build c = .error (.badConfiguration q) ∧ c.meets q = false := by
  obtain ⟨q, violated⟩ : ∃ q, c.problem = some q := by
    rw [← Option.isSome_iff_exists, ← Option.not_isNone, ← Config.wf, h]
    rfl
  refine ⟨q, by simp [State.build, violated], ?_⟩
  simpa using List.find?_some violated

/-- Settles O55: the reset state of every accepted configuration, the default one among them, meets the invariant, and
`State.build` refuses the others. -/
theorem invHoldsAtReset : Obligations.InvHoldsAtReset :=
  ⟨State.resetWith_inv Config.default_wf,
    fun _ => ⟨fun h => ⟨_, State.build_of_wf h, rfl, State.resetWith_inv h⟩, State.build_of_not_wf⟩⟩

/-! ## The two resets as operations -/

/-- DETACH, accepted (R156, R151). -/
theorem execDetach_accepted {s : State} (hbusy : s.busy = false) (hinit : s.inited = true) :
    exec .detach s = .next { s.discard with status := stOk } := by
  simp [exec, execDetach, refusesOther, hbusy, hinit]

/-- A hardware reset that the block takes next (R350). -/
theorem step_hardwareReset {s : State} {rest : List HostEvent} (huseq : s.useq = [])
    (hcmds : s.cmds = .hardwareReset :: rest) : step s = .next { s with cmds := rest }.discard := by
  simp only [step, huseq, hcmds, takeEvent, State.hardwareReset]

/-- Settles O53: both resets are `State.discard`, whose fields are the table of R53. -/
theorem resetsGiveTheTable : Obligations.ResetsGiveTheTable := by
  rintro s _ rfl
  refine ⟨fun hbusy hinit => ?_, fun rest huseq hcmds => ?_⟩
  · exact ⟨_, execDetach_accepted hbusy hinit, rfl, rfl, rfl, rfl⟩
  · exact ⟨_, step_hardwareReset huseq hcmds, rfl, rfl, rfl, rfl⟩

end Sys2Proof.Machine

/-! The ranges of PowerTrackState under the operations of a pass. -/

namespace Sys2Proof.Machine

/-! ## PowerTrackState stays in its ranges -/

section ranged
variable {c : Config} {x : PtState}

/-- The ranges do not speak of the flags, the last applied code and the anchor. -/
theorem PtState.Ranged.setFlags (h : x.Ranged c) (triggered initTrigger disabled : Bool) (last anchor : Byte)
    (anchorValid : Bool) : ({ x with
      triggered := triggered, initTrigger := initTrigger, disabled := disabled, lastApplied := last, anchor := anchor,
      anchorValid := anchorValid } : PtState).Ranged c :=
  ⟨h.ofdmIndex, h.cckIndex, h.avgBound, h.otherPath, h.deltas, h.deltaRange, h.remnants⟩

/-- New baseline indices within their tables (R300, R301). -/
theorem PtState.Ranged.setIndices (h : x.Ranged c) {o k : BitVec 6} (ho : o.toNat ≤ 42) (hk : k.toNat ≤ 32) :
    ({ x with ofdmIndex := o, cckIndex := k } : PtState).Ranged c :=
  ⟨ho, hk, h.avgBound, h.otherPath, h.deltas, h.deltaRange, h.remnants⟩

/-- The accumulator keeps its 8 + AVG_PREC bits: the average of values below a bound is below it (R266). -/
theorem avgNext_lt (c : Config) {valid : Bool} {acc : Nat} (t : Byte) (h : acc < 2 ^ (8 + c.avgPrec)) :
    avgNext c valid acc t < 2 ^ (8 + c.avgPrec) := by
  have sample : t.toNat * 2 ^ c.avgPrec < 2 ^ (8 + c.avgPrec) := by
    rw [Nat.pow_add]
    exact Nat.mul_lt_mul_of_pos_right t.isLt (by positivity)
  unfold avgNext
  simp only [Nat.shiftLeft_eq, Nat.shiftRight_eq_div_pow]
  split
  · generalize t.toNat * 2 ^ c.avgPrec = T at *
    generalize 2 ^ (8 + c.avgPrec) = B at *
    obtain ⟨n, weights⟩ : ∃ n, 2 ^ c.avgRcpLog2 = n + 1 := Nat.exists_eq_add_one.mpr (by positivity)
    rw [weights, Nat.div_lt_iff_lt_mul (by omega)]
    have kept : acc * (n + 1) - acc = acc * n := by rw [Nat.mul_add, Nat.mul_one, Nat.add_sub_cancel]
    calc acc * (n + 1) - acc + T = acc * n + T := by rw [kept]
      _ < B * n + B := Nat.add_lt_add_of_le_of_lt (Nat.mul_le_mul_right n h.le) sample
      _ = B * (n + 1) := by ring
  · exact sample

/-- A sample of the thermal path moves that path's average and no other (R266). -/
theorem PtState.Ranged.average (h : x.Ranged c) (t : Byte) : ({ x with
      avgAcc := x.avgAcc.set c.thermPath (avgNext c x.avgValid[c.thermPath] x.avgAcc[c.thermPath] t),
      avgValid := x.avgValid.set c.thermPath true } : PtState).Ranged c where
  ofdmIndex := h.ofdmIndex
  cckIndex := h.cckIndex
  avgBound p := by
    simp only [Fin.getElem_fin, Vector.getElem_set]
    split
    · exact avgNext_lt c t (h.avgBound c.thermPath)
    · exact h.avgBound p
  otherPath p hp := by
    have differ : ¬ c.thermPath.val = p.val := fun e => hp (Fin.ext e.symm)
    simp only [Fin.getElem_fin, Vector.getElem_set, if_neg differ]
    exact h.otherPath p hp
  deltas := h.deltas
  deltaRange := h.deltaRange
  remnants := h.remnants

/-- The same delta indices and remnants on both paths (R298, R286). -/
theorem PtState.Ranged.setBoth (h : x.Ranged c) {dO dC : Int} (hO : -255 ≤ dO ∧ dO ≤ 255)
    (hC : -255 ≤ dC ∧ dC ≤ 255) (rO rC : BitVec 10) : ({ x with
      deltaOfdm := #v[BitVec.ofInt 9 dO, BitVec.ofInt 9 dO], deltaCck := #v[BitVec.ofInt 9 dC, BitVec.ofInt 9 dC],
      remnantOfdm := #v[rO, rO], remnantCck := #v[rC, rC] } : PtState).Ranged c where
  ofdmIndex := h.ofdmIndex
  cckIndex := h.cckIndex
  avgBound := h.avgBound
  otherPath := h.otherPath
  deltas := ⟨rfl, rfl⟩
  deltaRange p := by
    have both : ∀ b : BitVec 9, (#v[b, b] : Vector (BitVec 9) 2)[p] = b := fun b => by fin_cases p <;> rfl
    simp only [both, toInt_ofInt9 hO.1 hO.2, toInt_ofInt9 hC.1 hC.2]
    exact ⟨hO.1, hC.1⟩
  remnants := ⟨rfl, rfl⟩

end ranged

/-- Setting a value for path 0 and then for path 1 sets it for both. -/
theorem set_both {α : Type} (v : Vector α 2) (x : α) : (v.set (0 : Path) x).set (1 : Path) x = #v[x, x] := by
  ext i hi
  match i, hi with
  | 0, _ => simp
  | 1, _ => simp

/-- `pathComp_pt_eq` for a state whose configuration and PowerTrackState are known. -/
theorem pathComp_pt_of {c : Config} {x : PtState} (p : Path) (pol : Polarity) (k : Nat) {s : State} (hc : s.cfg = c)
    (hx : s.pt = x) : (pathComp p pol k s).pt =
      if (dLookup c pol k).1 = x.deltaOfdm[p].toInt ∧ (dLookup c pol k).2 = x.deltaCck[p].toInt then x
      else { x with
        deltaOfdm := x.deltaOfdm.set p (BitVec.ofInt 9 (dLookup c pol k).1)
        deltaCck := x.deltaCck.set p (BitVec.ofInt 9 (dLookup c pol k).2)
        remnantOfdm := x.remnantOfdm.set p (BitVec.ofInt 10 (swClamp 42 (x.ofdmIndex.toNat + (dLookup c pol k).1)).2)
        remnantCck := x.remnantCck.set p (BitVec.ofInt 10 (swClamp 32 (x.cckIndex.toNat + (dLookup c pol k).2)).2) } := by
  subst hc hx
  exact pathComp_pt_eq p pol k s

/-- The compensation of both paths, which hold the same deltas, either changes nothing or gives both the looked-up deltas and
the same remnants (R298, R274). -/
theorem compensate_pt (pol : Polarity) (k : Nat) {s : State} (hO : s.pt.deltaOfdm[0] = s.pt.deltaOfdm[1])
    (hC : s.pt.deltaCck[0] = s.pt.deltaCck[1]) :
    (compensate pol k s).pt = s.pt ∨ ∃ rO rC, (compensate pol k s).pt = { s.pt with
      deltaOfdm := #v[BitVec.ofInt 9 (dLookup s.cfg pol k).1, BitVec.ofInt 9 (dLookup s.cfg pol k).1]
      deltaCck := #v[BitVec.ofInt 9 (dLookup s.cfg pol k).2, BitVec.ofInt 9 (dLookup s.cfg pol k).2]
      remnantOfdm := #v[rO, rO]
      remnantCck := #v[rC, rC] } := by
  have cfg : (pathComp 0 pol k (s.setWork { s.work with p := 0 })).cfg = s.cfg := (pathComp_keeps 0 pol k _).cfg
  have first := pathComp_pt_of (c := s.cfg) (x := s.pt) 0 pol k (s := s.setWork { s.work with p := 0 }) rfl rfl
  unfold compensate
  dsimp only
  generalize pathComp 0 pol k (s.setWork { s.work with p := 0 }) = a at cfg first ⊢
  by_cases unchanged : (dLookup s.cfg pol k).1 = s.pt.deltaOfdm[0].toInt ∧ (dLookup s.cfg pol k).2 = s.pt.deltaCck[0].toInt
  · have second := pathComp_pt_of 1 pol k (s := a.setWork { a.work with p := 1 }) cfg (first.trans (if_pos unchanged))
    rw [hO, hC] at unchanged
    exact .inl (second.trans (if_pos unchanged))
  · have second := pathComp_pt_of 1 pol k (s := a.setWork { a.work with p := 1 }) cfg (first.trans (if_neg unchanged))
    rw [hO, hC] at unchanged
    refine .inr ⟨BitVec.ofInt 10 (swClamp 42 (s.pt.ofdmIndex.toNat + (dLookup s.cfg pol k).1)).2,
      BitVec.ofInt 10 (swClamp 32 (s.pt.cckIndex.toNat + (dLookup s.cfg pol k).2)).2,
      (second.trans (if_neg (by simpa using unchanged))).trans ?_⟩
    simp only [set_both]

end Sys2Proof.Machine

/-! Every step keeps the invariant between commands (O56). -/

namespace Sys2Proof.Machine

/-! ## The operations of a run keep its invariant -/

/-- An operation keeps the run's invariant when it keeps what `State.Keeps` says, guards the records, and leaves the return
flag, OUTCOME and the ranges right. -/
theorem State.RunInv.of_keeps {s t : State} (h : s.RunInv) (k : s.Keeps t) (g : s.Guards True True t)
    (hret : t.seq.ret = false) (hout : legalOutcome t.outcome) (hpt : t.pt.Ranged s.cfg) : t.RunInv where
  config := k.cfg ▸ h.config
  mem := k.port.mem h.mem
  rf := k.cfg ▸ k.port.rf h.rf
  bkp := k.bkp h.bkp
  ret := hret
  outcome := hout
  uncalibrated undone := by
    rcases g.cal with kept | ⟨-, done⟩
    · rw [kept, k.cfg]
      exact h.uncalibrated (kept ▸ undone)
    · rw [done] at undone
      contradiction
  ranged := k.cfg ▸ hpt

theorem State.MeasKeeps.runInv {s t : State} (m : s.MeasKeeps t) (h : s.RunInv) : t.RunInv :=
  h.of_keeps m.toKeeps m.guards (m.ret.trans h.ret) (m.outcome ▸ h.outcome) (m.pt ▸ h.ranged)

/-- A change of PowerTrackState within its ranges. -/
theorem State.RunInv.setPt {s : State} (h : s.RunInv) {x : PtState} (hx : x.Ranged s.cfg) : (s.setPt x).RunInv :=
  { h with ranged := hx }

/-- The links do not speak of ptTriggered. -/
theorem PtState.Linked.setTriggered {c : Config} {ref : Byte} {x : PtState} (l : x.Linked c ref) (b : Bool) :
    ({ x with triggered := b } : PtState).Linked c ref := ⟨l.unsupported, l.anchored, l.firstPass⟩

theorem State.RunInv.setBusy {s : State} (h : s.RunInv) (b : Bool) : State.RunInv { s with busy := b } := { h with }

theorem unsupChk_runInv {s : State} (h : s.RunInv) : (unsupChk s).2.RunInv := by
  unfold unsupChk
  split
  · exact { h.setPt (h.ranged.setFlags _ _ true _ _ _) with }
  · exact h

theorem avgUpd_runInv {s : State} (h : s.RunInv) (t : Byte) : (avgUpd t s).2.RunInv := h.setPt (h.ranged.average t)

theorem needIqk_runInv {s : State} (h : s.RunInv) (avg : Byte) : (needIqk avg s).2.RunInv := by
  obtain ⟨a, e⟩ := needIqk_state avg s
  rw [e]
  exact h.setPt (h.ranged.setFlags _ _ _ _ a true)

theorem compChk_runInv {s : State} (h : s.RunInv) (t : Byte) : (compChk t s).2.RunInv := by
  rw [compChk_state]
  exact h.setPt (h.ranged.setFlags _ false _ _ _ _)

theorem compensate_runInv {s : State} (h : s.RunInv) (pol : Polarity) (k : Nat) : (compensate pol k s).RunInv := by
  obtain ⟨-, outcome, seq, -⟩ := compensate_rest pol k s
  refine h.of_keeps (compensate_keeps pol k s) (compensate_guards pol k s) (seq ▸ h.ret) (outcome ▸ h.outcome) ?_
  rcases compensate_pt pol k h.ranged.deltas.1 h.ranged.deltas.2 with e | ⟨rO, rC, e⟩
  · rw [e]
    exact h.ranged
  · rw [e]
    obtain ⟨lowO, highO, lowC, highC⟩ := dLookup_range s.cfg pol k
    exact h.ranged.setBoth ⟨lowO, highO⟩ ⟨lowC, highC⟩ rO rC

theorem passComp_runInv {s : State} (h : s.RunInv) (t : Byte) : (passComp t s).RunInv :=
  compensate_runInv ((((s.setPhase_keeps .ptPassComp).runInv h).setPt (h.ranged.setFlags _ _ _ t _ _))) _ _

/-- The OUTCOME word of a run: failed, round 0, round 1 or the hybrid round (R132, R254). -/
theorem iqkAnchored_outcome {s : State} (h : s.cfg.wf = true) : legalOutcome (iqkAnchored s).2.outcome := by
  obtain ⟨-, applied, failed, -⟩ := iqkAnchored_spec s
  cases found : (iqkAnchored s).1 with
  | false => exact .inl (failed found).2
  | true =>
    rcases (applied found).2 with e | e | e
    · exact .inr (.inl e)
    · exact .inr (.inr (.inl e))
    · rw [Config.roundHybrid_eq _ h] at e
      exact .inr (.inr (.inr (e.trans (by decide))))

theorem iqkAnchored_ranged {s : State} {c : Config} (h : s.pt.Ranged c) : (iqkAnchored s).2.pt.Ranged c := by
  rw [(iqkAnchored_spec s).1]
  split
  · exact h.setFlags _ _ _ _ _ true
  · exact h

theorem iqkAnchored_runInv {s : State} (h : s.RunInv) : (iqkAnchored s).2.RunInv :=
  h.of_keeps (iqkAnchored_keeps s) (iqkAnchored_guards trivial trivial s) ((iqkAnchored_spec s).2.2.2.trans h.ret)
    (iqkAnchored_outcome h.config) (iqkAnchored_ranged h.ranged)

theorem resync_ranged {s : State} {c : Config} (hcfg : s.cfg.wf = true) (h : s.pt.Ranged c) : (resync s).pt.Ranged c := by
  obtain ⟨pt, ofdm, cck, -⟩ := resync_pt hcfg
  rw [pt]
  exact h.setIndices ofdm cck

theorem resync_runInv {s : State} (h : s.RunInv) : (resync s).RunInv := by
  obtain ⟨-, -, -, -, outcome, seq⟩ := resync_pt h.config
  exact h.of_keeps (resync_keeps s) (resync_guards s) (by rw [seq, h.ret]) (by rw [outcome]; exact h.outcome)
    (resync_ranged h.config h.ranged)

/-- The nested run opens with the return flag set and closes with it clear (R31, R274). -/
theorem passIqk_runInv {s : State} (h : s.RunInv) : (passIqk s).RunInv := by
  have cfg : (iqkAnchored { s with seq := ⟨.ptPassIqk, true⟩ }).2.cfg = s.cfg := (iqkAnchored_keeps _).cfg
  have outcome := iqkAnchored_outcome (s := { s with seq := ⟨.ptPassIqk, true⟩ }) h.config
  have ranged := iqkAnchored_ranged (s := { s with seq := ⟨.ptPassIqk, true⟩ }) h.ranged
  have whole := passIqk_keeps s
  have guarded := passIqk_guards (P := True) (Q := True) trivial trivial s
  unfold passIqk at *
  dsimp only at *
  generalize iqkAnchored { s with seq := ⟨.ptPassIqk, true⟩ } = r at *
  have hcfg : r.2.cfg.wf = true := cfg ▸ h.config
  obtain ⟨-, -, -, -, outcome', seq⟩ := resync_pt (s := { r.2 with seq := ⟨.ptResync, false⟩ }) hcfg
  exact h.of_keeps whole guarded (by rw [seq]) (outcome' ▸ outcome) (resync_ranged hcfg ranged)

/-! ## A pass that senses -/

/-- The flags once a pass of an enabled controller has sampled and decided: there is an average and an anchor, and no first
pass is awaited (R266, R268, R270). -/
structure PtState.Decided (c : Config) (x : PtState) : Prop where
  enabled : x.disabled = false
  averaged : x.avgValid[c.thermPath] = true
  anchored : x.anchorValid = true
  started : x.initTrigger = false

/-- The run's invariant and the flags, once a pass has sampled and decided. -/
structure State.Sensed (s : State) : Prop extends State.RunInv s where
  decided : s.pt.Decided s.cfg

theorem State.Sensed.linked {s : State} (h : s.Sensed) : s.Linked where
  unsupported disabled := by
    rw [h.decided.enabled] at disabled
    contradiction
  anchored := h.decided.anchored.trans h.decided.averaged.symm
  firstPass awaited := by
    rw [h.decided.started] at awaited
    contradiction

/-- AVGUPD, NEEDIQK and COMPCHK of an enabled controller (R266, R268, R270). -/
theorem decisions_sensed {s : State} (h : s.RunInv) (enabled : s.pt.disabled = false) (t avg t' : Byte) :
    (compChk t' (needIqk avg (avgUpd t s).2).2).2.Sensed := by
  have run := compChk_runInv (needIqk_runInv (avgUpd_runInv h t) avg) t'
  obtain ⟨a, seeded⟩ := needIqk_state avg (avgUpd t s).2
  rw [compChk_state, seeded] at run ⊢
  exact { run with decided := ⟨enabled, Vector.getElem_set_self _, rfl, rfl⟩ }

/-- Step 6 moves deltas and remnants only (R274). -/
theorem passComp_sensed {s : State} (h : s.Sensed) (t : Byte) : (passComp t s).Sensed := by
  refine { passComp_runInv h.toRunInv t with decided := ?_ }
  rw [(passComp_keeps t s).cfg]
  have entry : (rawDelta t (s.setPhase .ptPassComp)).2.pt.Decided s.cfg :=
    ⟨h.decided.enabled, h.decided.averaged, h.decided.anchored, h.decided.started⟩
  unfold passComp
  rcases compensate_pt (rawDelta t (s.setPhase .ptPassComp)).1.1 (rawDelta t (s.setPhase .ptPassComp)).1.2
    (s := (rawDelta t (s.setPhase .ptPassComp)).2) h.ranged.deltas.1 h.ranged.deltas.2 with e | ⟨rO, rC, e⟩
  · rw [e]
    exact entry
  · rw [e]
    exact ⟨entry.enabled, entry.averaged, entry.anchored, entry.started⟩

/-- The nested run sets the anchor, the resync the baseline indices (R274, R157, R302). -/
theorem passIqk_sensed {s : State} (h : s.Sensed) : (passIqk s).Sensed := by
  refine { passIqk_runInv h.toRunInv with decided := ?_ }
  rw [(passIqk_keeps s).cfg]
  have cfg : (iqkAnchored { s with seq := ⟨.ptPassIqk, true⟩ }).2.cfg = s.cfg := (iqkAnchored_keeps _).cfg
  have run : (iqkAnchored { s with seq := ⟨.ptPassIqk, true⟩ }).2.pt.Decided s.cfg := by
    rw [(iqkAnchored_spec _).1]
    split
    · exact ⟨h.decided.enabled, h.decided.averaged, rfl, h.decided.started⟩
    · exact h.decided
  unfold passIqk
  dsimp only
  generalize iqkAnchored { s with seq := ⟨.ptPassIqk, true⟩ } = r at *
  rw [(resync_pt (s := { r.2 with seq := ⟨.ptResync, false⟩ }) (cfg ▸ h.config)).1]
  exact ⟨run.enabled, run.averaged, run.anchored, run.started⟩

theorem passBody_sensed {s : State} (h : s.RunInv) (enabled : s.pt.disabled = false) : (passBody s).Sensed := by
  have read := thermRead_keeps s
  have decided := decisions_sensed (read.runInv h) (read.pt ▸ enabled) (thermRead s).1
    (avgUpd (thermRead s).1 (thermRead s).2).1 (thermRead s).1
  unfold passBody
  dsimp only
  split <;> split
  · exact passIqk_sensed (passComp_sensed decided _)
  · exact passIqk_sensed decided
  · exact passComp_sensed decided _
  · exact decided

/-- A pass of an enabled controller: an unsupported sensor disables it and stops, any other is sensed (R263, R274). -/
theorem pass_runInv {s : State} (h : s.RunInv) (l : s.Linked) (enabled : s.pt.disabled = false) :
    (Machine.pass s).RunInv ∧ (Machine.pass s).Linked := by
  have entry := (s.setPhase_keeps .ptPassSense).runInv h
  have checked := unsupChk_runInv entry
  unfold Machine.pass
  dsimp only
  by_cases unsupported : s.thermalRef = s.cfg.thermUnsupported
  · have stopped : unsupChk (s.setPhase .ptPassSense) = (true, ((s.setPhase .ptPassSense).setPt
        { s.pt with disabled := true }).warn .thermUnsupported) := if_pos unsupported
    rw [stopped] at checked ⊢
    exact ⟨checked, fun _ => unsupported, l.anchored, l.firstPass⟩
  · have goes : unsupChk (s.setPhase .ptPassSense) = (false, s.setPhase .ptPassSense) := if_neg unsupported
    rw [goes]
    have sensed := passBody_sensed entry enabled
    exact ⟨sensed.toRunInv, sensed.linked⟩

/-! ## The commands -/

/-- The end of a command of an initialised block is a state between commands (R150). -/
theorem State.RunInv.finish {s : State} (h : s.RunInv) (l : s.Linked) (hinit : s.inited = true) (huseq : s.useq = [])
    (harmed : s.pt.disabled = true → s.pt.triggered = false) {code : Byte} (hcode : legalStatus code) :
    (s.finish code).Inv := by
  have ended : (s.finish code).RunInv := { h with }
  refine ended.inv l rfl rfl huseq hcode (fun hn => ?_) harmed
  rw [State.finish_inited, hinit] at hn
  contradiction

/-- A refusal changes STATUS and WARN only (R326). -/
theorem State.Inv.refuse {s : State} (h : s.Inv) {code : Byte} (hcode : legalStatus code) : (s.refuse code).Inv :=
  { h with status := hcode }

theorem legalStatus_errors : legalStatus stErrIllegal ∧ legalStatus stErrNotInited ∧ legalStatus stErrBusy ∧
    legalStatus stErrAlreadyInited := by
  unfold legalStatus
  decide

theorem legalStatus_answers : legalStatus stOk ∧ legalStatus stCalFailed ∧ legalStatus stPtDisabled := by
  unfold legalStatus
  decide

theorem legalStatus_ite {x y : Byte} (hx : legalStatus x) (hy : legalStatus y) (b : Bool) :
    legalStatus (if b = true then x else y) := by
  cases b
  · exact hy
  · exact hx

/-- INIT is refused with a STATUS code of R321. -/
theorem refusesInit_legal {s : State} {code : Byte} (h : refusesInit s = some code) : legalStatus code := by
  obtain ⟨-, -, busy, already⟩ := legalStatus_errors
  unfold refusesInit at h
  split at h
  · exact Option.some.inj h ▸ busy
  · split at h
    · exact Option.some.inj h ▸ already
    · cases h

/-- So are the other commands. -/
theorem refusesOther_legal {s : State} {code : Byte} (h : refusesOther s = some code) : legalStatus code := by
  obtain ⟨-, absent, busy, -⟩ := legalStatus_errors
  unfold refusesOther at h
  split at h
  · exact Option.some.inj h ▸ busy
  · split at h
    · cases h
    · exact Option.some.inj h ▸ absent

/-- A command other than INIT is accepted by an initialised block only (R151). -/
theorem inited_of_accepted {s : State} (h : refusesOther s = none) : s.inited = true := by
  unfold refusesOther at h
  split at h
  · cases h
  · split at h
    · assumption
    · cases h

/-- The registers that INIT sets before its hooks, with the bus kind it then latches, are in order for the resync (R153). -/
theorem initRegs_runInv {s : State} (h : s.Inv) {q : Port} (grows : (initRegs s).port.Grows s.cfg q) (k : HciKind) :
    State.RunInv { initRegs s with port := q, hciKind := k } where
  config := h.config
  mem := grows.mem h.mem
  rf := grows.rf h.rf
  bkp := freeWorkOf_bkp_length _ _
  ret := rfl
  outcome := .inl rfl
  uncalibrated _ := rfl
  ranged := (PtState.initial_ranged h.config).setFlags _ true _ s.thermalRefIn _ _

/-- INIT awaits its first pass with the latched reference as the code last applied (R153, R270). -/
theorem initRegs_linked (s : State) (q : Port) (k : HciKind) : State.Linked { initRegs s with port := q, hciKind := k } where
  unsupported disabled := by
    have enabled : (initRegs s).pt.disabled = false := rfl
    rw [enabled] at disabled
    contradiction
  anchored := (PtState.initial_avgValid s.cfg s.cfg.thermPath).symm
  firstPass _ := ⟨PtState.initial_avgValid s.cfg s.cfg.thermPath, rfl, rfl, rfl, rfl, rfl⟩

/-- RESYNC moves the baseline indices only (R302). -/
theorem resync_linked {s : State} (hcfg : s.cfg.wf = true) (l : s.Linked) : (resync s).Linked := by
  have keeps := resync_keeps s
  rw [State.Linked, keeps.cfg, keeps.thermalRef, (resync_pt hcfg).1]
  exact ⟨l.unsupported, l.anchored, l.firstPass⟩

theorem runInit_inv {s t : State} (h : s.Inv) (ht : runInit s = .next t) : t.Inv := by
  unfold runInit at ht
  dsimp only at ht
  split at ht
  · rename_i r latched
    have entry := initRegs_runInv h (Port.hci_grows s.cfg _ latched) r.1
    have linked := resync_linked entry.config (initRegs_linked s r.2 r.1)
    have created : State.RunInv { resync { initRegs s with port := r.2, hciKind := r.1 } with inited := true } :=
      { resync_runInv entry with }
    rw [← Host.Outcome.next.inj ht]
    exact created.finish linked rfl h.noMicro (fun _ => rfl)
      legalStatus_answers.1
  · cases ht

/-- An applied run makes the average, if there is one, the anchor (R157). -/
theorem iqkAnchored_linked {s : State} (l : s.Linked) : (iqkAnchored s).2.Linked := by
  have keeps := iqkAnchored_keeps s
  rw [State.Linked, keeps.cfg, keeps.thermalRef, (iqkAnchored_spec s).1]
  split
  · rename_i applied
    exact ⟨l.unsupported, applied.2.symm, l.firstPass⟩
  · exact l

theorem runCalibrate_inv {s : State} (h : s.Inv) (hinit : s.inited = true) : (runCalibrate s).Inv := by
  have run := iqkAnchored_runInv (h.runInv.setBusy true)
  have keeps := iqkAnchored_keeps { s with busy := true }
  have armed : (iqkAnchored { s with busy := true }).2.pt.disabled = true →
      (iqkAnchored { s with busy := true }).2.pt.triggered = false := by
    rw [(iqkAnchored_spec { s with busy := true }).1]
    split <;> exact fun disabled => (h.disabled disabled).2
  obtain ⟨ok, failed, -⟩ := legalStatus_answers
  exact run.finish (iqkAnchored_linked h.linked) (keeps.inited.trans hinit) (keeps.useq.trans h.noMicro) armed
    (legalStatus_ite ok failed _)

/-- TICK of an enabled controller: a pass when SAMPLED, arming when ARMED (R155). -/
theorem runTick_inv {s : State} (h : s.Inv) (hinit : s.inited = true) (enabled : s.pt.disabled = false) :
    (runTick s).Inv := by
  have started := h.runInv.setBusy true
  obtain ⟨ok, -, disabled⟩ := legalStatus_answers
  have answer := legalStatus_ite disabled ok
  unfold runTick
  dsimp only
  split
  · obtain ⟨run, linked⟩ := pass_runInv started h.linked enabled
    have keeps := pass_keeps { s with busy := true }
    exact (run.setPt (run.ranged.setFlags false _ _ _ _ _)).finish (linked.setTriggered false)
      (keeps.inited.trans hinit) (keeps.useq.trans h.noMicro) (fun _ => rfl) (answer _)
  · have armed := (State.setPhase_keeps { s with busy := true } .ptArm).trans (arm_keeps _)
    have run := armed.runInv started
    exact (run.setPt (run.ranged.setFlags true _ _ _ _ _)).finish (h.linked.setTriggered true)
      hinit h.noMicro (fun disabled => absurd (enabled.symm.trans disabled) Bool.false_ne_true) (answer _)

/-! ## The step -/

/-- The host's operations are the four commands (R130, R135). -/
theorem host_iff (i : Instr) : i.wellFormed .host = true ↔ i = .init ∨ i = .calibrate ∨ i = .tick ∨ i = .detach := by
  cases i <;> decide

/-- Each command, accepted or refused, ends in a state between commands (R151). -/
theorem exec_host_inv {i : Instr} {s t : State} (hi : i.wellFormed .host = true) (h : s.Inv) (ht : exec i s = .next t) :
    t.Inv := by
  rcases (host_iff i).mp hi with rfl | rfl | rfl | rfl
  · simp only [exec, execInit] at ht
    split at ht
    · rename_i refused
      exact Host.Outcome.next.inj ht ▸ h.refuse (refusesInit_legal refused)
    · exact runInit_inv h ht
  · simp only [exec, execCalibrate] at ht
    split at ht <;> rename_i answer <;> rw [← Host.Outcome.next.inj ht]
    · exact h.refuse (refusesOther_legal answer)
    · exact runCalibrate_inv h (inited_of_accepted answer)
  · simp only [exec, execTick] at ht
    split at ht <;> rename_i answer
    · exact Host.Outcome.next.inj ht ▸ h.refuse (refusesOther_legal answer)
    · split at ht <;> rename_i disabled <;> rw [← Host.Outcome.next.inj ht]
      · exact { h with status := legalStatus_answers.2.2 }
      · exact runTick_inv h (inited_of_accepted answer) (Bool.not_eq_true _ ▸ disabled)
  · simp only [exec, execDetach] at ht
    split at ht <;> rename_i answer <;> rw [← Host.Outcome.next.inj ht]
    · exact h.refuse (refusesOther_legal answer)
    · exact h.discard legalStatus_answers.1

/-- A code on the command port (R151, R136). -/
theorem issueHost_inv {code : Byte} {s t : State} (h : s.Inv) (ht : issueHost code s = .next t) : t.Inv := by
  obtain ⟨illegal, -⟩ := legalStatus_errors
  simp only [issueHost, h.notBusy, Bool.false_eq_true, if_false] at ht
  split at ht
  · split at ht
    · rename_i hosted
      exact exec_host_inv hosted h ht
    · exact Host.Outcome.next.inj ht ▸ h.refuse illegal
  · exact Host.Outcome.next.inj ht ▸ h.refuse illegal

/-- Another agent's writes keep both stores canonical (R95). -/
theorem outsideWrites_wf (c : Config) (ws : List DevWrite) {d : Device} (hm : d.mem.wf = true) (hr : rfWf c d.rf = true) :
    (ws.foldl (Device.outsideWrite c) d).mem.wf = true ∧ rfWf c (ws.foldl (Device.outsideWrite c) d).rf = true := by
  induction ws generalizing d with
  | nil => exact ⟨hm, hr⟩
  | cons w ws ih => exact ih (Device.outsideWrite_wf c hm w) (Device.outsideWrite_rf c hr w)

/-- One input from outside, whatever it is. -/
theorem takeEvent_inv {e : HostEvent} {s t : State} (h : s.Inv) (ht : takeEvent e s = .next t) : t.Inv := by
  cases e with
  | command code pin => exact issueHost_inv (s := { s with thermalRefIn := pin }) { h with } ht
  | outside ws =>
    obtain ⟨mem, rf⟩ := outsideWrites_wf s.cfg ws h.mem h.rf
    simp only [takeEvent, outsideWrites] at ht
    split at ht
    · cases ht
    · exact Host.Outcome.next.inj ht ▸ { h with mem := mem, rf := rf }
  | hardwareReset => exact Host.Outcome.next.inj ht ▸ h.discard (.inl rfl)

/-- Settles O56: a block that meets the invariant has no micro-operation waiting, so a step takes an input of the host or
nothing. -/
theorem stepKeepsInv : Obligations.StepKeepsInv := by
  intro s t h ht
  simp only [step, h.noMicro] at ht
  split at ht
  · rename_i rest _
    exact takeEvent_inv (s := { s with useq := [], cmds := rest }) { h with noMicro := rfl } ht
  · exact Host.Outcome.next.inj ht ▸ h

end Sys2Proof.Machine

/-! What every operation and every step keeps: the configuration, the trace so far, and the stores (O59). -/

namespace Sys2Proof.Machine

/-- The configuration stays, and the port is only used (`Port.Grows`): the trace grows by transaction records, the stores
stay canonical and a byte that is not STORAGE keeps its value (R80, R81, R356). -/
structure State.Extends (s t : State) : Prop where
  cfg : t.cfg = s.cfg
  port : s.port.Grows s.cfg t.port

theorem State.Extends.of_eq {s t : State} (hc : t.cfg = s.cfg) (hq : t.port = s.port) : s.Extends t :=
  ⟨hc, hq ▸ .refl _⟩

theorem State.Extends.refl (s : State) : s.Extends s := .of_eq rfl rfl

theorem State.Extends.trans {a b c : State} (h : a.Extends b) (k : b.Extends c) : a.Extends c :=
  ⟨k.cfg.trans h.cfg, h.port.trans (h.cfg ▸ k.port)⟩

theorem State.Keeps.extend {s t : State} (h : s.Keeps t) : s.Extends t := ⟨h.cfg, h.port⟩

/-- A use of the port. -/
theorem State.setPort_extends (s : State) {q : Port} (h : s.port.Grows s.cfg q) : s.Extends (s.setPort q) := ⟨rfl, h⟩

/-- An operation's result on the wires is no part of what is kept. -/
theorem State.Extends.setWires {s t : State} (h : s.Extends t) (w : Wires) : s.Extends (t.setWires w) := ⟨h.cfg, h.port⟩

/-- What an operation answers extends the state when the state it computes does. -/
theorem State.Extends.of_next {s t u : State} (h : (.next u : Result) = .next t) (e : s.Extends u) : s.Extends t :=
  Host.Outcome.next.inj h ▸ e

/-! ## The host commands -/

theorem State.refuse_extends (s : State) (code : Byte) : s.Extends (s.refuse code) := .of_eq rfl rfl

theorem State.setBusy_extends (s : State) (b : Bool) : s.Extends { s with busy := b } := .of_eq rfl rfl

theorem State.finish_extends (s : State) (code : Byte) : s.Extends (s.finish code) := .of_eq rfl rfl

/-- A reset of the block draws free values and leaves the device and the trace alone (R351). -/
theorem State.discard_extends (s : State) : s.Extends s.discard :=
  ⟨rfl, ⟨[], by simp [State.discard], by simp⟩, id, id, fun _ _ => rfl, fun _ h => h⟩

theorem runInit_extends {s t : State} (h : runInit s = .next t) : s.Extends t := by
  unfold runInit at h
  dsimp only at h
  split at h
  · rename_i r latched
    have hook : (initRegs s).Extends { initRegs s with port := r.2, hciKind := r.1 } :=
      ⟨rfl, Port.hci_grows _ _ latched⟩
    have entry : s.Extends (initRegs s) := s.discard_extends.trans (.of_eq rfl rfl)
    have created := (entry.trans hook).trans (resync_keeps _).extend
    exact .of_next h ⟨created.cfg, created.port⟩
  · cases h

theorem runCalibrate_extends (s : State) : s.Extends (runCalibrate s) :=
  ((s.setBusy_extends true).trans (iqkAnchored_keeps _).extend).trans (State.finish_extends _ _)

theorem runTick_extends (s : State) : s.Extends (runTick s) := by
  unfold runTick
  dsimp only
  split
  · exact (((s.setBusy_extends true).trans (pass_keeps _).extend).trans (setPt_keeps _ _).extend).trans
      (State.finish_extends _ _)
  · exact ((((s.setBusy_extends true).trans (State.setPhase_keeps _ _).extend).trans (arm_keeps _).extend).trans
      (setPt_keeps _ _).extend).trans (State.finish_extends _ _)

/-! ## Every operation -/

/-- Every operation extends the state it starts from (R80, R81, R356). -/
theorem exec_extends {i : Instr} {s t : State} (h : exec i s = .next t) : s.Extends t := by
  cases i with
  -- the host commands
  | init =>
    simp only [exec, execInit] at h
    split at h
    · exact .of_next h (s.refuse_extends _)
    · exact runInit_extends h
  | calibrate =>
    simp only [exec, execCalibrate] at h
    split at h
    · exact .of_next h (s.refuse_extends _)
    · exact .of_next h (runCalibrate_extends s)
  | tick =>
    simp only [exec, execTick] at h
    split at h
    · exact .of_next h (s.refuse_extends _)
    · split at h
      · exact .of_next h (.of_eq rfl rfl)
      · exact .of_next h (runTick_extends s)
  | detach =>
    simp only [exec, execDetach] at h
    split at h
    · exact .of_next h (s.refuse_extends _)
    · exact .of_next h (s.discard_extends.trans (.of_eq rfl rfl))
  -- results go to the wires and no transaction is made
  | canon | encode | iqmult | absdiff | txchk | rxchk | simslot | simcmp | usable | dlookup =>
    exact .of_next h (.of_eq rfl rfl)
  | swclamp =>
    simp only [exec, execSwclamp] at h
    split at h <;> exact .of_next h (.of_eq rfl rfl)
  -- the transactions
  | rd => exact .of_next h ((s.setPort_extends (Port.rd_grows _ _ _ _)).setWires _)
  | wr => exact .of_next h (s.setPort_extends (Port.wr_grows _ _ _ _ _))
  | rdm => exact .of_next h ((s.setPort_extends (Port.rdm_grows _ _ _ _)).setWires _)
  | wrm => exact .of_next h (s.setPort_extends (Port.wrm_grows _ _ _ _ _))
  | rfrd => exact .of_next h ((s.setPort_extends (Port.rfrd_grows _ _ _ _ _)).setWires _)
  | rfwr => exact .of_next h (s.setPort_extends (Port.rfwr_grows _ _ _ _ _ _))
  | delay => exact .of_next h (s.setPort_extends (Port.delay_grows _ _ _ _))
  | poll => exact .of_next h ((s.setPort_extends (Port.poll_grows _ _ _ _ _ _ _)).setWires _)
  | hookChan => exact .of_next h ((s.setPort_extends (Port.chan_grows _ _)).setWires _)
  | hookReapply => exact .of_next h (s.setPort_extends (Port.reapply_grows _ _ _))
  | hookHci =>
    simp only [exec, execHookHci] at h
    split at h
    · rename_i answered
      exact .of_next h ((s.setPort_extends (Port.hci_grows _ _ answered)).setWires _)
    · cases h
  -- the measurement and the selection of a run
  | backup => exact .of_next h (backup_keeps s).extend
  | calcfg => exact .of_next h (calcfg_keeps _ _ s).extend
  | oneshot => exact .of_next h ((oneshot_keeps s).extend.setWires _)
  | txatt => exact .of_next h ((txatt_keeps s).extend.setWires _)
  | rxatt => exact .of_next h ((rxatt_keeps s).extend.setWires _)
  | txmeas => exact .of_next h ((txmeas_keeps _ _ s).extend.setWires _)
  | rxmeas => exact .of_next h (rxmeas_keeps _ _ _ s).extend
  | round => exact .of_next h (measRound_keeps _ s).extend
  | roundrestore => exact .of_next h (roundRestore_keeps s).extend
  | vote => exact .of_next h ((vote_keeps _ s).extend.setWires _)
  | hybacc => exact .of_next h (hybAcc_keeps s).extend
  | hybnorm => exact .of_next h (hybNorm_keeps s).extend
  | hybchk => exact .of_next h ((hybChk_keeps s).extend.setWires _)
  -- its application
  | filltx => exact .of_next h (s.setPort_extends (fillTx_grows _ _ _ _ _))
  | fillrx => exact .of_next h (s.setPort_extends (fillRx_grows _ _ _ _ _))
  | retain => exact .of_next h (retain_keeps _ s).extend
  | apply => exact .of_next h (applyCand_keeps _ s).extend
  | finalrestore => exact .of_next h (finalRestore_keeps s).extend
  | iqkrun => exact .of_next h ((iqkRun_keeps s).extend.setWires _)
  -- the operations of a pass
  | arm => exact .of_next h (arm_keeps s).extend
  | unsupchk => exact .of_next h ((unsupChk_keeps s).extend.setWires _)
  | thread => exact .of_next h ((thermRead_keeps s).extend.setWires _)
  | avgupd => exact .of_next h ((avgUpd_keeps _ s).extend.setWires _)
  | needIqk => exact .of_next h ((needIqk_keeps _ s).extend.setWires _)
  | compchk => exact .of_next h ((compChk_keeps _ s).extend.setWires _)
  | rawdelta => exact .of_next h ((setPt_keeps s _).extend.setWires _)
  | pass => exact .of_next h (pass_keeps s).extend
  | swofdm => exact .of_next h (s.setPort_extends (swOfdm_grows _ _ _ _ _))
  | swcck => exact .of_next h (s.setPort_extends (swCck_grows _ _ _))
  | commit => exact .of_next h (commit_keeps _ _ _ _ _ s).extend
  | pathcomp => exact .of_next h (pathComp_keeps _ _ _ s).extend
  | resynco => exact .of_next h (resyncO_keeps s).extend
  | resyncc => exact .of_next h (resyncC_keeps s).extend
  | resync => exact .of_next h (resync_keeps s).extend

/-! ## The step -/

/-- Taking an operation from the pending inputs is no part of what is kept (R130, R150). -/
theorem State.Extends.of_taken {s t : State} {useq : List Byte} {cmds : List HostEvent} {pin : Byte}
    (h : State.Extends { s with useq := useq, cmds := cmds, thermalRefIn := pin } t) : s.Extends t := ⟨h.cfg, h.port⟩

theorem issueMicro_extends {code : Byte} {s t : State} (h : issueMicro code s = .next t) : s.Extends t := by
  unfold issueMicro at h
  split at h
  · split at h
    · exact exec_extends h
    · cases h
  · cases h

theorem issueHost_extends {code : Byte} {s t : State} (h : issueHost code s = .next t) : s.Extends t := by
  unfold issueHost at h
  split at h
  · exact .of_next h (s.refuse_extends _)
  · split at h
    · split at h
      · exact exec_extends h
      · exact .of_next h (s.refuse_extends _)
    · exact .of_next h (s.refuse_extends _)

/-- A write of another agent makes no record, and like the block's own it reaches STORAGE bytes only (R80, R95). -/
theorem Port.outsideWrite_grows (c : Config) (q : Port) (x : DevWrite) :
    q.Grows c { q with dev := q.dev.outsideWrite c x } where
  trace := ⟨[], by simp, by simp⟩
  mem h := Device.outsideWrite_wf c h x
  rf h := Device.outsideWrite_rf c h x
  frame a ha := by
    cases x with
    | ctl b v => exact Device.byteAt_storeByte_of_class c _ b v ha
    | rf p i v => rfl
  hci b hb := by
    cases x with
    | ctl a v => rwa [Device.outsideWrite, Device.storeByte_eq] at hb
    | rf p i v => exact hb

theorem Port.outsideWrites_grows (c : Config) (q : Port) (ws : List DevWrite) :
    q.Grows c { q with dev := ws.foldl (Device.outsideWrite c) q.dev } := by
  induction ws generalizing q with
  | nil => exact .refl q
  | cons x ws ih => exact (outsideWrite_grows c q x).trans (ih { q with dev := q.dev.outsideWrite c x })

theorem takeEvent_extends {e : HostEvent} {s t : State} (h : takeEvent e s = .next t) : s.Extends t := by
  cases e with
  | command code pin => exact (issueHost_extends h).of_taken
  | outside ws =>
    simp only [takeEvent, outsideWrites] at h
    split at h
    · cases h
    · exact .of_next h (s.setPort_extends (Port.outsideWrites_grows _ _ ws))
  | hardwareReset => exact .of_next h s.discard_extends

/-- Every step extends the state: a micro-operation, an input from outside, or nothing (R130, R151). -/
theorem step_extends {s t : State} (h : step s = .next t) : s.Extends t := by
  unfold step at h
  split at h
  · exact (issueMicro_extends h).of_taken
  · split at h
    · exact (takeEvent_extends h).of_taken
    · exact .of_next h (.refl s)

/-- Settles O59: whatever a step takes, it extends the state (`step_extends`). -/
theorem stepKeepsConfigTraceAndStores : Obligations.StepKeepsConfigTraceAndStores := by
  intro s t h
  obtain ⟨cfg, trace, mem, rf, frame, -⟩ := step_extends h
  exact ⟨cfg, trace, fun canonical => ⟨mem canonical, frame⟩, fun canonical => cfg ▸ rf canonical⟩

end Sys2Proof.Machine

/-! What each port transaction answers, stores and leaves alone, issued one at a time (O7 to O13). -/

namespace Sys2Proof.Machine

/-! ## The environment's answers: the first pending one, else a free value (R80, R89 to R91) -/

section draws
variable {d : Device}

theorem Device.drawStatus_pending {v : Word} {rest : List Word} (h : d.statusQ = v :: rest) :
    d.drawStatus = (v, { d with statusQ := rest }) := by simp [drawStatus, h]

theorem Device.drawStatus_free (h : d.statusQ = []) :
    d.drawStatus = (Config.freeStatus d.draws, { d with draws := d.draws + 1 }) := by simp [drawStatus, h]

theorem Device.drawTherm_pending {v : RfWord} {rest : List RfWord} (h : d.thermQ = v :: rest) :
    d.drawTherm = (v, { d with thermQ := rest }) := by simp [drawTherm, h]

theorem Device.drawTherm_free (h : d.thermQ = []) :
    d.drawTherm = (Config.freeTherm d.draws, { d with draws := d.draws + 1 }) := by simp [drawTherm, h]

theorem Device.drawVerdict_pending {v : Verdict} {rest : List Verdict} (h : d.pollQ = v :: rest) :
    d.drawVerdict = (v, { d with pollQ := rest }) := by simp [drawVerdict, h]

theorem Device.drawVerdict_free (h : d.pollQ = []) :
    d.drawVerdict = (Config.freeVerdict d.draws, { d with draws := d.draws + 1 }) := by simp [drawVerdict, h]

theorem Device.drawChan_pending {v : Byte} {rest : List Byte} (h : d.chanQ = v :: rest) :
    d.drawChan = (v, { d with chanQ := rest }) := by simp [drawChan, h]

theorem Device.drawChan_free (h : d.chanQ = []) :
    d.drawChan = (Config.freeChan d.draws, { d with draws := d.draws + 1 }) := by simp [drawChan, h]

theorem Device.drawReapply_pending {l : List DevWrite} {rest : List (List DevWrite)} (h : d.reapplyQ = l :: rest) :
    d.drawReapply = (l, { d with reapplyQ := rest }) := by simp [drawReapply, h]

theorem Device.drawReapply_free (h : d.reapplyQ = []) :
    d.drawReapply = (Config.freeReapply d.draws, { d with draws := d.draws + 1 }) := by simp [drawReapply, h]

theorem Device.drawHci_pending {b : BitVec 2} {rest : List (BitVec 2)} (h : d.hciQ = b :: rest) :
    d.drawHci = (hciOfCode b, { d with hciQ := rest }) := by simp [drawHci, h]

theorem Device.drawHci_free (h : d.hciQ = []) :
    d.drawHci = (some (Config.freeHci d.draws), { d with draws := d.draws + 1 }) := by simp [drawHci, h]

end draws

/-! ## Reads of the control space (R82, R84) -/

theorem Port.answer_storage {c : Config} {q : Port} {w : Width} {a : Addr} (h : isStorage c w a = true) :
    q.answer c w a = (q.dev.mem.valueAt w a, q.dev) := by simp [answer, h]

theorem Port.answer_drawn {c : Config} {q : Port} {w : Width} {a : Addr} (h : isStorage c w a = false) :
    q.answer c w a = (q.dev.drawStatus.1 &&& widthMask w, q.dev.drawStatus.2) := by simp [answer, h]

@[simp] theorem Port.rd_rf (c : Config) (q : Port) (w : Width) (a : Addr) : (q.rd c w a).2.dev.rf = q.dev.rf := by
  simp [rd, log]

@[simp] theorem Port.rdm_rf (c : Config) (q : Port) (a : Addr) (m : Word) : (q.rdm c a m).2.dev.rf = q.dev.rf := by
  simp [rdm, log]

/-- The value of an access is little-endian (R76). -/
theorem Memory.valueAt_toNat (m : Memory) (w : Width) (a : Addr) :
    (m.valueAt w a).toNat = (w.bytes a).foldr (fun b n => (m.byteAt b).toNat + 256 * n) 0 := by
  have append : ∀ {n k : Nat} (x : BitVec n) (y : BitVec k), (x ++ y).toNat = x.toNat * 2 ^ k + y.toNat := by
    intro n k x y
    rw [BitVec.toNat_append, ← Nat.shiftLeft_add_eq_or_of_lt y.isLt, Nat.shiftLeft_eq]
  have low := (m.byteAt a).isLt
  have high := (m.byteAt (a + 1)).isLt
  cases w <;>
    simp only [valueAt, wordAt, Width.bytes, List.foldr_cons, List.foldr_nil, BitVec.toNat_setWidth, append] <;> omega

/-! ## Fields of a mask whose lowest bit is known (R84, R85) -/

section fields
variable {w : Nat} {m : BitVec w} {k : Nat}

theorem isCtz.ctz_eq (h : isCtz m k) : ctz m = k := Machine.ctz_eq h.1 h.2

/-- A masked read of the field just written answers the value, when it fits the field (R84, R85). -/
theorem fieldGet_fieldSet_of_fits {old v : BitVec w} (unshifted : (v <<< ctz m) >>> ctz m = v)
    (inside : (v <<< ctz m) &&& m = v <<< ctz m) : fieldGet (fieldSet old m v) m = v := by
  have field : fieldSet old m v &&& m = v <<< ctz m := by
    rw [fieldSet, inside]
    conv_rhs => rw [← inside]
    ext i hi
    simp only [BitVec.getElem_and, BitVec.getElem_or, BitVec.getElem_not]
    cases m[i] <;> simp
  rw [fieldGet, field, unshifted]

end fields

/-! ## RD, WR, RDM, WRM -/

/-- Settles O7: RD is `Port.rd`, whose answer is `Port.answer`. -/
theorem rdAnswers : Obligations.RdAnswers := by
  intro s
  refine ⟨_, rfl, rfl, rfl, fun a => by simp, by simp, fun stored => ?_, fun drawn => ?_⟩
  · simp [Port.rd, Port.log, Port.answer_storage stored, Memory.valueAt_toNat]
  · refine ⟨fun v rest pending => ?_, fun free => ?_⟩
    · simp [Port.rd, Port.log, Port.answer_drawn drawn, Device.drawStatus_pending pending]
    · simp [Port.rd, Port.log, Port.answer_drawn drawn, Device.drawStatus_free free]

/-- Settles O8: WR is `Device.store`. -/
theorem wrStores : Obligations.WrStores := by
  intro s canonical
  refine ⟨_, rfl, rfl, rfl, Port.wr_rf _ _ _ _ _, Port.wr_answers _ _ _ _ _, fun k b covered stored => ?_,
    fun b untouched => ?_⟩
  · exact Device.byteAt_store_self canonical _ covered stored
  · rcases untouched with outside | other
    · exact Port.byteAt_wr_of_not_mem _ _ _ outside
    · exact (Port.wr_grows _ _ _ _ _).frame b other

/-- Settles O9: RDM is the field of `Port.answer`. -/
theorem rdmReadsField : Obligations.RdmReadsField := by
  intro s k lowest
  obtain rfl := lowest.ctz_eq
  refine ⟨_, rfl, rfl, rfl, fun a => by simp, by simp, fun stored => ?_, fun drawn => ?_⟩
  · simp [Port.rdm_storage stored, Port.log, fieldGet]
  · refine ⟨fun v rest pending => ?_, fun free => ?_⟩
    · simp [Port.rdm, Port.log, Port.answer_drawn drawn, Device.drawStatus_pending pending, fieldGet]
    · simp [Port.rdm, Port.log, Port.answer_drawn drawn, Device.drawStatus_free free, fieldGet]

/-- Settles O10: WRM stores the merged word, and RDM of the same field then finds the value
(`fieldGet_fieldSet_of_fits`). -/
theorem wrmMergesField : Obligations.WrmMergesField := by
  intro s k lowest canonical
  obtain rfl := lowest.ctz_eq
  have merged (stored : isStorage s.cfg .w32 s.wires.addr = true) :=
    Port.wordAt_wrm_self canonical stored s.wires.mask s.wires.val
  refine ⟨_, rfl, rfl, rfl, Port.wrm_rf _ _ _ _ _, Port.wrm_answers _ _ _ _ _, fun b untouched => ?_, merged,
    fun stored unshifted inside => ⟨_, rfl, ?_⟩⟩
  · rcases untouched with outside | other
    · exact Port.byteAt_wrm_of_not_mem _ _ _ _ outside
    · exact (Port.wrm_grows _ _ _ _ _).frame b other
  · simp [Port.rdm_storage stored, merged stored, fieldGet_fieldSet_of_fits unshifted inside]

/-! ## RFRD, RFWR -/

@[simp] theorem Port.rfrd_rf (c : Config) (q : Port) (p : Path) (i : Byte) (m : RfWord) :
    (q.rfrd c p i m).2.dev.rf = q.dev.rf := by simp [rfrd, log]

theorem Port.rfAnswer_held {c : Config} {q : Port} {p : Path} {i : Byte} (h : ¬ (p = c.thermPath ∧ i = c.rfTMeter)) :
    q.rfAnswer c p i = (Store.read q.dev.rf (rfKey p i), q.dev) := if_neg h

theorem Port.rfAnswer_therm {c : Config} {q : Port} {p : Path} {i : Byte} (hp : p = c.thermPath) (hi : i = c.rfTMeter) :
    q.rfAnswer c p i = q.dev.drawTherm := if_pos ⟨hp, hi⟩

/-- A masked write of RF_DATA_W bits merges into the location (R87, P13). -/
theorem Port.rfwr_read_self {c : Config} {q : Port} (canonical : rfWf c q.dev.rf = true) (p : Path) (i : Byte)
    {m : RfWord} (fits : m.toNat < 2 ^ c.rfDataW) (v : Word) :
    Store.read (q.rfwr c p i m v).dev.rf (rfKey p i) = fieldSet (Store.read q.dev.rf (rfKey p i)) m v := by
  have merged : (fieldSet (Store.read q.dev.rf (rfKey p i)) m v).toNat < 2 ^ c.rfDataW := by
    rw [fieldSet, BitVec.toNat_or, BitVec.toNat_and, BitVec.toNat_and]
    exact Nat.or_lt_two_pow (lt_of_le_of_lt Nat.and_le_left (rfWf_read canonical _))
      (lt_of_le_of_lt Nat.and_le_right fits)
  calc Store.read (q.rfwr c p i m v).dev.rf (rfKey p i)
      = rfTrunc c (fieldSet (Store.read q.dev.rf (rfKey p i)) m v) :=
        Store.read_write_self (rfWf_iff.mp canonical).1 _ _
    _ = fieldSet (Store.read q.dev.rf (rfKey p i)) m v := rfTrunc_of_lt merged

/-- Settles O11: RFRD is the field of `Port.rfAnswer`, RFWR stores the merged location. -/
theorem rfrdReadsAndRfwrMerges : Obligations.RfrdReadsAndRfwrMerges := by
  intro s k lowest
  obtain rfl := lowest.ctz_eq
  refine ⟨⟨_, rfl, rfl, rfl, fun a => by simp, by simp, fun held => ?_, fun path index => ?_⟩,
    fun canonical fits => ⟨_, rfl, rfl, rfl, fun a => rfl, ?_, ?_, fun p i other => ?_⟩⟩
  · simp [Port.rfrd, Port.log, Port.rfAnswer_held held, fieldGet]
  · refine ⟨fun w rest pending => ?_, fun free => ?_⟩
    · simp [Port.rfrd, Port.log, Port.rfAnswer_therm path index, Device.drawTherm_pending pending, fieldGet]
    · simp [Port.rfrd, Port.log, Port.rfAnswer_therm path index, Device.drawTherm_free free, fieldGet]
  · exact ⟨rfl, rfl, rfl, rfl, rfl, rfl, rfl⟩
  · exact Port.rfwr_read_self canonical _ _ fits _
  · exact Port.rfwr_read_of_ne _ _ _ _ (fun same => other ⟨same.1.symm, same.2.symm⟩)

/-! ## DELAY, POLL, CHAN, HCI -/

/-- Every code but the reserved one is a bus kind's (R134). -/
theorem hciOfCode_of_ne {b : BitVec 2} (h : b ≠ 3) : ∃ k, hciOfCode b = some k ∧ hciCode k = b := by
  match b with
  | 0#2 => exact ⟨.usb, rfl, rfl⟩
  | 1#2 => exact ⟨.sdio, rfl, rfl⟩
  | 2#2 => exact ⟨.pcie, rfl, rfl⟩
  | 3#2 => exact absurd rfl h

/-- HCI with an answer that is a bus kind (R91). -/
theorem execHookHci_answered {s : State} {k : HciKind} {dv : Device} (h : s.port.dev.drawHci = (some k, dv)) :
    exec .hookHci s = .next { s with
      wires := { s.wires with hci := k }
      port := ⟨dv, s.port.trace ++ [⟨0x7A, 0, 0, 0, 0, (hciCode k).setWidth 32⟩]⟩ } := by
  simp [exec, execHookHci, Port.hci, h, Port.log, State.setPort, State.setWires]

/-- HCI with the reserved answer (R134). -/
theorem execHookHci_reserved {s : State} {dv : Device} (h : s.port.dev.drawHci = (none, dv)) :
    exec .hookHci s = .refused .reservedHciKind := by
  simp [exec, execHookHci, Port.hci, h]

/-- Settles O12: each of the four is its primitive, whose answer is the next pending one or a free value. -/
theorem timeAndHookTransactions : Obligations.TimeAndHookTransactions := by
  intro s
  refine ⟨rfl, ⟨_, rfl, rfl, rfl, fun v rest pending => ?_, fun free => ?_⟩,
    ⟨_, rfl, rfl, rfl, fun ch rest pending => ?_, fun free => ?_⟩, fun b rest pending reserved => ?_,
    fun b rest pending legal => ?_, fun free => ?_⟩
  · simp [Port.poll, Port.log, Device.drawVerdict_pending pending]
  · simp [Port.poll, Port.log, Device.drawVerdict_free free]
  · simp [Port.chan, Port.log, Device.drawChan_pending pending]
  · simp [Port.chan, Port.log, Device.drawChan_free free]
  · subst reserved
    exact execHookHci_reserved (Device.drawHci_pending pending)
  · obtain ⟨k, kind, code⟩ := hciOfCode_of_ne legal
    have answer := Device.drawHci_pending pending
    rw [kind] at answer
    exact ⟨_, execHookHci_answered answer, rfl, code, by rw [code]⟩
  · exact execHookHci_answered (Device.drawHci_free free)

/-! ## REAPPLY -/

/-- A call of the hook leaves the byte CCK_REG[0] alone (R90, U9). -/
theorem Device.hookWrites_cckReg (c : Config) (ws : List DevWrite) {d : Device} (h : d.mem.wf = true) :
    (ws.foldl (Device.hookWrite c) d).mem.byteAt (c.cckReg 0) = d.mem.byteAt (c.cckReg 0) := by
  have all : ∀ x : Byte, x &&& keptBits c (c.cckReg 0) = x := fun x => by
    rw [keptBits, if_pos rfl]
    exact BitVec.and_allOnes
  rw [← all (Memory.byteAt _ _), hookWrites_kept c ws h, all]

/-- A call of the hook leaves field D of TXIQ[0] alone (R90, U9). -/
theorem Device.hookWrites_fieldD (c : Config) (ws : List DevWrite) {d : Device} (h : d.mem.wf = true) :
    (ws.foldl (Device.hookWrite c) d).mem.wordAt c.txiq[0] &&& c.maskD = d.mem.wordAt c.txiq[0] &&& c.maskD := by
  have byte (k : Nat) (hk : k < 4) :
      (ws.foldl (Device.hookWrite c) d).mem.byteAt (c.txiq[0] + BitVec.ofNat 16 k) &&& byteOf c.maskD k =
        d.mem.byteAt (c.txiq[0] + BitVec.ofNat 16 k) &&& byteOf c.maskD k := by
    rw [← maskD_kept c hk, BitVec.and_comm (byteOf _ _), ← BitVec.and_assoc, ← BitVec.and_assoc, hookWrites_kept c ws h]
  have first := byte 0 (by omega)
  rw [BitVec.add_zero] at first
  rw [Memory.wordAt_and, Memory.wordAt_and]
  exact congrArg₂ (· ++ ·) (congrArg₂ (· ++ ·) (congrArg₂ (· ++ ·) (byte 3 (by omega)) (byte 2 (by omega)))
    (byte 1 (by omega))) first

/-- Settles O13: REAPPLY performs the drawn list by `Device.hookWrite`, and a draw leaves both stores alone. -/
theorem reapplyKeepsProbedFields : Obligations.ReapplyKeepsProbedFields := by
  intro s canonical
  have drawn : s.port.dev.drawReapply.2.mem.wf = true := by rwa [Device.drawReapply_mem]
  have answers := Device.hookWrites_answers s.cfg s.port.dev.drawReapply.1 s.port.dev.drawReapply.2
  refine ⟨_, s.port.dev.drawReapply.1, rfl, rfl, rfl, fun l rest pending => ?_, fun free => ?_,
    fun b k hk stored unprobed => ?_, fun rfCanonical p i k hk => ?_, ?_, ?_, fun a other => ?_⟩
  · have draw := Device.drawReapply_pending pending
    have taken : Device.sameAnswers { s.port.dev with reapplyQ := rest } s.port.dev.drawReapply.2 := draw ▸ .refl _
    exact ⟨by rw [draw], taken.trans answers⟩
  · have draw := Device.drawReapply_free free
    have counted : Device.sameAnswers { s.port.dev with draws := s.port.dev.draws + 1 } s.port.dev.drawReapply.2 :=
      draw ▸ .refl _
    exact ⟨by rw [draw], counted.trans answers⟩
  · exact Device.drawReapply_mem s.port.dev ▸ Device.hookWrites_ctlBit s.cfg _ drawn hk stored unprobed
  · exact Device.drawReapply_rf s.port.dev ▸ Device.hookWrites_rfBit s.cfg _
      (Device.drawReapply_rf s.port.dev ▸ rfCanonical) p i hk
  · exact Device.drawReapply_mem s.port.dev ▸ Device.hookWrites_fieldD s.cfg _ drawn
  · exact Device.drawReapply_mem s.port.dev ▸ Device.hookWrites_cckReg s.cfg _ drawn
  · exact (Port.reapply_grows _ _ _).frame a other

end Sys2Proof.Machine

/-! The code map as a pair of inverse functions, and what a step runs (O1 to O3). -/

namespace Sys2Proof

/-! ## Decoding and encoding (R130, R135) -/

/-- The two writings of the code map agree row by row (R135). -/
theorem encode_instr_of_mem_opTable : ∀ r ∈ opTable, encode r.instr = r.code := by decide

/-- What decodes stands in the code map. -/
theorem exists_row_of_decode {code : BitVec 8} {i : Instr} (h : decode code = .ok i) :
    ∃ r ∈ opTable, r.code = code ∧ r.instr = i := by
  unfold decode at h
  split at h
  next r found =>
    have same := List.find?_some found
    exact ⟨r, List.mem_of_find?_eq_some found, beq_iff_eq.mp same, Except.ok.inj h⟩
  next => split at h <;> cases h

theorem encode_of_decode {code : BitVec 8} {i : Instr} (h : decode code = .ok i) : encode i = code := by
  obtain ⟨r, mem, rfl, rfl⟩ := exists_row_of_decode h
  exact encode_instr_of_mem_opTable r mem

theorem decode_encode (i : Instr) : decode (encode i) = .ok i := by
  cases i <;> rfl

/-- Settles O2: an operation's code decodes to it (`decode_encode`), and only a row of the map decodes. -/
theorem decodeInvertsEncode : Obligations.DecodeInvertsEncode :=
  ⟨decode_encode, fun _ _ => encode_of_decode⟩

/-- Settles O1: the first nine words are the codes of their operations; the other two stand in no row. -/
theorem sampleCodesDecode : Obligations.SampleCodesDecode :=
  ⟨decode_encode .init, decode_encode .detach, decode_encode .iqmult, decode_encode .roundrestore, decode_encode .vote,
    decode_encode .iqkrun, decode_encode .pass, decode_encode .pathcomp, decode_encode .hookHci, rfl, rfl⟩

end Sys2Proof

namespace Sys2Proof.Machine

/-! ## What a step takes, and what it runs (R130, R151) -/

section taking
variable {s : State} {code : Byte} {i : Instr}

theorem issueMicro_of_decode (decoded : decode code = .ok i) (micro : i.wellFormed .sequencer = true) :
    issueMicro code s = exec i s := by
  simp only [issueMicro, decoded, micro, if_true]

theorem issueHost_of_decode (decoded : decode code = .ok i) (free : s.busy = false) (host : i.wellFormed .host = true) :
    issueHost code s = exec i s := by
  simp only [issueHost, decoded, free, host, Bool.false_eq_true, if_false, if_true]

theorem step_of_useq {rest : List Byte} (slot : s.useq = code :: rest) :
    step s = issueMicro code { s with useq := rest } := by
  simp only [step, slot]

theorem step_of_cmds {e : HostEvent} {rest : List HostEvent} (empty : s.useq = []) (port : s.cmds = e :: rest) :
    step s = takeEvent e { s with cmds := rest } := by
  simp only [step, empty, port]

theorem step_of_idle (empty : s.useq = []) (quiet : s.cmds = []) : step s = .next s := by
  simp only [step, empty, quiet]

end taking

/-- Settles O3: the step takes the code, and the code decodes to an operation its issuer may issue. -/
theorem stepRunsTheDecodedOperation : Obligations.StepRunsTheDecodedOperation := by
  intro s code i decoded
  refine ⟨fun rest slot micro => ?_, fun pin rest empty port free host => ?_, step_of_idle⟩
  · rw [step_of_useq slot, issueMicro_of_decode decoded micro]
  · rw [step_of_cmds empty port, takeEvent]
    exact issueHost_of_decode decoded free host

end Sys2Proof.Machine

/-! The four host commands: their acceptance, what each does once accepted, and that between commands no step stops (O49 to
O52, O57). -/

namespace Sys2Proof.Machine

/-! ## Acceptance (R151) -/

section acceptance
variable {s : State} {code : Byte} {i : Instr}

/-- The step that takes a code from the command port latches the level of the thermalRef input with it (R150). -/
theorem step_of_command {pin : Byte} {rest : List HostEvent} (empty : s.useq = []) (port : s.cmds = .command code pin :: rest) :
    step s = issueHost code { s with cmds := rest, thermalRefIn := pin } := by
  rw [step_of_cmds empty port, takeEvent]

/-- The first check: a command is in flight (R151). -/
theorem issueHost_busy (busy : s.busy = true) : issueHost code s = .next (s.refuse stErrBusy) := by
  simp only [issueHost, busy, if_true]

/-- Only the codes 0x01 to 0x04 are operations of the host (R135). -/
theorem code_mem_of_host (decoded : decode code = .ok i) (host : i.wellFormed .host = true) :
    code ∈ [0x01#8, 0x02#8, 0x03#8, 0x04#8] := by
  rw [← encode_of_decode decoded]
  rcases (host_iff i).mp host with rfl | rfl | rfl | rfl <;> decide

/-- The second check: the code is no command's (R151, R136). -/
theorem issueHost_illegal (free : s.busy = false) (illegal : code ∉ [0x01#8, 0x02#8, 0x03#8, 0x04#8]) :
    issueHost code s = .next (s.refuse stErrIllegal) := by
  simp only [issueHost, free, Bool.false_eq_true, if_false]
  split
  next decoded => rw [if_neg fun host => illegal (code_mem_of_host decoded host)]
  next => rfl

/-- The third check: INIT of a block that is initialised (R151). -/
theorem issueHost_again (free : s.busy = false) (init : code = 0x01) (already : s.inited = true) :
    issueHost code s = .next (s.refuse stErrAlreadyInited) := by
  have decoded : decode code = .ok .init := init ▸ decode_encode .init
  have refused : refusesInit s = some stErrAlreadyInited := by simp [refusesInit, free, already]
  rw [issueHost_of_decode decoded free rfl]
  simp only [exec, execInit, refused]

/-- The fourth check: a command other than INIT, to a block that is not initialised (R151). -/
theorem issueHost_not_inited (free : s.busy = false) (other : code ∈ [0x02#8, 0x03#8, 0x04#8]) (absent : s.inited = false) :
    issueHost code s = .next (s.refuse stErrNotInited) := by
  have refused : refusesOther s = some stErrNotInited := by simp [refusesOther, free, absent]
  simp only [List.mem_cons, List.not_mem_nil, or_false] at other
  rcases other with rfl | rfl | rfl
  · rw [issueHost_of_decode (code := 0x02#8) (decode_encode .calibrate) free rfl]
    simp only [exec, execCalibrate, refused]
  · rw [issueHost_of_decode (code := 0x03#8) (decode_encode .tick) free rfl]
    simp only [exec, execTick, refused]
  · rw [issueHost_of_decode (code := 0x04#8) (decode_encode .detach) free rfl]
    simp only [exec, execDetach, refused]

theorem exec_init_accepted (free : s.busy = false) (absent : s.inited = false) : exec .init s = runInit s := by
  simp [exec, execInit, refusesInit, free, absent]

theorem exec_calibrate_accepted (free : s.busy = false) (present : s.inited = true) :
    exec .calibrate s = .next (runCalibrate s) := by
  simp [exec, execCalibrate, refusesOther, free, present]

/-- TICK, accepted, with the controller disabled or enabled (R155). -/
theorem exec_tick_accepted (free : s.busy = false) (present : s.inited = true) :
    exec .tick s = if s.pt.disabled = true then .next { s with status := stPtDisabled } else .next (runTick s) := by
  simp [exec, execTick, refusesOther, free, present]

end acceptance

/-- Settles O49: the checks in the order in which `issueHost` and the commands make them; each refusal is `State.refuse`. -/
theorem commandAcceptance : Obligations.CommandAcceptance := by
  rintro s code pin rest empty port _ rfl
  rw [step_of_command empty port]
  exact ⟨fun busy => issueHost_busy busy, fun free illegal => issueHost_illegal free illegal,
    fun free init already => issueHost_again free init already,
    fun free other absent => issueHost_not_inited free other absent⟩

/-! ## The bus kind (R91, R134) and INIT (R153) -/

/-- With no reserved code next, the hook answers a bus kind, a pending one verbatim, and leaves both stores alone. -/
theorem Device.drawHci_answered {d : Device} (legal : ∀ b rest, d.hciQ = b :: rest → b ≠ 3) :
    ∃ (k : HciKind) (dv : Device), d.drawHci = (some k, dv) ∧ dv.mem = d.mem ∧ dv.rf = d.rf ∧
      ∀ b rest, d.hciQ = b :: rest → hciCode k = b := by
  cases queue : d.hciQ with
  | nil => exact ⟨_, _, Device.drawHci_free queue, rfl, rfl, fun _ _ pending => by cases pending⟩
  | cons b rest =>
    obtain ⟨k, kind, code⟩ := hciOfCode_of_ne (legal b rest queue)
    refine ⟨k, { d with hciQ := rest }, by rw [Device.drawHci_pending queue, kind], rfl, rfl, fun _ _ pending => ?_⟩
    cases pending
    exact code

theorem Port.hci_of_drawn {q : Port} {k : HciKind} {dv : Device} (drawn : q.dev.drawHci = (some k, dv)) :
    q.hci = some (k, ⟨dv, q.trace ++ [⟨0x7A, 0, 0, 0, 0, (hciCode k).setWidth 32⟩]⟩) := by
  simp [Port.hci, drawn, Port.log]

theorem Port.hci_of_reserved {q : Port} {rest : List (BitVec 2)} (pending : q.dev.hciQ = 3 :: rest) : q.hci = none := by
  simp [Port.hci, Device.drawHci_pending pending, hciOfCode]

theorem runInit_answered {s : State} {k : HciKind} {q : Port} (answer : (initRegs s).port.hci = some (k, q)) :
    runInit s = .next ({ resync { initRegs s with port := q, hciKind := k } with inited := true }.finish stOk) := by
  simp only [runInit, answer]

theorem runInit_reserved {s : State} (answer : (initRegs s).port.hci = none) : runInit s = .refused .reservedHciKind := by
  simp only [runInit, answer]

/-- RESYNC: its two reads of STORAGE, each a record, set the two baseline indices and nothing else (R300 to R302). -/
theorem resync_eq {s : State} (h : s.cfg.wf = true) : resync s =
    (s.setPort ⟨s.port.dev, s.port.trace ++
      [rdmRecord s.cfg.txiq[0] s.cfg.maskD (fieldGet (s.port.dev.mem.wordAt s.cfg.txiq[0]) s.cfg.maskD),
        rdByteRecord (s.cfg.cckReg 0) (s.port.dev.mem.byteAt (s.cfg.cckReg 0))]⟩).setPt
      { s.pt with
        ofdmIndex := ofdmIndexOf s.cfg ((fieldGet (s.port.dev.mem.wordAt s.cfg.txiq[0]) s.cfg.maskD).setWidth 10)
        cckIndex := cckIndexOf s.cfg (s.port.dev.mem.byteAt (s.cfg.cckReg 0)) } := by
  have config : (resyncO s).cfg.wf = true := h
  rw [resync, resyncC_eq config, resyncO_eq h]
  simp [State.setPort, State.setPt]

/-- CalibrationState after INIT is the "no correction" reading on both paths (R53, R115). -/
theorem CalState.initial_reading {c : Config} (h : c.wf = true) (p : Path) :
    (CalState.initial c).txX[p].toNat = 2 ^ c.frac ∧ (CalState.initial c).txY[p] = 0 := by
  fin_cases p <;> exact ⟨xUnity_toNat h, rfl⟩

/-- INIT, accepted and answered a bus kind: the table of R53 with its three latched inputs (`initRegs`), then RESYNC. -/
theorem runInit_of_drawn {s : State} {k : HciKind} {dv : Device} (config : s.cfg.wf = true)
    (drawn : (initRegs s).port.dev.drawHci = (some k, dv)) : runInit s = .next { initRegs s with
      inited := true, busy := false, seq := ⟨.idle, false⟩, hciKind := k, status := stOk
      port := ⟨dv, s.port.trace ++ [⟨0x7A, 0, 0, 0, 0, (hciCode k).setWidth 32⟩,
        rdmRecord s.cfg.txiq[0] s.cfg.maskD (fieldGet (dv.mem.wordAt s.cfg.txiq[0]) s.cfg.maskD),
        rdByteRecord (s.cfg.cckReg 0) (dv.mem.byteAt (s.cfg.cckReg 0))]⟩
      pt := { (initRegs s).pt with
        ofdmIndex := ofdmIndexOf s.cfg ((fieldGet (dv.mem.wordAt s.cfg.txiq[0]) s.cfg.maskD).setWidth 10)
        cckIndex := cckIndexOf s.cfg (dv.mem.byteAt (s.cfg.cckReg 0)) } } := by
  rw [runInit_answered (Port.hci_of_drawn drawn), resync_eq]
  · simp only [State.setPort, State.setPt, List.append_assoc]
    rfl
  · exact config

/-- Settles O50: the reserved answer is refused, and any other ends in the state of `runInit_of_drawn`. -/
theorem initCreatesState : Obligations.InitCreatesState := by
  intro s config free absent
  rw [exec_init_accepted free absent]
  refine ⟨fun b rest pending reserved => ?_, fun legal => ?_⟩
  · subst reserved
    exact runInit_reserved (Port.hci_of_reserved pending)
  · obtain ⟨k, dv, drawn, mem, rf, code⟩ := Device.drawHci_answered (d := (initRegs s).port.dev) legal
    exact ⟨_, _, _, runInit_of_drawn config drawn, rfl, CalState.initial_reading config, rfl,
      congrArg (fun m => fieldGet (Memory.wordAt m _) _) mem, congrArg (Memory.byteAt · _) mem, rfl, mem, rf, code⟩

/-! ## CALIBRATE (R154, R157) -/

/-- What the anchor adds to a run is a change of PowerTrackState (R157). -/
theorem anchorUpd_eq_setPt (s : State) : anchorUpd s = s.setPt (anchorUpd s).pt := by
  unfold anchorUpd
  split <;> rfl

theorem iqkAnchored_fst (s : State) : (iqkAnchored s).1 = (iqkRun s).1 := by
  simp only [iqkAnchored]

theorem iqkAnchored_snd (s : State) : (iqkAnchored s).2 = (iqkRun s).2.setPt (iqkAnchored s).2.pt := by
  unfold iqkAnchored
  generalize iqkRun s = r
  obtain ⟨_ | _, t⟩ := r
  · rfl
  · exact anchorUpd_eq_setPt t

/-- Settles O51: CALIBRATE is the run with its anchor, and what IQKRUN returns on a wire is the run's result. -/
theorem calibrateRunsTheEngine : Obligations.CalibrateRunsTheEngine := by
  intro s free present
  refine ⟨_, rfl, ?_⟩
  have wires : (iqkRun { s with busy := true }).2.wires = s.wires := (iqkRun_keeps _).wires
  have anchor := (iqkAnchored_spec { s with busy := true }).1
  rw [Nat.shiftRight_eq_div_pow] at anchor
  rw [exec_calibrate_accepted free present, runCalibrate, iqkAnchored_snd, anchor, iqkAnchored_fst]
  simp only [State.finish, State.setPt, State.setPhase, State.setWires, wires]
  rfl

/-! ## TICK (R155) -/

/-- An ARMED tick arms and becomes SAMPLED. -/
theorem runTick_armed {s : State} (enabled : s.pt.disabled = false) (armed : s.pt.triggered = false) :
    runTick s = ((arm ({ s with busy := true }.setPhase .ptArm)).setPt { s.pt with triggered := true }).finish stOk := by
  simp only [runTick, armed, Bool.false_eq_true, if_false]
  rw [(arm_keeps _).pt]
  simp only [State.setPt_pt, State.setPhase_pt, enabled, Bool.false_eq_true, if_false]

/-- A SAMPLED tick makes a pass and becomes ARMED. -/
theorem runTick_sampled {s : State} (sampled : s.pt.triggered = true) :
    runTick s = ((Machine.pass { s with busy := true }).setPt
      { (Machine.pass { s with busy := true }).pt with triggered := false }).finish
        (if (Machine.pass { s with busy := true }).pt.disabled then stPtDisabled else stOk) := by
  simp only [runTick, sampled, if_true, State.setPt_pt]

/-- Settles O52: the three cases of an accepted TICK. -/
theorem tickStateMachine : Obligations.TickStateMachine := by
  intro s free present
  rw [exec_tick_accepted free present]
  refine ⟨fun disabled => ?_, fun enabled armed => ⟨_, rfl, ?_⟩, fun enabled sampled => ⟨_, rfl, ?_⟩⟩
  · rw [if_pos disabled]
    rfl
  · rw [if_neg (Bool.eq_false_iff.mp enabled), runTick_armed enabled armed]
    rfl
  · rw [if_neg (Bool.eq_false_iff.mp enabled), runTick_sampled sampled]
    rfl

/-! ## No step stops between commands (R158, R332) -/

theorem Device.hciLegal.of_subset {d e : Device} (h : d.hciLegal) (sub : ∀ b ∈ e.hciQ, b ∈ d.hciQ) : e.hciLegal :=
  fun b pending => h b (sub b pending)

/-- Only INIT's hook could stop a command, and it answers a bus kind. -/
theorem exec_host_answers {i : Instr} {s : State} (host : i.wellFormed .host = true) (legal : s.port.dev.hciLegal) :
    ∃ t, exec i s = .next t := by
  rcases (host_iff i).mp host with rfl | rfl | rfl | rfl
  · simp only [exec, execInit]
    split
    · exact ⟨_, rfl⟩
    · obtain ⟨k, dv, drawn, -⟩ := Device.drawHci_answered (d := (initRegs s).port.dev)
        fun b rest pending => legal b (pending ▸ List.mem_cons_self)
      exact ⟨_, runInit_answered (Port.hci_of_drawn drawn)⟩
  · simp only [exec, execCalibrate]
    split <;> exact ⟨_, rfl⟩
  · simp only [exec, execTick]
    split
    · exact ⟨_, rfl⟩
    · split <;> exact ⟨_, rfl⟩
  · simp only [exec, execDetach]
    split <;> exact ⟨_, rfl⟩

/-- A code on the command port is run or refused with a status (R151). -/
theorem issueHost_answers {s : State} (code : Byte) (legal : s.port.dev.hciLegal) : ∃ t, issueHost code s = .next t := by
  unfold issueHost
  split
  · exact ⟨_, rfl⟩
  · split
    · split
      next host => exact exec_host_answers host legal
      next => exact ⟨_, rfl⟩
    · exact ⟨_, rfl⟩

/-- Any input is answered while no command holds the lock (R92, R95). -/
theorem takeEvent_answers {s : State} (e : HostEvent) (free : s.busy = false) (legal : s.port.dev.hciLegal) :
    ∃ t, takeEvent e s = .next t := by
  cases e with
  | command code pin => exact issueHost_answers code legal
  | outside ws =>
    simp only [takeEvent, outsideWrites, free, Bool.false_and, Bool.false_eq_true, if_false]
    exact ⟨_, rfl⟩
  | hardwareReset => exact ⟨_, rfl⟩

/-- Settles O57: between commands a step takes an input or nothing, and no use of the port makes a bus kind pending
(`Port.Grows`). -/
theorem stepNeverStopsBetweenCommands : Obligations.StepNeverStopsBetweenCommands := by
  intro s inv legal
  refine ⟨?_, fun t ht => legal.of_subset (step_extends ht).port.hci⟩
  cases queue : s.cmds with
  | nil => exact ⟨s, step_of_idle inv.noMicro queue⟩
  | cons e rest =>
    rw [State.Safe, step_of_cmds inv.noMicro queue]
    exact takeEvent_answers e inv.notBusy legal

end Sys2Proof.Machine

/-! The numeric operations, issued one at a time (O4 to O6). -/

namespace Sys2Proof.Machine

/-! ## The four operations (R170 to R173) -/

section issued
variable (s : State)

theorem exec_canon : exec .canon s = .next { s with wires := { s.wires with s := canon s.cfg s.wires.u } } := rfl

theorem exec_encode : exec .encode s = .next { s with wires := { s.wires with u := encodeRaw s.cfg s.wires.s } } := rfl

theorem exec_iqmult : exec .iqmult s = .next { s with wires := { s.wires with
    elem := (iqmult s.cfg s.wires.s s.wires.d).1, ext := (iqmult s.cfg s.wires.s s.wires.d).2 } } := rfl

theorem exec_absdiff :
    exec .absdiff s = .next { s with wires := { s.wires with dist := absDiff s.cfg s.wires.u s.wires.v } } := rfl

end issued

/-! ## Raw and canonical values (R170, R171, R174) -/

/-- CANON of a READ_W-bit value, as R170 writes it. -/
theorem canon_eq {c : Config} (width : 1 ≤ c.readW) {u : Raw} (fits : u.toNat < 2 ^ c.readW) :
    canon c u = if u.toNat < 2 ^ (c.readW - 1) then (u.toNat : Int) else (u.toNat : Int) - 2 ^ c.readW :=
  sext_eq width fits

/-- A residue modulo a power of two is not negative, so that its word is that of a natural number. -/
theorem ofInt_emod_two_pow (z : Int) (n : Nat) :
    BitVec.ofInt 10 (z % 2 ^ n) = BitVec.ofNat 10 (z % 2 ^ n).toNat := by
  have nonneg : 0 ≤ z % 2 ^ n := Int.emod_nonneg z (by positivity)
  rw [← BitVec.ofInt_natCast, Int.toNat_of_nonneg nonneg]

/-- Settles O4: CANON and ABSDIFF by `canon_eq`, ENCODE by `ofInt_emod_two_pow`. -/
theorem canonEncodeAbsdiffResults : Obligations.CanonEncodeAbsdiffResults := by
  rintro s config W sx rfl rfl
  have width : 1 ≤ s.cfg.readW := by
    have := widths_le config
    omega
  refine ⟨fun fits => ?_, fun _ _ => ?_, fun fitsU fitsV => ?_⟩
  · rw [exec_canon, canon_eq width fits]
  · rw [exec_encode, encodeRaw, ofInt_emod_two_pow]
  · rw [exec_absdiff, absDiff, canon_eq width fitsU, canon_eq width fitsV]

/-- Settles O5: the round trips of the two functions (`encodeRaw_canon`, `canon_encodeRaw`), each operation reading the wire
the other wrote. -/
theorem canonEncodeRoundTrip : Obligations.CanonEncodeRoundTrip := by
  intro s config
  obtain ⟨_, atMost, -⟩ := widths_le config
  exact ⟨fun fits => ⟨_, _, exec_canon s, exec_encode _, encodeRaw_canon atMost fits⟩,
    fun low high => ⟨_, _, exec_encode s, exec_canon _, canon_encodeRaw atMost (by omega) low high⟩⟩

/-! ## The product of IQMULT (R172) and the unity gain (R115) -/

section iqmult
variable (c : Config)

theorem iqmult_fst (x : Int) (d : Elem) :
    (iqmult c x d).1 = BitVec.ofNat 10 (x * (d.toNat : Int) / 2 ^ c.frac % 2 ^ c.elemW).toNat := by
  rw [iqmult, ofInt_emod_two_pow, Int.shiftRight_eq_div_pow, Nat.cast_pow, Nat.cast_ofNat]

theorem iqmult_snd (x : Int) (d : Elem) :
    (iqmult c x d).2 = decide (x * (d.toNat : Int) / 2 ^ (c.frac - 1) % 2 = 1) := by
  simp only [iqmult, Int.shiftRight_eq_div_pow, Nat.cast_pow, Nat.cast_ofNat]

variable {c}

/-- Shifted by FRAC, the product of unity gain is the element. -/
theorem iqmult_unity_fst {d : Elem} (fits : d.toNat < 2 ^ c.elemW) : (iqmult c (2 ^ c.frac) d).1 = d := by
  have quotient : (2 ^ c.frac * (d.toNat : Int)) / 2 ^ c.frac = d.toNat := Int.mul_ediv_cancel_left _ (by positivity)
  have low : (d.toNat : Int) % 2 ^ c.elemW = d.toNat := Int.emod_eq_of_lt (by positivity) (by exact_mod_cast fits)
  rw [iqmult_fst, quotient, low, Int.toNat_natCast, BitVec.ofNat_toNat, BitVec.setWidth_eq]

/-- Shifted by one bit less, it is twice the element, so that the extension bit is clear. -/
theorem iqmult_unity_snd (positive : 1 ≤ c.frac) (d : Elem) : (iqmult c (2 ^ c.frac) d).2 = false := by
  have double : (2 : Int) ^ c.frac * d.toNat = 2 ^ (c.frac - 1) * (2 * d.toNat) := by
    rw [← mul_assoc, ← pow_succ, Nat.sub_add_cancel positive]
  have quotient : (2 ^ c.frac * (d.toNat : Int)) / 2 ^ (c.frac - 1) = 2 * d.toNat := by
    rw [double, Int.mul_ediv_cancel_left _ (by positivity)]
  rw [iqmult_snd, quotient, decide_eq_false_iff_not]
  omega

end iqmult

/-- Settles O6: the two results of IQMULT (`iqmult_fst`, `iqmult_snd`), and the same two at unity gain. -/
theorem iqmultProductAndUnityGain : Obligations.IqmultProductAndUnityGain := by
  intro s positive
  refine ⟨?_, fun unity fits => ?_⟩
  · rw [exec_iqmult, iqmult_fst, iqmult_snd]
  · rw [exec_iqmult, unity, iqmult_unity_fst fits, iqmult_unity_snd positive]

end Sys2Proof.Machine

/-! BACKUP, the lists and the two restores, issued one at a time (O14 to O17). -/

namespace Sys2Proof.Machine

/-! ## BACKUP (R190) -/

/-- BACKUP of an accepted configuration: the reads change nothing but the trace and BKP. -/
theorem exec_backup {s : State} (config : s.cfg.wf = true) : exec .backup s = .next { s with
    seq := { s.seq with phase := .calBackup }
    work := { s.work with bkp := s.cfg.backupSet.map (heldBy s.port.dev) }
    port := ⟨s.port.dev, s.port.trace ++ s.cfg.backupSet.map (fun e => backupRecord (heldBy s.port.dev e) e)⟩ } := by
  simp only [exec, execBackup, backup, Port.backupAll_eq config s.port (fun _ mem => mem)]
  rfl

/-- Settles O14: `exec_backup` is the whole of BACKUP. -/
theorem backupSavesTheSet : Obligations.BackupSavesTheSet := fun _ config => exec_backup config

/-! ## Every list is one `State.perform` (R192, R210, R250, R262) -/

section issued
variable (s : State)

theorem exec_calcfg : exec .calcfg s = .next (calcfg s.wires.kind s.work.p s) := rfl

theorem exec_arm : exec .arm s = .next (s.perform s.cfg.thermArm) := rfl

/-- ROUNDRESTORE is the write-backs and then two lists, so one list (`Port.restoreAll_eq_performAll`). -/
theorem exec_roundrestore : exec .roundrestore s = .next ((s.setPhase .calRestore).perform
    ((s.cfg.backupSet.zip s.work.bkp).map writeBack ++ (s.cfg.rxgainBaseline ++ s.cfg.idleImbalance))) := by
  simp only [State.perform, Port.performAll_append, State.setPhase_cfg, State.setPhase_port, State.setPhase_hciKind,
    ← Port.restoreAll_eq_performAll]
  rfl

/-- FINALRESTORE likewise. -/
theorem exec_finalrestore : exec .finalrestore s = .next ((s.setPhase .calFinal).perform
    (((s.cfg.backupSet.zip s.work.bkp).take 2).map writeBack ++ s.cfg.rxmodeBaseline)) := by
  simp only [State.perform, Port.performAll_append, State.setPhase_cfg, State.setPhase_port, State.setPhase_hciKind,
    ← Port.restoreAll_eq_performAll]
  rfl

end issued

/-- A list without ANT does the same on every bus kind (R91). -/
theorem State.perform_setHci (s : State) {l : List ListOp} (plain : ∀ o ∈ l, o.usesAnt = false) (h : HciKind) :
    { s with hciKind := h }.perform l = { s.perform l with hciKind := h } := by
  simp only [State.perform, State.setPort, Port.performAll_hci s.cfg h s.hciKind s.port plain]

/-! ## Write-backs as list operations (R210, R250) -/

section writeBacks
variable (x : BackupElem × Word)

theorem writeBack_record (c : Config) (h : HciKind) : listRecord c h (writeBack x) = restoreRecord x := by
  obtain ⟨_ | _, v⟩ := x <;> rfl

theorem writeBack_covers (a : Addr) : (writeBack x).covers a ↔ x.1.covers a := by
  obtain ⟨_ | _, v⟩ := x <;> rfl

theorem writeBack_coversRf (p : Path) (i : Byte) : (writeBack x).coversRf p i ↔ x.1.rfLoc = some (p, i) := by
  obtain ⟨_ | _, v⟩ := x <;> simp [writeBack, ListOp.coversRf, BackupElem.rfLoc]

theorem writeBack_usesAnt : (writeBack x).usesAnt = false := by
  obtain ⟨_ | _, v⟩ := x <;> rfl

end writeBacks

/-- What holds of every write-back and of every operation of a list holds of both together. -/
theorem forall_writeBacks {P : ListOp → Prop} {xs : List (BackupElem × Word)} {l : List ListOp}
    (backs : ∀ x ∈ xs, P (writeBack x)) (list : ∀ o ∈ l, P o) : ∀ o ∈ xs.map writeBack ++ l, P o := by
  intro o mem
  rcases List.mem_append.mp mem with back | listed
  · obtain ⟨x, restored, rfl⟩ := List.mem_map.mp back
    exact backs x restored
  · exact list o listed

/-- Settles O16: each of the two is `State.perform` of its list. -/
theorem calcfgAndArmPerformTheirLists : Obligations.CalcfgAndArmPerformTheirLists := by
  intro s canonical i l performs
  have issued : exec i s = .next (s.perform l) := by
    rcases performs with ⟨rfl, list⟩ | ⟨rfl, rfl⟩
    · rw [exec_calcfg]
      cases kind : s.wires.kind <;> simp only [list, kind, calcfg]
    · exact exec_arm s
  refine ⟨s.perform l, issued, rfl, Port.performAll_trace _ _ _ _, Port.performAll_answers _ _ _ _,
    fun a outside => Port.performAll_byteAt _ _ _ outside, fun p j outside => Port.performAll_rf _ _ _ outside,
    Port.performAll_effect _ _ _ _, fun armed config h => ?_, fun l1 l2 a v split stored last => ?_⟩
  · obtain rfl : l = s.cfg.thermArm := by
      rcases performs with ⟨rfl, -⟩ | ⟨-, list⟩
      · cases armed
      · exact list
    subst armed
    have plain : ∀ o ∈ s.cfg.thermArm, o.usesAnt = false := fun o mem =>
      Config.plainOps_no_ant config o (List.mem_append_right _ mem)
    exact congrArg _ (s.perform_setHci plain h)
  · subst split
    exact Port.performAll_wordAt_wr _ _ canonical v stored last

/-- Settles O17: each restore is `State.perform` of its write-backs and lists, in its phase. -/
theorem restoresPerformTheirLists : Obligations.RestoresPerformTheirLists := by
  intro s i ph xs l restores
  have issued (h : HciKind) : exec i { s with hciKind := h } =
      .next (({ s with hciKind := h }.setPhase ph).perform (xs.map writeBack ++ l)) := by
    rcases restores with ⟨rfl, rfl, rfl, rfl⟩ | ⟨rfl, rfl, rfl, rfl⟩
    · exact exec_roundrestore _
    · exact exec_finalrestore _
  refine ⟨(s.setPhase ph).perform (xs.map writeBack ++ l), issued s.hciKind, rfl, ?_, Port.performAll_answers _ _ _ _,
    fun a saved listed => ?_, fun p j saved listed => ?_, Port.performAll_effect _ _ _ _, fun config h => ?_⟩
  · refine (Port.performAll_trace _ _ _ _).trans ?_
    simp [writeBack_record, Function.comp_def]
  · exact Port.performAll_byteAt _ _ _ (forall_writeBacks (fun x mem => mt (writeBack_covers x a).mp (saved x mem)) listed)
  · exact Port.performAll_rf _ _ _
      (forall_writeBacks (fun x mem => mt (writeBack_coversRf x p j).mp (saved x mem)) listed)
  · have plain : ∀ o ∈ l, o.usesAnt = false := fun o mem => Config.plainOps_no_ant config o (by
      simp only [Config.plainOps, List.mem_append]
      rcases restores with ⟨-, -, -, rfl⟩ | ⟨-, -, -, rfl⟩
      · exact .inl (.inl (List.mem_append.mp mem))
      · exact .inl (.inr mem))
    rw [issued]
    exact congrArg _ ((s.setPhase ph).perform_setHci (forall_writeBacks (fun x _ => writeBack_usesAnt x) plain) h)

/-! ## Backup, then restore (R190, R210, R250, R256) -/

/-- What an element holds is a matter of the bytes and the RF location it covers. -/
theorem heldBy_congr {d d' : Device} {e : BackupElem} (bytes : ∀ a, e.covers a → d'.mem.byteAt a = d.mem.byteAt a)
    (rf : ∀ p i, e.rfLoc = some (p, i) → Store.read d'.rf (rfKey p i) = Store.read d.rf (rfKey p i)) :
    heldBy d' e = heldBy d e := by
  cases e with
  | ctl a m => rw [heldBy, heldBy, Memory.wordAt_congr bytes]
  | rf p i m => rw [heldBy, heldBy, rf p i rfl]

/-- A list leaves what an element holds when none of its operations reaches it. -/
theorem Port.performAll_heldBy (c : Config) (h : HciKind) (q : Port) {l : List ListOp} {e : BackupElem}
    (bytes : ∀ o ∈ l, ∀ a, e.covers a → ¬ o.covers a)
    (rf : ∀ o ∈ l, ∀ p i, e.rfLoc = some (p, i) → ¬ o.coversRf p i) :
    heldBy (q.performAll c h l).dev e = heldBy q.dev e :=
  heldBy_congr (fun a inside => Port.performAll_byteAt c h q fun o mem => bytes o mem a inside)
    (fun p i inside => Port.performAll_rf c h q fun o mem => rf o mem p i inside)

/-- Restoring elements with what they held gives it back to each of them, and leaves it to every element that has it
already. -/
theorem Port.restoreAll_heldBy {c : Config} (config : c.wf = true) (d : Device) {l : List BackupElem}
    (saved : ∀ e ∈ l, e ∈ c.backupSet) {q : Port} (mem : q.dev.mem.wf = true) (rf : rfWf c q.dev.rf = true)
    {e : BackupElem} (inSet : e ∈ c.backupSet) (held : e ∈ l ∨ heldBy q.dev e = heldBy d e) :
    heldBy (q.restoreAll c (l.map fun e => (e, heldBy d e))).dev e = heldBy d e := by
  induction l generalizing q with
  | nil => exact held.resolve_left List.not_mem_nil
  | cons e' l ih =>
    have grows := Port.restoreOne_grows c q (e', heldBy d e')
    obtain ⟨given, kept⟩ := Port.restoreOne_heldBy config (d := d) mem rf (saved e' List.mem_cons_self)
    refine ih (fun e later => saved e (List.mem_cons_of_mem _ later)) (grows.mem mem) (grows.rf rf) ?_
    rcases held with listed | already
    · rcases List.mem_cons.mp listed with rfl | later
      · exact .inr given
      · exact .inl later
    · exact .inr (kept e inSet already)

/-- Write-backs of what elements held, followed by a list that does not reach one of them, give that element back. -/
theorem Port.performAll_writeBacks_heldBy {c : Config} (config : c.wf = true) (h : HciKind) (d : Device)
    {l : List BackupElem} (saved : ∀ e ∈ l, e ∈ c.backupSet) {q : Port} (mem : q.dev.mem.wf = true)
    (rf : rfWf c q.dev.rf = true) {e : BackupElem} (listed : e ∈ l) {ops : List ListOp}
    (bytes : ∀ o ∈ ops, ∀ a, e.covers a → ¬ o.covers a)
    (locs : ∀ o ∈ ops, ∀ p i, e.rfLoc = some (p, i) → ¬ o.coversRf p i) :
    heldBy (q.performAll c h ((l.map fun e => (e, heldBy d e)).map writeBack ++ ops)).dev e = heldBy d e := by
  rw [Port.performAll_append, Port.performAll_heldBy c h _ bytes locs, ← Port.restoreAll_eq_performAll]
  exact Port.restoreAll_heldBy config d saved mem rf (saved e listed) (.inl listed)

/-- Settles O15: BKP pairs each element with what it held, and both restores are write-backs followed by a list. -/
theorem backupThenRestoreIsVerbatim : Obligations.BackupThenRestoreIsVerbatim := by
  intro s t u config backed cfg bkp mem rf
  obtain rfl := Host.Outcome.next.inj ((exec_backup config).symm.trans backed)
  have pairs : u.cfg.backupSet.zip u.work.bkp = s.cfg.backupSet.map fun e => (e, heldBy s.port.dev e) := by
    rw [cfg, bkp, List.map_prod_left_eq_zip]
  rw [← cfg] at config rf
  rw [← cfg] at pairs ⊢
  refine ⟨_, exec_roundrestore u, fun e inSet bytes locs => ?_, fun a saved listed => ?_, _, exec_finalrestore u,
    fun e first bytes locs => ?_⟩
  · rw [pairs]
    exact Port.performAll_writeBacks_heldBy config _ _ (fun _ listed => listed) mem rf inSet bytes locs
  · refine Port.performAll_byteAt _ _ _ (forall_writeBacks (fun x restored => ?_) listed)
    rw [writeBack_covers]
    exact saved x.1 (List.of_mem_zip restored).1
  · rw [pairs, ← List.map_take]
    exact Port.performAll_writeBacks_heldBy config _ _ (fun _ => List.mem_of_mem_take) mem rf first bytes locs

end Sys2Proof.Machine

/-! The one-shot, the two checks and the two attempts, issued one at a time (O18 to O20). -/

namespace Sys2Proof.Machine

/-- Settles O18: ONESHOT is `oneshot`, which `oneshot_eq` says whole. -/
theorem oneshotTransactions : Obligations.OneshotTransactions := by
  intro s config
  simp only [exec, execOneshot, oneshot_eq config]
  rfl

/-! ## The checks (R197, R198) -/

/-- TXCHK as R197 writes it. -/
theorem txchk_eq (c : Config) (f : Bool) (x y : Raw) :
    txchk c f x y = decide (f = false ∧ x ≠ c.txErrX ∧ y ≠ c.txErrY) := by
  rw [Bool.eq_iff_iff]
  simp [txchk, and_assoc]

/-- RXCHK as R198 writes it. -/
theorem rxchk_eq (c : Config) (f : Bool) (x y : Raw) :
    rxchk c f x y = decide (f = false ∧ x ≠ c.rxErrX ∧ y ≠ c.rxErrY ∧
      c.rxXLower < canon c x ∧ canon c x < c.rxXUpper ∧ (canon c y).natAbs < c.rxYLimit) := by
  rw [Bool.eq_iff_iff]
  simp [rxchk, and_assoc]

/-- Settles O19: each operation puts its check of the wires on the wire `ok`. -/
theorem validityChecks : Obligations.ValidityChecks := by
  intro s
  simp only [exec, execTxchk, execRxchk, txchk_eq, rxchk_eq]
  exact ⟨rfl, rfl⟩

/-! ## The attempts (R196, R203) -/

/-- An attempt issued alone puts what it returns on the wires. -/
theorem exec_txatt (s : State) : exec .txatt s = .next ((txatt s).2.setWires (s.wires.attempt (txatt s).1)) := rfl

theorem exec_rxatt (s : State) : exec .rxatt s = .next ((rxatt s).2.setWires (s.wires.attempt (rxatt s).1)) := rfl

/-- Settles O20: both operations are attempts in the sense of `IsAttempt`, whose two equations say what the environment's
verdict makes of them. -/
theorem attemptReadsThreeRegisters : Obligations.AttemptReadsThreeRegisters := by
  intro s config i fm rm ax ay chk operation
  obtain ⟨m, att, retry, attempt, spec, issued⟩ : ∃ m att n, IsAttempt m att ∧ m s.cfg = ⟨fm, ax, ay, rm, chk, n⟩ ∧
      exec i s = .next ((att s).2.setWires (s.wires.attempt (att s).1)) := by
    rcases operation with ⟨rfl, rfl, rfl, rfl, rfl, rfl⟩ | ⟨rfl, rfl, rfl, rfl, rfl, rfl⟩
    · exact ⟨txSpec, txatt, _, txatt_isAttempt, rfl, exec_txatt s⟩
    · exact ⟨rxSpec, rxatt, _, rxatt_isAttempt, rfl, exec_rxatt s⟩
  refine ⟨fun timeout => ?_, fun ok => ?_⟩
  · rw [issued, attempt.timedOut s config timeout]
    rfl
  · have answered := attempt.answered s config ok _ rfl
    rw [spec] at answered
    rw [issued, answered]
    exact ⟨_, rfl, rfl, rfl, _, _, _, (List.append_assoc _ _ _).symm, rfl, rfl, rfl⟩

end Sys2Proof.Machine

/-! The two measurements and a round of them, issued one at a time (O21 to O23). -/

namespace Sys2Proof.Machine

/-! ## What a measurement records (R200, R205, R24) -/

/-- `k'` is `k` with what a measurement of reading `g` came to, at `r`: the values found with a clear tag, or the sentinel
with a set one; every other slot and tag as before. -/
structure Work.Recorded (c : Config) (r : Round) (g : Group) (reading : Option (Raw × Raw)) (k k' : Work) : Prop where
  found : ∀ x y, reading = some (x, y) →
    k'.failAt r g = false ∧ k'.resAt r (slotX g) = x ∧ k'.resAt r (slotY g) = y
  exhausted : reading = none →
    k'.failAt r g = true ∧ (k'.resAt r (slotX g)).toNat = 2 ^ c.frac ∧ k'.resAt r (slotY g) = 0
  otherSlot : ∀ r' i, ¬ (r' = r ∧ groupOf i = g) → k'.resAt r' i = k.resAt r' i
  otherTag : ∀ r' g', ¬ (r' = r ∧ g' = g) → k'.failAt r' g' = k.failAt r' g'

/-- `Work.record` records; the number of the last attempt, which the retry loop leaves in SEQ's scalar a, is no part of it. -/
theorem Work.record_recorded {c : Config} (config : c.wf = true) (k : Work) {r : Round} (measured : r.val < nRound)
    (g : Group) (reading : Option (Raw × Raw)) (b : Nat) :
    Work.Recorded c r g reading k { k.record c r g reading with a := b } := by
  cases reading with
  | some reading => exact {
      found := by
        rintro x y ⟨⟩
        exact ⟨k.setReading_tag r g x y false measured, k.setReading_x r g x y false, k.setReading_y r g x y false⟩
      exhausted := nofun
      otherSlot := fun _ _ => k.setReading_res_other r g reading.1 reading.2 false
      otherTag := fun _ _ => k.setReading_tag_other r g reading.1 reading.2 false }
  | none => exact {
      found := nofun
      exhausted := fun _ => ⟨k.setReading_tag r g (xUnity c) 0 true measured,
        (congrArg BitVec.toNat (k.setReading_x r g (xUnity c) 0 true)).trans (xUnity_toNat config),
        k.setReading_y r g (xUnity c) 0 true⟩
      otherSlot := fun _ _ => k.setReading_res_other r g (xUnity c) 0 true
      otherTag := fun _ _ => k.setReading_tag_other r g (xUnity c) 0 true }

/-- Recording a reading changes RES and FAIL only. -/
theorem Work.record_eq (k : Work) (c : Config) (r : Round) (g : Group) (reading : Option (Raw × Raw)) :
    k.record c r g reading = { k with
      res := (k.record c r g reading).res, fail := (k.record c r g reading).fail } := by
  cases reading <;> rfl

theorem round_lt_of_wf {c : Config} (config : c.wf = true) {r : Round} (h : r.val < c.nRound) : r.val < nRound := by
  rwa [c.nRound_eq config] at h

/-! ## TXMEAS and RXMEAS (R200, R205) -/

/-- TXMEAS issued alone puts its answer on the wire `txok`. -/
theorem exec_txmeas (s : State) : exec .txmeas s = .next ((txmeas s.work.r s.work.p s).2.setWires
    { s.wires with txok := (txmeas s.work.r s.work.p s).1 }) := rfl

/-- RXMEAS issued alone takes that wire. -/
theorem exec_rxmeas (s : State) : exec .rxmeas s = .next (rxmeas s.work.r s.work.p s.wires.txok s) := rfl

/-- Settles O21: `txmeas_eq` is the whole of TXMEAS, `drawMeasured_spec` what its attempts come to. -/
theorem txmeasRecordsReadingOrSentinel : Obligations.TxmeasRecordsReadingOrSentinel := by
  intro s config round
  obtain ⟨m, attempts⟩ : ∃ m, m = drawMeasured s.cfg (txSpec s.cfg) s.cfg.retryTx (calcfg .tx s.work.p s).port.dev :=
    ⟨_, rfl⟩
  obtain ⟨b, measured⟩ := txmeas_eq s.work.r s.work.p s config m attempts
  have recorded := s.work.record_recorded config (round_lt_of_wf config round) (txGroup s.work.p) m.reading b
  obtain ⟨passes, polls, allPolls⟩ :=
    drawMeasured_spec s.cfg (txSpec s.cfg) (txSpec_check _) s.cfg.retryTx (calcfg .tx s.work.p s).port.dev
  rw [← attempts] at passes polls allPolls
  obtain ⟨timeouts, others⟩ := warnTimeouts_count m.timeouts s.warnReg
  have issued := exec_txmeas s
  rw [measured] at issued
  refine ⟨_, _, m, rfl, issued, attempts, ?_, fun x y found => ?_, recorded.exhausted, polls,
    allPolls, recorded.otherSlot, recorded.otherTag, timeouts, others⟩
  · simp only [State.setWires]
    rw [Work.record_eq]
    rfl
  · obtain ⟨tag, readX, readY⟩ := recorded.found x y found
    exact ⟨tag, readX, readY, passes x y found⟩

/-- RXMEAS said once for both answers of TXMEAS: skipped, it records the sentinel of no attempts (R205). -/
theorem rxmeas_measured (r : Round) (p : Path) (txok : Bool) (s : State) (config : s.cfg.wf = true) (m : Measured)
    (attempts : m = if txok = true then drawMeasured s.cfg (rxSpec s.cfg) s.cfg.retryRx (calcfg .rx p s).port.dev
      else ⟨none, [], 0, s.port.dev⟩) :
    ∃ b, rxmeas r p txok s = { s with
      work := { s.work.record s.cfg r (rxGroup p) m.reading with a := b }
      warnReg := warnTimeouts m.timeouts s.warnReg
      port := ⟨m.dev, (if txok = true then (calcfg .rx p s).port.trace else s.port.trace) ++ m.records⟩ } := by
  cases txok with
  | true => exact rxmeas_eq r p s config m attempts
  | false =>
    subst attempts
    exact ⟨s.work.a, by simp [rxmeas, State.setWork, Work.record, Work.setReading, warnTimeouts]⟩

/-- Settles O22: `rxmeas_measured` is the whole of RXMEAS. -/
theorem rxmeasRecordsReadingOrSentinel : Obligations.RxmeasRecordsReadingOrSentinel := by
  intro s config round
  obtain ⟨m, attempts⟩ : ∃ m, m = if s.wires.txok = true then
      drawMeasured s.cfg (rxSpec s.cfg) s.cfg.retryRx (calcfg .rx s.work.p s).port.dev
    else ⟨none, [], 0, s.port.dev⟩ := ⟨_, rfl⟩
  obtain ⟨b, measured⟩ := rxmeas_measured s.work.r s.work.p s.wires.txok s config m attempts
  have recorded := s.work.record_recorded config (round_lt_of_wf config round) (rxGroup s.work.p) m.reading b
  have spec := drawMeasured_spec s.cfg (rxSpec s.cfg) (rxSpec_check _) s.cfg.retryRx (calcfg .rx s.work.p s).port.dev
  obtain ⟨passes, polls, allPolls⟩ : (∀ x y, m.reading = some (x, y) → rxchk s.cfg false x y = true) ∧
      m.records.countP (fun r => r.kind == 0x77) ≤ s.cfg.retryRx ∧
      (s.wires.txok = true → m.reading = none → m.records.countP (fun r => r.kind == 0x77) = s.cfg.retryRx) := by
    cases txok : s.wires.txok with
    | true =>
      rw [txok, if_pos rfl] at attempts
      rw [← attempts] at spec
      obtain ⟨passes, polls, allPolls⟩ := spec
      exact ⟨passes, polls, fun _ => allPolls⟩
    | false =>
      rw [txok, if_neg Bool.false_ne_true] at attempts
      subst attempts
      exact ⟨nofun, Nat.zero_le _, nofun⟩
  obtain ⟨timeouts, others⟩ := warnTimeouts_count m.timeouts s.warnReg
  have issued := exec_rxmeas s
  rw [measured] at issued
  refine ⟨_, _, m, rfl, issued, attempts, ?_, fun x y found => ?_, recorded.exhausted, polls,
    allPolls, recorded.otherSlot, recorded.otherTag, timeouts, others⟩
  · rw [Work.record_eq]
    rfl
  · obtain ⟨tag, readX, readY⟩ := recorded.found x y found
    exact ⟨tag, readX, readY, passes x y found⟩

/-! ## ROUND (R208) -/

/-- TXMEAS leaves SEQ's scalars r and p alone. -/
theorem txmeas_scalars {s : State} (config : s.cfg.wf = true) (r : Round) (p : Path) :
    (txmeas r p s).2.work.r = s.work.r ∧ (txmeas r p s).2.work.p = s.work.p := by
  obtain ⟨⟨_, _, _, work, -⟩, -⟩ := txmeas_spec r p s config
  rw [work]
  exact ⟨rfl, rfl⟩

/-- One path of a round is TXMEAS and then RXMEAS with its answer, issued one after the other; only the wires differ. -/
theorem roundPath_issued {s : State} (config : s.cfg.wf = true) (p : Path) : ∃ (m0 : State) (w : Wires),
    exec .txmeas (s.setWork { s.work with p := p }) = .next m0 ∧
    exec .rxmeas m0 = .next ((roundPath s.work.r p s).setWires w) := by
  obtain ⟨sameRound, samePath⟩ := txmeas_scalars (s := s.setWork { s.work with p := p }) config s.work.r p
  refine ⟨_, { s.wires with txok := (txmeas s.work.r p (s.setWork { s.work with p := p })).1 }, exec_txmeas _, ?_⟩
  rw [exec_rxmeas, rxmeas_wires]
  simp only [State.setWork_work, State.setWires_work, State.setWires_wires, sameRound, samePath]
  rfl

/-- Of the working registers one path of a round changes RES, FAIL and SEQ's scalars p and a (R208). -/
theorem roundPath_work {s : State} (config : s.cfg.wf = true) (r : Round) (p : Path) :
    (roundPath r p s).work = { s.work with
      res := (roundPath r p s).work.res, fail := (roundPath r p s).work.fail, a := (roundPath r p s).work.a, p := p } := by
  obtain ⟨⟨_, _, _, _, _, _, _, work, -⟩, -⟩ := roundPath_spec r p s config
  rw [work]
  rfl

/-- A round is both paths, the primary first, and ROUNDRESTORE, issued one after the other; only the wires differ. -/
theorem measRound_issued {s : State} (config : s.cfg.wf = true) : ∃ m0 m1 m2 m3 m4 : State,
    exec .txmeas ((s.setPhase .calRound).setWork { s.work with p := 0 }) = .next m0 ∧
    exec .rxmeas m0 = .next m1 ∧
    exec .txmeas (m1.setWork { m1.work with p := 1 }) = .next m2 ∧
    exec .rxmeas m2 = .next m3 ∧
    exec .roundrestore m3 = .next m4 ∧ measRound s.work.r s = m4.setWires s.wires := by
  have first : State.MeasKeeps _ _ := roundPath_keeps s.work.r 0 (s.setPhase .calRound)
  have sameRound : (roundPath s.work.r 0 (s.setPhase .calRound)).work.r = s.work.r := by
    rw [roundPath_work (s := s.setPhase .calRound) config]
    rfl
  obtain ⟨m0, w, tx0, rx0⟩ := roundPath_issued (s := s.setPhase .calRound) config 0
  obtain ⟨m2, w', tx1, rx1⟩ := roundPath_issued
    (s := (roundPath s.work.r 0 (s.setPhase .calRound)).setWires w) (by rwa [State.setWires_cfg, first.cfg]) 1
  rw [State.setWires_work, sameRound, roundPath_wires] at rx1
  refine ⟨m0, _, m2, _, _, tx0, rx0, tx1, rx1, rfl, ?_⟩
  calc measRound s.work.r s
      = (measRound s.work.r s).setWires s.wires := by
        rw [← (measRound_keeps s.work.r s).wires, State.setWires_self]
    _ = (roundRestore (((roundPath s.work.r 1 (roundPath s.work.r 0 (s.setPhase .calRound))).setWires w).setWires
          w')).setWires s.wires := by
        rw [roundRestore_wires, State.setWires_setWires, roundRestore_wires, State.setWires_setWires, measRound]
        rfl

/-- Both readings of a path are filled in round `r`, the RX one measured only if the TX one was (R23, R205). -/
structure Work.PathFilled (c : Config) (r : Round) (p : Path) (k : Work) : Prop where
  tx : ReadingFilled c txchk k r (txGroup p)
  rx : ReadingFilled c rxchk k r (rxGroup p)
  rxNeedsTx : k.failAt r (rxGroup p) = false → k.failAt r (txGroup p) = false

/-- Filledness is a matter of the tags and slots of the path's two readings. -/
theorem Work.PathFilled.congr {c : Config} {r : Round} {p : Path} {k k' : Work} (h : k.PathFilled c r p)
    (slots : ∀ i, groupOf i = txGroup p ∨ groupOf i = rxGroup p → k'.resAt r i = k.resAt r i)
    (tags : ∀ g, g = txGroup p ∨ g = rxGroup p → k'.failAt r g = k.failAt r g) : k'.PathFilled c r p := by
  obtain ⟨tx, rx, rxNeedsTx⟩ := h
  refine ⟨?_, ?_, ?_⟩
  · rw [ReadingFilled, tags _ (.inl rfl), slots _ (.inl (groupOf_slotX _)), slots _ (.inl (groupOf_slotY _))]
    exact tx
  · rw [ReadingFilled, tags _ (.inr rfl), slots _ (.inr (groupOf_slotX _)), slots _ (.inr (groupOf_slotY _))]
    exact rx
  · rwa [tags _ (.inl rfl), tags _ (.inr rfl)]

/-- One path of a round fills its two readings and no other (R208). -/
theorem roundPath_fills {s : State} (config : s.cfg.wf = true) {r : Round} (round : r.val < nRound) (p : Path) :
    (roundPath r p s).work.PathFilled s.cfg r p ∧
    (∀ r' i, ¬ (r' = r ∧ (groupOf i = txGroup p ∨ groupOf i = rxGroup p)) →
      (roundPath r p s).work.resAt r' i = s.work.resAt r' i) ∧
    ∀ r' g, ¬ (r' = r ∧ (g = txGroup p ∨ g = rxGroup p)) →
      (roundPath r p s).work.failAt r' g = s.work.failAt r' g := by
  obtain ⟨⟨tx, ty, rx, ry, m, tb, rb, work, txFound, txFailed, rxFound, rxFailed⟩, -⟩ := roundPath_spec r p s config
  have filledTx := (readingFilled_setReading s.work round (txGroup p) txFound txFailed).other (txGroup_ne_rxGroup p p)
    rx ry (!rb)
  have tagTx := s.work.setReading_tag r (txGroup p) tx ty (!tb) round
  have slotsTx (r' : Round) (i : Slot) := s.work.setReading_res_other r (txGroup p) tx ty (!tb) (r' := r') (i := i)
  have tagsTx (r' : Round) (g : Group) := s.work.setReading_tag_other r (txGroup p) tx ty (!tb) (r' := r') (g' := g)
  generalize s.work.setReading r (txGroup p) tx ty (!tb) = k at *
  have filledRx := readingFilled_setReading k round (rxGroup p) (fun found => (rxFound found).2) rxFailed
  have tagRx := k.setReading_tag r (rxGroup p) rx ry (!rb) round
  have slotsRx (r' : Round) (i : Slot) := k.setReading_res_other r (rxGroup p) rx ry (!rb) (r' := r') (i := i)
  have tagsRx (r' : Round) (g : Group) := k.setReading_tag_other r (rxGroup p) rx ry (!rb) (r' := r') (g' := g)
  generalize k.setReading r (rxGroup p) rx ry (!rb) = k' at *
  rw [work]
  refine ⟨⟨filledTx, filledRx, fun measured => ?_⟩, fun r' i outside => ?_, fun r' g outside => ?_⟩
  · have found : rb = true := by simpa using tagRx.symm.trans measured
    calc k'.failAt r (txGroup p) = k.failAt r (txGroup p) := tagsRx _ _ fun same => txGroup_ne_rxGroup p p same.2
      _ = false := by rw [tagTx, (rxFound found).1, Bool.not_true]
  · exact (slotsRx r' i fun same => outside ⟨same.1, .inr same.2⟩).trans
      (slotsTx r' i fun same => outside ⟨same.1, .inl same.2⟩)
  · exact (tagsRx r' g fun same => outside ⟨same.1, .inr same.2⟩).trans
      (tagsTx r' g fun same => outside ⟨same.1, .inl same.2⟩)

/-- Each reading is the TX or the RX one of a path (R113). -/
theorem group_cases : ∀ g : Group, ∃ p, g = txGroup p ∨ g = rxGroup p := by decide

/-- The readings of the two paths are different ones (R113). -/
theorem group_of_other_path {p p' : Path} (other : p' ≠ p) {g : Group} (h : g = txGroup p' ∨ g = rxGroup p') :
    ¬ (g = txGroup p ∨ g = rxGroup p) := by
  rintro (tx | rx) <;> rcases h with rfl | rfl
  · exact other (txGroup_inj tx)
  · exact txGroup_ne_rxGroup p p' tx.symm
  · exact txGroup_ne_rxGroup p' p rx
  · exact other (rxGroup_inj rx)

/-- ROUNDRESTORE changes no working register (R210). -/
theorem roundRestore_work (s : State) : (roundRestore s).work = s.work := rfl

/-- The working registers after a round are those after its two paths, measured from a state that has the round as its
scalar r (R208, R210). -/
theorem measRound_paths (r : Round) (s : State) : ∃ t : State, t.cfg = s.cfg ∧ t.work = { s.work with r := r } ∧
    (measRound r s).work = (roundPath r 1 (roundPath r 0 t)).work := by
  refine ⟨(s.setPhase .calRound).setWork { s.work with r := r }, rfl, rfl, ?_⟩
  rw [measRound]
  exact roundRestore_work _

/-- A round fills both paths' readings and leaves the other rounds alone (R208, R23). -/
theorem measRound_fills {s : State} (config : s.cfg.wf = true) {r : Round} (round : r.val < nRound) :
    (∀ p, (measRound r s).work.PathFilled s.cfg r p) ∧
    (∀ r' i, r' ≠ r → (measRound r s).work.resAt r' i = s.work.resAt r' i) ∧
    ∀ r' g, r' ≠ r → (measRound r s).work.failAt r' g = s.work.failAt r' g := by
  obtain ⟨start, cfg, entry, work⟩ := measRound_paths r s
  have cfg0 := (roundPath_keeps r 0 start).cfg.trans cfg
  obtain ⟨filled0, slots0, tags0⟩ := roundPath_fills (s := start) (by rwa [cfg]) round 0
  obtain ⟨filled1, slots1, tags1⟩ := roundPath_fills (s := roundPath r 0 start) (by rwa [cfg0]) round 1
  rw [work]
  refine ⟨?_, fun r' i other => ?_, fun r' g other => ?_⟩
  · have primary : (roundPath r 1 (roundPath r 0 start)).work.PathFilled start.cfg r 0 :=
      filled0.congr (fun i mem => slots1 r i fun same => group_of_other_path zero_ne_one mem same.2)
        (fun g mem => tags1 r g fun same => group_of_other_path zero_ne_one mem same.2)
    exact Fin.forall_fin_two.mpr ⟨cfg ▸ primary, cfg0 ▸ filled1⟩
  · rw [slots1 r' i fun same => other same.1, slots0 r' i fun same => other same.1, entry]
    rfl
  · rw [tags1 r' g fun same => other same.1, tags0 r' g fun same => other same.1, entry]
    rfl

/-- Of the working registers a round changes RES, FAIL and SEQ's scalars r, p and a (R208, R210). -/
theorem measRound_work {s : State} (config : s.cfg.wf = true) (r : Round) : (measRound r s).work = { s.work with
    res := (measRound r s).work.res, fail := (measRound r s).work.fail, a := (measRound r s).work.a, r := r, p := 1 } := by
  obtain ⟨start, cfg, entry, work⟩ := measRound_paths r s
  have first := roundPath_work (s := start) (by rwa [cfg]) r 0
  have second := roundPath_work (s := roundPath r 0 start) (by rwa [(roundPath_keeps r 0 start).cfg, cfg]) r 1
  rw [work, second, first, entry]

/-- The measurement half of a run changes the warnings, the port, the phase and the working registers only. -/
theorem State.MeasKeeps.eq_with {s t : State} (h : s.MeasKeeps t) : t = { s with
    warnReg := t.warnReg, port := t.port, seq := { s.seq with phase := t.seq.phase }, work := t.work } := by
  obtain ⟨⟨cfg, inited, busy, thermalRef, hciKind, status, thermalRefIn, wires, useq, cmds, -, -⟩, pt, cal, outcome, ret,
    -⟩ := h
  rw [← cfg, ← inited, ← busy, ← thermalRef, ← hciKind, ← status, ← thermalRefIn, ← wires, ← useq, ← cmds, ← pt, ← cal,
    ← outcome]
  simp only [← ret]

/-- Settles O23: the composition is `measRound_issued`, the readings are `measRound_fills`. -/
theorem roundFillsEveryReading : Obligations.RoundFillsEveryReading := by
  intro s config counted
  have round := round_lt_of_wf config counted
  obtain ⟨m0, m1, m2, m3, m4, tx0, rx0, tx1, rx1, restored, composed⟩ := measRound_issued config
  obtain ⟨filled, slots, tags⟩ := measRound_fills config round
  have keeps := measRound_keeps s.work.r s
  refine ⟨m0, m1, m2, m3, m4, measRound s.work.r s, tx0, rx0, tx1, rx1, restored, rfl, composed, ?_, fun g failed => ?_,
    fun p measured => (filled p).tx.2 measured, fun p measured => ⟨(filled p).rxNeedsTx measured, (filled p).rx.2 measured⟩,
    slots, tags, keeps.warn⟩
  · conv_lhs => rw [keeps.eq_with, measRound_work config]
    rfl
  · obtain ⟨p, rfl | rfl⟩ := group_cases g
    · obtain ⟨x, y⟩ := (filled p).tx.1 failed
      exact ⟨x ▸ xUnity_toNat config, y⟩
    · obtain ⟨x, y⟩ := (filled p).rx.1 failed
      exact ⟨x ▸ xUnity_toNat config, y⟩

end Sys2Proof.Machine

/-! The selection of a candidate, issued operation by operation (O24 to O29). -/

namespace Sys2Proof.Machine

section issued
variable (s : State)

theorem exec_simslot : exec .simslot s = .next { s with wires := { s.wires with
    sim := simSlot s.cfg s.work s.work.j s.work.r s.wires.i } } := rfl

theorem exec_simcmp : exec .simcmp s = .next { s with wires := { s.wires with
    sim := simCmp s.cfg s.work s.work.j s.work.r } } := rfl

theorem exec_vote :
    exec .vote s = .next ((vote s.work.r s).2.setWires { s.wires with found := (vote s.work.r s).1 }) := rfl

theorem exec_hybacc : exec .hybacc s = .next (hybAcc s) := rfl

theorem exec_hybnorm : exec .hybnorm s = .next (hybNorm s) := rfl

theorem exec_hybchk :
    exec .hybchk s = .next ((hybChk s).2.setWires { s.wires with found := (hybChk s).1 }) := rfl

end issued

/-! ## Similarity (R220, R222) -/

/-- SIMSLOT as R220 writes it. -/
theorem simSlot_eq (c : Config) (k : Work) (j r : Round) (i : Slot) :
    simSlot c k j r i = decide (k.failAt j (groupOf i) = false ∧ k.failAt r (groupOf i) = false ∧
      (canon c (k.resAt j i) - canon c (k.resAt r i)).natAbs ≤ c.simTol) := by
  rw [Bool.eq_iff_iff]
  simp only [simSlot, Bool.and_eq_true, Bool.not_eq_true', decide_eq_true_eq, and_assoc]
  exact Iff.rfl

/-- Settles O24: SIMSLOT by `simSlot_eq`, SIMCMP by `simCmp_iff`. -/
theorem similarityIgnoresFailedReadings : Obligations.SimilarityIgnoresFailedReadings := by
  intro s
  refine ⟨?_, _, exec_simcmp s, rfl, simCmp_iff s.cfg s.work s.work.j s.work.r⟩
  rw [exec_simslot, simSlot_eq]

/-! ## VOTE (R224, R225) -/

theorem candOf_toNat (r : Round) : (candOf r).toNat = r.val := by
  rw [candOf, BitVec.toNat_ofNat, Nat.mod_eq_of_lt r.isLt]

/-- Settles O25: `vote_spec` says VOTE whole; a round before a measurement round is round 0 or 1. -/
theorem voteSelectsEarliestAgreeingRound : Obligations.VoteSelectsEarliestAgreeingRound := by
  intro s measured
  obtain ⟨written, outcome⟩ := vote_spec s.work.r s
  refine ⟨_, exec_vote s, ?_, ?_⟩
  · conv_lhs => rw [written]
    rfl
  · simp only [State.setWires_wires, State.setWires_work]
    rcases outcome with ⟨notFound, noPair, cand, valid⟩ | ⟨found, valid, j, earlier, cand, agrees, lowest⟩
    · rw [notFound]
      exact ⟨⟨nofun, fun ⟨j, earlier, agrees⟩ => absurd agrees (noPair j earlier)⟩, nofun, fun _ => ⟨cand, valid⟩⟩
    · rw [found, cand, candOf_toNat]
      have below : j.val < 2 := by
        have : j.val < s.work.r.val := earlier
        unfold nRound at measured
        omega
      exact ⟨⟨fun _ => ⟨j, earlier, agrees⟩, fun _ => rfl⟩,
        fun _ => ⟨valid, below, j, earlier, rfl, agrees, lowest, agree_measured agrees⟩, nofun⟩

/-! ## HYBACC (R226) -/

/-- Three correlator values of at most ten bits add up to a value of twelve (R25). -/
theorem measuredSum_fits {c : Config} (config : c.wf = true) (k : Work) (i : Slot) :
    -(2 : Int) ^ (12 - 1) ≤ measuredSum c k i ∧ measuredSum c k i < 2 ^ (12 - 1) := by
  obtain ⟨atLeast, atMost, -⟩ := widths_le config
  obtain ⟨low, high⟩ := measuredSum_bounds (by omega : 1 ≤ c.readW) k i
  have range : (2 : Int) ^ (c.readW - 1) ≤ 2 ^ 9 := pow_le_pow_right₀ (by norm_num) (by omega)
  have count : (measuredCount c k (groupOf i) : Int) ≤ 3 := by exact_mod_cast measuredCount_le config k (groupOf i)
  have product : (2 : Int) ^ (c.readW - 1) * measuredCount c k (groupOf i) ≤ 2 ^ 9 * 3 :=
    mul_le_mul range count (by positivity) (by positivity)
  rw [neg_mul] at low
  rw [sub_mul] at high
  constructor <;> omega

theorem hybAcc_hcnt {s : State} (config : s.cfg.wf = true) (g : Group) :
    (hybAcc s).work.hcnt[g].toNat = measuredCount s.cfg s.work g := by
  have fits : measuredCount s.cfg s.work g < 2 ^ 2 := by
    have := measuredCount_le config s.work g
    omega
  simp only [hybAcc, State.setWork_work, Fin.getElem_fin, Vector.getElem_ofFn, BitVec.toNat_ofNat, contributors_length]
  exact Nat.mod_eq_of_lt fits

theorem hybAcc_hacc {s : State} (config : s.cfg.wf = true) (i : Slot) :
    (hybAcc s).work.hacc[i].toInt = measuredSum s.cfg s.work i := by
  obtain ⟨low, high⟩ := measuredSum_fits config s.work i
  simp only [hybAcc, State.setWork_work, Fin.getElem_fin, Vector.getElem_ofFn, hybSum_eq]
  exact BitVec.toInt_ofInt_eq_self (by decide) low high

/-- Settles O26: the count and the sum of HYBACC fit their registers (`hybAcc_hcnt`, `hybAcc_hacc`). -/
theorem hybaccSumsExactly : Obligations.HybaccSumsExactly :=
  fun s config => ⟨_, exec_hybacc s, rfl, hybAcc_hcnt config, hybAcc_hacc config⟩

/-! ## HYBNORM (R228) -/

/-- HYBNORM writes the hybrid round's slots. -/
theorem hybNorm_resAt_hybrid (s : State) (i : Slot) :
    (hybNorm s).work.resAt s.cfg.roundHybrid i = hybSlot s.cfg s.work i := by
  simp [hybNorm, Work.resAt]

/-- HYBNORM leaves the other rounds alone. -/
theorem hybNorm_resAt_other (s : State) {r : Round} (other : r ≠ s.cfg.roundHybrid) (i : Slot) :
    (hybNorm s).work.resAt r i = s.work.resAt r i := by
  have apart : s.cfg.roundHybrid.val ≠ r.val := fun same => other (Fin.ext same.symm)
  simp [hybNorm, Work.resAt, Vector.getElem_set_ne _ _ apart]

section hybSlot
variable {c : Config} {k : Work} {i : Slot}

theorem hybSlot_empty (empty : k.hcnt[groupOf i].toNat = 0) : hybSlot c k i = 0 :=
  if_pos (BitVec.eq_of_toNat_eq empty)

theorem hybSlot_mean (contributed : k.hcnt[groupOf i].toNat ≠ 0) (mean : c.hybridNorm = .mean) :
    hybSlot c k i = encodeRaw c (k.hacc[i].toInt.tdiv k.hcnt[groupOf i].toNat) := by
  rw [hybSlot, if_neg fun zero => contributed (congrArg BitVec.toNat zero), mean]

theorem hybSlot_sum (contributed : k.hcnt[groupOf i].toNat ≠ 0) (sum : c.hybridNorm = .sum) :
    hybSlot c k i = encodeRaw c k.hacc[i].toInt := by
  rw [hybSlot, if_neg fun zero => contributed (congrArg BitVec.toNat zero), sum]

end hybSlot

/-- Division truncated toward zero divides the magnitude and keeps the sign (R177). -/
theorem tdiv_natCast_eq_sign_mul (a : Int) (n : Nat) : a.tdiv n = a.sign * (a.natAbs / n : Nat) := by
  match a with
  | .ofNat 0 => simp
  | .ofNat (m + 1) => exact (one_mul _).symm
  | .negSucc m => exact (neg_one_mul _).symm

/-- Settles O27: the hybrid round holds `hybSlot`, which has three cases. -/
theorem hybnormDividesOrSums : Obligations.HybnormDividesOrSums := by
  intro s config
  obtain ⟨_, atMost, -⟩ := widths_le config
  refine ⟨_, exec_hybnorm s, rfl, fun r i other => hybNorm_resAt_other s other i, fun i => ?_⟩
  rw [hybNorm_resAt_hybrid]
  split
  next empty => rw [hybSlot_empty empty]; rfl
  next contributed =>
    split
    next mean => rw [hybSlot_mean contributed mean, encodeRaw_toNat atMost, tdiv_natCast_eq_sign_mul]
    next sum => rw [hybSlot_sum contributed sum, encodeRaw_toNat atMost]

/-! ## The exact mean (R226, R228, R176) -/

/-- A mean of correlator values is in their range. -/
theorem mean_in_range {c : Config} (width : 1 ≤ c.readW) {k : Work} {i : Slot}
    (contributed : measuredCount c k (groupOf i) ≠ 0) :
    -(2 : Int) ^ (c.readW - 1) ≤ (measuredSum c k i).tdiv (measuredCount c k (groupOf i)) ∧
    (measuredSum c k i).tdiv (measuredCount c k (groupOf i)) < 2 ^ (c.readW - 1) := by
  obtain ⟨low, high⟩ := measuredSum_bounds width k i
  have positive : (0 : Int) < measuredCount c k (groupOf i) := by exact_mod_cast Nat.pos_of_ne_zero contributed
  have least := Int.tdiv_le_tdiv positive low
  have most := Int.tdiv_le_tdiv positive high
  rw [Int.mul_tdiv_cancel _ positive.ne'] at least most
  exact ⟨least, Int.lt_of_le_sub_one most⟩

/-- Settles O28: HYBNORM divides the exact sum by the exact count, and the mean survives its encoding. -/
theorem hybridIsTheExactMean : Obligations.HybridIsTheExactMean := by
  intro s config mean
  obtain ⟨atLeast, atMost, -⟩ := widths_le config
  have width : 1 ≤ s.cfg.readW := by omega
  refine ⟨_, _, exec_hybacc s, exec_hybnorm _, fun i => ?_⟩
  have counted := hybAcc_hcnt config (groupOf i)
  have slot : (hybNorm (hybAcc s)).work.resAt s.cfg.roundHybrid i = hybSlot s.cfg (hybAcc s).work i :=
    hybNorm_resAt_hybrid (hybAcc s) i
  rw [slot]
  refine ⟨fun empty => hybSlot_empty (counted.trans empty), fun contributed => ?_⟩
  obtain ⟨low, high⟩ := mean_in_range width contributed
  rw [hybSlot_mean (by rwa [counted]) mean, counted, hybAcc_hacc config, canon_encodeRaw atMost width low high]

/-! ## HYBCHK (R230) -/

theorem hybChk_of_zero {s : State} (zero : ∀ i : Slot, s.work.resAt s.cfg.roundHybrid i = 0) :
    hybChk s = (false, (s.setWork { s.work with cand := 0, candValid := false }).warn .calFailed) :=
  if_pos ((aggregate_eq_zero _ _).mpr zero)

theorem hybChk_of_nonzero {s : State} (nonzero : ∃ i : Slot, s.work.resAt s.cfg.roundHybrid i ≠ 0) :
    hybChk s = (true, s.setWork { s.work with cand := candOf s.cfg.roundHybrid, candValid := true }) := by
  obtain ⟨i, nonzero⟩ := nonzero
  exact if_neg fun zero => nonzero ((aggregate_eq_zero _ _).mp zero i)

/-- Settles O29: the aggregate is zero exactly when every slot is (`aggregate_eq_zero`). -/
theorem hybchkRefusesAllZero : Obligations.HybchkRefusesAllZero := by
  intro s
  refine ⟨fun nonzero => ?_, fun zero => ⟨_, exec_hybchk s, ?_⟩⟩
  · rw [exec_hybchk, hybChk_of_nonzero nonzero]
    rfl
  · rw [hybChk_of_zero zero]
    rfl

end Sys2Proof.Machine

/-! Usability, RETAIN, the matrix fills and APPLY, issued one at a time (O30 to O33). -/

namespace Sys2Proof.Machine

section issued
variable (s : State)

theorem exec_usable : exec .usable s = .next { s with wires := { s.wires with
    usable := usable s.cfg s.work s.work.cand s.wires.g } } := rfl

theorem exec_retain : exec .retain s = .next (retain s.work.cand s) := rfl

theorem exec_filltx : exec .filltx s = .next (s.setPort (fillTx s.cfg s.work.p s.wires.x s.wires.y s.port)) := rfl

theorem exec_fillrx : exec .fillrx s = .next (s.setPort (fillRx s.cfg s.work.p s.wires.x s.wires.y s.port)) := rfl

theorem exec_apply : exec .apply s = .next (applyCand s.work.cand s) := rfl

end issued

/-! ## USABLE and RETAIN (R240, R246) -/

section usable
variable {c : Config} (k : Work) {cand : BitVec 2} (g : Group)

/-- The candidate of a measurement round is usable where its tag is clear (R240). -/
theorem usable_measured (config : c.wf = true) {r : Round} (measured : r.val < c.nRound)
    (candidate : cand.toNat = r.val) : usable c k cand g = !k.failAt r g := by
  have round : candRound cand = r := Fin.ext candidate
  have apart : r ≠ c.roundHybrid := by
    rintro rfl
    rw [c.nRound_eq config, c.roundHybrid_eq config] at measured
    exact absurd measured (by decide)
  rw [usable, round, if_neg apart]

/-- The hybrid candidate is usable where it has a contributor (R240). -/
theorem usable_hybrid (candidate : cand.toNat = c.roundHybrid.val) :
    usable c k cand g = decide (0 < k.hcnt[g].toNat) := by
  have round : candRound cand = c.roundHybrid := Fin.ext candidate
  rw [usable, if_pos round, Bool.eq_iff_iff, bne_iff_ne, decide_eq_true_eq, Nat.pos_iff_ne_zero]
  exact not_congr ⟨fun empty => congrArg BitVec.toNat empty, fun empty => BitVec.eq_of_toNat_eq empty⟩

end usable

/-- The reading RETAIN keeps for a path (R246). -/
theorem retain_cal_reading (cand : BitVec 2) (s : State) (p : Path) :
    (retain cand s).cal.txX[p] = retainedX s.cfg s.work cand p ∧
    (retain cand s).cal.txY[p] = retainedY s.cfg s.work cand p := by
  fin_cases p <;> exact ⟨rfl, rfl⟩

/-- What RETAIN keeps for a path: the candidate's TX reading where it is usable, the "no correction" one where not (R246). -/
theorem retain_readings {s : State} (config : s.cfg.wf = true) (cand : BitVec 2) (p : Path) :
    (usable s.cfg s.work cand (txGroup p) = true →
      (retain cand s).cal.txX[p] = s.work.resAt (candRound cand) (slotX (txGroup p)) ∧
      (retain cand s).cal.txY[p] = s.work.resAt (candRound cand) (slotY (txGroup p))) ∧
    (usable s.cfg s.work cand (txGroup p) = false →
      (retain cand s).cal.txX[p].toNat = 2 ^ s.cfg.frac ∧ (retain cand s).cal.txY[p] = 0) := by
  obtain ⟨x, y⟩ := retain_cal_reading cand s p
  rw [x, y, retainedX, retainedY]
  refine ⟨fun keeps => ?_, fun drops => ?_⟩
  · rw [if_pos keeps, if_pos keeps]
    exact ⟨rfl, rfl⟩
  · rw [drops]
    exact ⟨xUnity_toNat config, rfl⟩

/-- Settles O30: the two cases of USABLE, and what RETAIN keeps. -/
theorem usableAndRetain : Obligations.UsableAndRetain := by
  intro s config
  refine ⟨fun r measured candidate => ?_, fun candidate => ?_,
    _, exec_retain s, rfl, rfl, retain_readings config s.work.cand⟩
  · rw [exec_usable, usable_measured s.work s.wires.g config measured candidate]
  · rw [exec_usable, usable_hybrid s.work s.wires.g candidate]

/-! ## Fields written into one register (R41, R85) -/

/-- A masked write of a field: the field holds it, and every other bit is as before. -/
theorem fieldSet_one {w n : Nat} {m : BitVec w} (field : isField m n = true) (width : 0 < n) (old : BitVec w)
    {v : BitVec w} (fits : v.toNat < 2 ^ n) :
    fieldGet (fieldSet old m v) m = v ∧ fieldSet old m v &&& ~~~m = old &&& ~~~m :=
  ⟨fieldGet_fieldSet_self field width old fits, fieldSet_outside old m v _ (BitVec.and_not_self m)⟩

/-- Masked writes of two fields without a common bit: both fields hold theirs, and every other bit is as before. -/
theorem fieldSet_two {w n n' : Nat} {m m' : BitVec w} (field : isField m n = true) (width : 0 < n)
    (field' : isField m' n' = true) (width' : 0 < n') (apart : m &&& m' = 0) (old : BitVec w) {v v' : BitVec w}
    (fits : v.toNat < 2 ^ n) (fits' : v'.toNat < 2 ^ n') :
    fieldGet (fieldSet (fieldSet old m v) m' v') m = v ∧ fieldGet (fieldSet (fieldSet old m v) m' v') m' = v' ∧
    fieldSet (fieldSet old m v) m' v' &&& ~~~(m ||| m') = old &&& ~~~(m ||| m') := by
  have outside : m &&& ~~~(m ||| m') = 0 := by
    rw [BitVec.not_or, ← BitVec.and_assoc, BitVec.and_not_self]
    exact BitVec.zero_and
  have outside' : m' &&& ~~~(m ||| m') = 0 := by
    rw [BitVec.or_comm, BitVec.not_or, ← BitVec.and_assoc, BitVec.and_not_self]
    exact BitVec.zero_and
  refine ⟨?_, fieldGet_fieldSet_self field' width' _ fits', ?_⟩
  · rw [fieldGet_fieldSet_of_disjoint (by rw [BitVec.and_comm, apart]), fieldGet_fieldSet_self field width old fits]
  · rw [fieldSet_outside _ _ _ _ outside', fieldSet_outside _ _ _ _ outside]

/-! ## FILLTX and FILLRX (R242, R244) -/

/-- Settles O31: `fillTx_spec` is the whole of FILLTX, and its three registers hold the fields written into them. -/
theorem filltxWritesTheMatrix : Obligations.FilltxWritesTheMatrix := by
  rintro s config canonical p d a e rfl hd ha he
  obtain ⟨-, -, elemPos, elemMost, -⟩ := widths_le config
  obtain ⟨⟨rf, answers⟩, records, txiq, txiqChi, ecca, frame⟩ :=
    fillTx_spec config s.work.p s.wires.x s.wires.y s.port canonical d hd a e ha he
  obtain ⟨fieldA, fieldCLo, txiqRest⟩ := fieldSet_two (maskA_field config) elemPos (maskCLo_field config) (by decide)
    (maskA_cLo_disjoint config).1 (s.port.dev.mem.wordAt s.cfg.txiq[s.work.p])
    (raw32_lt (ha ▸ iqmult_lt s.cfg _ _ elemMost)) (low6_lt e.1)
  obtain ⟨fieldCHi, txiqChiRest⟩ := fieldSet_one (maskCHi_field config) (by decide)
    (s.port.dev.mem.wordAt s.cfg.txiqChi[s.work.p]) (high4_lt e.1)
  obtain ⟨extA, extC⟩ := maskExt_field config s.work.p
  obtain ⟨fieldExtA, fieldExtC, eccaRest⟩ := fieldSet_two extA (by decide) extC (by decide)
    (maskExt_disjoint config s.work.p) (s.port.dev.mem.wordAt s.cfg.ecca) (bitWord_lt a.2) (bitWord_lt e.2)
  refine ⟨_, exec_filltx s, rfl, ?_⟩
  simp only [State.setPort_port, records, txiq, txiqChi, ecca, ← low6_eq, ← high4_eq]
  exact ⟨trivial, rf, answers, fieldA, fieldCLo, txiqRest, fieldCHi, txiqChiRest, fieldExtA, fieldExtC, eccaRest, frame⟩

/-- Settles O32: `fillRx_spec` is the whole of FILLRX, and its two registers hold the fields written into them. -/
theorem fillrxWritesTheReading : Obligations.FillrxWritesTheReading := by
  rintro s config canonical fits p rfl
  have readPos : 0 < s.cfg.readW := by
    have := widths_le config
    omega
  obtain ⟨⟨rf, answers⟩, records, rxiq, rxiqYhi, frame⟩ :=
    fillRx_spec config s.work.p s.wires.x s.wires.y s.port canonical
  obtain ⟨fieldX, fieldYLo, rxiqRest⟩ := fieldSet_two (maskX_field config) readPos (maskYLo_field config) (by decide)
    (maskX_yLo_disjoint config) (s.port.dev.mem.wordAt s.cfg.rxiq[s.work.p]) (raw32_lt fits) (low6_lt s.wires.y)
  obtain ⟨fieldYHi, rxiqYhiRest⟩ := fieldSet_one (maskYHi_field config s.work.p) (by decide)
    (s.port.dev.mem.wordAt s.cfg.rxiqYhi[s.work.p]) (high4_lt s.wires.y)
  refine ⟨_, exec_fillrx s, rfl, ?_⟩
  simp only [State.setPort_port, records, rxiq, rxiqYhi, ← low6_eq, ← high4_eq]
  exact ⟨trivial, rf, answers, fieldX, fieldYLo, rxiqRest, fieldYHi, rxiqYhiRest, frame⟩

/-! ## APPLY (R248) -/

/-- APPLY is `applyPort` of path 0 and then of path 1. -/
theorem applyCand_eq (cand : BitVec 2) (s : State) : applyCand cand s = { s with
    seq := { s.seq with phase := .calApply }
    work := { s.work with p := 1 }
    port := applyPort s.cfg s.work cand 1 (applyPort s.cfg s.work cand 0 s.port) } := by
  rw [applyCand, applyPath_eq, applyPath_eq]
  rfl

/-- Settles O33: the port by `applyCand_eq`, the rest by `applyPath_spec` for path 0 and then for path 1. -/
theorem applyWritesOnlyUsableReadings : Obligations.ApplyWritesOnlyUsableReadings := by
  rintro s config res tx rx rfl rfl rfl
  obtain ⟨-, ⟨rf0, answers0⟩, ⟨l0, records0, count0⟩, frame0⟩ :=
    applyPath_spec s.work.cand 0 (s.setPhase .calApply) config
  have cfg : (applyPath s.work.cand 0 (s.setPhase .calApply)).cfg = s.cfg := (applyPath_keeps _ _ _).cfg
  have same : ∀ g, usable s.cfg (applyPath s.work.cand 0 (s.setPhase .calApply)).work s.work.cand g =
      usable s.cfg s.work s.work.cand g := by
    rw [applyPath_eq]
    exact fun _ => rfl
  obtain ⟨-, ⟨rf1, answers1⟩, ⟨l1, records1, count1⟩, frame1⟩ :=
    applyPath_spec s.work.cand 1 (applyPath s.work.cand 0 (s.setPhase .calApply)) (by rwa [cfg])
  simp only [cfg, same] at count1 frame1
  refine ⟨_, exec_apply s, applyCand_eq s.work.cand s, rf1.trans rf0, answers0.trans answers1, ⟨l0 ++ l1, ?_, ?_⟩,
    fun b outside => ?_⟩
  · rw [applyCand, records1, records0, List.append_assoc]
    rfl
  · rw [List.length_append, count0, count1]
    rfl
  · exact (frame1 b (outside 1)).trans (frame0 b (outside 0))

end Sys2Proof.Machine

/-! A whole IQK run: its operations issued one after the other, and its outcome (O34). -/

namespace Sys2Proof.Machine

/-! ## Results on the wires -/

/-- The wires with the result of VOTE, HYBCHK or IQKRUN on the wire `found`. -/
def Wires.setFound (w : Wires) (found : Bool) : Wires := { w with found := found }

/-- The state after an operation issued with the wires `w` whose meaning answered `r`: the result is on the wire `found`. -/
def State.answered (w : Wires) (r : Bool × State) : State := r.2.setWires (w.setFound r.1)

@[simp] theorem State.answered_found (w : Wires) (r : Bool × State) : (State.answered w r).wires.found = r.1 := rfl

@[simp] theorem State.answered_setFound (w : Wires) (found : Bool) (r : Bool × State) :
    State.answered (w.setFound found) r = State.answered w r := rfl

/-- ROUND issued with the round in SEQ's scalar r. -/
theorem exec_round (r : Round) (s : State) :
    exec .round (s.setWork { s.work with r := r }) = .next (measRound r s) := rfl

/-- VOTE issued with the round in SEQ's scalar r. -/
theorem exec_vote_answered {r : Round} {s : State} (scalar : s.work.r = r) (w : Wires) :
    exec .vote (s.setWires w) = .next (State.answered w (vote r s)) := by
  rw [exec_vote, State.setWires_work, scalar, vote_wires]
  rfl

theorem exec_hybchk_answered (s : State) (w : Wires) :
    exec .hybchk (s.setWires w) = .next (State.answered w (hybChk s)) := by
  rw [exec_hybchk, hybChk_wires]
  generalize hybChk s = checked
  rfl

theorem exec_iqkrun (s : State) : exec .iqkrun s = .next (State.answered s.wires (iqkRun s)) := rfl

/-! ## Steps 1 to 6 of a run, issued (R254) -/

/-- Steps 1 to 4 of a run: BACKUP with the working registers cleared, ROUND 0, ROUND 1 and VOTE. -/
def firstRounds (s : State) : Bool × State := vote 1 (measRound 1 (measRound 0 (backup (s.setWork s.work.clear))))

/-- Steps 5 and 6 of a run: ROUND 2 and VOTE, and the hybrid round if no pair agrees. -/
def thirdRound (s : State) : Bool × State :=
  if (vote 2 (measRound 2 s)).1 then vote 2 (measRound 2 s) else hybrid (vote 2 (measRound 2 s)).2

/-- Steps 1 to 6 of a run: whether there is a candidate, and the state that holds it. -/
def iqkCandidate (s : State) : Bool × State := if (firstRounds s).1 then firstRounds s else thirdRound (firstRounds s).2

/-- A run is its candidate and its end. -/
theorem iqkRun_eq (s : State) : iqkRun s = iqkFinish (iqkCandidate s).1 (iqkCandidate s).2 := by
  unfold iqkRun iqkCandidate firstRounds
  dsimp only
  split
  next pair => rw [pair]
  next =>
    unfold thirdRound
    split
    next pair => rw [pair]
    next => rfl

/-- ROUND `r` and then VOTE, issued from any wires. -/
theorem round_vote_issued {s : State} (config : s.cfg.wf = true) (r : Round) (w : Wires) : ∃ m : State,
    exec .round ((s.setWires w).setWork { (s.setWires w).work with r := r }) = .next m ∧
    exec .vote m = .next (State.answered w (vote r (measRound r s))) := by
  have scalar : (measRound r s).work.r = r := by rw [measRound_work config]
  refine ⟨_, exec_round r (s.setWires w), ?_⟩
  rw [measRound_wires, exec_vote_answered scalar]

/-- HYBACC, HYBNORM and HYBCHK issued one after the other are the hybrid step. -/
theorem hybrid_issued (s : State) (w : Wires) : ∃ h1 h2 : State, exec .hybacc (s.setWires w) = .next h1 ∧
    exec .hybnorm h1 = .next h2 ∧ exec .hybchk h2 = .next (State.answered w (hybrid s)) := by
  refine ⟨_, _, exec_hybacc _, exec_hybnorm _, ?_⟩
  rw [hybAcc_wires, hybNorm_wires, exec_hybchk_answered]
  rfl

/-- Steps 5 and 6, issued from any wires. -/
theorem thirdRound_issued {s : State} (config : s.cfg.wf = true) (w : Wires) : ∃ m2 v2 : State,
    exec .round ((s.setWires w).setWork { (s.setWires w).work with r := 2 }) = .next m2 ∧ exec .vote m2 = .next v2 ∧
    (v2.wires.found = true → State.answered w (thirdRound s) = v2) ∧
    (v2.wires.found = false → ∃ h1 h2 : State, exec .hybacc v2 = .next h1 ∧ exec .hybnorm h1 = .next h2 ∧
      exec .hybchk h2 = .next (State.answered w (thirdRound s))) := by
  obtain ⟨m2, round, voted⟩ := round_vote_issued config 2 w
  refine ⟨m2, _, round, voted, fun pair => ?_, fun noPair => ?_⟩
  · rw [State.answered_found] at pair
    rw [thirdRound, if_pos pair]
  · rw [State.answered_found] at noPair
    rw [thirdRound, noPair, if_neg Bool.false_ne_true]
    exact hybrid_issued _ _

/-- The first rounds change no configuration. -/
theorem firstRounds_cfg (s : State) : (firstRounds s).2.cfg = s.cfg :=
  (((((s.setWork_keeps s.work.clear).trans (backup_keeps _)).trans (measRound_keeps 0 _)).trans
    (measRound_keeps 1 _)).trans (vote_keeps 1 _)).cfg

/-- Steps 1 to 4, issued. -/
theorem firstRounds_issued {s : State} (config : s.cfg.wf = true) : ∃ b0 m0 m1 : State,
    exec .backup (s.setWork s.work.clear) = .next b0 ∧
    exec .round (b0.setWork { b0.work with r := 0 }) = .next m0 ∧
    exec .round (m0.setWork { m0.work with r := 1 }) = .next m1 ∧
    exec .vote m1 = .next (State.answered s.wires (firstRounds s)) := by
  have keeps := ((s.setWork_keeps s.work.clear).trans (backup_keeps _)).trans (measRound_keeps 0 _)
  obtain ⟨m1, round, voted⟩ := round_vote_issued (s := measRound 0 (backup (s.setWork s.work.clear)))
    (by rw [keeps.cfg]; exact config) 1 s.wires
  rw [← keeps.wires, State.setWires_self] at round
  exact ⟨_, _, m1, rfl, exec_round 0 _, round, voted⟩

/-- Steps 1 to 6, issued: they end in the candidate's state, with the wire `found` telling whether there is one. -/
theorem iqkCandidate_issued {s : State} (config : s.cfg.wf = true) : ∃ b0 m0 m1 v1 : State,
    exec .backup (s.setWork s.work.clear) = .next b0 ∧
    exec .round (b0.setWork { b0.work with r := 0 }) = .next m0 ∧
    exec .round (m0.setWork { m0.work with r := 1 }) = .next m1 ∧
    exec .vote m1 = .next v1 ∧
    (v1.wires.found = true → State.answered s.wires (iqkCandidate s) = v1) ∧
    (v1.wires.found = false → ∃ m2 v2 : State, exec .round (v1.setWork { v1.work with r := 2 }) = .next m2 ∧
      exec .vote m2 = .next v2 ∧ (v2.wires.found = true → State.answered s.wires (iqkCandidate s) = v2) ∧
      (v2.wires.found = false → ∃ h1 h2 : State, exec .hybacc v2 = .next h1 ∧ exec .hybnorm h1 = .next h2 ∧
        exec .hybchk h2 = .next (State.answered s.wires (iqkCandidate s)))) := by
  obtain ⟨b0, m0, m1, backed, round0, round1, voted⟩ := firstRounds_issued config
  refine ⟨b0, m0, m1, _, backed, round0, round1, voted, fun pair => ?_, fun noPair => ?_⟩
  · rw [State.answered_found] at pair
    rw [iqkCandidate, if_pos pair]
  · rw [State.answered_found] at noPair
    have third : iqkCandidate s = thirdRound (firstRounds s).2 := by
      rw [iqkCandidate, noPair, if_neg Bool.false_ne_true]
    rw [third, ← State.answered_setFound s.wires (firstRounds s).1 (thirdRound (firstRounds s).2)]
    exact thirdRound_issued (by rw [firstRounds_cfg]; exact config) _

/-! ## Steps 7 and 8, issued (R254) -/

/-- The end of a run, issued: APPLY and RETAIN of a candidate, then FINALRESTORE; only OUTCOME is the run's own. -/
theorem iqkFinish_issued (found : Bool) (v : State) : ∃ a e : State,
    (found = true → ∃ w : State, exec .apply v = .next w ∧ exec .retain w = .next a) ∧
    (found = false → a = v) ∧
    exec .finalrestore a = .next e ∧
    (iqkFinish found v).2 = { e with outcome := (iqkFinish found v).2.outcome, wires := v.wires } := by
  cases found with
  | false => exact ⟨v, _, nofun, fun _ => rfl, rfl, rfl⟩
  | true =>
    have candidate : (applyCand v.work.cand v).work.cand = v.work.cand := by rw [applyCand_eq]
    have wires : (iqkFinish true v).2.wires = v.wires := (iqkFinish_keeps true v).wires
    refine ⟨retain v.work.cand (applyCand v.work.cand v), _, fun _ => ⟨_, exec_apply v, ?_⟩, nofun, rfl, ?_⟩
    · rw [exec_retain, candidate]
    · rw [← wires]
      rfl

/-- The end of a run, issued from the candidate's state, is the run issued. -/
theorem iqkRun_answered (s : State) : State.answered s.wires (iqkRun s) =
    (iqkFinish (iqkCandidate s).1 (State.answered s.wires (iqkCandidate s))).2 := by
  rw [State.answered, iqkRun_eq, State.answered, iqkFinish_wires, (iqkFinish_spec _ _).1]

/-! ## What a run leaves (R256, R132, R246, R324) -/

/-- What RETAIN makes of a candidate is a matter of the configuration and the working registers but for the scalar p. -/
theorem retain_cal_congr {s t : State} (cfg : t.cfg = s.cfg) {p : Path} (work : t.work = { s.work with p := p })
    (cand : BitVec 2) : (retain cand t).cal = (retain cand s).cal := by
  simp only [retain, State.setCal_cal, retainedX, retainedY, cfg, work]
  rfl

section run
variable {s t : State} {found : Bool}

/-- A run changes SEQ's phase, the working registers, CalibrationState, OUTCOME, WARN and the port only. -/
theorem iqkRun_frame (run : iqkRun s = (found, t)) : t = { s with
    seq := { s.seq with phase := .calFinal }, work := t.work, cal := t.cal, outcome := t.outcome, warnReg := t.warnReg,
    port := t.port } := by
  obtain ⟨result, u, finish, ptKept, -, -, retKept, -⟩ := iqkRun_spec s
  obtain ⟨-, ptEnd, retEnd, phase, -⟩ := iqkFinish_spec result u
  have keeps := iqkRun_keeps s
  rw [← finish, run] at ptEnd retEnd phase
  rw [run] at keeps
  obtain ⟨cfg, inited, busy, thermalRef, hciKind, status, thermalRefIn, wires, useq, cmds, -, -⟩ := keeps
  rw [← cfg, ← inited, ← busy, ← thermalRef, ← hciKind, ← status, ← thermalRefIn, ← wires, ← useq, ← cmds,
    ← ptEnd.trans ptKept]
  simp only [← retEnd.trans retKept, ← phase]

/-- A run raises no warning but W_POLL_TIMEOUT and W_CAL_FAILED (R324). -/
theorem iqkRun_warn (run : iqkRun s = (found, t)) (x : Warning) (notTimeout : x ≠ .pollTimeout)
    (notFailed : x ≠ .calFailed) : warnCount t.warnReg x = warnCount s.warnReg x := by
  obtain ⟨result, u, finish, -, -, -, -, warn, -⟩ := iqkRun_spec s
  obtain ⟨-, -, -, -, -, -, -, warnEnd⟩ := iqkFinish_spec result u
  rw [← finish, run] at warnEnd
  exact (warnEnd x notTimeout).trans (warn x notTimeout notFailed)

/-- An applied run: OUTCOME names the candidate, CalibrationState is what RETAIN makes of it, and W_CAL_FAILED is not
raised. -/
theorem iqkRun_applied (config : s.cfg.wf = true) (run : iqkRun s = (true, t)) :
    (t.work.cand = 0 ∧ t.outcome = 0x03 ∨ t.work.cand = 1 ∧ t.outcome = 0x07 ∨
      t.work.cand.toNat = s.cfg.roundHybrid.val ∧ t.outcome = 0x0F) ∧
    t.work.candValid = true ∧ t.cal = (retain t.work.cand t).cal ∧
    warnCount t.warnReg .calFailed = warnCount s.warnReg .calFailed := by
  obtain ⟨found, u, finish, -, -, -, -, -, applied, -⟩ := iqkRun_spec s
  obtain ⟨result, -, -, -, outcome, cal, work, warnEnd⟩ := iqkFinish_spec found u
  have kept := (iqkFinish_keeps found u).cfg
  rw [← finish, run] at result outcome cal work warnEnd kept
  subst result
  replace work : t.work = { u.work with p := 1 } := work
  obtain ⟨cand, valid, warn⟩ := applied rfl
  have same : t.work.cand = u.work.cand := by rw [work]
  refine ⟨?_, by rw [work]; exact valid, ?_, (warnEnd _ (by decide)).trans warn⟩
  · rw [same, outcome]
    rcases cand with cand | cand | cand
    · exact .inl ⟨cand, by rw [cand]; rfl⟩
    · exact .inr (.inl ⟨cand, by rw [cand]; rfl⟩)
    · refine .inr (.inr ⟨by rw [cand, candOf_toNat], ?_⟩)
      rw [cand, Config.roundHybrid_eq _ config]
      rfl
  · rw [same, retain_cal_congr kept work]
    exact cal

/-- A failed run: OUTCOME is 0, CalibrationState is untouched, and W_CAL_FAILED is raised once. -/
theorem iqkRun_failed (run : iqkRun s = (false, t)) :
    t.outcome = 0x00 ∧ t.cal = s.cal ∧ t.work.candValid = false ∧
    (warnCount t.warnReg .calFailed).toNat = min 15 ((warnCount s.warnReg .calFailed).toNat + 1) := by
  obtain ⟨found, u, finish, -, calKept, -, -, -, -, failed⟩ := iqkRun_spec s
  obtain ⟨result, -, -, -, outcome, cal, work, warnEnd⟩ := iqkFinish_spec found u
  rw [← finish, run] at result outcome cal work warnEnd
  subst result
  obtain ⟨invalid, warn⟩ := failed rfl
  exact ⟨outcome, cal.trans calKept, (congrArg Work.candValid work).trans invalid,
    (congrArg BitVec.toNat (warnEnd _ (by decide))).trans warn⟩

end run

/-- Settles O34: the composition is `iqkCandidate_issued` and `iqkFinish_issued`, the outcome `iqkRun_applied` and
`iqkRun_failed`. -/
theorem iqkrunOutcome : Obligations.IqkrunOutcome := by
  intro s config
  obtain ⟨b0, m0, m1, v1, backed, round0, round1, voted, pair, noPair⟩ := iqkCandidate_issued config
  obtain ⟨a, e, applied, skipped, restored, finished⟩ :=
    iqkFinish_issued (iqkCandidate s).1 (State.answered s.wires (iqkCandidate s))
  have issued := exec_iqkrun s
  have cfg := (iqkRun_keeps s).cfg
  obtain ⟨found, t, run⟩ : ∃ found t, iqkRun s = (found, t) := ⟨_, _, rfl⟩
  have otherWarnings := iqkRun_warn run
  rw [← iqkRun_answered, run] at finished
  rw [run] at issued cfg
  generalize iqkCandidate s = candidate at *
  refine ⟨b0, m0, m1, v1, _, a, e, _, backed, round0, round1, voted, pair, noPair, applied, skipped, restored,
    issued, finished, ?_, otherWarnings, fun success => ?_, fun failure => ?_⟩
  · conv_lhs => rw [State.answered, iqkRun_frame run]
    rfl
  · obtain rfl : found = true := success
    obtain ⟨outcome, valid, retained, warn⟩ := iqkRun_applied config run
    have readings := retain_readings (s := t) (by rw [cfg]; exact config) t.work.cand
    rw [← retained] at readings
    refine ⟨outcome, valid, congrArg CalState.doneFlag retained, fun p => ?_, warn⟩
    obtain ⟨kept, dropped⟩ := readings p
    exact ⟨kept, cfg ▸ dropped⟩
  · obtain rfl : found = false := failure
    exact (iqkRun_failed run :)

end Sys2Proof.Machine

/-! Unit 5, issued one at a time: the capability check, the two threshold decisions, the thermal read, the average, the raw
delta and its lookup (O35 to O38). -/

namespace Sys2Proof.Machine

section issued
variable (s : State)

theorem exec_unsupchk :
    exec .unsupchk s = .next ((unsupChk s).2.setWires { s.wires with stop := (unsupChk s).1 }) := rfl

theorem exec_thread : exec .thread s = .next ((thermRead s).2.setWires { s.wires with t := (thermRead s).1 }) := rfl

theorem exec_avgupd : exec .avgupd s =
    .next ((avgUpd s.wires.t s).2.setWires { s.wires with avg := (avgUpd s.wires.t s).1 }) := rfl

theorem exec_needIqk : exec .needIqk s =
    .next ((needIqk s.wires.avg s).2.setWires { s.wires with needIqk := (needIqk s.wires.avg s).1 }) := rfl

theorem exec_compchk : exec .compchk s =
    .next ((compChk s.wires.t s).2.setWires { s.wires with go := (compChk s.wires.t s).1 }) := rfl

theorem exec_rawdelta : exec .rawdelta s = .next { s with
    pt := { s.pt with lastApplied := s.wires.t }
    wires := { s.wires with
      pol := polarityOf (rawDeltaOf s.cfg s.wires.t s.pt.lastApplied)
      k := (rawDeltaOf s.cfg s.wires.t s.pt.lastApplied).natAbs } } := rfl

theorem exec_dlookup : exec .dlookup s = .next { s with wires := { s.wires with
    deltaO := (dLookup s.cfg s.wires.pol s.wires.k).1, deltaC := (dLookup s.cfg s.wires.pol s.wires.k).2 } } := rfl

theorem exec_pass : exec .pass s = .next (Machine.pass s) := rfl

end issued

/-! ## The capability check and the two threshold decisions (R263, R268, R270) -/

section decisions
variable {s : State}

theorem unsupChk_unsupported (unsupported : s.thermalRef = s.cfg.thermUnsupported) :
    unsupChk s = (true, (s.setPt { s.pt with disabled := true }).warn .thermUnsupported) := if_pos unsupported

theorem unsupChk_supported (supported : s.thermalRef ≠ s.cfg.thermUnsupported) : unsupChk s = (false, s) :=
  if_neg supported

theorem needIqk_unanchored (unanchored : s.pt.anchorValid = false) (avg : Byte) :
    needIqk avg s = (false, s.setPt { s.pt with anchor := avg, anchorValid := true }) := by
  rw [needIqk, unanchored, if_neg Bool.false_ne_true]

theorem needIqk_anchored (anchored : s.pt.anchorValid = true) (avg : Byte) :
    needIqk avg s = (decide (s.cfg.iqkThresh ≤ codeDist avg s.pt.anchor), s) := if_pos anchored

theorem compChk_first (first : s.pt.initTrigger = true) (t : Byte) :
    compChk t s = (true, s.setPt { s.pt with initTrigger := false }) := if_pos first

theorem compChk_later (later : s.pt.initTrigger = false) (t : Byte) :
    compChk t s = (decide (s.cfg.compThresh < codeDist t s.pt.lastApplied), s) := by
  rw [compChk, later, if_neg Bool.false_ne_true]

end decisions

/-- Settles O35: the two branches of each of the three operations. -/
theorem capabilityAndThresholdDecisions : Obligations.CapabilityAndThresholdDecisions := by
  intro s
  refine ⟨fun unsupported => ?_, fun supported => ?_, fun unanchored => ?_, fun anchored => ?_, fun first => ?_,
    fun later => ?_⟩
  · rw [exec_unsupchk, unsupChk_unsupported unsupported]
    rfl
  · rw [exec_unsupchk, unsupChk_supported supported]
    rfl
  · rw [exec_needIqk, needIqk_unanchored unanchored]
    rfl
  · rw [exec_needIqk, needIqk_anchored anchored]
    rfl
  · rw [exec_compchk, compChk_first first]
    rfl
  · rw [exec_compchk, compChk_later later]
    rfl

/-! ## The thermal read (R264, R123) -/

/-- A thermal code has THERM_W bits (P14). -/
theorem thermCode_lt {c : Config} (config : c.wf = true) (w : RfWord) : (fieldGet w c.maskCode).toNat < 2 ^ c.thermW := by
  obtain ⟨-, -, -, -, -, -, positive, -⟩ := widths_le config
  exact fieldGet_lt (maskCode_field config) positive w

/-- A thermal code fits the byte it is zero-extended to (R123). -/
theorem thermCode_lt_byte {c : Config} (config : c.wf = true) (w : RfWord) : (fieldGet w c.maskCode).toNat < 2 ^ 8 := by
  obtain ⟨-, -, -, -, -, -, -, atMost, -⟩ := widths_le config
  exact (thermCode_lt config w).trans_le (Nat.pow_le_pow_right (by omega) atMost)

/-- The zero extension of a thermal code loses nothing (R123). -/
theorem thermCode_extended {c : Config} (config : c.wf = true) (w : RfWord) :
    ((fieldGet w c.maskCode).setWidth 8).setWidth 32 = fieldGet w c.maskCode := by
  apply BitVec.eq_of_toNat_eq
  rw [BitVec.toNat_setWidth, BitVec.toNat_setWidth, Nat.mod_eq_of_lt (thermCode_lt_byte config w),
    Nat.mod_eq_of_lt (fieldGet w c.maskCode).isLt]

/-- Settles O36: `thermRead_eq` and what the environment draws. -/
theorem threadReadsTheSensor : Obligations.ThreadReadsTheSensor := by
  intro s k config lowest
  obtain rfl := lowest.ctz_eq
  refine ⟨_, exec_thread s, ?_⟩
  rw [thermRead_eq]
  refine ⟨rfl, ?_, ?_, Device.drawTherm_mem _, Device.drawTherm_rf _, fun w rest pending => ?_, fun free => ?_⟩
  · rw [State.setWires_wires, BitVec.toNat_setWidth, Nat.mod_eq_of_lt (thermCode_lt_byte config _)]
    exact thermCode_lt config _
  · simp only [State.setWires_port, State.setPort_port, State.setWires_wires, thermCode_extended config]
    rfl
  · simp [Device.drawTherm_pending pending, fieldGet]
  · simp [Device.drawTherm_free free, fieldGet]

/-! ## The average (R266) -/

theorem avgNext_eq (c : Config) (valid : Bool) (acc : Nat) (t : Byte) : avgNext c valid acc t =
    if valid = true then (acc * 2 ^ c.avgRcpLog2 - acc + t.toNat * 2 ^ c.avgPrec) / 2 ^ c.avgRcpLog2
    else t.toNat * 2 ^ c.avgPrec := by
  simp only [avgNext, Nat.shiftLeft_eq, Nat.shiftRight_eq_div_pow]

theorem avgUpd_fst (t : Byte) (s : State) : (avgUpd t s).1 = BitVec.ofNat 8
    (avgNext s.cfg s.pt.avgValid[s.cfg.thermPath] s.pt.avgAcc[s.cfg.thermPath] t / 2 ^ s.cfg.avgPrec) := by
  simp only [avgUpd, Nat.shiftRight_eq_div_pow]

/-- The integer part of an accumulator between two codes is a code between them. -/
theorem average_bounds {acc prec lo hi : Nat} (code : hi < 256) (low : lo * 2 ^ prec ≤ acc) (high : acc ≤ hi * 2 ^ prec) :
    lo ≤ (BitVec.ofNat 8 (acc / 2 ^ prec)).toNat ∧ (BitVec.ofNat 8 (acc / 2 ^ prec)).toNat ≤ hi := by
  have above : lo ≤ acc / 2 ^ prec := (Nat.le_div_iff_mul_le (by positivity)).mpr low
  have below : acc / 2 ^ prec ≤ hi := Nat.div_le_of_le_mul (by rwa [Nat.mul_comm])
  rw [BitVec.toNat_ofNat, Nat.mod_eq_of_lt (by omega)]
  exact ⟨above, below⟩

/-- Settles O37: `avgNext_eq` is the accumulator, `avgNext_bounds` keeps it within its samples. -/
theorem avgupdAveragesWithinTheSamples : Obligations.AvgupdAveragesWithinTheSamples := by
  rintro s q rfl
  refine ⟨_, avgNext_eq _ _ _ _, ?_, fun lo hi code above below kept => ?_⟩
  · rw [exec_avgupd, avgUpd_fst]
    rfl
  · obtain ⟨low, high⟩ := avgNext_bounds s.cfg _ _ _ lo hi above below kept
    exact ⟨low, high, average_bounds code low high⟩

/-! ## The raw delta and its lookup (R272, R286, R304) -/

section rawDelta
variable {c : Config} (t last : Byte)

theorem rawDeltaOf_natAbs (nonempty : 1 ≤ c.deltaTblSz) :
    (rawDeltaOf c t last).natAbs = min ((t.toNat : Int) - last.toNat).natAbs (c.deltaTblSz - 1) := by
  unfold rawDeltaOf clamp
  split
  · omega
  · split <;> omega

theorem polarityOf_rawDeltaOf (nonempty : 1 ≤ c.deltaTblSz) :
    polarityOf (rawDeltaOf c t last) = if last.toNat < t.toNat ∧ 2 ≤ c.deltaTblSz then .pos else .neg := by
  have rise : 0 < rawDeltaOf c t last ↔ last.toNat < t.toNat ∧ 2 ≤ c.deltaTblSz := by
    unfold rawDeltaOf clamp
    split
    · omega
    · split <;> omega
  simp only [polarityOf, rise]

end rawDelta

theorem deltaTblSz_pos {c : Config} (config : c.wf = true) : 1 ≤ c.deltaTblSz := by
  have size := c.meets_of_wf config .deltaSize
  simp only [Config.meets, Bool.and_eq_true, decide_eq_true_eq] at size
  exact size.1

/-- Inside its DELTA_TBL_SZ entries a delta table answers the entry (R48, R72). -/
theorem romByte_deltaTable {c : Config} (config : c.wf = true) {l : List Byte} (table : l ∈ c.deltaTables) {k : Nat}
    (inside : k < c.deltaTblSz) : l[k]? = some (romByte l k) := by
  have tables := c.meets_of_wf config .deltaTable
  simp only [Config.meets, List.all_eq_true, Bool.and_eq_true, beq_iff_eq] at tables
  have entry := List.getElem?_eq_getElem ((tables l table).1.symm ▸ inside)
  simp only [romByte, entry]

/-- Settles O38: the magnitude and the polarity of the clamped difference, and the entries DLOOKUP reads. -/
theorem rawdeltaIndexesAndDlookupReads : Obligations.RawdeltaIndexesAndDlookupReads := by
  intro s config
  have nonempty := deltaTblSz_pos config
  refine ⟨⟨_, ?_, rawDeltaOf_natAbs s.wires.t s.pt.lastApplied nonempty, ?_⟩, fun inside rise => ?_, fun inside fall => ?_⟩
  · rw [rawDeltaOf_natAbs _ _ nonempty]
    omega
  · rw [exec_rawdelta, polarityOf_rawDeltaOf _ _ nonempty]
  · refine ⟨_, _, romByte_deltaTable config (by simp [Config.deltaTables]) inside,
      romByte_deltaTable config (by simp [Config.deltaTables]) inside, ?_⟩
    rw [exec_dlookup, rise]
    rfl
  · refine ⟨_, _, romByte_deltaTable config (by simp [Config.deltaTables]) inside,
      romByte_deltaTable config (by simp [Config.deltaTables]) inside, ?_⟩
    rw [exec_dlookup, fall]
    rfl

end Sys2Proof.Machine

/-! The pass in two parts: what it senses and decides, and what it does of that (O39 to O41). -/

namespace Sys2Proof.Machine

/-! ## Steps 2 to 4 of a pass (R264 to R270) -/

/-- The thermal code that a pass reads (R264). -/
def sampleOf (s : State) : Byte := (thermRead s).1

/-- The average with the code that a pass reads (R266). -/
def averageOf (s : State) : Byte := (avgUpd (sampleOf s) (thermRead s).2).1

/-- The pass finds the drift that calls for a calibration (R268). -/
def drifted (s : State) : Bool := s.pt.anchorValid && decide (s.cfg.iqkThresh ≤ codeDist (averageOf s) s.pt.anchor)

/-- The pass finds the change that calls for a compensation, or is the first one (R270). -/
def stepped (s : State) : Bool :=
  s.pt.initTrigger || decide (s.cfg.compThresh < codeDist (sampleOf s) s.pt.lastApplied)

/-- The state in which steps 2 to 4 leave the block: sampled, averaged, decided. -/
def afterSensing (s : State) : State :=
  (compChk (sampleOf s) (needIqk (averageOf s) (avgUpd (sampleOf s) (thermRead s).2).2).2).2

/-- The state in which steps 2 to 6 leave it: the paths compensated, if the change calls for it. -/
def afterCompensation (s : State) : State :=
  if stepped s then passComp (sampleOf s) (afterSensing s) else afterSensing s

theorem needIqk_fst (avg : Byte) (s : State) :
    (needIqk avg s).1 = (s.pt.anchorValid && decide (s.cfg.iqkThresh ≤ codeDist avg s.pt.anchor)) := by
  cases anchored : s.pt.anchorValid
  · rw [needIqk_unanchored anchored, Bool.false_and]
  · rw [needIqk_anchored anchored, Bool.true_and]

theorem compChk_fst (t : Byte) (s : State) :
    (compChk t s).1 = (s.pt.initTrigger || decide (s.cfg.compThresh < codeDist t s.pt.lastApplied)) := by
  cases first : s.pt.initTrigger
  · rw [compChk_later first, Bool.false_or]
  · rw [compChk_first first, Bool.true_or]

/-- NEEDIQK changes the anchor only, so COMPCHK decides as it would before (R267). -/
theorem compChk_needIqk_fst (t avg : Byte) (s : State) : (compChk t (needIqk avg s).2).1 = (compChk t s).1 := by
  obtain ⟨a, seeded⟩ := needIqk_state avg s
  rw [seeded, compChk_fst, compChk_fst]
  rfl

theorem needIqk_fst_eq_drifted (s : State) :
    (needIqk (averageOf s) (avgUpd (sampleOf s) (thermRead s).2).2).1 = drifted s := needIqk_fst _ _

theorem compChk_fst_eq_stepped (s : State) :
    (compChk (sampleOf s) (needIqk (averageOf s) (avgUpd (sampleOf s) (thermRead s).2).2).2).1 = stepped s := by
  rw [compChk_needIqk_fst, compChk_fst]
  rfl

/-- Steps 2 to 7 are steps 2 to 6, and the nested run if the average has drifted (R274). -/
theorem passBody_eq (s : State) :
    passBody s = if drifted s then passIqk (afterCompensation s) else afterCompensation s := by
  rw [afterCompensation, ← needIqk_fst_eq_drifted, ← compChk_fst_eq_stepped]
  rfl

theorem pass_unsupported {s : State} (unsupported : s.thermalRef = s.cfg.thermUnsupported) : Machine.pass s =
    ((s.setPhase .ptPassSense).setPt { s.pt with disabled := true }).warn .thermUnsupported := by
  have stops := unsupChk_unsupported (s := s.setPhase .ptPassSense) unsupported
  rw [Machine.pass, stops]
  rfl

theorem pass_supported {s : State} (supported : s.thermalRef ≠ s.cfg.thermUnsupported) :
    Machine.pass s = passBody (s.setPhase .ptPassSense) := by
  have goes := unsupChk_supported (s := s.setPhase .ptPassSense) supported
  rw [Machine.pass, goes]
  rfl

/-- A supported pass that finds neither drift nor change ends with its sensing (R268, R270). -/
theorem pass_quiet {s : State} (supported : s.thermalRef ≠ s.cfg.thermUnsupported) (unstepped : stepped s = false)
    (undrifted : drifted s = false) : Machine.pass s = afterSensing (s.setPhase .ptPassSense) := by
  have small : stepped (s.setPhase .ptPassSense) = false := unstepped
  have still : drifted (s.setPhase .ptPassSense) = false := undrifted
  rw [pass_supported supported, passBody_eq, afterCompensation, small, still, if_neg Bool.false_ne_true,
    if_neg Bool.false_ne_true]

theorem averageOf_eq (s : State) : averageOf s = BitVec.ofNat 8
    (avgNext s.cfg s.pt.avgValid[s.cfg.thermPath] s.pt.avgAcc[s.cfg.thermPath] (sampleOf s) / 2 ^ s.cfg.avgPrec) :=
  avgUpd_fst _ _

/-- Of the port, sensing uses the thermal read alone; it leaves the flag of the first pass clear and the last applied code
as it was (R264, R270). -/
theorem afterSensing_spec (s : State) : (afterSensing s).port = (thermRead s).2.port ∧
    (afterSensing s).pt.initTrigger = false ∧ (afterSensing s).pt.lastApplied = s.pt.lastApplied := by
  obtain ⟨a, seeded⟩ := needIqk_state (averageOf s) (avgUpd (sampleOf s) (thermRead s).2).2
  rw [afterSensing, compChk_state, seeded]
  exact ⟨rfl, rfl, rfl⟩

theorem afterSensing_keeps (s : State) : s.Keeps (afterSensing s) :=
  (((thermRead_keeps s).toKeeps.trans (avgUpd_keeps _ _)).trans (needIqk_keeps _ _)).trans (compChk_keeps _ _)

/-- With an anchor and no first pass awaited, sensing moves the average and nothing else (R266). -/
theorem afterSensing_anchored {s : State} (later : s.pt.initTrigger = false) (anchored : s.pt.anchorValid = true) :
    afterSensing s = (avgUpd (sampleOf s) (thermRead s).2).2 := by
  have averaged := needIqk_anchored (s := (avgUpd (sampleOf s) (thermRead s).2).2) anchored
  have decided := compChk_later (s := (avgUpd (sampleOf s) (thermRead s).2).2) later
  rw [afterSensing, averaged, decided]

/-- The code of a pass whose thermal answer is pending (R264). -/
theorem sampleOf_pending {s : State} {w : RfWord} {rest : List RfWord} (pending : s.port.dev.thermQ = w :: rest) :
    sampleOf s = (fieldGet w s.cfg.maskCode).setWidth 8 := by
  rw [sampleOf, thermRead_eq, Device.drawTherm_pending pending]

/-- The thermal read with a pending answer (R264, R140). -/
theorem thermRead_pending {s : State} {w : RfWord} {rest : List RfWord} (pending : s.port.dev.thermQ = w :: rest) :
    (thermRead s).2 = s.setPort ⟨{ s.port.dev with thermQ := rest }, s.port.trace ++ [⟨0x74,
      BitVec.ofNat 8 s.cfg.thermPath.val, s.cfg.rfTMeter.setWidth 16, s.cfg.maskCode, 0, fieldGet w s.cfg.maskCode⟩]⟩ := by
  rw [thermRead_eq, Device.drawTherm_pending pending]
  rfl

/-! ## A pass without work -/

/-- Settles O39: an unsupported sensor by `pass_unsupported`; else neither decision calls for work (`pass_quiet`), and
`afterSensing_anchored` is the whole pass. -/
theorem passWithoutWork : Obligations.PassWithoutWork := by
  intro s
  refine ⟨fun unsupported => ?_, ?_⟩
  · rw [exec_pass, pass_unsupported unsupported]
    rfl
  · rintro supported later anchored w rest k q acc pending lowest rfl t code small accumulator smallDrift
    obtain rfl := lowest.ctz_eq
    rw [← avgNext_eq] at accumulator
    have sample : sampleOf s = t := (sampleOf_pending pending).trans code.symm
    have average : (averageOf s).toNat = acc / 2 ^ s.cfg.avgPrec % 256 := by
      rw [averageOf_eq, sample, ← accumulator, BitVec.toNat_ofNat]
    have unstepped : stepped s = false := by
      rw [stepped, later, sample, Bool.false_or]
      exact decide_eq_false (Nat.not_lt.mpr small)
    have undrifted : drifted s = false := by
      rw [drifted, anchored, codeDist, average, Bool.true_and]
      exact decide_eq_false (Nat.not_le.mpr smallDrift)
    rw [exec_pass, pass_quiet supported unstepped undrifted,
      afterSensing_anchored (s := s.setPhase .ptPassSense) later anchored,
      thermRead_pending (s := s.setPhase .ptPassSense) pending, accumulator, ← sample]
    rfl

/-! ## What a pass leaves of PowerTrackState (R274) -/

/-- PATHCOMP leaves the looked-up deltas on its path, also where it is skipped because they are unchanged (R298). -/
theorem pathComp_deltas {c : Config} {x : PtState} (p : Path) (pol : Polarity) (k : Nat) {s : State} (hc : s.cfg = c)
    (hx : s.pt = x) : ∃ rO rC, (pathComp p pol k s).pt = { x with
      deltaOfdm := x.deltaOfdm.set p (BitVec.ofInt 9 (dLookup c pol k).1)
      deltaCck := x.deltaCck.set p (BitVec.ofInt 9 (dLookup c pol k).2)
      remnantOfdm := rO, remnantCck := rC } := by
  subst hc hx
  exact ⟨_, _, (pathComp_pt p pol k s).1⟩

/-- The compensation of both paths leaves the looked-up deltas on both, whatever they held (R274, R298). -/
theorem compensate_deltas (pol : Polarity) (k : Nat) (s : State) : ∃ rO rC, (compensate pol k s).pt = { s.pt with
    deltaOfdm := #v[BitVec.ofInt 9 (dLookup s.cfg pol k).1, BitVec.ofInt 9 (dLookup s.cfg pol k).1]
    deltaCck := #v[BitVec.ofInt 9 (dLookup s.cfg pol k).2, BitVec.ofInt 9 (dLookup s.cfg pol k).2]
    remnantOfdm := rO, remnantCck := rC } := by
  obtain ⟨_, _, first⟩ := pathComp_deltas (c := s.cfg) (x := s.pt) 0 pol k (s := s.setWork { s.work with p := 0 }) rfl rfl
  have cfg : (pathComp 0 pol k (s.setWork { s.work with p := 0 })).cfg = s.cfg := (pathComp_keeps 0 pol k _).cfg
  unfold compensate
  dsimp only
  generalize pathComp 0 pol k (s.setWork { s.work with p := 0 }) = a at first cfg ⊢
  obtain ⟨rO, rC, second⟩ := pathComp_deltas 1 pol k (s := a.setWork { a.work with p := 1 }) cfg first
  refine ⟨rO, rC, second.trans ?_⟩
  simp only [set_both]

/-- The OFDM and CCK delta indices of a change from the last applied code (R272, R286). -/
def deltasOf (c : Config) (t last : Byte) : Int × Int :=
  dLookup c (polarityOf (rawDeltaOf c t last)) (rawDeltaOf c t last).natAbs

/-- Step 6 takes the code as the last applied one and gives both paths the delta indices of the change (R272, R298). -/
theorem passComp_pt (t : Byte) (s : State) : ∃ rO rC, (passComp t s).pt = { s.pt with
    lastApplied := t
    deltaOfdm := #v[BitVec.ofInt 9 (deltasOf s.cfg t s.pt.lastApplied).1,
      BitVec.ofInt 9 (deltasOf s.cfg t s.pt.lastApplied).1]
    deltaCck := #v[BitVec.ofInt 9 (deltasOf s.cfg t s.pt.lastApplied).2,
      BitVec.ofInt 9 (deltasOf s.cfg t s.pt.lastApplied).2]
    remnantOfdm := rO, remnantCck := rC } :=
  compensate_deltas _ _ (rawDelta t (s.setPhase .ptPassComp)).2

/-- Step 7 moves the anchor and the two baseline indices only (R157, R302). -/
theorem passIqk_pt (s : State) : ∃ (i j : BitVec 6) (anchor : Byte) (valid : Bool), (passIqk s).pt = { s.pt with
    ofdmIndex := i, cckIndex := j, anchor := anchor, anchorValid := valid } := by
  have run := (iqkAnchored_spec { s with seq := ⟨.ptPassIqk, true⟩ }).1
  unfold passIqk
  dsimp only
  generalize iqkAnchored { s with seq := ⟨.ptPassIqk, true⟩ } = r at run ⊢
  have indices : (resync { r.2 with seq := ⟨.ptResync, false⟩ }).pt = { r.2.pt with
      ofdmIndex := (resync { r.2 with seq := ⟨.ptResync, false⟩ }).pt.ofdmIndex
      cckIndex := (resync { r.2 with seq := ⟨.ptResync, false⟩ }).pt.cckIndex } := rfl
  rw [indices, run]
  split <;> exact ⟨_, _, _, _, rfl⟩

theorem passIqk_seq (s : State) : (passIqk s).seq = ⟨.ptResync, false⟩ := rfl

theorem afterCompensation_keeps (s : State) : (afterSensing s).Keeps (afterCompensation s) := by
  unfold afterCompensation
  split
  · exact passComp_keeps _ _
  · exact .refl _

theorem afterSensing_keeps_passBody (s : State) : (afterSensing s).Keeps (passBody s) := by
  rw [passBody_eq]
  split
  · exact (afterCompensation_keeps s).trans (passIqk_keeps _)
  · exact afterCompensation_keeps s

/-! ## A pass above the threshold -/

/-- PowerTrackState once the code `t` is compensated, with `last` the code applied before it: no first pass is awaited,
and both paths hold the delta indices of the change (R270, R272, R298). -/
structure PtState.Compensated (c : Config) (t last : Byte) (x : PtState) : Prop where
  applied : x.lastApplied = t
  started : x.initTrigger = false
  ofdm : ∀ p : Path, x.deltaOfdm[p].toInt = (deltasOf c t last).1
  cck : ∀ p : Path, x.deltaCck[p].toInt = (deltasOf c t last).2

theorem passComp_compensated {s : State} (started : s.pt.initTrigger = false) (t : Byte) :
    (passComp t s).pt.Compensated s.cfg t s.pt.lastApplied := by
  have both : ∀ (b : BitVec 9) (p : Path), (#v[b, b] : Vector (BitVec 9) 2)[p] = b := fun b p => by fin_cases p <;> rfl
  obtain ⟨lowO, highO, lowC, highC⟩ := dLookup_range s.cfg (polarityOf (rawDeltaOf s.cfg t s.pt.lastApplied))
    (rawDeltaOf s.cfg t s.pt.lastApplied).natAbs
  obtain ⟨rO, rC, compensated⟩ := passComp_pt t s
  rw [compensated]
  refine ⟨rfl, started, fun p => ?_, fun p => ?_⟩
  · rw [both]
    exact toInt_ofInt9 lowO highO
  · rw [both]
    exact toInt_ofInt9 lowC highC

/-- The nested calibration does not touch what the compensation left (R274). -/
theorem passIqk_compensated {s : State} {c : Config} {t last : Byte} (h : s.pt.Compensated c t last) :
    (passIqk s).pt.Compensated c t last := by
  obtain ⟨i, j, anchor, valid, run⟩ := passIqk_pt s
  rw [run]
  exact ⟨h.applied, h.started, h.ofdm, h.cck⟩

theorem passBody_compensated {s : State} (compensates : stepped s = true) :
    (passBody s).pt.Compensated s.cfg (sampleOf s) s.pt.lastApplied := by
  obtain ⟨-, started, last⟩ := afterSensing_spec s
  have compensated := passComp_compensated started (sampleOf s)
  rw [(afterSensing_keeps s).cfg, last] at compensated
  rw [passBody_eq, afterCompensation, if_pos compensates]
  split
  · exact passIqk_compensated compensated
  · exact compensated

/-- Settles O40: the threshold decision by `passBody_compensated`, the trace by what follows the thermal read. -/
theorem passCompensatesBothPaths : Obligations.PassCompensatesBothPaths := by
  rintro s supported w rest pending t code change
  have sample : sampleOf (s.setPhase .ptPassSense) = t := (sampleOf_pending pending).trans code.symm
  have compensates : stepped (s.setPhase .ptPassSense) = true := by
    rw [stepped, sample, Bool.or_eq_true, decide_eq_true_eq]
    exact change
  have compensated := passBody_compensated compensates
  rw [sample] at compensated
  refine ⟨_, exec_pass s, ?_⟩
  rw [pass_supported supported]
  refine ⟨compensated.applied, compensated.started, fun p => ⟨compensated.ofdm p, compensated.cck p⟩, ?_⟩
  obtain ⟨l, grown, -⟩ := (afterSensing_keeps_passBody (s.setPhase .ptPassSense)).port.trace
  rw [(afterSensing_spec _).1, thermRead_pending (s := s.setPhase .ptPassSense) pending] at grown
  exact ⟨l, grown.trans (List.append_assoc ..)⟩

/-! ## Two passes in a row (R276) -/

theorem swOfdm_memOnly (c : Config) (cal : CalState) (p : Path) (idx : Fin 43) (q : Port) :
    q.MemOnly (swOfdm c cal p idx q) := by
  unfold swOfdm
  dsimp only
  split
  · exact (((Port.wr_memOnly _ _ _ _ _).trans (Port.wrm_memOnly _ _ _ _ _)).trans (Port.wrm_memOnly _ _ _ _ _)).trans
      (Port.wrm_memOnly _ _ _ _ _)
  · exact Port.wr_memOnly _ _ _ _ _

theorem swCck_memOnly (c : Config) (idx : Fin 33) (q : Port) : q.MemOnly (swCck c idx q) := by
  unfold swCck
  generalize List.finRange 8 = l
  induction l generalizing q with
  | nil => exact ⟨rfl, .refl _⟩
  | cons k l ih => exact (Port.wr_memOnly c q .w8 _ _).trans (ih _)

@[simp] theorem Device.drawChan_thermQ (d : Device) : d.drawChan.2.thermQ = d.thermQ := by unfold drawChan; split <;> rfl

@[simp] theorem Device.drawReapply_thermQ (d : Device) : d.drawReapply.2.thermQ = d.thermQ := by
  unfold drawReapply; split <;> rfl

theorem Port.chan_thermQ (q : Port) : q.chan.2.dev.thermQ = q.dev.thermQ := Device.drawChan_thermQ _

theorem Port.reapply_thermQ (c : Config) (q : Port) (ch : Byte) : (q.reapply c ch).dev.thermQ = q.dev.thermQ := by
  obtain ⟨-, thermQ, -⟩ := Device.hookWrites_answers c q.dev.drawReapply.1 q.dev.drawReapply.2
  exact thermQ.trans (Device.drawReapply_thermQ _)

theorem pathComp_thermQ (p : Path) (pol : Polarity) (k : Nat) (s : State) :
    (pathComp p pol k s).port.dev.thermQ = s.port.dev.thermQ := by
  unfold pathComp
  dsimp only
  split
  · rfl
  · obtain ⟨-, -, thermQ, -⟩ := (swOfdm_memOnly s.cfg s.cal p
      (swClamp (ofdmTblSz - 1) (s.pt.ofdmIndex.toNat + (dLookup s.cfg pol k).1)).1 s.port).trans (swCck_memOnly s.cfg
      (swClamp (cckTblSz - 1) (s.pt.cckIndex.toNat + (dLookup s.cfg pol k).2)).1 _)
    exact ((Port.reapply_thermQ _ _ _).trans (Port.chan_thermQ _)).trans thermQ

/-- The compensation takes no answer of the thermal meter. -/
theorem passComp_thermQ (t : Byte) (s : State) : (passComp t s).port.dev.thermQ = s.port.dev.thermQ :=
  (pathComp_thermQ _ _ _ _).trans (pathComp_thermQ _ _ _ _)

theorem afterCompensation_thermQ (s : State) :
    (afterCompensation s).port.dev.thermQ = (thermRead s).2.port.dev.thermQ := by
  rw [← (afterSensing_spec s).1, afterCompensation]
  split
  · exact passComp_thermQ _ _
  · rfl

/-- After steps 2 to 6 the same code calls for no compensation: it is the last applied one, or was near enough to it
(R270, R272, R276). -/
theorem compChk_afterCompensation (s : State) : (compChk (sampleOf s) (afterCompensation s)).1 = false := by
  obtain ⟨-, started, last⟩ := afterSensing_spec s
  rw [compChk_fst, afterCompensation]
  cases change : stepped s with
  | true =>
    obtain ⟨rO, rC, compensated⟩ := passComp_pt (sampleOf s) (afterSensing s)
    rw [if_pos rfl, compensated]
    simp [started, codeDist]
  | false =>
    rw [stepped, Bool.or_eq_false_iff] at change
    obtain ⟨-, near⟩ := change
    rw [if_neg Bool.false_ne_true, started, last, (afterSensing_keeps s).cfg, near]
    rfl

/-- A pass that does not end in PT_RESYNC has found no drift (R31, R274). -/
theorem undrifted_of_phase {s : State} (supported : s.thermalRef ≠ s.cfg.thermUnsupported)
    (phase : (Machine.pass s).seq.phase ≠ .ptResync) : drifted s = false := by
  by_contra drift
  rw [Bool.not_eq_false] at drift
  have calibrates : drifted (s.setPhase .ptPassSense) = true := drift
  rw [pass_supported supported, passBody_eq, if_pos calibrates, passIqk_seq] at phase
  exact phase rfl

/-- Settles O41: after a first pass without a nested run the same code calls for no compensation
(`compChk_afterCompensation`), so that the second pass ends with its sensing. -/
theorem repeatedPassIsQuiet : Obligations.RepeatedPassIsQuiet := by
  intro s w1 w2 rest pending sameCode supported
  refine ⟨_, _, exec_pass s, exec_pass _, fun first second => ?_⟩
  have undrifted : drifted (s.setPhase .ptPassSense) = false := undrifted_of_phase supported first
  have keeps := pass_keeps s
  have supported' : (Machine.pass s).thermalRef ≠ (Machine.pass s).cfg.thermUnsupported := by
    rwa [keeps.thermalRef, keeps.cfg]
  have ends : Machine.pass s = afterCompensation (s.setPhase .ptPassSense) := by
    rw [pass_supported supported, passBody_eq, if_neg (by rw [undrifted]; exact Bool.false_ne_true)]
  have pending' : (Machine.pass s).port.dev.thermQ = w2 :: rest := by
    rw [ends, afterCompensation_thermQ, thermRead_pending (s := s.setPhase .ptPassSense) pending]
    rfl
  have sample : sampleOf (Machine.pass s) = sampleOf (s.setPhase .ptPassSense) := by
    rw [sampleOf_pending pending', sampleOf_pending (s := s.setPhase .ptPassSense) pending, keeps.cfg, State.setPhase_cfg,
      (fieldGet_eq_iff _ _ _).mpr sameCode]
  have unstepped : stepped (Machine.pass s) = false := by
    have decided := compChk_fst (sampleOf (Machine.pass s)) (Machine.pass s)
    rw [stepped, ← decided, sample, ends]
    exact compChk_afterCompensation _
  rw [pass_quiet supported' unstepped (undrifted_of_phase supported' second), (afterSensing_spec _).1,
    thermRead_pending (s := (Machine.pass s).setPhase .ptPassSense) pending', State.setPhase_cfg, keeps.cfg]
  exact ⟨rfl, rfl, rfl⟩

end Sys2Proof.Machine

/-! The pass as its operations issued one after the other, with the nested calibration, its anchor and its resync (O60). -/

namespace Sys2Proof.Machine

/-! ## Sensing, issued from any wires -/

section issued
variable (s : State) (w : Wires)

theorem exec_thread_setWires : exec .thread (s.setWires w) =
    .next ((thermRead s).2.setWires { w with t := (thermRead s).1 }) := rfl

theorem exec_avgupd_setWires : exec .avgupd (s.setWires w) =
    .next ((avgUpd w.t s).2.setWires { w with avg := (avgUpd w.t s).1 }) := rfl

theorem exec_needIqk_setWires : exec .needIqk (s.setWires w) =
    .next ((needIqk w.avg s).2.setWires { w with needIqk := (needIqk w.avg s).1 }) := by
  rw [exec_needIqk, needIqk_wires]
  rfl

theorem exec_compchk_setWires : exec .compchk (s.setWires w) =
    .next ((compChk w.t s).2.setWires { w with go := (compChk w.t s).1 }) := by
  rw [exec_compchk, compChk_wires]
  rfl

theorem exec_pathcomp_setWires (p : Path) :
    exec .pathcomp ((s.setWires w).setWork { (s.setWires w).work with p := p }) =
      .next ((pathComp p w.pol w.k (s.setWork { s.work with p := p })).setWires w) :=
  congrArg Host.Outcome.next (pathComp_wires p w.pol w.k (s.setWork { s.work with p := p }) w)

theorem exec_iqkrun_setWires : exec .iqkrun (s.setWires w) = .next (State.answered w (iqkRun s)) := by
  rw [exec_iqkrun, iqkRun_wires]
  generalize iqkRun s = r
  rfl

end issued

/-- THREAD, AVGUPD, NEEDIQK and COMPCHK issued: the code and the two decisions stand on their wires. -/
theorem afterSensing_issued (s : State) (w : Wires) : ∃ (t a n : State) (v : Wires),
    exec .thread (s.setWires w) = .next t ∧ exec .avgupd t = .next a ∧ exec .needIqk a = .next n ∧
    exec .compchk n = .next ((afterSensing s).setWires v) ∧ v.t = sampleOf s ∧ v.go = stepped s ∧
    n.wires.needIqk = drifted s ∧ v.needIqk = drifted s :=
  ⟨_, _, _, _, exec_thread_setWires s w, exec_avgupd_setWires _ _, exec_needIqk_setWires _ _, exec_compchk_setWires _ _,
    rfl, compChk_fst_eq_stepped s, needIqk_fst_eq_drifted s, needIqk_fst_eq_drifted s⟩

/-! ## Steps 5 and 6, issued (R274) -/

/-- PATHCOMP for path 0 and path 1. -/
theorem compensate_issued (s : State) (w : Wires) : ∃ p0 : State,
    exec .pathcomp ((s.setWires w).setWork { (s.setWires w).work with p := 0 }) = .next p0 ∧
    exec .pathcomp (p0.setWork { p0.work with p := 1 }) = .next ((compensate w.pol w.k s).setWires w) :=
  ⟨_, exec_pathcomp_setWires s w 0,
    exec_pathcomp_setWires (pathComp 0 w.pol w.k (s.setWork { s.work with p := 0 })) w 1⟩

/-- RAWDELTA from the code on its wire, and the two PATHCOMP. -/
theorem passComp_issued (s : State) (w : Wires) : ∃ (d p0 : State) (v : Wires),
    exec .rawdelta ((s.setWires w).setPhase .ptPassComp) = .next d ∧
    exec .pathcomp (d.setWork { d.work with p := 0 }) = .next p0 ∧
    exec .pathcomp (p0.setWork { p0.work with p := 1 }) = .next ((passComp w.t s).setWires v) ∧
    v.needIqk = w.needIqk := by
  obtain ⟨p0, path0, path1⟩ := compensate_issued (rawDelta w.t (s.setPhase .ptPassComp)).2 { w with
    pol := (rawDelta w.t (s.setPhase .ptPassComp)).1.1, k := (rawDelta w.t (s.setPhase .ptPassComp)).1.2 }
  exact ⟨_, p0, _, rfl, path0, path1, rfl⟩

/-- Steps 5 and 6 issued when COMPCHK says go, skipped when it does not; NEEDIQK's decision stays on its wire. -/
theorem afterCompensation_issued {s : State} {w : Wires} (code : w.t = sampleOf s) (go : w.go = stepped s) :
    ∃ v : Wires, v.needIqk = w.needIqk ∧
    (w.go = true → ∃ d p0 : State,
      exec .rawdelta (((afterSensing s).setWires w).setPhase .ptPassComp) = .next d ∧
      exec .pathcomp (d.setWork { d.work with p := 0 }) = .next p0 ∧
      exec .pathcomp (p0.setWork { p0.work with p := 1 }) = .next ((afterCompensation s).setWires v)) ∧
    (w.go = false → (afterCompensation s).setWires v = (afterSensing s).setWires w) := by
  rw [afterCompensation, ← go, ← code]
  cases w.go with
  | true =>
    obtain ⟨d, p0, v, rawdelta, path0, path1, kept⟩ := passComp_issued (afterSensing s) w
    exact ⟨v, kept, fun _ => ⟨d, p0, rawdelta, path0, path1⟩, nofun⟩
  | false => exact ⟨w, rfl, nofun, fun _ => rfl⟩

/-! ## Step 7, issued (R274) -/

/-- What follows a run: the anchor becomes the average, when the run is applied and there is one (R157). -/
theorem anchorUpd_if (applied : Bool) (s : State) : (if applied = true then anchorUpd s else s) = s.setPt
    (if applied = true ∧ s.pt.avgValid[s.cfg.thermPath] = true then { s.pt with
      anchor := BitVec.ofNat 8 (s.pt.avgAcc[s.cfg.thermPath] / 2 ^ s.cfg.avgPrec), anchorValid := true } else s.pt) := by
  cases applied with
  | false => simp
  | true =>
    simp only [if_true, true_and, anchorUpd, Nat.shiftRight_eq_div_pow]
    split <;> rfl

/-- IQKRUN, the anchor it leaves and RESYNC, issued. -/
theorem passIqk_issued (s : State) (w : Wires) : ∃ (r : State) (v : Wires),
    exec .iqkrun { s.setWires w with seq := ⟨.ptPassIqk, true⟩ } = .next r ∧
    exec .resync { r with
      seq := ⟨.ptResync, false⟩,
      pt := if r.wires.found = true ∧ r.pt.avgValid[r.cfg.thermPath] = true then { r.pt with
          anchor := BitVec.ofNat 8 (r.pt.avgAcc[r.cfg.thermPath] / 2 ^ r.cfg.avgPrec), anchorValid := true }
        else r.pt } = .next ((passIqk s).setWires v) := by
  have run := exec_iqkrun_setWires { s with seq := ⟨.ptPassIqk, true⟩ } w
  unfold passIqk iqkAnchored
  dsimp only
  generalize iqkRun { s with seq := ⟨.ptPassIqk, true⟩ } = r at run ⊢
  refine ⟨State.answered w r, w.setFound r.1, run, ?_⟩
  rw [anchorUpd_if]
  rfl

/-- A pass gives the wires back, whatever its operations left on them when issued one by one. -/
theorem exec_pass_of_eq {s t : State} (ends : Machine.pass s = t) (w : Wires) :
    exec .pass s = .next { t.setWires w with wires := s.wires } := by
  have wires : t.wires = s.wires := ends ▸ (pass_keeps s).wires
  rw [exec_pass, ends, ← wires]
  rfl

/-- Settles O60: the sensing, the compensation and the calibration issued in turn (`afterSensing_issued`,
`afterCompensation_issued`, `passIqk_issued`) are the pass by `passBody_eq`. -/
theorem passIsItsComposition : Obligations.PassIsItsComposition := by
  intro s
  refine ⟨_, exec_unsupchk (s.setPhase .ptPassSense), ?_⟩
  by_cases unsupported : s.thermalRef = s.cfg.thermUnsupported
  · rw [unsupChk_unsupported (s := s.setPhase .ptPassSense) unsupported]
    exact ⟨fun _ => exec_pass_of_eq (pass_unsupported unsupported) _, nofun⟩
  · rw [unsupChk_supported (s := s.setPhase .ptPassSense) unsupported]
    refine ⟨nofun, fun _ => ?_⟩
    have ends := (pass_supported unsupported).trans (passBody_eq _)
    obtain ⟨t, a, n, v, read, averaged, compared, decided, code, go, needed, carried⟩ :=
      afterSensing_issued (s.setPhase .ptPassSense) { s.wires with stop := false }
    obtain ⟨v', kept, compensated, skipped⟩ := afterCompensation_issued code go
    obtain ⟨r, v'', run, resynced⟩ := passIqk_issued (afterCompensation (s.setPhase .ptPassSense)) v'
    rw [← needed] at ends carried
    refine ⟨t, a, n, _, _, read, averaged, compared, decided, compensated, skipped, kept.trans carried, fun still => ?_,
      fun drift => ⟨r, _, run, resynced, ?_⟩⟩
    · rw [still, if_neg Bool.false_ne_true] at ends
      exact exec_pass_of_eq ends v'
    · rw [drift, if_pos rfl] at ends
      exact exec_pass_of_eq ends v''

end Sys2Proof.Machine

/-! Every operation does the same whatever channel-14 table stands in the configuration (O45). -/

namespace Sys2Proof

/-- The configuration with another channel-14 table (R47). -/
def Config.swap14 (tbl : Vector (Vector Byte 8) 33) (c : Config) : Config := { c with cckTbl14 := tbl }

end Sys2Proof

namespace Sys2Proof.Machine

/-! ## What is computed from a configuration without its channel-14 table (R296) -/

section config
variable (tbl : Vector (Vector Byte 8) 33) (c : Config)

@[simp] theorem canon_swap14 : canon (c.swap14 tbl) = canon c := rfl
@[simp] theorem iqmult_swap14 : iqmult (c.swap14 tbl) = iqmult c := rfl
@[simp] theorem usable_swap14 : usable (c.swap14 tbl) = usable c := rfl
@[simp] theorem Port.rdm_swap14 : Port.rdm (c.swap14 tbl) = Port.rdm c := rfl
@[simp] theorem Port.wr_swap14 : Port.wr (c.swap14 tbl) = Port.wr c := rfl
@[simp] theorem Port.wrm_swap14 : Port.wrm (c.swap14 tbl) = Port.wrm c := rfl

@[simp] theorem Port.backupAll_swap14 (q : Port) (l : List BackupElem) :
    q.backupAll (c.swap14 tbl) l = q.backupAll c l := by
  induction l generalizing q with
  | nil => rfl
  | cons e l ih =>
    rw [Port.backupAll, ih]
    rfl

@[simp] theorem fillTx_swap14 : fillTx (c.swap14 tbl) = fillTx c := by
  funext p x y q
  simp only [fillTx, canon_swap14, iqmult_swap14, Port.rdm_swap14, Port.wrm_swap14]
  rfl

@[simp] theorem fillRx_swap14 : fillRx (c.swap14 tbl) = fillRx c := by
  funext p x y q
  simp only [fillRx, Port.wrm_swap14]
  rfl

/-- DLOOKUP reads the delta tables only (R286). -/
@[simp] theorem dLookup_swap14 : dLookup (c.swap14 tbl) = dLookup c := rfl

@[simp] theorem applyPort_swap14 : applyPort (c.swap14 tbl) = applyPort c := by
  funext k cand p q
  simp only [applyPort, usable_swap14, fillTx_swap14, fillRx_swap14]

@[simp] theorem swOfdm_swap14 : swOfdm (c.swap14 tbl) = swOfdm c := by
  funext cal p idx q
  simp only [swOfdm, canon_swap14, iqmult_swap14, Port.wr_swap14, Port.wrm_swap14]
  rfl

/-- SWCCK reads the table of channels 1 to 13 only (R295, R296). -/
@[simp] theorem swCck_swap14 : swCck (c.swap14 tbl) = swCck c := rfl

end config

/-! ## The state with another table -/

/-- The state with another channel-14 table in its configuration. -/
def State.swap14 (tbl : Vector (Vector Byte 8) 33) (s : State) : State :=
  { s with cfg := s.cfg.swap14 tbl }

/-- A result with another channel-14 table in the state that comes with it. -/
abbrev swapSnd14 {α : Type} (tbl : Vector (Vector Byte 8) 33) : α × State → α × State :=
  Prod.map id (State.swap14 tbl)

/-- What an operation answers, with another channel-14 table in the next state. -/
def answer14 (tbl : Vector (Vector Byte 8) 33) : Result → Result
  | .next t => .next (t.swap14 tbl)
  | .fault f => .fault f
  | .refused r => .refused r

section swap
variable (tbl : Vector (Vector Byte 8) 33) (s : State)

@[simp] theorem State.swap14_cfg : (s.swap14 tbl).cfg = s.cfg.swap14 tbl := rfl
@[simp] theorem State.swap14_work : (s.swap14 tbl).work = s.work := rfl
@[simp] theorem State.swap14_cal : (s.swap14 tbl).cal = s.cal := rfl
@[simp] theorem State.swap14_pt : (s.swap14 tbl).pt = s.pt := rfl
@[simp] theorem State.swap14_port : (s.swap14 tbl).port = s.port := rfl
@[simp] theorem State.swap14_wires : (s.swap14 tbl).wires = s.wires := rfl
@[simp] theorem State.swap14_setPort (q : Port) : (s.swap14 tbl).setPort q = (s.setPort q).swap14 tbl := rfl
@[simp] theorem State.swap14_setPhase (ph : Phase) : (s.swap14 tbl).setPhase ph = (s.setPhase ph).swap14 tbl := rfl
@[simp] theorem State.swap14_setWires (w : Wires) : (s.swap14 tbl).setWires w = (s.setWires w).swap14 tbl := rfl
@[simp] theorem State.swap14_setWork (k : Work) : (s.swap14 tbl).setWork k = (s.setWork k).swap14 tbl := rfl
@[simp] theorem State.swap14_setPt (x : PtState) : (s.swap14 tbl).setPt x = (s.setPt x).swap14 tbl := rfl
@[simp] theorem State.swap14_finish (code : Byte) : (s.swap14 tbl).finish code = (s.finish code).swap14 tbl := rfl
theorem State.swap14_setSeq (x : Seq) : { s.swap14 tbl with seq := x } = State.swap14 tbl { s with seq := x } := rfl
theorem State.swap14_setBusy (b : Bool) : { s.swap14 tbl with busy := b } = State.swap14 tbl { s with busy := b } := rfl

/-! ## Unit 2 -/

@[simp] theorem backup_swap14 : backup (s.swap14 tbl) = (backup s).swap14 tbl := by
  rw [backup, State.swap14_cfg, Port.backupAll_swap14]
  rfl

@[simp] theorem calcfg_swap14 (kind : MeasKind) (p : Path) :
    calcfg kind p (s.swap14 tbl) = (calcfg kind p s).swap14 tbl := by cases kind <;> rfl

@[simp] theorem oneshot_swap14 : oneshot (s.swap14 tbl) = swapSnd14 tbl (oneshot s) := by
  rw [oneshot, oneshot, show oneshotPort (s.swap14 tbl).cfg (s.swap14 tbl).port = oneshotPort s.cfg s.port from rfl]
  obtain ⟨_ | _, q⟩ := oneshotPort s.cfg s.port <;> rfl

@[simp] theorem txatt_swap14 : txatt (s.swap14 tbl) = swapSnd14 tbl (txatt s) := by
  rw [txatt, txatt, oneshot_swap14]
  obtain ⟨_ | _, t⟩ := oneshot s <;> rfl

@[simp] theorem rxatt_swap14 : rxatt (s.swap14 tbl) = swapSnd14 tbl (rxatt s) := by
  rw [rxatt, rxatt, oneshot_swap14]
  obtain ⟨_ | _, t⟩ := oneshot s <;> rfl

variable {tbl} in
theorem tries_swap14 {att : State → Attempt × State} (blind : ∀ s, att (s.swap14 tbl) = swapSnd14 tbl (att s))
    (r : Round) (g : Group) (n a : Nat) : tries att r g n a (s.swap14 tbl) = swapSnd14 tbl (tries att r g n a s) := by
  induction n generalizing a s with
  | zero => rfl
  | succ n ih =>
    have attempt : att ((s.swap14 tbl).setWork { (s.swap14 tbl).work with a := a }) =
        swapSnd14 tbl (att (s.setWork { s.work with a := a })) := blind (s.setWork { s.work with a := a })
    rw [tries, tries, attempt]
    obtain ⟨_ | ⟨_ | _, x, y⟩, t⟩ := att (s.setWork { s.work with a := a })
    · exact ih t (a + 1)
    · exact ih t (a + 1)
    · rfl

@[simp] theorem txmeas_swap14 (r : Round) (p : Path) : txmeas r p (s.swap14 tbl) = swapSnd14 tbl (txmeas r p s) := by
  rw [txmeas, calcfg_swap14]
  exact tries_swap14 _ (txatt_swap14 tbl) _ _ _ _

@[simp] theorem rxmeas_swap14 (r : Round) (p : Path) (txok : Bool) :
    rxmeas r p txok (s.swap14 tbl) = (rxmeas r p txok s).swap14 tbl := by
  cases txok with
  | false => rfl
  | true => exact congrArg Prod.snd (tries_swap14 (calcfg .rx p s) (rxatt_swap14 tbl) r (rxGroup p) s.cfg.retryRx 0)

@[simp] theorem roundRestore_swap14 : roundRestore (s.swap14 tbl) = (roundRestore s).swap14 tbl := rfl

@[simp] theorem roundPath_swap14 (r : Round) (p : Path) :
    roundPath r p (s.swap14 tbl) = (roundPath r p s).swap14 tbl := by simp [roundPath]

@[simp] theorem measRound_swap14 (r : Round) : measRound r (s.swap14 tbl) = (measRound r s).swap14 tbl := by
  simp [measRound]

/-! ## Unit 3 -/

@[simp] theorem voteOver_swap14 (r : Round) (l : List Round) :
    voteOver r l (s.swap14 tbl) = swapSnd14 tbl (voteOver r l s) := by
  induction l generalizing s with
  | nil => rfl
  | cons j l ih =>
    rw [voteOver, voteOver, State.swap14_setWork, State.swap14_setWork, ih, apply_ite (swapSnd14 tbl)]
    rfl

@[simp] theorem vote_swap14 (r : Round) : vote r (s.swap14 tbl) = swapSnd14 tbl (vote r s) := by simp [vote]

@[simp] theorem hybAcc_swap14 : hybAcc (s.swap14 tbl) = (hybAcc s).swap14 tbl := rfl

@[simp] theorem hybNorm_swap14 : hybNorm (s.swap14 tbl) = (hybNorm s).swap14 tbl := rfl

@[simp] theorem hybChk_swap14 : hybChk (s.swap14 tbl) = swapSnd14 tbl (hybChk s) := by
  rw [hybChk, hybChk, apply_ite (swapSnd14 tbl)]
  rfl

@[simp] theorem hybrid_swap14 : hybrid (s.swap14 tbl) = swapSnd14 tbl (hybrid s) := by simp [hybrid]

/-! ## Unit 4 -/

@[simp] theorem applyPath_swap14 (cand : BitVec 2) (p : Path) :
    applyPath cand p (s.swap14 tbl) = (applyPath cand p s).swap14 tbl := by simp [applyPath_eq]

@[simp] theorem applyCand_swap14 (cand : BitVec 2) : applyCand cand (s.swap14 tbl) = (applyCand cand s).swap14 tbl := by
  simp [applyCand]

@[simp] theorem retain_swap14 (cand : BitVec 2) : retain cand (s.swap14 tbl) = (retain cand s).swap14 tbl := rfl

@[simp] theorem finalRestore_swap14 : finalRestore (s.swap14 tbl) = (finalRestore s).swap14 tbl := rfl

@[simp] theorem iqkFinish_swap14 (found : Bool) :
    iqkFinish found (s.swap14 tbl) = swapSnd14 tbl (iqkFinish found s) := by
  cases found <;> simp [iqkFinish] <;> rfl

@[simp] theorem firstRounds_swap14 : firstRounds (s.swap14 tbl) = swapSnd14 tbl (firstRounds s) := by
  simp [firstRounds]

@[simp] theorem thirdRound_swap14 : thirdRound (s.swap14 tbl) = swapSnd14 tbl (thirdRound s) := by
  simp [thirdRound, apply_ite (swapSnd14 tbl)]

@[simp] theorem iqkCandidate_swap14 : iqkCandidate (s.swap14 tbl) = swapSnd14 tbl (iqkCandidate s) := by
  simp [iqkCandidate, apply_ite (swapSnd14 tbl)]

@[simp] theorem iqkRun_swap14 : iqkRun (s.swap14 tbl) = swapSnd14 tbl (iqkRun s) := by simp [iqkRun_eq]

@[simp] theorem anchorUpd_swap14 : anchorUpd (s.swap14 tbl) = (anchorUpd s).swap14 tbl := by
  rw [anchorUpd, anchorUpd, apply_ite (State.swap14 tbl)]
  rfl

@[simp] theorem iqkAnchored_swap14 : iqkAnchored (s.swap14 tbl) = swapSnd14 tbl (iqkAnchored s) := by
  simp [iqkAnchored, apply_ite (State.swap14 tbl)]

/-! ## Units 5 and 6 -/

@[simp] theorem commit_swap14 (p : Path) (dO dC rO rC : Int) :
    commit p dO dC rO rC (s.swap14 tbl) = (commit p dO dC rO rC s).swap14 tbl := rfl

@[simp] theorem pathComp_swap14 (p : Path) (pol : Polarity) (k : Nat) :
    pathComp p pol k (s.swap14 tbl) = (pathComp p pol k s).swap14 tbl := by
  simp [pathComp, apply_ite (State.swap14 tbl)]

@[simp] theorem resync_swap14 : resync (s.swap14 tbl) = (resync s).swap14 tbl := rfl

@[simp] theorem unsupChk_swap14 : unsupChk (s.swap14 tbl) = swapSnd14 tbl (unsupChk s) := by
  rw [unsupChk, unsupChk, apply_ite (swapSnd14 tbl)]
  rfl

@[simp] theorem thermRead_swap14 : thermRead (s.swap14 tbl) = swapSnd14 tbl (thermRead s) := rfl

@[simp] theorem avgUpd_swap14 (t : Byte) : avgUpd t (s.swap14 tbl) = swapSnd14 tbl (avgUpd t s) := rfl

@[simp] theorem needIqk_swap14 (avg : Byte) : needIqk avg (s.swap14 tbl) = swapSnd14 tbl (needIqk avg s) := by
  rw [needIqk, needIqk, apply_ite (swapSnd14 tbl)]
  rfl

@[simp] theorem compChk_swap14 (t : Byte) : compChk t (s.swap14 tbl) = swapSnd14 tbl (compChk t s) := by
  rw [compChk, compChk, apply_ite (swapSnd14 tbl)]
  rfl

@[simp] theorem rawDelta_swap14 (t : Byte) : rawDelta t (s.swap14 tbl) = swapSnd14 tbl (rawDelta t s) := rfl

@[simp] theorem compensate_swap14 (pol : Polarity) (k : Nat) :
    compensate pol k (s.swap14 tbl) = (compensate pol k s).swap14 tbl := by simp [compensate]

@[simp] theorem passComp_swap14 (t : Byte) : passComp t (s.swap14 tbl) = (passComp t s).swap14 tbl := by
  simp [passComp]

@[simp] theorem passIqk_swap14 : passIqk (s.swap14 tbl) = (passIqk s).swap14 tbl := by
  rw [passIqk, passIqk, State.swap14_setSeq, iqkAnchored_swap14]
  generalize iqkAnchored { s with seq := ⟨.ptPassIqk, true⟩ } = r
  rfl

@[simp] theorem sampleOf_swap14 : sampleOf (s.swap14 tbl) = sampleOf s := rfl

@[simp] theorem averageOf_swap14 : averageOf (s.swap14 tbl) = averageOf s := rfl

@[simp] theorem stepped_swap14 : stepped (s.swap14 tbl) = stepped s := rfl

@[simp] theorem drifted_swap14 : drifted (s.swap14 tbl) = drifted s := rfl

@[simp] theorem afterSensing_swap14 : afterSensing (s.swap14 tbl) = (afterSensing s).swap14 tbl := by
  simp [afterSensing]

@[simp] theorem afterCompensation_swap14 : afterCompensation (s.swap14 tbl) = (afterCompensation s).swap14 tbl := by
  simp [afterCompensation, apply_ite (State.swap14 tbl)]

@[simp] theorem passBody_swap14 : passBody (s.swap14 tbl) = (passBody s).swap14 tbl := by
  simp [passBody_eq, apply_ite (State.swap14 tbl)]

@[simp] theorem pass_swap14 : Machine.pass (s.swap14 tbl) = (Machine.pass s).swap14 tbl := by
  simp [Machine.pass, apply_ite (State.swap14 tbl)]

@[simp] theorem arm_swap14 : arm (s.swap14 tbl) = (arm s).swap14 tbl := rfl

/-! ## Unit 0 -/

@[simp] theorem initRegs_swap14 : initRegs (s.swap14 tbl) = (initRegs s).swap14 tbl := rfl

theorem runInit_swap14 : runInit (s.swap14 tbl) = answer14 tbl (runInit s) := by
  rw [runInit, runInit, initRegs_swap14, State.swap14_port]
  cases (initRegs s).port.hci <;> rfl

theorem runCalibrate_swap14 : runCalibrate (s.swap14 tbl) = (runCalibrate s).swap14 tbl := by
  rw [runCalibrate, runCalibrate, State.swap14_setBusy, iqkAnchored_swap14]
  generalize iqkAnchored { s with busy := true } = r
  rfl

theorem runTick_swap14 : runTick (s.swap14 tbl) = (runTick s).swap14 tbl := by
  rw [runTick, runTick, State.swap14_setBusy, State.swap14_setPhase, pass_swap14, arm_swap14]
  cases triggered : s.pt.triggered <;> simp [triggered]

end swap

/-- Every operation does the same with another channel-14 table, and keeps it (R296): the composite ones by the lemmas
above, the rest because what they compute does not have the table in it. -/
theorem exec_swap14 (tbl : Vector (Vector Byte 8) 33) (i : Instr) (s : State) :
    exec i (s.swap14 tbl) = answer14 tbl (exec i s) := by
  cases i with
  -- the host commands
  | init =>
    simp only [exec, execInit, show refusesInit (s.swap14 tbl) = refusesInit s from rfl]
    cases refusesInit s
    · exact runInit_swap14 tbl s
    · rfl
  | calibrate =>
    simp only [exec, execCalibrate, show refusesOther (s.swap14 tbl) = refusesOther s from rfl, runCalibrate_swap14]
    cases refusesOther s <;> rfl
  | tick =>
    simp only [exec, execTick, show refusesOther (s.swap14 tbl) = refusesOther s from rfl, runTick_swap14,
      State.swap14_pt]
    cases refusesOther s
    · cases s.pt.disabled <;> rfl
    · rfl
  | detach =>
    simp only [exec, execDetach, show refusesOther (s.swap14 tbl) = refusesOther s from rfl]
    cases refusesOther s <;> rfl
  -- computed from the wires and the working registers, to the wires
  | canon | encode | iqmult | absdiff | txchk | rxchk | simslot | simcmp | usable | dlookup => rfl
  | swclamp =>
    simp only [exec, execSwclamp, State.swap14_wires]
    cases s.wires.tbl <;> rfl
  -- transactions, and what consists of transactions
  | rd | wr | rdm | wrm | rfrd | rfwr | delay | poll | hookChan | hookReapply => rfl
  | filltx | fillrx | swofdm | swcck => simp [exec, execFilltx, execFillrx, execSwofdm, execSwcck, answer14]
  | hookHci =>
    simp only [exec, execHookHci, State.swap14_port]
    cases s.port.hci <;> rfl
  -- the measurement and the selection of a run
  | backup | calcfg | oneshot | txatt | rxatt | txmeas | rxmeas | round | roundrestore =>
    simp [exec, execBackup, execCalcfg, execOneshot, execTxatt, execRxatt, execTxmeas, execRxmeas, execRound,
      execRoundrestore, answer14]
  | vote | hybacc | hybnorm | hybchk => simp [exec, execVote, execHybacc, execHybnorm, execHybchk, answer14]
  -- its application
  | retain | apply | finalrestore | iqkrun =>
    simp [exec, execRetain, execApply, execFinalrestore, execIqkrun, answer14]
  -- the operations of a pass
  | arm | unsupchk | thread | avgupd | needIqk | compchk | rawdelta | pass =>
    simp [exec, execArm, execUnsupchk, execThread, execAvgupd, execNeedIqk, execCompchk, execRawdelta, execPass,
      answer14]
  | commit | pathcomp | resync => simp [exec, execCommit, execPathcomp, execResync, answer14]
  | resynco | resyncc => rfl

/-- Settles O45: `exec_swap14`, read for each of the three answers. -/
theorem channel14TableNeverRead : Obligations.Channel14TableNeverRead := by
  intro i s tbl
  have blind := exec_swap14 tbl i s
  cases answer : exec i s <;> rw [answer] at blind <;> exact blind

end Sys2Proof.Machine

/-! Unit 6, issued one at a time: the clamp, the swing writes, the commit, one path's compensation and the resync (O42
to O44, O46 to O48). -/

namespace Sys2Proof.Machine

theorem exec_swclamp_ofdm {s : State} (table : s.wires.tbl = .ofdm) : exec .swclamp s = .next { s with
    wires := { s.wires with
      idxO := (swClamp 42 s.wires.req).1, remO := s.wires.req - (swClamp 42 s.wires.req).1.val } } := by
  rw [← swClamp_snd]
  simp only [exec, execSwclamp, table]
  rfl

theorem exec_swclamp_cck {s : State} (table : s.wires.tbl = .cck) : exec .swclamp s = .next { s with
    wires := { s.wires with
      idxC := (swClamp 32 s.wires.req).1, remC := s.wires.req - (swClamp 32 s.wires.req).1.val } } := by
  rw [← swClamp_snd]
  simp only [exec, execSwclamp, table]
  rfl

section issued
variable (s : State)

theorem exec_swofdm :
    exec .swofdm s = .next (s.setPort (swOfdm s.cfg s.cal s.work.p s.wires.idxO s.port)) := rfl

theorem exec_swcck : exec .swcck s = .next (s.setPort (swCck s.cfg s.wires.idxC s.port)) := rfl

theorem exec_commit : exec .commit s =
    .next (commit s.work.p s.wires.deltaO s.wires.deltaC s.wires.remO s.wires.remC s) := rfl

theorem exec_pathcomp : exec .pathcomp s = .next (pathComp s.work.p s.wires.pol s.wires.k s) := rfl

theorem exec_resynco : exec .resynco s = .next (resyncO s) := rfl

theorem exec_resyncc : exec .resyncc s = .next (resyncC s) := rfl

end issued

/-! ## SWCLAMP (R291) -/

/-- The index is the request where the table has it, else the end of the table that is nearer. -/
theorem swClamp_index (n : Nat) (req : Int) :
    (0 ≤ req → req ≤ n → ((swClamp n req).1.val : Int) = req) ∧ (req < 0 → (swClamp n req).1.val = 0) ∧
    (n < req → (swClamp n req).1.val = n) := by
  have index := swClamp_fst n req
  omega

/-- Settles O42: `swClamp_index` for the table on the wires. -/
theorem swclampKeepsRemnant : Obligations.SwclampKeepsRemnant := fun s =>
  ⟨fun table => ⟨_, exec_swclamp_ofdm table, swClamp_index 42 s.wires.req⟩,
    fun table => ⟨_, exec_swclamp_cck table, swClamp_index 32 s.wires.req⟩⟩

/-! ## SWOFDM and SWCCK (R293, R295) -/

/-- Settles O43: `swOfdm_raw_spec` and `swOfdm_matrix_spec` are the whole of SWOFDM, and its registers hold the fields
written into them. -/
theorem swofdmWritesEntry : Obligations.SwofdmWritesEntry := by
  rintro s config canonical p e d rfl rfl rfl
  obtain ⟨rf, answers⟩ := swOfdm_memOnly s.cfg s.cal s.work.p s.wires.idxO s.port
  refine ⟨_, exec_swofdm s, rfl, rf, answers, fun raw => ?_, fun done a c ha hc => ?_⟩
  · exact (swOfdm_raw_spec config raw s.work.p s.wires.idxO s.port canonical).2
  · obtain ⟨-, records, txiq, txiqChi, ecca, frame⟩ :=
      swOfdm_matrix_spec config done s.work.p s.wires.idxO s.port canonical a c ha hc
    obtain ⟨fieldCHi, txiqChiRest⟩ := fieldSet_one (maskCHi_field config) (by decide)
      (s.port.dev.mem.wordAt s.cfg.txiqChi[s.work.p]) (high4_lt c.1)
    obtain ⟨extA, extC⟩ := maskExt_field config s.work.p
    obtain ⟨fieldExtA, fieldExtC, eccaRest⟩ := fieldSet_two extA (by decide) extC (by decide)
      (maskExt_disjoint config s.work.p) (s.port.dev.mem.wordAt s.cfg.ecca) (bitWord_lt a.2) (bitWord_lt c.2)
    simp only [State.setPort_port, records, txiq, txiqChi, ecca, ← high4_eq]
    exact ⟨rfl, rfl, fieldCHi, txiqChiRest, fieldExtA, fieldExtC, eccaRest, frame⟩

/-- Settles O44: `swCck_spec` is the whole of SWCCK. -/
theorem swcckWritesEightBytes : Obligations.SwcckWritesEightBytes := by
  intro s config canonical
  obtain ⟨⟨rf, answers⟩, records, bytes, frame⟩ := swCck_spec config s.wires.idxC s.port canonical
  exact ⟨_, exec_swcck s, rfl, records, rf, answers, bytes, frame⟩

/-! ## COMMIT (R297) -/

/-- The records of the two hooks, REAPPLY with the channel that CHAN answered (R90, R140). -/
def hookRecords (ch : Byte) : List TraceRec :=
  [⟨0x78, 0, 0, 0, 0, ch.setWidth 32⟩, ⟨0x79, 0, 0, 0, ch.setWidth 32, 0⟩]

theorem commit_trace (p : Path) (dO dC rO rC : Int) (s : State) :
    (commit p dO dC rO rC s).port.trace = s.port.trace ++ hookRecords s.port.dev.drawChan.1 :=
  List.append_assoc s.port.trace _ _

/-- COMMIT is its four fields and the two hooks issued one after the other. -/
theorem commit_issued (p : Path) (dO dC rO rC : Int) (s : State) : ∃ u v : State,
    exec .hookChan { s with pt := (commit p dO dC rO rC s).pt } = .next u ∧ u.wires.chan = s.port.dev.drawChan.1 ∧
    exec .hookReapply u = .next v ∧ commit p dO dC rO rC s = { v with wires := s.wires } :=
  ⟨_, _, rfl, rfl, rfl, rfl⟩

/-- The registers of the path hold what COMMIT stores, cut to their widths. -/
theorem commit_stored (p : Path) (dO dC rO rC : Int) (s : State) :
    (commit p dO dC rO rC s).pt.deltaOfdm[p] = BitVec.ofInt 9 dO ∧
    (commit p dO dC rO rC s).pt.deltaCck[p] = BitVec.ofInt 9 dC ∧
    (commit p dO dC rO rC s).pt.remnantOfdm[p] = BitVec.ofInt 10 rO ∧
    (commit p dO dC rO rC s).pt.remnantCck[p] = BitVec.ofInt 10 rC := by
  simp [commit]

/-- The registers of the other path keep what they hold. -/
theorem commit_other {p p' : Path} (other : p' ≠ p) (dO dC rO rC : Int) (s : State) :
    (commit p dO dC rO rC s).pt.deltaOfdm[p'] = s.pt.deltaOfdm[p'] ∧
    (commit p dO dC rO rC s).pt.deltaCck[p'] = s.pt.deltaCck[p'] ∧
    (commit p dO dC rO rC s).pt.remnantOfdm[p'] = s.pt.remnantOfdm[p'] ∧
    (commit p dO dC rO rC s).pt.remnantCck[p'] = s.pt.remnantCck[p'] := by
  have index : p.val ≠ p'.val := fun same => other (Fin.ext same.symm)
  simp [commit, Vector.getElem_set_ne _ _ index]

/-- Settles O46: the hooks by `commit_issued` and `commit_trace`; a delta and a remnant in range survive their register
(`commit_stored`). -/
theorem commitStoresAndReapplies : Obligations.CommitStoresAndReapplies := by
  rintro s p rfl
  obtain ⟨deltaO, deltaC, remO, remC⟩ :=
    commit_stored s.work.p s.wires.deltaO s.wires.deltaC s.wires.remO s.wires.remC s
  refine ⟨_, s.port.dev.drawChan.1, exec_commit s, rfl, fun low high => ?_, fun low high => ?_, fun low high => ?_,
    fun low high => ?_, commit_trace _ _ _ _ _ s, fun c rest pending => ?_,
    commit_issued _ _ _ _ _ s, fun a other => ?_⟩
  · rw [deltaO, toInt_ofInt9 low high]
  · rw [deltaC, toInt_ofInt9 low high]
  · rw [remO, toInt_ofInt10 (by omega) (by omega)]
  · rw [remC, toInt_ofInt10 (by omega) (by omega)]
  · rw [Device.drawChan_pending pending]
  · exact (commit_keeps _ _ _ _ _ s).port.frame a other

/-! ## The records of the swing writes, in any configuration (R293, R295) -/

/-- The records of SWOFDM: the raw entry, or its matrix form (R293). -/
def swOfdmRecords (c : Config) (cal : CalState) (p : Path) (idx : Fin 43) : List TraceRec :=
  let d := entryD c.ofdmTbl[idx]
  let a := iqmult c (canon c cal.txX[p]) d
  let f := iqmult c (canon c cal.txY[p]) d
  if cal.doneFlag then [wrRecord c.txiq[p] (acd a.1 f.1 d), wrmRecord c.txiqChi[p] c.maskCHi (high4 f.1),
    wrmRecord c.ecca c.maskExtA[p] (bitWord a.2), wrmRecord c.ecca c.maskExtC[p] (bitWord f.2)]
  else [wrRecord c.txiq[p] c.ofdmTbl[idx]]

theorem swOfdm_trace (c : Config) (cal : CalState) (p : Path) (idx : Fin 43) (q : Port) :
    (swOfdm c cal p idx q).trace = q.trace ++ swOfdmRecords c cal p idx := by
  unfold swOfdm swOfdmRecords
  dsimp only
  split
  · simp only [Port.wrm_trace, Port.wr32_trace, List.append_assoc, List.cons_append, List.nil_append]
  · exact Port.wr32_trace _ _ _ _

/-- A byte fits the mask of its width (R140). -/
theorem byte_and_widthMask (b : Byte) : b.setWidth 32 &&& widthMask .w8 = b.setWidth 32 := by
  apply BitVec.eq_of_toNat_eq
  rw [BitVec.toNat_and, BitVec.toNat_setWidth, show (widthMask .w8).toNat = 2 ^ 8 - 1 from rfl,
    Nat.and_two_pow_sub_one_eq_mod]
  omega

/-- A byte write is one record. -/
theorem Port.wr8_trace (c : Config) (q : Port) (a : Addr) (b : Byte) :
    (q.wr c .w8 a (b.setWidth 32)).trace = q.trace ++ [wrByteRecord a b] := by
  rw [Port.wr, byte_and_widthMask]
  rfl

theorem swCck_trace (c : Config) (idx : Fin 33) (q : Port) : (swCck c idx q).trace =
    q.trace ++ (List.finRange 8).map (fun k => wrByteRecord (c.cckReg k) (c.cckTbl[idx])[k]) := by
  unfold swCck
  generalize List.finRange 8 = l
  induction l generalizing q with
  | nil => simp
  | cons k l ih => rw [List.foldl_cons, ih, Port.wr8_trace, List.append_assoc, List.map_cons, List.singleton_append]

/-! ## PATHCOMP (R298) -/

/-- The remnant of a clamp survives its register, for every baseline index and delta index (R35, R286, R291). -/
theorem swClamp_remnant {n : Nat} (size : n ≤ 42) (base : BitVec 6) {delta : Int} (low : -255 ≤ delta)
    (high : delta ≤ 255) : (BitVec.ofInt 10 (swClamp n (base.toNat + delta)).2).toInt =
      base.toNat + delta - (swClamp n (base.toNat + delta)).1.val := by
  have bound := base.isLt
  have index := swClamp_fst n (base.toNat + delta)
  rw [swClamp_snd]
  exact toInt_ofInt10 (by omega) (by omega)

/-- The two swing writes of a compensation (R298). -/
def swingWrites (c : Config) (cal : CalState) (p : Path) (iO : Fin 43) (iC : Fin 33) (q : Port) : Port :=
  swCck c iC (swOfdm c cal p iO q)

/-- A compensation with unchanged deltas is skipped. -/
theorem pathComp_unchanged {p : Path} {pol : Polarity} {k : Nat} {s : State} {d : Int × Int}
    (delta : d = dLookup s.cfg pol k) (ofdm : d.1 = s.pt.deltaOfdm[p].toInt) (cck : d.2 = s.pt.deltaCck[p].toInt) :
    pathComp p pol k s = s := by
  subst delta
  exact if_pos ⟨ofdm, cck⟩

/-- Any other one is the two swing writes, of the two clamped indices, and the commit. -/
theorem pathComp_changed {p : Path} {pol : Polarity} {k : Nat} {s : State} {d : Int × Int}
    (delta : d = dLookup s.cfg pol k)
    (changed : ¬ (d.1 = s.pt.deltaOfdm[p].toInt ∧ d.2 = s.pt.deltaCck[p].toInt)) :
    pathComp p pol k s = commit p d.1 d.2 (swClamp 42 (s.pt.ofdmIndex.toNat + d.1)).2
      (swClamp 32 (s.pt.cckIndex.toNat + d.2)).2 (s.setPort (swingWrites s.cfg s.cal p
        (swClamp 42 (s.pt.ofdmIndex.toNat + d.1)).1 (swClamp 32 (s.pt.cckIndex.toNat + d.2)).1 s.port)) := by
  subst delta
  exact if_neg changed

/-- The writes and the commit are SWOFDM, SWCCK and COMMIT issued one after the other. -/
theorem swing_issued (s : State) (iO : Fin 43) (iC : Fin 33) (dO dC rO rC : Int) : ∃ u v w : State,
    exec .swofdm { s with wires := { s.wires with idxO := iO } } = .next u ∧
    u.port.trace = s.port.trace ++ swOfdmRecords s.cfg s.cal s.work.p iO ∧
    exec .swcck { u with wires := { u.wires with idxC := iC } } = .next v ∧
    exec .commit { v with wires := { v.wires with deltaO := dO, deltaC := dC, remO := rO, remC := rC } } = .next w ∧
    w.port.trace = v.port.trace ++
      hookRecords (swingWrites s.cfg s.cal s.work.p iO iC s.port).dev.drawChan.1 ∧
    commit s.work.p dO dC rO rC (s.setPort (swingWrites s.cfg s.cal s.work.p iO iC s.port)) =
      { w with wires := s.wires } :=
  ⟨_, _, _, rfl, swOfdm_trace _ _ _ _ _, rfl, rfl, commit_trace _ _ _ _ _ _, rfl⟩

/-- Settles O47: skipped by `pathComp_unchanged`, else by `pathComp_changed` what `swing_issued` says; it stores what
`commit_stored` says, and the clamp-and-remnant law is `swClamp_fst` and `swClamp_snd`. -/
theorem pathcompSkipsOrKeepsRemnantLaw : Obligations.PathcompSkipsOrKeepsRemnantLaw := by
  rintro s p d rfl delta
  refine ⟨fun ofdm cck => congrArg _ (pathComp_unchanged delta ofdm cck), fun changed => ?_⟩
  obtain ⟨lowO, highO, lowC, highC⟩ := dLookup_range s.cfg s.wires.pol s.wires.k
  rw [← delta] at lowO highO lowC highC
  have remainderO := swClamp_remnant (n := 42) (by decide) s.pt.ofdmIndex lowO highO
  have remainderC := swClamp_remnant (n := 32) (by decide) s.pt.cckIndex lowC highC
  have compensated := pathComp_changed delta changed
  have indexO := swClamp_fst 42 (s.pt.ofdmIndex.toNat + d.1)
  have indexC := swClamp_fst 32 (s.pt.cckIndex.toNat + d.2)
  have restO := swClamp_snd 42 (s.pt.ofdmIndex.toNat + d.1)
  have restC := swClamp_snd 32 (s.pt.cckIndex.toNat + d.2)
  generalize swClamp 42 (s.pt.ofdmIndex.toNat + d.1) = o at *
  generalize swClamp 32 (s.pt.cckIndex.toNat + d.2) = e at *
  obtain ⟨deltaO, deltaC, remnantO, remnantC⟩ := commit_stored s.work.p d.1 d.2 o.2 e.2
    (s.setPort (swingWrites s.cfg s.cal s.work.p o.1 e.1 s.port))
  refine ⟨_, o.1, e.1, swOfdmRecords s.cfg s.cal s.work.p o.1,
    hookRecords (swingWrites s.cfg s.cal s.work.p o.1 e.1 s.port).dev.drawChan.1,
    (exec_pathcomp s).trans (congrArg _ compensated), rfl, ?_, ?_, indexO, indexC, ?_, ?_,
    fun p' other => commit_other other _ _ _ _ _, ?_, fun raw => ?_, ?_, rfl, ?_⟩
  · rw [deltaO, toInt_ofInt9 lowO highO]
  · rw [deltaC, toInt_ofInt9 lowC highC]
  · rw [remnantO, remainderO]
  · rw [remnantC, remainderC]
  · rw [commit_trace, State.setPort_port, swingWrites, swCck_trace, swOfdm_trace]
  · rw [swOfdmRecords, raw, if_neg Bool.false_ne_true]
  · rintro done _ a c rfl rfl rfl
    rw [swOfdmRecords, done, if_pos rfl, high4_eq]
    rfl
  · rw [← restO, ← restC]
    exact swing_issued s o.1 e.1 d.1 d.2 o.2 e.2

/-! ## RESYNCO, RESYNCC and RESYNC (R300 to R302) -/

/-- Field D of a register has no more bits than an entry's D (P11, R121). -/
theorem fieldD_extended {c : Config} (config : c.wf = true) (w : Word) :
    ((fieldGet w c.maskD).setWidth 10).setWidth 32 = fieldGet w c.maskD := by
  obtain ⟨-, -, positive, atMost, -⟩ := widths_le config
  have fits : (fieldGet w c.maskD).toNat < 2 ^ 10 :=
    (fieldGet_lt (maskD_field config) positive w).trans_le (Nat.pow_le_pow_right (by omega) atMost)
  apply BitVec.eq_of_toNat_eq
  rw [BitVec.toNat_setWidth, BitVec.toNat_setWidth, Nat.mod_eq_of_lt fits, Nat.mod_eq_of_lt (fieldGet w c.maskD).isLt]

/-- An entry's D, zero-extended, is the field exactly when the D that RESYNCO looks for is the entry's. -/
theorem entryD_extended_eq_iff {c : Config} (config : c.wf = true) (e w : Word) :
    (e.extractLsb' 22 10).setWidth 32 = fieldGet w c.maskD ↔ entryD e = (fieldGet w c.maskD).setWidth 10 := by
  constructor
  · intro same
    rw [← same]
    simp [entryD]
  · intro same
    rw [← fieldD_extended config w, ← same]
    rfl

/-- Settles O48: the two reads by `resyncO_eq` and `resyncC_eq`, the two searches by `ofdmIndexOf_low`, `cckIndexOf_low`
and their defaults. -/
theorem resyncFindsLowestEntry : Obligations.ResyncFindsLowestEntry := by
  intro s config
  refine ⟨⟨_, _, (exec_resynco s).trans (congrArg _ (resyncO_eq config)), rfl, ?_, ?_⟩,
    ⟨_, _, (exec_resyncc s).trans (congrArg _ (resyncC_eq config)), rfl, fun j => cckIndexOf_low _ _ j,
      cckIndexOf_none _ _⟩, _, _, rfl, rfl, rfl⟩
  · simp only [ne_eq, entryD_extended_eq_iff config]
    exact fun j => ofdmIndexOf_low _ _ j
  · simp only [ne_eq, entryD_extended_eq_iff config]
    exact ofdmIndexOf_none _ _

end Sys2Proof.Machine

/-! The warning counters (O54). -/

namespace Sys2Proof.Machine

/-- Settles O54: the counter that a warning names by `warnCount_warnBump_self`, each of the others by
`warnCount_warnBump_of_ne`. -/
theorem warnCountersSaturate : Obligations.WarnCountersSaturate :=
  fun r x _ => ⟨warnCount_warnBump_self r x, warnCount_warnBump_of_ne r⟩

end Sys2Proof.Machine
